-- ==== Sys2Proof/Word.lean ====
section
/-! DEFINITION. The word types of haikusw-png-core: bytes, 16-bit atoms and 32-bit port words (R9, R33, R130). -/

namespace Sys2Proof

/-- A byte of the input, of the output and of the command port (R31, R39, R130). -/
abbrev Byte := BitVec 8

/-- A 16-bit value: an input atom, LEN, NLEN, a transparency key (R33, R137, R133). -/
abbrev Half := BitVec 16

/-- A 32-bit word: command word, status word, FMT word, observation register (R130, R131, R132, R54). -/
abbrev Word := BitVec 32

end Sys2Proof
end

