-- ==== Sys2Proof/Config.lean ====
section
/-! DEFINITION. The implementation parameters of R8 and the constants the spec fixes. The spec leaves no value undefined (93_implementation_defined.md gives each open point a treatment), so there is no free value here. -/

namespace Sys2Proof

/-- Which back-references are legal: the `WINDOW_CHECK` parameter of R8 and R357. -/
inductive WindowCheck where
  /-- `offset <= min(WINDOW, endIndex - startIndex)`, the default. -/
  | strict
  /-- `offset <= endIndex - startIndex`. -/
  | resident
  deriving DecidableEq, Repr

/-- The open parameters of R8. `none` is `unbounded`. They stand in State and no step writes them
(DESIGN CHOICE, log 6). -/
structure Params where
  /-- `IN_CAP`: capacity of the input buffer in bytes (R8, R97). -/
  inCap : Option Nat
  /-- `OUT_CAP`: capacity of the output buffer in bytes (R8, R96). -/
  outCap : Option Nat
  /-- `WINDOW_CHECK` (R8, R357). -/
  windowCheck : WindowCheck
  /-- `D_DEFAULT_SYM`: the symbol of an empty distance table (R8, R184). -/
  dDefaultSym : Nat
  /-- `COUNT_WIDTH`: width of the counters of bit positions and output indices (R8, R52). -/
  countWidth : Nat
  deriving DecidableEq, Repr

/-- The defaults of R8. -/
def Params.default : Params where
  inCap := none
  outCap := none
  windowCheck := .strict
  dDefaultSym := 30
  countWidth := 64

/-- The values R8 allows: a finite `OUT_CAP` is at least 33026, `D_DEFAULT_SYM` is a distance symbol,
`COUNT_WIDTH` is at least 64. -/
def Params.wf (p : Params) : Bool :=
  p.outCap.all (fun c => decide (33026 ≤ c)) && decide (p.dDefaultSym ≤ 31)
    && decide (64 ≤ p.countWidth)

/-- `PALETTE_MAX` (R8): the most entries a palette may hold. -/
def Config.paletteMax : Nat := 256

/-- The zero atoms after the last data atom, `PAD_ATOMS` (R8, R33). -/
def Config.padAtoms : List Half := [0, 0, 0]

end Sys2Proof
end

