-- ==== Sys2Proof/Syntax.lean ====
section
/-! DEFINITION. The instructions of haikusw-png-core: one constructor per row of spec/opcode_table.json (R2, R130, R132, R134). -/

namespace Sys2Proof

/-- Destination width of UNPACK and PREMUL: `DST` 0, 1, 2, 3 (R133). -/
inductive Width where
  | w8 | w16 | w32 | w64
  deriving DecidableEq, Repr

/-- A palette entry `r, g, b, a` of 8-bit components (R133, R406). -/
structure Rgba where
  r : Byte
  g : Byte
  b : Byte
  a : Byte
  deriving DecidableEq, Repr

/-- An UNPACK operand block as written, legal or not (R133, R400): the FMT word, its keys, its palette
and its buffer. `NP` is the palette's length and `LB` the buffer's. -/
structure Block where
  fmt : Word
  keys : List Half
  palette : List Rgba
  buf : List Byte
  deriving DecidableEq, Repr

/-- One constructor per row of the opcode table. In a Huffman-coded element `len` is the length in bits
of the code the decoder read (the `length` of its decoder entry, R190), and `x` are the extra bits (R141). -/
inductive Instr where
  /-- NEW (R221). -/
  | new
  /-- PUSH with its data bytes (R223). -/
  | push (data : List Byte)
  /-- PULL of `n` bytes (R224). -/
  | pull (n : BitVec 24)
  /-- RETAINED (R225). -/
  | retained
  /-- FINISH (R226). -/
  | finish
  /-- UNPACK with `STD = 0`: the command word; its operand block follows (R400, log 3). -/
  | unpack (dst : Width)
  /-- PREMUL with its operands `c` and `a` (R419). -/
  | premul (dst : Width) (c a : BitVec 64)
  /-- READ of the register at byte address `addr` (R232). -/
  | read (addr : Byte)
  /-- A reserved command word: `OP` 8..15, a nonzero `RSV` or a nonzero must-be-zero field (R152). -/
  | reservedOp (word : Word)
  /-- zlib header, CMF and FLG (R135, R260). -/
  | zhdr (cmf flg : Byte)
  /-- Stored block header with LEN and NLEN (R137, R291). -/
  | bhdrStored (bfinal : Bool) (len nlen : Half)
  /-- Fixed block header (R292). -/
  | bhdrFixed (bfinal : Bool)
  /-- Dynamic block header: the raw 5, 5 and 4-bit counts and the 3-bit code lengths in stream order
  (R138, R293, R294). -/
  | bhdrDynamic (bfinal : Bool) (hlit hdist : BitVec 5) (hclen : BitVec 4) (cl : List (BitVec 3))
  /-- Reserved block type (R295). -/
  | bhdrReserved (bfinal : Bool)
  /-- Stored data byte (R358). -/
  | byte (v : Byte)
  /-- End of a stored block, 0 bits (R359). -/
  | storedEnd
  /-- Code length `k` (R321). -/
  | clLit (len : Nat) (k : BitVec 4)
  /-- Repeat the last code length (R322). -/
  | clExtend (len : Nat) (x : BitVec 2)
  /-- 3 to 10 zero lengths (R323). -/
  | clZeros3 (len : Nat) (x : BitVec 3)
  /-- 11 to 138 zero lengths (R324). -/
  | clZeros7 (len : Nat) (x : BitVec 7)
  /-- Literal byte (R351). -/
  | lit (len : Nat) (v : Byte)
  /-- End of block (R352). -/
  | eob (len : Nat)
  /-- Run symbol 257: base 3, 0 extra bits (R144, R353). -/
  | run257 (len : Nat)
  /-- Run symbol 258: base 4, 0 extra bits (R144, R353). -/
  | run258 (len : Nat)
  /-- Run symbol 259: base 5, 0 extra bits (R144, R353). -/
  | run259 (len : Nat)
  /-- Run symbol 260: base 6, 0 extra bits (R144, R353). -/
  | run260 (len : Nat)
  /-- Run symbol 261: base 7, 0 extra bits (R144, R353). -/
  | run261 (len : Nat)
  /-- Run symbol 262: base 8, 0 extra bits (R144, R353). -/
  | run262 (len : Nat)
  /-- Run symbol 263: base 9, 0 extra bits (R144, R353). -/
  | run263 (len : Nat)
  /-- Run symbol 264: base 10, 0 extra bits (R144, R353). -/
  | run264 (len : Nat)
  /-- Run symbol 265: base 11, 1 extra bits (R144, R353). -/
  | run265 (len : Nat) (x : BitVec 1)
  /-- Run symbol 266: base 13, 1 extra bits (R144, R353). -/
  | run266 (len : Nat) (x : BitVec 1)
  /-- Run symbol 267: base 15, 1 extra bits (R144, R353). -/
  | run267 (len : Nat) (x : BitVec 1)
  /-- Run symbol 268: base 17, 1 extra bits (R144, R353). -/
  | run268 (len : Nat) (x : BitVec 1)
  /-- Run symbol 269: base 19, 2 extra bits (R144, R353). -/
  | run269 (len : Nat) (x : BitVec 2)
  /-- Run symbol 270: base 23, 2 extra bits (R144, R353). -/
  | run270 (len : Nat) (x : BitVec 2)
  /-- Run symbol 271: base 27, 2 extra bits (R144, R353). -/
  | run271 (len : Nat) (x : BitVec 2)
  /-- Run symbol 272: base 31, 2 extra bits (R144, R353). -/
  | run272 (len : Nat) (x : BitVec 2)
  /-- Run symbol 273: base 35, 3 extra bits (R144, R353). -/
  | run273 (len : Nat) (x : BitVec 3)
  /-- Run symbol 274: base 43, 3 extra bits (R144, R353). -/
  | run274 (len : Nat) (x : BitVec 3)
  /-- Run symbol 275: base 51, 3 extra bits (R144, R353). -/
  | run275 (len : Nat) (x : BitVec 3)
  /-- Run symbol 276: base 59, 3 extra bits (R144, R353). -/
  | run276 (len : Nat) (x : BitVec 3)
  /-- Run symbol 277: base 67, 4 extra bits (R144, R353). -/
  | run277 (len : Nat) (x : BitVec 4)
  /-- Run symbol 278: base 83, 4 extra bits (R144, R353). -/
  | run278 (len : Nat) (x : BitVec 4)
  /-- Run symbol 279: base 99, 4 extra bits (R144, R353). -/
  | run279 (len : Nat) (x : BitVec 4)
  /-- Run symbol 280: base 115, 4 extra bits (R144, R353). -/
  | run280 (len : Nat) (x : BitVec 4)
  /-- Run symbol 281: base 131, 5 extra bits (R144, R353). -/
  | run281 (len : Nat) (x : BitVec 5)
  /-- Run symbol 282: base 163, 5 extra bits (R144, R353). -/
  | run282 (len : Nat) (x : BitVec 5)
  /-- Run symbol 283: base 195, 5 extra bits (R144, R353). -/
  | run283 (len : Nat) (x : BitVec 5)
  /-- Run symbol 284: base 227, 5 extra bits (R144, R353). -/
  | run284 (len : Nat) (x : BitVec 5)
  /-- Run symbol 285: base 258, 0 extra bits (R144, R353). -/
  | run285 (len : Nat)
  /-- Run/literal symbol 286, no meaning (R355). -/
  | rl286 (len : Nat)
  /-- Run/literal symbol 287, no meaning (R355), and any a table holds past it (R350). -/
  | rl287 (len : Nat)
  /-- Distance symbol 0: base 1, 0 extra bits (R145, R353). -/
  | dist0 (len : Nat)
  /-- Distance symbol 1: base 2, 0 extra bits (R145, R353). -/
  | dist1 (len : Nat)
  /-- Distance symbol 2: base 3, 0 extra bits (R145, R353). -/
  | dist2 (len : Nat)
  /-- Distance symbol 3: base 4, 0 extra bits (R145, R353). -/
  | dist3 (len : Nat)
  /-- Distance symbol 4: base 5, 1 extra bits (R145, R353). -/
  | dist4 (len : Nat) (x : BitVec 1)
  /-- Distance symbol 5: base 7, 1 extra bits (R145, R353). -/
  | dist5 (len : Nat) (x : BitVec 1)
  /-- Distance symbol 6: base 9, 2 extra bits (R145, R353). -/
  | dist6 (len : Nat) (x : BitVec 2)
  /-- Distance symbol 7: base 13, 2 extra bits (R145, R353). -/
  | dist7 (len : Nat) (x : BitVec 2)
  /-- Distance symbol 8: base 17, 3 extra bits (R145, R353). -/
  | dist8 (len : Nat) (x : BitVec 3)
  /-- Distance symbol 9: base 25, 3 extra bits (R145, R353). -/
  | dist9 (len : Nat) (x : BitVec 3)
  /-- Distance symbol 10: base 33, 4 extra bits (R145, R353). -/
  | dist10 (len : Nat) (x : BitVec 4)
  /-- Distance symbol 11: base 49, 4 extra bits (R145, R353). -/
  | dist11 (len : Nat) (x : BitVec 4)
  /-- Distance symbol 12: base 65, 5 extra bits (R145, R353). -/
  | dist12 (len : Nat) (x : BitVec 5)
  /-- Distance symbol 13: base 97, 5 extra bits (R145, R353). -/
  | dist13 (len : Nat) (x : BitVec 5)
  /-- Distance symbol 14: base 129, 6 extra bits (R145, R353). -/
  | dist14 (len : Nat) (x : BitVec 6)
  /-- Distance symbol 15: base 193, 6 extra bits (R145, R353). -/
  | dist15 (len : Nat) (x : BitVec 6)
  /-- Distance symbol 16: base 257, 7 extra bits (R145, R353). -/
  | dist16 (len : Nat) (x : BitVec 7)
  /-- Distance symbol 17: base 385, 7 extra bits (R145, R353). -/
  | dist17 (len : Nat) (x : BitVec 7)
  /-- Distance symbol 18: base 513, 8 extra bits (R145, R353). -/
  | dist18 (len : Nat) (x : BitVec 8)
  /-- Distance symbol 19: base 769, 8 extra bits (R145, R353). -/
  | dist19 (len : Nat) (x : BitVec 8)
  /-- Distance symbol 20: base 1025, 9 extra bits (R145, R353). -/
  | dist20 (len : Nat) (x : BitVec 9)
  /-- Distance symbol 21: base 1537, 9 extra bits (R145, R353). -/
  | dist21 (len : Nat) (x : BitVec 9)
  /-- Distance symbol 22: base 2049, 10 extra bits (R145, R353). -/
  | dist22 (len : Nat) (x : BitVec 10)
  /-- Distance symbol 23: base 3073, 10 extra bits (R145, R353). -/
  | dist23 (len : Nat) (x : BitVec 10)
  /-- Distance symbol 24: base 4097, 11 extra bits (R145, R353). -/
  | dist24 (len : Nat) (x : BitVec 11)
  /-- Distance symbol 25: base 6145, 11 extra bits (R145, R353). -/
  | dist25 (len : Nat) (x : BitVec 11)
  /-- Distance symbol 26: base 8193, 12 extra bits (R145, R353). -/
  | dist26 (len : Nat) (x : BitVec 12)
  /-- Distance symbol 27: base 12289, 12 extra bits (R145, R353). -/
  | dist27 (len : Nat) (x : BitVec 12)
  /-- Distance symbol 28: base 16385, 13 extra bits (R145, R353). -/
  | dist28 (len : Nat) (x : BitVec 13)
  /-- Distance symbol 29: base 24577, 13 extra bits (R145, R353). -/
  | dist29 (len : Nat) (x : BitVec 13)
  /-- Distance padding symbol 30 (R356). -/
  | d30 (len : Nat)
  /-- Distance padding symbol 31 (R356), and any a table holds past it (R353). -/
  | d31 (len : Nat)
  /-- Trailer value (R149, R263). -/
  | adler (v : Word)
  /-- UNPACK format indexed1 (R406). -/
  | fmtIndexed1 (pal : List Rgba) (buf : List Byte)
  /-- UNPACK format indexed2 (R406). -/
  | fmtIndexed2 (pal : List Rgba) (buf : List Byte)
  /-- UNPACK format indexed4 (R406). -/
  | fmtIndexed4 (pal : List Rgba) (buf : List Byte)
  /-- UNPACK format indexed8 (R406). -/
  | fmtIndexed8 (pal : List Rgba) (buf : List Byte)
  /-- UNPACK format v1, no key (R407). -/
  | fmtV1 (buf : List Byte)
  /-- UNPACK format v2, no key (R407). -/
  | fmtV2 (buf : List Byte)
  /-- UNPACK format v4, no key (R407). -/
  | fmtV4 (buf : List Byte)
  /-- UNPACK format v8, no key (R407). -/
  | fmtV8 (buf : List Byte)
  /-- UNPACK format v16, no key (R408). -/
  | fmtV16 (buf : List Byte)
  /-- UNPACK format v1 with key (R409). -/
  | fmtV1Key (k : Half) (buf : List Byte)
  /-- UNPACK format v2 with key (R409). -/
  | fmtV2Key (k : Half) (buf : List Byte)
  /-- UNPACK format v4 with key (R409). -/
  | fmtV4Key (k : Half) (buf : List Byte)
  /-- UNPACK format v8 with key (R409). -/
  | fmtV8Key (k : Half) (buf : List Byte)
  /-- UNPACK format v16 with key (R410). -/
  | fmtV16Key (k : Half) (buf : List Byte)
  /-- UNPACK format va8 (R411). -/
  | fmtVa8 (buf : List Byte)
  /-- UNPACK format va16 (R412). -/
  | fmtVa16 (buf : List Byte)
  /-- UNPACK format rgb8 (R413). -/
  | fmtRgb8 (buf : List Byte)
  /-- UNPACK format rgb16 (R414). -/
  | fmtRgb16 (buf : List Byte)
  /-- UNPACK format rgb8 with key triple (R415). -/
  | fmtRgb8Key (kr kg kb : Half) (buf : List Byte)
  /-- UNPACK format rgb16 with key triple (R416). -/
  | fmtRgb16Key (kr kg kb : Half) (buf : List Byte)
  /-- UNPACK format rgba8 (R417). -/
  | fmtRgba8 (buf : List Byte)
  /-- UNPACK format rgba16 (R418). -/
  | fmtRgba16 (buf : List Byte)
  /-- UNPACK with an FMT word R132 does not list (R402). -/
  | fmtUnsupported (blk : Block)
  /-- UNPACK with `STD = 1`, the iOS standard (R401). -/
  | stdIos (dst : Width) (blk : Block)
  deriving DecidableEq, Repr

end Sys2Proof
end

