-- ==== Sys2Proof/Machine/Types.lean ====
section
/-! DEFINITION. The data types of the machine that the decoder shares: state tags, error kinds, decoder tables, and what a fetch answers. -/

namespace Sys2Proof.Machine

/-- The state tag `ST` (R34). -/
inductive StTag where
  | streamStart | blockStart | blockTables | blockUncompressed | blockCompressed | streamChecksum
  | streamEnd | failed
  deriving DecidableEq, Repr

/-- The error kinds (R450). -/
inductive ErrorKind where
  | truncatedBitstream | invalidStreamMethod | invalidStreamWindowSize | invalidStreamHeaderCheckBits
  | unexpectedStreamDictionary | invalidStreamChecksum | invalidBlockType
  | invalidBlockElementCountParity | invalidHuffmanRunLiteralSymbolCount
  | invalidHuffmanCodelengthHuffmanTable | invalidHuffmanCodelengthSequence | invalidHuffmanTable
  | invalidStringReference | unsupported | paletteIndexOutOfRange
  deriving DecidableEq, Repr

/-- `ERR`: the kind and the natural it carries (R45). -/
structure ErrRec where
  kind : ErrorKind
  arg : Nat
  deriving DecidableEq, Repr

/-- A decoder table entry `(symbol, length)` (R36, R186). -/
structure Entry where
  sym : Nat
  len : Nat
  deriving DecidableEq, Repr

/-- A decoder table in LUT form (R186): `n` short slots, `z` entries. `fence` and `fold` follow from `n`. -/
structure Table where
  n : Nat
  z : Nat
  entries : List Entry
  deriving DecidableEq, Repr

/-- The two build modes of R187. `normalizing` carries the default symbol of an empty table (R184). -/
inductive BuildMode where
  | strict
  | normalizing (dflt : Nat)
  deriving DecidableEq, Repr

/-- Which part of a command the block is working on. The MODEL's own (DESIGN CHOICE, log 1, log 2, log 3). -/
inductive Activity where
  /-- Between commands: the next step takes a command from the port. -/
  | idle
  /-- Inside a PUSH, at an ADVANCE boundary (R222, R223). -/
  | inflating
  /-- Inside a PUSH, inside a run token, its distance symbol next (R353). -/
  | distance
  /-- Inside an UNPACK, its operand block next (R400). -/
  | unpacking
  deriving DecidableEq, Repr

/-- What decoding one stream element needs: the input, the position, the state tag and its tables. -/
structure ElementCtx where
  /-- `IN` (R31). -/
  input : List Byte
  /-- Bit position the element starts at: `P`, or `P + t1` for the distance half of a run token (R353). -/
  pos : Nat
  /-- `ST` (R34). -/
  tag : StTag
  /-- The distance half of a run token is next. -/
  distance : Bool
  /-- `endIndex = BLOCK_END` (R358). -/
  blockDone : Bool
  cld : Table
  rld : Table
  dd : Table
  deriving DecidableEq, Repr

/-- Reasons the element decoder gives no element in a context no run reaches (log 13). -/
inductive DecodeStop where
  /-- The decoder table holds no value (R34, R36, R490): no entry at the index R190 computes, or a `CLD` entry
  whose symbol is not one of 0..18. -/
  | noValue
  /-- `ST = failed` owns no transaction (R222). -/
  | failedAdvance
  deriving DecidableEq, Repr

/-- What the element decoder answers. -/
inductive Element where
  /-- A whole element is there. -/
  | instr (i : Instr)
  /-- Its bits are not all pushed: NeedsMore (R104, R222). -/
  | needMore
  /-- `ST = streamEnd`: nothing to read (R267). -/
  | done
  /-- No element, by name. -/
  | stop (r : DecodeStop)
  deriving DecidableEq, Repr

end Sys2Proof.Machine
end

