-- ==== Sys2Proof/Machine/Bits.lean ====
section
/-! DEFINITION. Bit and byte helpers: stream bit reads (R12, R83 to R86), byte order (R99), physical atoms (R33). -/

namespace Sys2Proof.Machine

/-- `bit(P)` of R12: bit `P mod 8` of byte `P div 8`, 0 at or beyond the end (R87). -/
def bitAt (input : List Byte) (p : Nat) : Nat :=
  (input.getD (p / 8) 0).toNat / 2 ^ (p % 8) % 2

/-- `InBits(P, n)` of R12: `n` stream bits from `P`, the first the least significant. -/
def inBits (input : List Byte) (p : Nat) : Nat → Nat
  | 0 => 0
  | n + 1 => bitAt input p + 2 * inBits input (p + 1) n

/-- `Avail` (R13) for a position, 0 when the position is past the end. -/
def avail (input : List Byte) (p : Nat) : Nat := 8 * input.length - p

/-- `REV8[x]` (R46): bit `7 - i` of the result is bit `i` of `x`. -/
def rev8 (x : Nat) : Nat :=
  x % 2 * 128 + x / 2 % 2 * 64 + x / 4 % 2 * 32 + x / 8 % 2 * 16 + x / 16 % 2 * 8
    + x / 32 % 2 * 4 + x / 64 % 2 * 2 + x / 128 % 2

/-- `rev16(v)` (R86): each half reversed, the halves swapped. -/
def rev16 (v : Nat) : Nat := rev8 (v % 256) * 256 + rev8 (v / 256 % 256)

/-- Bits skipped to the next byte boundary from `p` (R137, R149). -/
def padBits (p : Nat) : Nat := (8 - p % 8) % 8

/-- `n` bits of `v`, the least significant first. -/
def natBits : Nat → Nat → List Bool
  | 0, _ => []
  | n + 1, v => decide (v % 2 = 1) :: natBits n (v / 2)

/-- The value of bits, the least significant first. -/
def bitsNat : List Bool → Nat
  | [] => 0
  | b :: bs => b.toNat + 2 * bitsNat bs

/-- Whole bytes of a bit list, first bit least significant; missing bits are 0 (R11). -/
def bitsBytes : Nat → List Bool → List Byte
  | 0, _ => []
  | n + 1, bs => BitVec.ofNat 8 (bitsNat (bs.take 8)) :: bitsBytes n (bs.drop 8)

/-- Little-endian value of bytes (R99, R133). -/
def leNat : List Byte → Nat
  | [] => 0
  | b :: bs => b.toNat + 256 * leNat bs

/-- `n` little-endian bytes of `v` (R131). -/
def leBytes : Nat → Nat → List Byte
  | 0, _ => []
  | n + 1, v => BitVec.ofNat 8 v :: leBytes n (v / 256)

/-- The first `n` bytes and the rest, when there are `n`. -/
def takeBytes (n : Nat) (bytes : List Byte) : Option (List Byte × List Byte) :=
  if n ≤ bytes.length then some (bytes.take n, bytes.drop n) else none

/-- Input atom of a byte pair, little-endian (R33, R99). -/
def atomOf (lo hi : Byte) : Half := hi ++ lo

/-- Atoms of a byte sequence; an odd last byte fills the low half (R33, R81). -/
def packAtoms : List Byte → List Half
  | [] => []
  | [x] => [atomOf x 0]
  | x :: y :: rest => atomOf x y :: packAtoms rest

/-- `get(p, n)` of R83: the two atoms at `p`, shifted on 16 bits and masked to `n` bits. -/
def atomGet (atoms : List Half) (p n : Nat) : Nat :=
  ((atoms.getD (p / 16 + 1) 0 <<< (16 - p % 16)) ||| (atoms.getD (p / 16) 0 >>> (p % 16))).toNat
    % 2 ^ n

end Sys2Proof.Machine
end

