-- ==== Sys2Proof/Machine/Rom.lean ====
section
/-! DEFINITION. The constant tables (ROM) of R46 to R50. -/

namespace Sys2Proof.Machine

/-- `REV8`, the 256-entry table (R46). -/
def rev8Table : List Nat := (List.range 256).map rev8

/-- `CL_ORDER` (R50). -/
def clOrder : List Nat := [16, 17, 18, 0, 8, 7, 9, 6, 10, 5, 11, 4, 12, 3, 13, 2, 14, 1, 15]

/-- `RUN_DECADE` (R48, R144): extra-bit count and base length of `run(j)`. -/
def runDecadeTable : List (Nat × Nat) :=
  [(0, 3), (0, 4), (0, 5), (0, 6), (0, 7), (0, 8), (0, 9), (0, 10),
   (1, 11), (1, 13), (1, 15), (1, 17), (2, 19), (2, 23), (2, 27), (2, 31),
   (3, 35), (3, 43), (3, 51), (3, 59), (4, 67), (4, 83), (4, 99), (4, 115),
   (5, 131), (5, 163), (5, 195), (5, 227), (0, 258)]

/-- `DIST_DECADE` (R49, R145): extra-bit count and base distance of distance symbol `k`. -/
def distDecadeTable : List (Nat × Nat) :=
  [(0, 1), (0, 2), (0, 3), (0, 4), (1, 5), (1, 7), (2, 9), (2, 13),
   (3, 17), (3, 25), (4, 33), (4, 49), (5, 65), (5, 97), (6, 129), (6, 193),
   (7, 257), (7, 385), (8, 513), (8, 769), (9, 1025), (9, 1537), (10, 2049), (10, 3073),
   (11, 4097), (11, 6145), (12, 8193), (12, 12289), (13, 16385), (13, 24577)]

/-- Extra-bit count of `run(j)` (R144). -/
def runExtra (j : Nat) : Nat := (runDecadeTable.getD j (0, 0)).1

/-- Base length of `run(j)` (R144). -/
def runBase (j : Nat) : Nat := (runDecadeTable.getD j (0, 0)).2

/-- Extra-bit count of distance symbol `k` (R145). -/
def distExtra (k : Nat) : Nat := (distDecadeTable.getD k (0, 0)).1

/-- Base distance of distance symbol `k` (R145). -/
def distBase (k : Nat) : Nat := (distDecadeTable.getD k (0, 0)).2

/-- Fixed run/literal code lengths (R146). -/
def fixedRlLengths : List Nat :=
  List.replicate 144 8 ++ List.replicate 112 9 ++ List.replicate 24 7 ++ List.replicate 8 8

/-- Fixed distance code lengths (R147). -/
def fixedDLengths : List Nat := List.replicate 32 5

end Sys2Proof.Machine
end

