-- ==== Sys2Proof/Machine/Huffman.lean ====
section
/-! DEFINITION. Huffman tables: SIZE, N_Z, PACK, DEGENERATE, MATERIALIZE, BUILD, DECODE (R180 to R195), and the code of a symbol (R140, R188). -/

namespace Sys2Proof.Machine

/-- `fence` of R186. -/
def Table.fence (t : Table) : Nat := t.n * 256

/-- `fold` of R186. -/
def Table.fold (t : Table) : Nat := t.n * 127

/-- A table with no entries: the DESIGN CHOICE for a table that holds no value (log 5). -/
def Table.empty : Table where
  n := 0
  z := 0
  entries := []

/-- The interior node count after level `l`, `none` when a level over-subscribes (R181). -/
def sizeInterior (lens : List Nat) : Nat → Option Nat
  | 0 => some 1
  | l + 1 =>
    match sizeInterior lens l with
    | none => none
    | some i =>
      if 2 * i < lens.count (l + 1) then none else some (2 * i - lens.count (l + 1))

/-- SIZE (R181): no level over-subscribes and no interior node is left after level 15. -/
def sizeValid (lens : List Nat) : Bool := sizeInterior lens 15 == some 0

/-- `n` of N_Z (R182): `256 - interior8`. -/
def shortSlots (lens : List Nat) : Nat := 256 - (sizeInterior lens 8).getD 0

/-- The long-code entries of N_Z (R182): `c[l] * 2^(15 - l)` over `l` in 9..15. -/
def longSlots (lens : List Nat) : Nat :=
  ([9, 10, 11, 12, 13, 14, 15].map fun l => lens.count l * 2 ^ (15 - l)).sum

/-- The symbols of length `l` in increasing order, the list's first symbol being `s`. -/
def symbolsOf (l : Nat) : Nat → List Nat → List Nat
  | _, [] => []
  | s, x :: xs => if x = l then s :: symbolsOf l (s + 1) xs else symbolsOf l (s + 1) xs

/-- The code lengths 1..15. -/
def codeLevels : List Nat := [1, 2, 3, 4, 5, 6, 7, 8, 9, 10, 11, 12, 13, 14, 15]

/-- PACK (R183): the symbols with a length, by length and then by symbol, each with its length. -/
def packOrder (lens : List Nat) : List Entry :=
  codeLevels.flatMap fun l => (symbolsOf l 0 lens).map fun s => ⟨s, l⟩

/-- `clones[l]` (R185): `2^(8 - l)` for `l` in 1..8, `2^(15 - l)` for `l` in 9..15. -/
def clones (l : Nat) : Nat := if l ≤ 8 then 2 ^ (8 - l) else 2 ^ (15 - l)

/-- MATERIALIZE (R185). -/
def materialize (order : List Entry) : List Entry :=
  order.flatMap fun e => List.replicate (clones e.len) e

/-- The first symbol with a nonzero length, or the default symbol (R184). -/
def loneSymbol (dflt : Nat) (lens : List Nat) : Nat :=
  let s := lens.findIdx (fun x => decide (x ≠ 0))
  if s < lens.length then s else dflt

/-- DEGENERATE (R184): 256 copies of the one symbol at length 1. -/
def degenerate (dflt : Nat) (lens : List Nat) : Table where
  n := 256
  z := 256
  entries := List.replicate 256 ⟨loneSymbol dflt lens, 1⟩

/-- How many symbols have a nonzero length (R184, R187). -/
def usedSymbols (lens : List Nat) : Nat := (lens.filter fun x => decide (x ≠ 0)).length

/-- BUILD in strict mode (R187). -/
def buildStrict (lens : List Nat) : Option Table :=
  if sizeValid lens then
    some { n := shortSlots lens
           z := shortSlots lens + longSlots lens
           entries := materialize (packOrder lens) }
  else none

/-- BUILD (R187). -/
def build (lens : List Nat) : BuildMode → Option Table
  | .strict => buildStrict lens
  | .normalizing dflt =>
    if usedSymbols lens < 2 then some (degenerate dflt lens) else buildStrict lens

/-- `FIXED_RL` (R47, R192). -/
def fixedRl : Table := (build fixedRlLengths .strict).getD Table.empty

/-- `FIXED_D` (R47, R192). -/
def fixedD : Table := (build fixedDLengths .strict).getD Table.empty

/-- The entry index of a key (R190). -/
def Table.index (t : Table) (key : Nat) : Nat :=
  if key < t.fence then key / 256 else key / 2 - t.fold

/-- The entry a key selects (R190); `none` only past the table's end, which R190 excludes for a built table. -/
def Table.lookup (t : Table) (key : Nat) : Option Entry := t.entries[t.index key]?

/-- DECODE (R189, R190): the key is `rev16` of the next 16 input bits. -/
def Table.decode (t : Table) (input : List Byte) (p : Nat) : Option Entry :=
  t.lookup (rev16 (inBits input p 16))

/-- The least key that selects entry `idx` (the inverse of `Table.index`, R190). -/
def Table.keyOf (t : Table) (idx : Nat) : Nat :=
  if idx < t.n then idx * 256 else (idx + t.fold) * 2

/-- The code of a symbol: the top `len` bits of the first key that selects `(sym, len)`, most
significant first (R140, R188). -/
def Table.codeBits (t : Table) (sym len : Nat) : List Bool :=
  (natBits 16 (rev16 (t.keyOf (t.entries.idxOf ⟨sym, len⟩)))).take len

end Sys2Proof.Machine
end

