-- ==== Sys2Proof/Machine/State.lean ====
section
/-! DEFINITION. The state of one block instance (R30), its reset (R490), and the reasons a step can stop. -/

namespace Sys2Proof.Machine

/-- A step that meets one of these reads a context the spec gives no transaction for. All are raised by the
fetch of a stream element only, in states no run from reset reaches, so each is SAFE: no claim can be proved
of a step that does not happen (log 13). -/
inductive Fault where
  /-- Raised by the element decoder: the decoder table it reads holds no value (R34, R36, R490), which
  93_implementation_defined.md U23 treats as a fault. Safe. -/
  | noValue
  /-- Raised by the element decoder: ADVANCE in `failed`, which owns no transaction (R222). Safe. -/
  | failedAdvance
  deriving DecidableEq, Repr

/-- A command the block refuses (R456): the model gives it no step. Safe: no claim can be proved of a step
that does not happen. -/
inductive Refusal where
  /-- Raised by exec alone, for an instruction the model gives no meaning. Safe. -/
  | notModelled (mnemonic : String)
  /-- Raised by RESERVED_OP: reserved `OP`, nonzero `RSV` or nonzero must-be-zero field (R152). Safe. -/
  | reservedCommand
  /-- Raised by PUSH, PULL, RETAINED and FINISH when `ST = failed` (R228). Safe. -/
  | sessionFailed
  /-- Raised by PUSH beyond a finite `IN_CAP` (R97). Safe. -/
  | inputCapacity
  /-- Raised by PUSH, and by the element of a PUSH that would exceed it: a bit position or output index
  beyond `COUNT_WIDTH` bits (R52, log 9). Safe. -/
  | counterWidth
  /-- Raised by every UNPACK whose operand block has a palette: `NP` outside 1..256 (R400, R456). Safe. -/
  | paletteCount
  /-- Raised by READ of an address that is not a multiple of 4 (R232). Safe. -/
  | unalignedRead
  deriving DecidableEq, Repr

/-- The state of R30 with its physical fields, the command port and the last response, the parameters, and
the model's own progress fields. `endIndex` is `out.length` (R39). -/
structure State where
  /-- The parameters of R8 (log 6). -/
  params : Params
  /-- Bytes the host has issued on the command port and the block has not taken (R130, log 1). -/
  port : List Byte
  /-- The model's own: the part of a command in progress (log 1). -/
  activity : Activity
  /-- Status word of the last command (R53, R131). -/
  status : Word
  /-- The bytes after the status word (R131). -/
  payload : List Byte
  /-- The refusal mark (R456, R490, log 7). -/
  refusalMark : Bool
  /-- `IN` (R31). -/
  input : List Byte
  /-- `P` (R32). -/
  pos : Nat
  /-- `atoms` (R33). -/
  atoms : List Half
  /-- `b`, the bit position relative to `atoms[0]` (R33). -/
  atomPos : Nat
  /-- `dropped` (R33). -/
  dropped : Nat
  /-- `ST` (R34). -/
  st : StTag
  /-- `FINAL` (R35). -/
  final : Bool
  /-- `CLD` (R36). -/
  cld : Table
  /-- `RLD` (R36). -/
  rld : Table
  /-- `DD` (R36). -/
  dd : Table
  /-- `HLIT` (R37). -/
  hlit : BitVec 9
  /-- `HDIST` (R37). -/
  hdist : BitVec 6
  /-- `LENGTHS` (R37). -/
  lengths : List (BitVec 4)
  /-- `BLOCK_END` (R38). -/
  blockEnd : Nat
  /-- `OUT` (R39). -/
  out : List Byte
  /-- `currentIndex` (R40). -/
  currentIndex : Nat
  /-- `startIndex` (R41). -/
  startIndex : Nat
  /-- `baseIndex` (R42). -/
  baseIndex : Nat
  /-- `storage` (R42). -/
  storage : List Byte
  /-- The size of the storage array (R92, R95, log 10). -/
  storageCap : Nat
  /-- `WINDOW` (R43). -/
  window : Nat
  /-- `adler_s1` (R44). -/
  adlerS1 : Half
  /-- `adler_s2` (R44). -/
  adlerS2 : Half
  /-- `ERR` (R45). -/
  err : Option ErrRec
  /-- The model's own: `count` of the run token in progress (R353, log 2). -/
  runCount : Nat
  /-- The model's own: `t1`, the bits of the run token's first half (R353, log 2). -/
  runBits : Nat
  /-- The model's own: `DST` of the UNPACK in progress (R133, log 3). -/
  dst : Width
  deriving DecidableEq, Repr

/-- The state right after reset (R490): power-on and NEW give it. Fields R490 gives no value hold the
DESIGN CHOICE values of log 5 and log 11. -/
def State.reset : State where
  params := Params.default
  port := []
  activity := .idle
  status := 0
  payload := []
  refusalMark := false
  input := []
  pos := 0
  atoms := Config.padAtoms
  atomPos := 0
  dropped := 0
  st := .streamStart
  final := false
  cld := Table.empty
  rld := Table.empty
  dd := Table.empty
  hlit := 0
  hdist := 0
  lengths := []
  blockEnd := 0
  out := []
  currentIndex := 0
  startIndex := 0
  baseIndex := 0
  storage := []
  storageCap := 0
  window := 0
  adlerS1 := 1
  adlerS2 := 0
  err := none
  runCount := 0
  runBits := 0
  dst := .w8

end Sys2Proof.Machine
end

