-- ==== Sys2Proof/Machine/Flags.lean ====
section
/-! DEFINITION. Flags and status: error codes (R450), status words (R131), FINAL's successor state (R352, R359), the tag codes (R34). -/

namespace Sys2Proof.Machine

/-- The code of an error kind (R450). -/
def errorCode : ErrorKind → Nat
  | .truncatedBitstream => 1
  | .invalidStreamMethod => 2
  | .invalidStreamWindowSize => 3
  | .invalidStreamHeaderCheckBits => 4
  | .unexpectedStreamDictionary => 5
  | .invalidStreamChecksum => 6
  | .invalidBlockType => 7
  | .invalidBlockElementCountParity => 8
  | .invalidHuffmanRunLiteralSymbolCount => 9
  | .invalidHuffmanCodelengthHuffmanTable => 10
  | .invalidHuffmanCodelengthSequence => 11
  | .invalidHuffmanTable => 12
  | .invalidStringReference => 13
  | .unsupported => 14
  | .paletteIndexOutOfRange => 15

/-- A status word of `KIND`, `CODE` and `ARG` (R131). -/
def statusWord (kind code arg : Nat) : Word := BitVec.ofNat 32 (kind + code * 2 ^ 8 + arg * 2 ^ 16)

/-- Status Done, also the word 0 of the commands that return no KIND (R131). -/
def statusDone : Word := statusWord 0 0 0

/-- Status NeedsMore (R131). -/
def statusNeedsMore : Word := statusWord 1 0 0

/-- Status NeedsPull (R131). -/
def statusNeedsPull : Word := statusWord 3 0 0

/-- Status Error of a kind and its argument (R131, R452). -/
def statusError (k : ErrorKind) (arg : Nat) : Word := statusWord 2 (errorCode k) arg

/-- PULL's status word for Some (R131). -/
def statusSome : Word := 1

/-- The code of a state tag (R34). -/
def tagCode : StTag → Nat
  | .streamStart => 0
  | .blockStart => 1
  | .blockTables => 2
  | .blockUncompressed => 3
  | .blockCompressed => 4
  | .streamChecksum => 5
  | .streamEnd => 6
  | .failed => 7

/-- The state after a block ends, by FINAL (R352, R359). -/
def afterBlock (final : Bool) : StTag := if final then .streamChecksum else .blockStart

/-- The states that own FINAL (R34, R54). -/
def ownsFinal : StTag → Bool
  | .blockTables => true
  | .blockUncompressed => true
  | .blockCompressed => true
  | .streamStart => false
  | .blockStart => false
  | .streamChecksum => false
  | .streamEnd => false
  | .failed => false

end Sys2Proof.Machine
end

