-- ==== Sys2Proof/Machine/Operands.lean ====
section
/-! DEFINITION. Operand forms: command word fields (R130), FMT word fields and operand block (R132, R133), widths, sample reads (R404, R405), the depth adapter (R403), code-length placement (R294). -/

namespace Sys2Proof.Machine

/-- `OP = word[3:0]` (R130). -/
def cmdOp (w : Word) : Nat := w.toNat % 16

/-- `RSV = word[7:4]` (R130). -/
def cmdRsv (w : Word) : Nat := w.toNat / 16 % 16

/-- `IMM = word[31:8]` (R130). -/
def cmdImm (w : Word) : Nat := w.toNat / 256

/-- A command word that is refused: `OP` 8..15, a nonzero `RSV`, or a nonzero field R130 marks 0 (R152). -/
def reservedWord (w : Word) : Bool :=
  decide (cmdRsv w ≠ 0) ||
  match cmdOp w with
  | 0 => decide (cmdImm w ≠ 0)
  | 1 => false
  | 2 => false
  | 3 => decide (cmdImm w ≠ 0)
  | 4 => decide (cmdImm w ≠ 0)
  | 5 => decide (cmdImm w / 8 ≠ 0)
  | 6 => decide (cmdImm w / 4 ≠ 0)
  | 7 => decide (cmdImm w / 256 ≠ 0)
  | _ => true

/-- The width `DST` selects (R133). -/
def widthOf (dst : Nat) : Width :=
  match dst with
  | 0 => .w8
  | 1 => .w16
  | 2 => .w32
  | _ => .w64

/-- The `DST` of a width (R133). -/
def widthCode : Width → Nat
  | .w8 => 0
  | .w16 => 1
  | .w32 => 2
  | .w64 => 3

/-- `w` in bits (R133). -/
def widthBits : Width → Nat
  | .w8 => 8
  | .w16 => 16
  | .w32 => 32
  | .w64 => 64

/-- `w/8`, the bytes of a component (R131). -/
def widthBytes (w : Width) : Nat := widthBits w / 8

/-- `M = 2^w - 1`, `T.max` (R400). -/
def widthMax (w : Width) : Nat := 2 ^ widthBits w - 1

/-- `CT = FMT[3:0]` (R132). -/
def fmtCt (f : Word) : Nat := f.toNat % 16

/-- `KEY = FMT[9]` (R132). -/
def fmtKey (f : Word) : Bool := decide (f.toNat / 512 % 2 = 1)

/-- How many keys the operand block carries, from `CT` and `KEY` as written (R133, R400). -/
def keyCount (f : Word) : Nat :=
  if fmtKey f then (if fmtCt f = 0 then 1 else if fmtCt f = 2 then 3 else 0) else 0

/-- The operand block carries a palette when `CT = 3` (R133). -/
def hasPalette (f : Word) : Bool := decide (fmtCt f = 3)

/-- The 22 legal FMT words (R132). -/
def legalFormats : List Nat :=
  [0x13, 0x23, 0x43, 0x83, 0x10, 0x20, 0x40, 0x80, 0x100, 0x210, 0x220, 0x240, 0x280, 0x300,
   0x84, 0x104, 0x82, 0x102, 0x282, 0x302, 0x86, 0x106]

/-- FMT is one of R132 (R402). -/
def legalFormat (f : Word) : Bool := legalFormats.contains f.toNat

/-- `NP` in 1..256 (R133, R400). -/
def paletteCountOk (pal : List Rgba) : Bool :=
  decide (1 ≤ pal.length) && decide (pal.length ≤ Config.paletteMax)

/-- Bytes of one sample of depth `d`: 1 for depths 1..8, 2 for depth 16 (R404). -/
def sampleBytes (d : Nat) : Nat := if d ≤ 8 then 1 else 2

/-- Sample `j` of group `i` of `g` bytes: `S8` for depths 1..8, big-endian `S16` for depth 16 (R405). -/
def sample (d g : Nat) (buf : List Byte) (i j : Nat) : Nat :=
  if d ≤ 8 then (buf.getD (i * g + j) 0).toNat
  else (buf.getD (i * g + 2 * j) 0).toNat * 256 + (buf.getD (i * g + 2 * j + 1) 0).toNat

/-- ADAPT (R403), with `M = 2^w - 1`. -/
def adapt (d w q : Nat) : Nat :=
  if w = d then q
  else if d < w then ((2 ^ w - 1) / ((2 ^ w - 1) / 2 ^ (w - d)) * q) % 2 ^ w
  else q / 2 ^ (d - w)

/-- `CLL` (R294): the CL lengths placed by `CL_ORDER`, 0 where none is given (R139). -/
def clLengths (cl : List (BitVec 3)) : List Nat :=
  (List.range 19).map fun s => (cl.getD (clOrder.idxOf s) 0).toNat

/-- `HLITv` (R293). -/
def hlitValue (hlit : BitVec 5) : Nat := hlit.toNat + 257

/-- `HDISTv` (R293). -/
def hdistValue (hdist : BitVec 5) : Nat := hdist.toNat + 1

/-- `HCLENv` (R293). -/
def hclenValue (hclen : BitVec 4) : Nat := hclen.toNat + 4

end Sys2Proof.Machine
end

