-- ==== Sys2Proof/Machine/Ops.lean ====
section
/-! DEFINITION. The named operations on the state: commit, response, raise and NEW, rebase, output append, copy and release, compaction, Adler-32, capacity and reference checks. -/

namespace Sys2Proof.Machine

/-- What a meaning answers. -/
abbrev Result := Host.Outcome State Fault Refusal

/-! ### Transactions and responses -/

/-- Consume `t` bits: `P` and the physical `b` advance together (R32, R33, R104). -/
def State.commit (s : State) (t : Nat) : State :=
  { s with pos := s.pos + t, atomPos := s.atomPos + t }

/-- End the command with a status word and payload (R131). -/
def State.respond (s : State) (w : Word) (bytes : List Byte) : State :=
  { s with status := w, payload := bytes, activity := .idle }

/-- RAISE (R452), the one way an error is taken: `ST` becomes `failed`, `ERR` records kind and argument, the
command returns KIND 2 with CODE and ARG, and nothing else of the state is written. -/
def State.raise (s : State) (k : ErrorKind) (arg : Nat) : State :=
  { s.respond (statusError k arg) [] with st := .failed, err := some ⟨k, arg⟩ }

/-- NEW (R221), the only way out of `failed` (R458): the reset state of R490, with the parameters and
the commands still on the port kept; status word 0. -/
def State.renew (s : State) : State :=
  { State.reset with params := s.params, port := s.port }

/-! ### Adler-32 (R264) -/

/-- `AdlerStep` (R264). -/
def adlerStep (a : Nat × Nat) (x : Byte) : Nat × Nat :=
  ((a.1 + x.toNat) % 65521, (a.2 + (a.1 + x.toNat) % 65521) % 65521)

/-- `AdlerStep` folded over bytes (R264). -/
def adlerFold (a : Nat × Nat) (bytes : List Byte) : Nat × Nat := bytes.foldl adlerStep a

/-- `s2 << 16 | s1` (R264). -/
def adlerWord (a : Nat × Nat) : Nat := a.2 * 2 ^ 16 + a.1

/-- `Adler(X)` (R264). -/
def adler (bytes : List Byte) : Nat := adlerWord (adlerFold (1, 0) bytes)

/-- The physical `checksum()`: the running state folded over the resident bytes (R98, R266). -/
def State.checksum (s : State) : Nat :=
  adlerWord (adlerFold (s.adlerS1.toNat, s.adlerS2.toNat) s.storage)

/-! ### Input -/

/-- `atoms` after a rebase whose drop left `atoms` (R81 (2) and (3)): new bytes packed, the first one merged
into a half-filled trailing atom when an odd number of bytes is held, then three zero atoms. -/
def rebaseAtoms (atoms : List Half) (odd : Bool) (data : List Byte) : List Half :=
  let body := atoms.take (atoms.length - 3)
  match odd, data with
  | true, d :: rest =>
    body.dropLast ++ [(body.getLastD 0) ||| atomOf 0 d] ++ packAtoms rest ++ Config.padAtoms
  | _, _ => body ++ packAtoms data ++ Config.padAtoms

/-- `rebase(data)` (R81, R82): `IN` grows, `P` stays; physically, consumed atoms are dropped first. -/
def State.rebase (s : State) (data : List Byte) : State :=
  { s with
    input := s.input ++ data
    atoms := rebaseAtoms (s.atoms.drop (s.atomPos / 16)) (decide (s.input.length % 2 = 1)) data
    atomPos := s.atomPos - 16 * (s.atomPos / 16)
    dropped := s.dropped + s.atomPos / 16 }

/-- A PUSH of `n` bytes would exceed a finite `IN_CAP` (R97). -/
def State.inputOver (s : State) (n : Nat) : Bool :=
  s.params.inCap.any fun c => decide (c < s.input.length + n - 2 * (s.pos / 16))

/-- Bit positions of `n` more input bytes would exceed `COUNT_WIDTH` bits (R52). -/
def State.positionOver (s : State) (n : Nat) : Bool :=
  decide (2 ^ s.params.countWidth ≤ 8 * (s.input.length + n))

/-! ### Output -/

/-- The next power of two at or above `n` (R95). -/
def nextPow2 (n : Nat) : Nat := if n ≤ 1 then 1 else 2 ^ (Nat.log2 (n - 1) + 1)

/-- The storage size after `shift(extra)` (R95): in place when the retained bytes and `extra` more fit,
else a new buffer of the next power of two (DESIGN CHOICE, log 10). -/
def State.shiftCap (s : State) (extra : Nat) : Nat :=
  if s.out.length - s.startIndex + extra ≤ s.storageCap then s.storageCap
  else nextPow2 (s.out.length - s.startIndex + max 16 extra)

/-- The running Adler state after the displaced prefix is folded in (R95, R266). -/
def State.shiftAdler (s : State) : Nat × Nat :=
  adlerFold (s.adlerS1.toNat, s.adlerS2.toNat) (s.storage.take (s.startIndex - s.baseIndex))

/-- Compaction `shift(extra)` (R95). -/
def State.shift (s : State) (extra : Nat) : State :=
  { s with
    storageCap := s.shiftCap extra
    storage := s.storage.drop (s.startIndex - s.baseIndex)
    baseIndex := s.startIndex
    adlerS1 := BitVec.ofNat 16 s.shiftAdler.1
    adlerS2 := BitVec.ofNat 16 s.shiftAdler.2 }

/-- `shift` when `k` more bytes would exceed the storage (R92, R95). -/
def State.makeRoom (s : State) (k : Nat) : State :=
  if s.storageCap < s.storage.length + k then s.shift k else s

/-- Append bytes at `endIndex`, to `OUT` and to the resident storage (R39, R42, R91). -/
def State.emit (s : State) (bytes : List Byte) : State :=
  { s.makeRoom bytes.length with
    out := s.out ++ bytes
    storage := (s.makeRoom bytes.length).storage ++ bytes }

/-- `OutAppend(v)` (R92). -/
def State.outAppend (s : State) (v : Byte) : State := s.emit [v]

/-- The byte-by-byte forward copy of R93: `count` bytes, each `offset` back from the growing end. -/
def copyForward (offset : Nat) : Nat → List Byte → List Byte
  | 0, o => o
  | n + 1, o => copyForward offset n (o ++ [o.getD (o.length - offset) 0])

/-- The bytes `OutExpand(offset, count)` appends to `o` (R93). -/
def copyBytes (o : List Byte) (offset count : Nat) : List Byte :=
  (copyForward offset count o).drop o.length

/-- `OutExpand(offset, count)` (R93). -/
def State.outExpand (s : State) (offset count : Nat) : State :=
  s.emit (copyBytes s.out offset count)

/-- `startIndex` after a release to `currentIndex = cur` (R94); natural subtraction is `sat`. -/
def State.releaseStart (s : State) (cur : Nat) : Nat :=
  min (max (s.out.length - s.window) s.startIndex) cur

/-- `OutRelease(n)` (R94). -/
def State.outRelease (s : State) (n : Nat) : Option (List Byte × State) :=
  if n ≤ s.out.length - s.currentIndex then
    some ((s.out.drop s.currentIndex).take n,
      { s with
        currentIndex := s.currentIndex + n
        startIndex := s.releaseStart (s.currentIndex + n) })
  else none

/-- `k` more output bytes exceed a finite `OUT_CAP` (R96). -/
def State.outputOver (s : State) (k : Nat) : Bool :=
  s.params.outCap.any fun c => decide (c < s.out.length - s.startIndex + k)

/-- Output indices of `k` more bytes would exceed `COUNT_WIDTH` bits (R52, log 9). -/
def State.indexOver (s : State) (k : Nat) : Bool :=
  decide (2 ^ s.params.countWidth ≤ s.out.length + k)

/-- `limit` of REFCHECK (R357). -/
def State.refLimit (s : State) : Nat :=
  match s.params.windowCheck with
  | .strict => min s.window (s.out.length - s.startIndex)
  | .resident => s.out.length - s.startIndex

/-- Append output inside a transaction (R96, R52): NeedsPull when it does not fit, refused past the counter
width, else `done` is the transaction's end. -/
def State.withRoom (s : State) (k : Nat) (done : State) : Result :=
  if s.outputOver k then .next (s.respond statusNeedsPull [])
  else if s.indexOver k then .refused .counterWidth
  else .next done

/-- The decoder context of the next element (R222): after a run symbol, its distance symbol at `P + t1` (R353). -/
def State.elementCtx (s : State) : ElementCtx where
  input := s.input
  pos := if s.activity = .distance then s.pos + s.runBits else s.pos
  tag := s.st
  distance := decide (s.activity = .distance)
  blockDone := decide (s.out.length = s.blockEnd)
  cld := s.cld
  rld := s.rld
  dd := s.dd

end Sys2Proof.Machine
end

