-- ==== Sys2Proof/Machine/BlockData.lean ====
section
/-! DEFINITION. Block data: literals, end of block, run tokens with their distance, stored bytes (R350 to R359). -/

namespace Sys2Proof.Machine

/-- LIT (R351). -/
def execLit (len : Nat) (v : Byte) (s : State) : Result :=
  s.withRoom 1 ((s.outAppend v).commit len)

/-- EOB (R352). -/
def execEob (len : Nat) (s : State) : Result :=
  .next { s.commit len with st := afterBlock s.final }

/-- The first half of RUN (R353) for `run(j)` with extra bits `x`: `count` and `t1` are kept for the distance
half and nothing of the spec's state changes (log 2). -/
def runToken (j len x : Nat) (s : State) : Result :=
  .next { s with
    activity := .distance
    runCount := runBase j + x
    runBits := len + runExtra j }

/-- The second half of RUN (R353) for distance symbol `k` with extra bits `x`: REFCHECK (R357), the capacity
check (R96), the copy, and the commit of the whole token. -/
def distToken (k len x : Nat) (s : State) : Result :=
  if s.refLimit < distBase k + x then .next (s.raise .invalidStringReference 0)
  else s.withRoom s.runCount
    { (s.outExpand (distBase k + x) s.runCount).commit (s.runBits + len + distExtra k) with
      activity := .inflating }

/-- RL_286 (R355). -/
def execRl286 (_len : Nat) (s : State) : Result := .next (s.raise .invalidStringReference 0)

/-- RL_287 (R355). -/
def execRl287 (_len : Nat) (s : State) : Result := .next (s.raise .invalidStringReference 0)

/-- D_30 (R356). -/
def execD30 (_len : Nat) (s : State) : Result := .next (s.raise .invalidStringReference 0)

/-- D_31 (R356). -/
def execD31 (_len : Nat) (s : State) : Result := .next (s.raise .invalidStringReference 0)

/-- BYTE (R358). -/
def execByte (v : Byte) (s : State) : Result := s.withRoom 1 ((s.outAppend v).commit 8)

/-- STORED_END (R359): reads no bits. -/
def execStoredEnd (s : State) : Result := .next { s with st := afterBlock s.final }

/-! ### Run symbols (R144, R353) -/

/-- RUN_257 (R353). -/
def execRun257 (len : Nat) (s : State) : Result := runToken 0 len 0 s

/-- RUN_258 (R353). -/
def execRun258 (len : Nat) (s : State) : Result := runToken 1 len 0 s

/-- RUN_259 (R353). -/
def execRun259 (len : Nat) (s : State) : Result := runToken 2 len 0 s

/-- RUN_260 (R353). -/
def execRun260 (len : Nat) (s : State) : Result := runToken 3 len 0 s

/-- RUN_261 (R353). -/
def execRun261 (len : Nat) (s : State) : Result := runToken 4 len 0 s

/-- RUN_262 (R353). -/
def execRun262 (len : Nat) (s : State) : Result := runToken 5 len 0 s

/-- RUN_263 (R353). -/
def execRun263 (len : Nat) (s : State) : Result := runToken 6 len 0 s

/-- RUN_264 (R353). -/
def execRun264 (len : Nat) (s : State) : Result := runToken 7 len 0 s

/-- RUN_265 (R353). -/
def execRun265 (len : Nat) (x : BitVec 1) (s : State) : Result := runToken 8 len x.toNat s

/-- RUN_266 (R353). -/
def execRun266 (len : Nat) (x : BitVec 1) (s : State) : Result := runToken 9 len x.toNat s

/-- RUN_267 (R353). -/
def execRun267 (len : Nat) (x : BitVec 1) (s : State) : Result := runToken 10 len x.toNat s

/-- RUN_268 (R353). -/
def execRun268 (len : Nat) (x : BitVec 1) (s : State) : Result := runToken 11 len x.toNat s

/-- RUN_269 (R353). -/
def execRun269 (len : Nat) (x : BitVec 2) (s : State) : Result := runToken 12 len x.toNat s

/-- RUN_270 (R353). -/
def execRun270 (len : Nat) (x : BitVec 2) (s : State) : Result := runToken 13 len x.toNat s

/-- RUN_271 (R353). -/
def execRun271 (len : Nat) (x : BitVec 2) (s : State) : Result := runToken 14 len x.toNat s

/-- RUN_272 (R353). -/
def execRun272 (len : Nat) (x : BitVec 2) (s : State) : Result := runToken 15 len x.toNat s

/-- RUN_273 (R353). -/
def execRun273 (len : Nat) (x : BitVec 3) (s : State) : Result := runToken 16 len x.toNat s

/-- RUN_274 (R353). -/
def execRun274 (len : Nat) (x : BitVec 3) (s : State) : Result := runToken 17 len x.toNat s

/-- RUN_275 (R353). -/
def execRun275 (len : Nat) (x : BitVec 3) (s : State) : Result := runToken 18 len x.toNat s

/-- RUN_276 (R353). -/
def execRun276 (len : Nat) (x : BitVec 3) (s : State) : Result := runToken 19 len x.toNat s

/-- RUN_277 (R353). -/
def execRun277 (len : Nat) (x : BitVec 4) (s : State) : Result := runToken 20 len x.toNat s

/-- RUN_278 (R353). -/
def execRun278 (len : Nat) (x : BitVec 4) (s : State) : Result := runToken 21 len x.toNat s

/-- RUN_279 (R353). -/
def execRun279 (len : Nat) (x : BitVec 4) (s : State) : Result := runToken 22 len x.toNat s

/-- RUN_280 (R353). -/
def execRun280 (len : Nat) (x : BitVec 4) (s : State) : Result := runToken 23 len x.toNat s

/-- RUN_281 (R353). -/
def execRun281 (len : Nat) (x : BitVec 5) (s : State) : Result := runToken 24 len x.toNat s

/-- RUN_282 (R353). -/
def execRun282 (len : Nat) (x : BitVec 5) (s : State) : Result := runToken 25 len x.toNat s

/-- RUN_283 (R353). -/
def execRun283 (len : Nat) (x : BitVec 5) (s : State) : Result := runToken 26 len x.toNat s

/-- RUN_284 (R353). -/
def execRun284 (len : Nat) (x : BitVec 5) (s : State) : Result := runToken 27 len x.toNat s

/-- RUN_285 (R353). -/
def execRun285 (len : Nat) (s : State) : Result := runToken 28 len 0 s

/-! ### Distance symbols (R145, R353) -/

/-- DIST_0 (R353). -/
def execDist0 (len : Nat) (s : State) : Result := distToken 0 len 0 s

/-- DIST_1 (R353). -/
def execDist1 (len : Nat) (s : State) : Result := distToken 1 len 0 s

/-- DIST_2 (R353). -/
def execDist2 (len : Nat) (s : State) : Result := distToken 2 len 0 s

/-- DIST_3 (R353). -/
def execDist3 (len : Nat) (s : State) : Result := distToken 3 len 0 s

/-- DIST_4 (R353). -/
def execDist4 (len : Nat) (x : BitVec 1) (s : State) : Result := distToken 4 len x.toNat s

/-- DIST_5 (R353). -/
def execDist5 (len : Nat) (x : BitVec 1) (s : State) : Result := distToken 5 len x.toNat s

/-- DIST_6 (R353). -/
def execDist6 (len : Nat) (x : BitVec 2) (s : State) : Result := distToken 6 len x.toNat s

/-- DIST_7 (R353). -/
def execDist7 (len : Nat) (x : BitVec 2) (s : State) : Result := distToken 7 len x.toNat s

/-- DIST_8 (R353). -/
def execDist8 (len : Nat) (x : BitVec 3) (s : State) : Result := distToken 8 len x.toNat s

/-- DIST_9 (R353). -/
def execDist9 (len : Nat) (x : BitVec 3) (s : State) : Result := distToken 9 len x.toNat s

/-- DIST_10 (R353). -/
def execDist10 (len : Nat) (x : BitVec 4) (s : State) : Result := distToken 10 len x.toNat s

/-- DIST_11 (R353). -/
def execDist11 (len : Nat) (x : BitVec 4) (s : State) : Result := distToken 11 len x.toNat s

/-- DIST_12 (R353). -/
def execDist12 (len : Nat) (x : BitVec 5) (s : State) : Result := distToken 12 len x.toNat s

/-- DIST_13 (R353). -/
def execDist13 (len : Nat) (x : BitVec 5) (s : State) : Result := distToken 13 len x.toNat s

/-- DIST_14 (R353). -/
def execDist14 (len : Nat) (x : BitVec 6) (s : State) : Result := distToken 14 len x.toNat s

/-- DIST_15 (R353). -/
def execDist15 (len : Nat) (x : BitVec 6) (s : State) : Result := distToken 15 len x.toNat s

/-- DIST_16 (R353). -/
def execDist16 (len : Nat) (x : BitVec 7) (s : State) : Result := distToken 16 len x.toNat s

/-- DIST_17 (R353). -/
def execDist17 (len : Nat) (x : BitVec 7) (s : State) : Result := distToken 17 len x.toNat s

/-- DIST_18 (R353). -/
def execDist18 (len : Nat) (x : BitVec 8) (s : State) : Result := distToken 18 len x.toNat s

/-- DIST_19 (R353). -/
def execDist19 (len : Nat) (x : BitVec 8) (s : State) : Result := distToken 19 len x.toNat s

/-- DIST_20 (R353). -/
def execDist20 (len : Nat) (x : BitVec 9) (s : State) : Result := distToken 20 len x.toNat s

/-- DIST_21 (R353). -/
def execDist21 (len : Nat) (x : BitVec 9) (s : State) : Result := distToken 21 len x.toNat s

/-- DIST_22 (R353). -/
def execDist22 (len : Nat) (x : BitVec 10) (s : State) : Result := distToken 22 len x.toNat s

/-- DIST_23 (R353). -/
def execDist23 (len : Nat) (x : BitVec 10) (s : State) : Result := distToken 23 len x.toNat s

/-- DIST_24 (R353). -/
def execDist24 (len : Nat) (x : BitVec 11) (s : State) : Result := distToken 24 len x.toNat s

/-- DIST_25 (R353). -/
def execDist25 (len : Nat) (x : BitVec 11) (s : State) : Result := distToken 25 len x.toNat s

/-- DIST_26 (R353). -/
def execDist26 (len : Nat) (x : BitVec 12) (s : State) : Result := distToken 26 len x.toNat s

/-- DIST_27 (R353). -/
def execDist27 (len : Nat) (x : BitVec 12) (s : State) : Result := distToken 27 len x.toNat s

/-- DIST_28 (R353). -/
def execDist28 (len : Nat) (x : BitVec 13) (s : State) : Result := distToken 28 len x.toNat s

/-- DIST_29 (R353). -/
def execDist29 (len : Nat) (x : BitVec 13) (s : State) : Result := distToken 29 len x.toNat s

end Sys2Proof.Machine
end

