-- ==== Sys2Proof/Machine/BlockHeader.lean ====
section
/-! DEFINITION. DEFLATE block headers (R290 to R295). -/

namespace Sys2Proof.Machine

/-- BHDR_STORED (R291): LEN must be the complement of NLEN. -/
def execBhdrStored (bfinal : Bool) (len nlen : Half) (s : State) : Result :=
  if len ≠ ~~~nlen then .next (s.raise .invalidBlockElementCountParity 0)
  else .next { s.commit (3 + padBits (s.pos + 3) + 32) with
    final := bfinal
    blockEnd := s.out.length + len.toNat
    st := .blockUncompressed }

/-- BHDR_FIXED (R292): the ROM tables. -/
def execBhdrFixed (bfinal : Bool) (s : State) : Result :=
  .next { s.commit 3 with final := bfinal, rld := fixedRl, dd := fixedD, st := .blockCompressed }

/-- BHDR_DYNAMIC (R293, R294): the HLIT check, then the code-length table, built strict. -/
def execBhdrDynamic (bfinal : Bool) (hlit hdist : BitVec 5) (hclen : BitVec 4)
    (cl : List (BitVec 3)) (s : State) : Result :=
  if 286 < hlitValue hlit then
    .next (s.raise .invalidHuffmanRunLiteralSymbolCount (hlitValue hlit))
  else
    match build (clLengths cl) .strict with
    | none => .next (s.raise .invalidHuffmanCodelengthHuffmanTable 0)
    | some t =>
      .next { s.commit (17 + 3 * hclenValue hclen) with
        final := bfinal
        hlit := BitVec.ofNat 9 (hlitValue hlit)
        hdist := BitVec.ofNat 6 (hdistValue hdist)
        cld := t
        lengths := []
        st := .blockTables }

/-- BHDR_RESERVED (R295). -/
def execBhdrReserved (_bfinal : Bool) (s : State) : Result :=
  .next (s.raise .invalidBlockType 0)

end Sys2Proof.Machine
end

