-- ==== Sys2Proof/Machine/CodeLengths.lean ====
section
/-! DEFINITION. The code-length sequence of a dynamic block (R320 to R326). -/

namespace Sys2Proof.Machine

/-- `HLIT + HDIST` (R320). -/
def State.lengthTotal (s : State) : Nat := s.hlit.toNat + s.hdist.toNat

/-- The run/literal lengths, `LENGTHS[0 .. HLIT-1]` (R326). -/
def State.rlLengths (s : State) (lens : List (BitVec 4)) : List Nat :=
  (lens.take s.hlit.toNat).map BitVec.toNat

/-- The distance lengths, `LENGTHS[HLIT .. HLIT+HDIST-1]` (R326). -/
def State.dLengths (s : State) (lens : List (BitVec 4)) : List Nat :=
  ((lens.drop s.hlit.toNat).take s.hdist.toNat).map BitVec.toNat

/-- COMPLETE (R326): the run/literal table strict, the distance table normalizing; `t` bits are committed
with the tables or, on failure, nothing is. -/
def completeLengths (t : Nat) (lens : List (BitVec 4)) (s : State) : Result :=
  match build (s.rlLengths lens) .strict,
      build (s.dLengths lens) (.normalizing s.params.dDefaultSym) with
  | some rl, some d =>
    .next { s.commit t with lengths := lens, rld := rl, dd := d, st := .blockCompressed }
  | _, _ => .next (s.raise .invalidHuffmanTable 0)

/-- The shared end of CL_STEP (R320): overflow (R325), append, completion (R326). -/
def appendLengths (t : Nat) (add : List (BitVec 4)) (s : State) : Result :=
  if s.lengthTotal < s.lengths.length + add.length then
    .next (s.raise .invalidHuffmanCodelengthSequence 0)
  else if s.lengths.length + add.length = s.lengthTotal then
    completeLengths t (s.lengths ++ add) s
  else .next { s.commit t with lengths := s.lengths ++ add }

/-- CL_LIT (R321): append `k`. -/
def execClLit (len : Nat) (k : BitVec 4) (s : State) : Result := appendLengths len [k] s

/-- CL_EXTEND (R322): repeat the last length `3 + x` times; an error with no length yet. -/
def execClExtend (len : Nat) (x : BitVec 2) (s : State) : Result :=
  match s.lengths.getLast? with
  | none => .next (s.raise .invalidHuffmanCodelengthSequence 0)
  | some k => appendLengths (len + 2) (List.replicate (3 + x.toNat) k) s

/-- CL_ZEROS3 (R323): `3 + x` zeros. -/
def execClZeros3 (len : Nat) (x : BitVec 3) (s : State) : Result :=
  appendLengths (len + 3) (List.replicate (3 + x.toNat) 0) s

/-- CL_ZEROS7 (R324): `11 + x` zeros. -/
def execClZeros7 (len : Nat) (x : BitVec 7) (s : State) : Result :=
  appendLengths (len + 7) (List.replicate (11 + x.toNat) 0) s

end Sys2Proof.Machine
end

