-- ==== Sys2Proof/Machine/Commands.lean ====
section
/-! DEFINITION. The host commands NEW, PUSH, PULL, RETAINED, FINISH, READ, PREMUL, UNPACK (its command word) and RESERVED_OP (R221 to R232, R400, R419, R152). -/

namespace Sys2Proof.Machine

/-! ### Observation registers (R54) -/

/-- STATE: the tag code, and FINAL in bit 3 in the states that own it (R54). -/
def State.regState (s : State) : Nat :=
  tagCode s.st + (if ownsFinal s.st && s.final then 8 else 0)

/-- ERROR: the code in bits 7:0 and the argument in bits 31:16, 0 unless `ST = failed` (R54). -/
def State.regError (s : State) : Nat :=
  if s.st = .failed then
    match s.err with
    | some e => errorCode e.kind + e.arg * 2 ^ 16
    | none => 0
  else 0

/-- AUX: bytes left of a stored block, code lengths recovered so far, else 0 (R54). -/
def State.regAux (s : State) : Nat :=
  if s.st = .blockUncompressed then s.blockEnd - s.out.length
  else if s.st = .blockTables then s.lengths.length
  else 0

/-- The register at a byte address, 0 where none is (R54). -/
def State.register (s : State) (addr : Nat) : Nat :=
  match addr with
  | 0x00 => s.regState
  | 0x04 => s.regError
  | 0x08 => s.window
  | 0x0C => s.out.length - s.currentIndex
  | 0x10 => s.pos
  | 0x14 => s.pos / 2 ^ 32
  | 0x18 => avail s.input s.pos
  | 0x1C => s.out.length
  | 0x20 => s.out.length / 2 ^ 32
  | 0x24 => adler s.out
  | 0x28 => s.regAux
  | _ => 0

/-! ### Meanings -/

/-- NEW (R221). -/
def execNew (s : State) : Result := .next s.renew

/-- PUSH (R223): refused in `failed` (R228), over `IN_CAP` (R97) or past the counter width (R52); else the
input grows and the ADVANCE loop runs, one element a step (R222, log 1). -/
def execPush (data : List Byte) (s : State) : Result :=
  if s.st = .failed then .refused .sessionFailed
  else if s.inputOver data.length then .refused .inputCapacity
  else if s.positionOver data.length then .refused .counterWidth
  else .next { s.rebase data with activity := .inflating }

/-- PULL (R224): exactly `n` bytes or None. -/
def execPull (n : BitVec 24) (s : State) : Result :=
  if s.st = .failed then .refused .sessionFailed
  else
    match s.outRelease n.toNat with
    | some r => .next (r.2.respond statusSome r.1)
    | none => .next (s.respond statusDone [])

/-- RETAINED (R225, R131). -/
def execRetained (s : State) : Result :=
  if s.st = .failed then .refused .sessionFailed
  else .next (s.respond statusDone (leBytes 8 (s.out.length - s.currentIndex)))

/-- FINISH (R226): Done in `streamEnd`, else `truncatedBitstream`. -/
def execFinish (s : State) : Result :=
  if s.st = .failed then .refused .sessionFailed
  else if s.st = .streamEnd then .next (s.respond statusDone [])
  else .next (s.raise .truncatedBitstream 0)

/-- READ (R232, R131). -/
def execRead (addr : Byte) (s : State) : Result :=
  if addr.toNat % 4 ≠ 0 then .refused .unalignedRead
  else .next (s.respond statusDone (leBytes 4 (s.register addr.toNat)))

/-- `premul(c, a)` (R419). -/
def premulValue (w : Width) (c a : Nat) : Nat := (c * a + widthMax w / 2) / widthMax w

/-- PREMUL (R419, R131). -/
def execPremul (w : Width) (c a : BitVec 64) (s : State) : Result :=
  .next (s.respond statusDone (leBytes (widthBytes w) (premulValue w c.toNat a.toNat)))

/-- UNPACK with `STD = Common` (R400): the operand block is taken next (log 3). -/
def execUnpack (w : Width) (s : State) : Result :=
  .next { s with activity := .unpacking, dst := w }

/-- RESERVED_OP (R152): refused. -/
def execReservedOp (_w : Word) (_s : State) : Result := .refused .reservedCommand

end Sys2Proof.Machine
end

