-- ==== Sys2Proof/Machine/Stream.lean ====
section
/-! DEFINITION. The zlib container: header and trailer (R260 to R263). -/

namespace Sys2Proof.Machine

/-- `CM` (R260). -/
def headerCm (cmf : Byte) : Nat := cmf.toNat % 16

/-- `CINFO` (R260). -/
def headerCinfo (cmf : Byte) : Nat := cmf.toNat / 16

/-- The value checked modulo 31 (R262 row 3). -/
def headerCheck (cmf flg : Byte) : Nat := cmf.toNat * 256 + flg.toNat

/-- FDICT, `FLG & 0x20` (R262 row 4). -/
def headerFdict (flg : Byte) : Bool := decide (flg.toNat / 32 % 2 = 1)

/-- `WINDOW` of a header, `1 << (8 + CINFO)` (R260, R261). -/
def headerWindow (cmf : Byte) : Nat := 2 ^ (8 + headerCinfo cmf)

/-- ZHDR (R260) with the checks of R262 in their order. -/
def execZhdr (cmf flg : Byte) (s : State) : Result :=
  if headerCm cmf ≠ 8 then .next (s.raise .invalidStreamMethod 0)
  else if 8 ≤ headerCinfo cmf then .next (s.raise .invalidStreamWindowSize (headerCinfo cmf))
  else if headerCheck cmf flg % 31 ≠ 0 then .next (s.raise .invalidStreamHeaderCheckBits 0)
  else if headerFdict flg then .next (s.raise .unexpectedStreamDictionary 0)
  else .next { s.commit 16 with window := headerWindow cmf, st := .blockStart }

/-- ADLER (R263): the trailer must be `Adler(OUT)`; then the PUSH returns Done. -/
def execAdler (v : Word) (s : State) : Result :=
  if v.toNat ≠ adler s.out then .next (s.raise .invalidStreamChecksum 0)
  else .next { (s.commit (padBits s.pos + 32)).respond statusDone [] with st := .streamEnd }

end Sys2Proof.Machine
end

