-- ==== Sys2Proof/Machine/Unpacker.lean ====
section
/-! DEFINITION. The pixel unpacker: the kernels of the 22 formats, the unsupported formats and the iOS standard (R400 to R421). -/

namespace Sys2Proof.Machine

/-- An output colour, components in `0 .. M` (R400). -/
structure Color where
  r : Nat
  g : Nat
  b : Nat
  a : Nat
  deriving DecidableEq, Repr

/-- A colour's bytes: `r, g, b, a`, each `w/8` bytes little-endian (R131). -/
def colorBytes (w : Width) (c : Color) : List Byte :=
  leBytes (widthBytes w) c.r ++ leBytes (widthBytes w) c.g ++ leBytes (widthBytes w) c.b
    ++ leBytes (widthBytes w) c.a

/-- The groups of a buffer with `n` samples of depth `d` each, one colour a group; a tail shorter than a
group is ignored (R404, R420). -/
def unpackGroups (n d : Nat) (kernel : List Nat → Color) (buf : List Byte) : List Color :=
  (List.range (buf.length / (n * sampleBytes d))).map fun i =>
    kernel ((List.range n).map (sample d (n * sampleBytes d) buf i))

/-- Grey kernel, replicated; alpha 0 where the raw sample equals the key, else `M` (R407 to R410). -/
def greyKernel (d : Nat) (w : Width) (key : Option Half) (xs : List Nat) : Color :=
  { r := adapt d (widthBits w) (xs.getD 0 0)
    g := adapt d (widthBits w) (xs.getD 0 0)
    b := adapt d (widthBits w) (xs.getD 0 0)
    a := if key.any fun k => k.toNat == xs.getD 0 0 then 0 else widthMax w }

/-- Grey and alpha kernel (R411, R412). -/
def vaKernel (d : Nat) (w : Width) (xs : List Nat) : Color :=
  { r := adapt d (widthBits w) (xs.getD 0 0)
    g := adapt d (widthBits w) (xs.getD 0 0)
    b := adapt d (widthBits w) (xs.getD 0 0)
    a := adapt d (widthBits w) (xs.getD 1 0) }

/-- The three raw samples are the key triple (R415). -/
def tripleMatch (key : Half × Half × Half) (xs : List Nat) : Bool :=
  key.1.toNat == xs.getD 0 0 && key.2.1.toNat == xs.getD 1 0 && key.2.2.toNat == xs.getD 2 0

/-- RGB kernel; alpha 0 where the triple equals the key, else `M` (R413 to R416). -/
def rgbKernel (d : Nat) (w : Width) (key : Option (Half × Half × Half)) (xs : List Nat) : Color :=
  { r := adapt d (widthBits w) (xs.getD 0 0)
    g := adapt d (widthBits w) (xs.getD 1 0)
    b := adapt d (widthBits w) (xs.getD 2 0)
    a := if key.any fun k => tripleMatch k xs then 0 else widthMax w }

/-- RGBA kernel (R417, R418). -/
def rgbaKernel (d : Nat) (w : Width) (xs : List Nat) : Color :=
  { r := adapt d (widthBits w) (xs.getD 0 0)
    g := adapt d (widthBits w) (xs.getD 1 0)
    b := adapt d (widthBits w) (xs.getD 2 0)
    a := adapt d (widthBits w) (xs.getD 3 0) }

/-- A palette entry adapted as depth 8 (R406). -/
def paletteColor (w : Width) (p : Rgba) : Color :=
  { r := adapt 8 (widthBits w) p.r.toNat
    g := adapt 8 (widthBits w) p.g.toNat
    b := adapt 8 (widthBits w) p.b.toNat
    a := adapt 8 (widthBits w) p.a.toNat }

/-- The colours of palette indices, `none` when one is at or past `NP` (R406). -/
def indexedColors (w : Width) (pal : List Rgba) : List Byte → Option (List Color)
  | [] => some []
  | x :: xs =>
    match pal[x.toNat]?, indexedColors w pal xs with
    | some p, some cs => some (paletteColor w p :: cs)
    | _, _ => none

/-- The response of a successful UNPACK: the pixel count, then the colours (R131). -/
def State.unpackOk (s : State) (cs : List Color) : State :=
  s.respond statusDone (leBytes 4 cs.length ++ cs.flatMap (colorBytes s.dst))

/-- The response of a failed UNPACK: no colour, no other state (R400, R450). -/
def State.unpackError (s : State) (k : ErrorKind) : State := s.respond (statusError k 0) []

/-- A kernel over all groups (R400). -/
def unpackWith (n d : Nat) (kernel : List Nat → Color) (buf : List Byte) (s : State) : Result :=
  .next (s.unpackOk (unpackGroups n d kernel buf))

/-- The indexed formats (R406): `NP` outside 1..256 is refused (R400). -/
def unpackIndexed (pal : List Rgba) (buf : List Byte) (s : State) : Result :=
  if paletteCountOk pal then
    match indexedColors s.dst pal buf with
    | some cs => .next (s.unpackOk cs)
    | none => .next (s.unpackError .paletteIndexOutOfRange)
  else .refused .paletteCount

/-- An UNPACK that answers `Error(unsupported)` (R401, R402), after the palette count of an operand block that has
one: `NP` outside 1..256 is refused first (R455, R456, log 12). -/
def unpackUnsupported (blk : Block) (s : State) : Result :=
  if hasPalette blk.fmt && !paletteCountOk blk.palette then .refused .paletteCount
  else .next (s.unpackError .unsupported)

/-! ### The formats (R132) -/

/-- FMT_indexed1 (R406). -/
def execFmtIndexed1 (pal : List Rgba) (buf : List Byte) (s : State) : Result :=
  unpackIndexed pal buf s

/-- FMT_indexed2 (R406). -/
def execFmtIndexed2 (pal : List Rgba) (buf : List Byte) (s : State) : Result :=
  unpackIndexed pal buf s

/-- FMT_indexed4 (R406). -/
def execFmtIndexed4 (pal : List Rgba) (buf : List Byte) (s : State) : Result :=
  unpackIndexed pal buf s

/-- FMT_indexed8 (R406). -/
def execFmtIndexed8 (pal : List Rgba) (buf : List Byte) (s : State) : Result :=
  unpackIndexed pal buf s

/-- FMT_v1 (R407). -/
def execFmtV1 (buf : List Byte) (s : State) : Result :=
  unpackWith 1 1 (greyKernel 1 s.dst none) buf s

/-- FMT_v2 (R407). -/
def execFmtV2 (buf : List Byte) (s : State) : Result :=
  unpackWith 1 2 (greyKernel 2 s.dst none) buf s

/-- FMT_v4 (R407). -/
def execFmtV4 (buf : List Byte) (s : State) : Result :=
  unpackWith 1 4 (greyKernel 4 s.dst none) buf s

/-- FMT_v8 (R407). -/
def execFmtV8 (buf : List Byte) (s : State) : Result :=
  unpackWith 1 8 (greyKernel 8 s.dst none) buf s

/-- FMT_v16 (R408). -/
def execFmtV16 (buf : List Byte) (s : State) : Result :=
  unpackWith 1 16 (greyKernel 16 s.dst none) buf s

/-- FMT_v1_key (R409). -/
def execFmtV1Key (k : Half) (buf : List Byte) (s : State) : Result :=
  unpackWith 1 1 (greyKernel 1 s.dst (some k)) buf s

/-- FMT_v2_key (R409). -/
def execFmtV2Key (k : Half) (buf : List Byte) (s : State) : Result :=
  unpackWith 1 2 (greyKernel 2 s.dst (some k)) buf s

/-- FMT_v4_key (R409). -/
def execFmtV4Key (k : Half) (buf : List Byte) (s : State) : Result :=
  unpackWith 1 4 (greyKernel 4 s.dst (some k)) buf s

/-- FMT_v8_key (R409). -/
def execFmtV8Key (k : Half) (buf : List Byte) (s : State) : Result :=
  unpackWith 1 8 (greyKernel 8 s.dst (some k)) buf s

/-- FMT_v16_key (R410). -/
def execFmtV16Key (k : Half) (buf : List Byte) (s : State) : Result :=
  unpackWith 1 16 (greyKernel 16 s.dst (some k)) buf s

/-- FMT_va8 (R411). -/
def execFmtVa8 (buf : List Byte) (s : State) : Result :=
  unpackWith 2 8 (vaKernel 8 s.dst) buf s

/-- FMT_va16 (R412). -/
def execFmtVa16 (buf : List Byte) (s : State) : Result :=
  unpackWith 2 16 (vaKernel 16 s.dst) buf s

/-- FMT_rgb8 (R413). -/
def execFmtRgb8 (buf : List Byte) (s : State) : Result :=
  unpackWith 3 8 (rgbKernel 8 s.dst none) buf s

/-- FMT_rgb16 (R414). -/
def execFmtRgb16 (buf : List Byte) (s : State) : Result :=
  unpackWith 3 16 (rgbKernel 16 s.dst none) buf s

/-- FMT_rgb8_key (R415). -/
def execFmtRgb8Key (kr kg kb : Half) (buf : List Byte) (s : State) : Result :=
  unpackWith 3 8 (rgbKernel 8 s.dst (some (kr, kg, kb))) buf s

/-- FMT_rgb16_key (R416). -/
def execFmtRgb16Key (kr kg kb : Half) (buf : List Byte) (s : State) : Result :=
  unpackWith 3 16 (rgbKernel 16 s.dst (some (kr, kg, kb))) buf s

/-- FMT_rgba8 (R417). -/
def execFmtRgba8 (buf : List Byte) (s : State) : Result :=
  unpackWith 4 8 (rgbaKernel 8 s.dst) buf s

/-- FMT_rgba16 (R418). -/
def execFmtRgba16 (buf : List Byte) (s : State) : Result :=
  unpackWith 4 16 (rgbaKernel 16 s.dst) buf s

/-- FMT_UNSUPPORTED (R402). -/
def execFmtUnsupported (blk : Block) (s : State) : Result := unpackUnsupported blk s

/-- STD_IOS (R401): the format is not examined. -/
def execStdIos (_w : Width) (blk : Block) (s : State) : Result := unpackUnsupported blk s

end Sys2Proof.Machine
end

