-- ==== Sys2Proof/Machine/Dispatch.lean ====
section
/-! DEFINITION. The dispatch of every instruction to its meaning, one arm a constructor. -/

namespace Sys2Proof.Machine

def exec (i : Instr) (s : State) : Host.Outcome State Fault Refusal :=
  match i with
  | .new => Sys2Proof.Machine.execNew s
  | .push data => Sys2Proof.Machine.execPush data s
  | .pull n => Sys2Proof.Machine.execPull n s
  | .retained => Sys2Proof.Machine.execRetained s
  | .finish => Sys2Proof.Machine.execFinish s
  | .unpack dst => Sys2Proof.Machine.execUnpack dst s
  | .premul dst c a => Sys2Proof.Machine.execPremul dst c a s
  | .read addr => Sys2Proof.Machine.execRead addr s
  | .reservedOp word => Sys2Proof.Machine.execReservedOp word s
  | .zhdr cmf flg => Sys2Proof.Machine.execZhdr cmf flg s
  | .bhdrStored bfinal len nlen => Sys2Proof.Machine.execBhdrStored bfinal len nlen s
  | .bhdrFixed bfinal => Sys2Proof.Machine.execBhdrFixed bfinal s
  | .bhdrDynamic bfinal hlit hdist hclen cl => Sys2Proof.Machine.execBhdrDynamic bfinal hlit hdist hclen cl s
  | .bhdrReserved bfinal => Sys2Proof.Machine.execBhdrReserved bfinal s
  | .byte v => Sys2Proof.Machine.execByte v s
  | .storedEnd => Sys2Proof.Machine.execStoredEnd s
  | .clLit len k => Sys2Proof.Machine.execClLit len k s
  | .clExtend len x => Sys2Proof.Machine.execClExtend len x s
  | .clZeros3 len x => Sys2Proof.Machine.execClZeros3 len x s
  | .clZeros7 len x => Sys2Proof.Machine.execClZeros7 len x s
  | .lit len v => Sys2Proof.Machine.execLit len v s
  | .eob len => Sys2Proof.Machine.execEob len s
  | .run257 len => Sys2Proof.Machine.execRun257 len s
  | .run258 len => Sys2Proof.Machine.execRun258 len s
  | .run259 len => Sys2Proof.Machine.execRun259 len s
  | .run260 len => Sys2Proof.Machine.execRun260 len s
  | .run261 len => Sys2Proof.Machine.execRun261 len s
  | .run262 len => Sys2Proof.Machine.execRun262 len s
  | .run263 len => Sys2Proof.Machine.execRun263 len s
  | .run264 len => Sys2Proof.Machine.execRun264 len s
  | .run265 len x => Sys2Proof.Machine.execRun265 len x s
  | .run266 len x => Sys2Proof.Machine.execRun266 len x s
  | .run267 len x => Sys2Proof.Machine.execRun267 len x s
  | .run268 len x => Sys2Proof.Machine.execRun268 len x s
  | .run269 len x => Sys2Proof.Machine.execRun269 len x s
  | .run270 len x => Sys2Proof.Machine.execRun270 len x s
  | .run271 len x => Sys2Proof.Machine.execRun271 len x s
  | .run272 len x => Sys2Proof.Machine.execRun272 len x s
  | .run273 len x => Sys2Proof.Machine.execRun273 len x s
  | .run274 len x => Sys2Proof.Machine.execRun274 len x s
  | .run275 len x => Sys2Proof.Machine.execRun275 len x s
  | .run276 len x => Sys2Proof.Machine.execRun276 len x s
  | .run277 len x => Sys2Proof.Machine.execRun277 len x s
  | .run278 len x => Sys2Proof.Machine.execRun278 len x s
  | .run279 len x => Sys2Proof.Machine.execRun279 len x s
  | .run280 len x => Sys2Proof.Machine.execRun280 len x s
  | .run281 len x => Sys2Proof.Machine.execRun281 len x s
  | .run282 len x => Sys2Proof.Machine.execRun282 len x s
  | .run283 len x => Sys2Proof.Machine.execRun283 len x s
  | .run284 len x => Sys2Proof.Machine.execRun284 len x s
  | .run285 len => Sys2Proof.Machine.execRun285 len s
  | .rl286 len => Sys2Proof.Machine.execRl286 len s
  | .rl287 len => Sys2Proof.Machine.execRl287 len s
  | .dist0 len => Sys2Proof.Machine.execDist0 len s
  | .dist1 len => Sys2Proof.Machine.execDist1 len s
  | .dist2 len => Sys2Proof.Machine.execDist2 len s
  | .dist3 len => Sys2Proof.Machine.execDist3 len s
  | .dist4 len x => Sys2Proof.Machine.execDist4 len x s
  | .dist5 len x => Sys2Proof.Machine.execDist5 len x s
  | .dist6 len x => Sys2Proof.Machine.execDist6 len x s
  | .dist7 len x => Sys2Proof.Machine.execDist7 len x s
  | .dist8 len x => Sys2Proof.Machine.execDist8 len x s
  | .dist9 len x => Sys2Proof.Machine.execDist9 len x s
  | .dist10 len x => Sys2Proof.Machine.execDist10 len x s
  | .dist11 len x => Sys2Proof.Machine.execDist11 len x s
  | .dist12 len x => Sys2Proof.Machine.execDist12 len x s
  | .dist13 len x => Sys2Proof.Machine.execDist13 len x s
  | .dist14 len x => Sys2Proof.Machine.execDist14 len x s
  | .dist15 len x => Sys2Proof.Machine.execDist15 len x s
  | .dist16 len x => Sys2Proof.Machine.execDist16 len x s
  | .dist17 len x => Sys2Proof.Machine.execDist17 len x s
  | .dist18 len x => Sys2Proof.Machine.execDist18 len x s
  | .dist19 len x => Sys2Proof.Machine.execDist19 len x s
  | .dist20 len x => Sys2Proof.Machine.execDist20 len x s
  | .dist21 len x => Sys2Proof.Machine.execDist21 len x s
  | .dist22 len x => Sys2Proof.Machine.execDist22 len x s
  | .dist23 len x => Sys2Proof.Machine.execDist23 len x s
  | .dist24 len x => Sys2Proof.Machine.execDist24 len x s
  | .dist25 len x => Sys2Proof.Machine.execDist25 len x s
  | .dist26 len x => Sys2Proof.Machine.execDist26 len x s
  | .dist27 len x => Sys2Proof.Machine.execDist27 len x s
  | .dist28 len x => Sys2Proof.Machine.execDist28 len x s
  | .dist29 len x => Sys2Proof.Machine.execDist29 len x s
  | .d30 len => Sys2Proof.Machine.execD30 len s
  | .d31 len => Sys2Proof.Machine.execD31 len s
  | .adler v => Sys2Proof.Machine.execAdler v s
  | .fmtIndexed1 pal buf => Sys2Proof.Machine.execFmtIndexed1 pal buf s
  | .fmtIndexed2 pal buf => Sys2Proof.Machine.execFmtIndexed2 pal buf s
  | .fmtIndexed4 pal buf => Sys2Proof.Machine.execFmtIndexed4 pal buf s
  | .fmtIndexed8 pal buf => Sys2Proof.Machine.execFmtIndexed8 pal buf s
  | .fmtV1 buf => Sys2Proof.Machine.execFmtV1 buf s
  | .fmtV2 buf => Sys2Proof.Machine.execFmtV2 buf s
  | .fmtV4 buf => Sys2Proof.Machine.execFmtV4 buf s
  | .fmtV8 buf => Sys2Proof.Machine.execFmtV8 buf s
  | .fmtV16 buf => Sys2Proof.Machine.execFmtV16 buf s
  | .fmtV1Key k buf => Sys2Proof.Machine.execFmtV1Key k buf s
  | .fmtV2Key k buf => Sys2Proof.Machine.execFmtV2Key k buf s
  | .fmtV4Key k buf => Sys2Proof.Machine.execFmtV4Key k buf s
  | .fmtV8Key k buf => Sys2Proof.Machine.execFmtV8Key k buf s
  | .fmtV16Key k buf => Sys2Proof.Machine.execFmtV16Key k buf s
  | .fmtVa8 buf => Sys2Proof.Machine.execFmtVa8 buf s
  | .fmtVa16 buf => Sys2Proof.Machine.execFmtVa16 buf s
  | .fmtRgb8 buf => Sys2Proof.Machine.execFmtRgb8 buf s
  | .fmtRgb16 buf => Sys2Proof.Machine.execFmtRgb16 buf s
  | .fmtRgb8Key kr kg kb buf => Sys2Proof.Machine.execFmtRgb8Key kr kg kb buf s
  | .fmtRgb16Key kr kg kb buf => Sys2Proof.Machine.execFmtRgb16Key kr kg kb buf s
  | .fmtRgba8 buf => Sys2Proof.Machine.execFmtRgba8 buf s
  | .fmtRgba16 buf => Sys2Proof.Machine.execFmtRgba16 buf s
  | .fmtUnsupported blk => Sys2Proof.Machine.execFmtUnsupported blk s
  | .stdIos dst blk => Sys2Proof.Machine.execStdIos dst blk s

end Sys2Proof.Machine
end

