-- ==== Sys2Proof/WellFormed.lean ====
section
/-! DEFINITION. WellFormed: the operand ranges the encodings admit (R130, R133, R138, R150). -/

namespace Sys2Proof

open Sys2Proof.Machine

/-- A Huffman code has 1 to 15 bits (R150). -/
def codeLenOk (len : Nat) : Bool := decide (1 ≤ len) && decide (len ≤ 15)

/-- A code-length code has 1 to 7 bits (R193). -/
def clLenOk (len : Nat) : Bool := decide (1 ≤ len) && decide (len ≤ 7)

/-- A buffer whose length fits `LB` (R133). -/
def bufOk (buf : List Byte) : Bool := decide (buf.length < 2 ^ 32)

/-- A palette whose length fits the 2-byte `NP` field; `NP` in 1..256 is the command's own check (R133, R400). -/
def palOk (pal : List Rgba) : Bool := decide (pal.length < 2 ^ 16)

/-- A block whose keys and palette are those its FMT word carries (R133, R400). -/
def Block.wf (b : Block) : Bool :=
  decide (b.keys.length = keyCount b.fmt) && palOk b.palette
    && (hasPalette b.fmt || decide (b.palette.length = 0)) && bufOk b.buf

/-- The operands the encodings admit. -/
def Instr.wf : Instr → Bool
  | .new => true
  | .push data => decide (data.length < 2 ^ 24)
  | .pull _ => true
  | .retained => true
  | .finish => true
  | .unpack _ => true
  | .premul w c a => decide (c.toNat < 2 ^ widthBits w) && decide (a.toNat < 2 ^ widthBits w)
  | .read _ => true
  | .reservedOp w => reservedWord w
  | .zhdr _ _ => true
  | .bhdrStored _ _ _ => true
  | .bhdrFixed _ => true
  | .bhdrDynamic _ hlit _ hclen cl =>
    decide (cl.length = if 286 < hlitValue hlit then 0 else hclenValue hclen)
  | .bhdrReserved _ => true
  | .byte _ => true
  | .storedEnd => true
  | .clLit len _ => clLenOk len
  | .clExtend len _ => clLenOk len
  | .clZeros3 len _ => clLenOk len
  | .clZeros7 len _ => clLenOk len
  | .lit len _ => codeLenOk len
  | .eob len => codeLenOk len
  | .run257 len => codeLenOk len
  | .run258 len => codeLenOk len
  | .run259 len => codeLenOk len
  | .run260 len => codeLenOk len
  | .run261 len => codeLenOk len
  | .run262 len => codeLenOk len
  | .run263 len => codeLenOk len
  | .run264 len => codeLenOk len
  | .run265 len _ => codeLenOk len
  | .run266 len _ => codeLenOk len
  | .run267 len _ => codeLenOk len
  | .run268 len _ => codeLenOk len
  | .run269 len _ => codeLenOk len
  | .run270 len _ => codeLenOk len
  | .run271 len _ => codeLenOk len
  | .run272 len _ => codeLenOk len
  | .run273 len _ => codeLenOk len
  | .run274 len _ => codeLenOk len
  | .run275 len _ => codeLenOk len
  | .run276 len _ => codeLenOk len
  | .run277 len _ => codeLenOk len
  | .run278 len _ => codeLenOk len
  | .run279 len _ => codeLenOk len
  | .run280 len _ => codeLenOk len
  | .run281 len _ => codeLenOk len
  | .run282 len _ => codeLenOk len
  | .run283 len _ => codeLenOk len
  | .run284 len _ => codeLenOk len
  | .run285 len => codeLenOk len
  | .rl286 len => codeLenOk len
  | .rl287 len => codeLenOk len
  | .dist0 len => codeLenOk len
  | .dist1 len => codeLenOk len
  | .dist2 len => codeLenOk len
  | .dist3 len => codeLenOk len
  | .dist4 len _ => codeLenOk len
  | .dist5 len _ => codeLenOk len
  | .dist6 len _ => codeLenOk len
  | .dist7 len _ => codeLenOk len
  | .dist8 len _ => codeLenOk len
  | .dist9 len _ => codeLenOk len
  | .dist10 len _ => codeLenOk len
  | .dist11 len _ => codeLenOk len
  | .dist12 len _ => codeLenOk len
  | .dist13 len _ => codeLenOk len
  | .dist14 len _ => codeLenOk len
  | .dist15 len _ => codeLenOk len
  | .dist16 len _ => codeLenOk len
  | .dist17 len _ => codeLenOk len
  | .dist18 len _ => codeLenOk len
  | .dist19 len _ => codeLenOk len
  | .dist20 len _ => codeLenOk len
  | .dist21 len _ => codeLenOk len
  | .dist22 len _ => codeLenOk len
  | .dist23 len _ => codeLenOk len
  | .dist24 len _ => codeLenOk len
  | .dist25 len _ => codeLenOk len
  | .dist26 len _ => codeLenOk len
  | .dist27 len _ => codeLenOk len
  | .dist28 len _ => codeLenOk len
  | .dist29 len _ => codeLenOk len
  | .d30 len => codeLenOk len
  | .d31 len => codeLenOk len
  | .adler _ => true
  | .fmtIndexed1 pal buf => palOk pal && bufOk buf
  | .fmtIndexed2 pal buf => palOk pal && bufOk buf
  | .fmtIndexed4 pal buf => palOk pal && bufOk buf
  | .fmtIndexed8 pal buf => palOk pal && bufOk buf
  | .fmtV1 buf => bufOk buf
  | .fmtV2 buf => bufOk buf
  | .fmtV4 buf => bufOk buf
  | .fmtV8 buf => bufOk buf
  | .fmtV16 buf => bufOk buf
  | .fmtV1Key _ buf => bufOk buf
  | .fmtV2Key _ buf => bufOk buf
  | .fmtV4Key _ buf => bufOk buf
  | .fmtV8Key _ buf => bufOk buf
  | .fmtV16Key _ buf => bufOk buf
  | .fmtVa8 buf => bufOk buf
  | .fmtVa16 buf => bufOk buf
  | .fmtRgb8 buf => bufOk buf
  | .fmtRgb16 buf => bufOk buf
  | .fmtRgb8Key _ _ _ buf => bufOk buf
  | .fmtRgb16Key _ _ _ buf => bufOk buf
  | .fmtRgba8 buf => bufOk buf
  | .fmtRgba16 buf => bufOk buf
  | .fmtUnsupported blk => blk.wf && !legalFormat blk.fmt
  | .stdIos _ blk => blk.wf

end Sys2Proof
end

