-- ==== Sys2Proof/Decode.lean ====
section
/-! DEFINITION. The decoder of the three instruction spaces: command port, UNPACK operand block, compressed stream; the encoder from the same tables; and the host's table-word decoder. -/

namespace Sys2Proof

open Sys2Proof.Machine

/-! ### The command port (R130) -/

/-- `n` palette entries of 4 bytes (R133). -/
def readPalette : Nat → List Byte → List Rgba
  | n + 1, r :: g :: b :: a :: rest => ⟨r, g, b, a⟩ :: readPalette n rest
  | _, _ => []

/-- `n` 16-bit keys (R133), each little-endian. R133 says so of the single key; for the three keys `kr, kg, kb`
the byte order is a DESIGN CHOICE (log 22). -/
def readKeys : Nat → List Byte → List Half
  | n + 1, lo :: hi :: rest => atomOf lo hi :: readKeys n rest
  | _, _ => []

/-- The palette part of an operand block: `NP` and its entries when `CT = 3` (R133). -/
def decodePalette (f : Word) (bytes : List Byte) : Option (List Rgba × List Byte) :=
  if hasPalette f then
    (takeBytes 2 bytes).bind fun np =>
      (takeBytes (4 * leNat np.1) np.2).map fun p => (readPalette (leNat np.1) p.1, p.2)
  else some ([], bytes)

/-- An UNPACK operand block, parsed from `CT` and `KEY` as written (R133, R400); `none` while it is not all there. -/
def decodeBlock (bytes : List Byte) : Option (Block × List Byte) :=
  (takeBytes 4 bytes).bind fun f =>
    (takeBytes (2 * keyCount (BitVec.ofNat 32 (leNat f.1))) f.2).bind fun k =>
      (decodePalette (BitVec.ofNat 32 (leNat f.1)) k.2).bind fun p =>
        (takeBytes 4 p.2).bind fun l =>
          (takeBytes (leNat l.1) l.2).map fun b =>
            ({ fmt := BitVec.ofNat 32 (leNat f.1)
               keys := readKeys (keyCount (BitVec.ofNat 32 (leNat f.1))) k.1
               palette := p.1
               buf := b.1 }, b.2)

/-- The operands of a command word that is not reserved, by `OP` (R130). -/
def decodeOperands (w : Word) (rest : List Byte) : Option (Instr × List Byte) :=
  match cmdOp w with
  | 0 => some (.new, rest)
  | 1 => (takeBytes (cmdImm w) rest).map fun d => (.push d.1, d.2)
  | 2 => some (.pull (BitVec.ofNat 24 (cmdImm w)), rest)
  | 3 => some (.retained, rest)
  | 4 => some (.finish, rest)
  | 5 =>
    if cmdImm w / 4 % 2 = 1 then
      (decodeBlock rest).map fun b => (.stdIos (widthOf (cmdImm w % 4)) b.1, b.2)
    else some (.unpack (widthOf (cmdImm w % 4)), rest)
  | 6 =>
    (takeBytes (widthBytes (widthOf (cmdImm w % 4))) rest).bind fun c =>
      (takeBytes (widthBytes (widthOf (cmdImm w % 4))) c.2).map fun a =>
        (.premul (widthOf (cmdImm w % 4)) (BitVec.ofNat 64 (leNat c.1)) (BitVec.ofNat 64 (leNat a.1)),
          a.2)
  | 7 => some (.read (BitVec.ofNat 8 (cmdImm w)), rest)
  | _ => some (.reservedOp w, rest)

/-- The next command of the port and the bytes after it; `none` while it is not all there. A reserved word
is RESERVED_OP (R152). R130 gives the command word as a 32-bit number: that its four bytes stand least significant
first on the port is a DESIGN CHOICE (log 21). -/
def decodeCommand (bytes : List Byte) : Option (Instr × List Byte) :=
  (takeBytes 4 bytes).bind fun w =>
    if reservedWord (BitVec.ofNat 32 (leNat w.1)) then
      some (.reservedOp (BitVec.ofNat 32 (leNat w.1)), w.2)
    else decodeOperands (BitVec.ofNat 32 (leNat w.1)) w.2

/-! ### The UNPACK operand block (R132, R133) -/

/-- The kernel a block selects by its FMT word (R132); any other word is unsupported (R402). -/
def formatInstr (b : Block) : Instr :=
  match b.fmt.toNat with
  | 0x13 => .fmtIndexed1 b.palette b.buf
  | 0x23 => .fmtIndexed2 b.palette b.buf
  | 0x43 => .fmtIndexed4 b.palette b.buf
  | 0x83 => .fmtIndexed8 b.palette b.buf
  | 0x10 => .fmtV1 b.buf
  | 0x20 => .fmtV2 b.buf
  | 0x40 => .fmtV4 b.buf
  | 0x80 => .fmtV8 b.buf
  | 0x100 => .fmtV16 b.buf
  | 0x210 => .fmtV1Key (b.keys.getD 0 0) b.buf
  | 0x220 => .fmtV2Key (b.keys.getD 0 0) b.buf
  | 0x240 => .fmtV4Key (b.keys.getD 0 0) b.buf
  | 0x280 => .fmtV8Key (b.keys.getD 0 0) b.buf
  | 0x300 => .fmtV16Key (b.keys.getD 0 0) b.buf
  | 0x84 => .fmtVa8 b.buf
  | 0x104 => .fmtVa16 b.buf
  | 0x82 => .fmtRgb8 b.buf
  | 0x102 => .fmtRgb16 b.buf
  | 0x282 => .fmtRgb8Key (b.keys.getD 0 0) (b.keys.getD 1 0) (b.keys.getD 2 0) b.buf
  | 0x302 => .fmtRgb16Key (b.keys.getD 0 0) (b.keys.getD 1 0) (b.keys.getD 2 0) b.buf
  | 0x86 => .fmtRgba8 b.buf
  | 0x106 => .fmtRgba16 b.buf
  | _ => .fmtUnsupported b

/-- The next operand block of the port as its kernel instruction. -/
def decodeFormat (bytes : List Byte) : Option (Instr × List Byte) :=
  (decodeBlock bytes).map fun b => (formatInstr b.1, b.2)

/-! ### The compressed stream (R134 to R150) -/

/-- The run instruction of `run(j)` (R143, R144). -/
def runInstr (j len x : Nat) : Instr :=
  match j with
  | 0 => .run257 len
  | 1 => .run258 len
  | 2 => .run259 len
  | 3 => .run260 len
  | 4 => .run261 len
  | 5 => .run262 len
  | 6 => .run263 len
  | 7 => .run264 len
  | 8 => .run265 len (BitVec.ofNat 1 x)
  | 9 => .run266 len (BitVec.ofNat 1 x)
  | 10 => .run267 len (BitVec.ofNat 1 x)
  | 11 => .run268 len (BitVec.ofNat 1 x)
  | 12 => .run269 len (BitVec.ofNat 2 x)
  | 13 => .run270 len (BitVec.ofNat 2 x)
  | 14 => .run271 len (BitVec.ofNat 2 x)
  | 15 => .run272 len (BitVec.ofNat 2 x)
  | 16 => .run273 len (BitVec.ofNat 3 x)
  | 17 => .run274 len (BitVec.ofNat 3 x)
  | 18 => .run275 len (BitVec.ofNat 3 x)
  | 19 => .run276 len (BitVec.ofNat 3 x)
  | 20 => .run277 len (BitVec.ofNat 4 x)
  | 21 => .run278 len (BitVec.ofNat 4 x)
  | 22 => .run279 len (BitVec.ofNat 4 x)
  | 23 => .run280 len (BitVec.ofNat 4 x)
  | 24 => .run281 len (BitVec.ofNat 5 x)
  | 25 => .run282 len (BitVec.ofNat 5 x)
  | 26 => .run283 len (BitVec.ofNat 5 x)
  | 27 => .run284 len (BitVec.ofNat 5 x)
  | _ => .run285 len

/-- The distance instruction of symbol `k` (R145). -/
def distInstr (k len x : Nat) : Instr :=
  match k with
  | 0 => .dist0 len
  | 1 => .dist1 len
  | 2 => .dist2 len
  | 3 => .dist3 len
  | 4 => .dist4 len (BitVec.ofNat 1 x)
  | 5 => .dist5 len (BitVec.ofNat 1 x)
  | 6 => .dist6 len (BitVec.ofNat 2 x)
  | 7 => .dist7 len (BitVec.ofNat 2 x)
  | 8 => .dist8 len (BitVec.ofNat 3 x)
  | 9 => .dist9 len (BitVec.ofNat 3 x)
  | 10 => .dist10 len (BitVec.ofNat 4 x)
  | 11 => .dist11 len (BitVec.ofNat 4 x)
  | 12 => .dist12 len (BitVec.ofNat 5 x)
  | 13 => .dist13 len (BitVec.ofNat 5 x)
  | 14 => .dist14 len (BitVec.ofNat 6 x)
  | 15 => .dist15 len (BitVec.ofNat 6 x)
  | 16 => .dist16 len (BitVec.ofNat 7 x)
  | 17 => .dist17 len (BitVec.ofNat 7 x)
  | 18 => .dist18 len (BitVec.ofNat 8 x)
  | 19 => .dist19 len (BitVec.ofNat 8 x)
  | 20 => .dist20 len (BitVec.ofNat 9 x)
  | 21 => .dist21 len (BitVec.ofNat 9 x)
  | 22 => .dist22 len (BitVec.ofNat 10 x)
  | 23 => .dist23 len (BitVec.ofNat 10 x)
  | 24 => .dist24 len (BitVec.ofNat 11 x)
  | 25 => .dist25 len (BitVec.ofNat 11 x)
  | 26 => .dist26 len (BitVec.ofNat 12 x)
  | 27 => .dist27 len (BitVec.ofNat 12 x)
  | 28 => .dist28 len (BitVec.ofNat 13 x)
  | _ => .dist29 len (BitVec.ofNat 13 x)

/-- Extra bits of a code-length symbol (R142). -/
def clExtraBits (sym : Nat) : Nat :=
  if sym = 16 then 2 else if sym = 17 then 3 else if sym = 18 then 7 else 0

/-- The code-length instruction of a symbol 0..18 (R142). -/
def clInstr (sym len x : Nat) : Instr :=
  if sym = 16 then .clExtend len (BitVec.ofNat 2 x)
  else if sym = 17 then .clZeros3 len (BitVec.ofNat 3 x)
  else if sym = 18 then .clZeros7 len (BitVec.ofNat 7 x)
  else .clLit len (BitVec.ofNat 4 sym)

/-- Decode a symbol at `c.pos`; NeedsMore when its code is not all pushed (R190, R191). -/
def withSymbol (t : Table) (c : ElementCtx) (k : Nat → Nat → Element) : Element :=
  match t.decode c.input c.pos with
  | none => .stop .noValue
  | some e => if avail c.input c.pos < e.len then .needMore else k e.sym e.len

/-- zlib header (R135, R260): nothing is examined below 16 bits. -/
def decodeHeader (c : ElementCtx) : Element :=
  if avail c.input c.pos < 16 then .needMore
  else .instr (.zhdr (BitVec.ofNat 8 (inBits c.input c.pos 8))
    (BitVec.ofNat 8 (inBits c.input (c.pos + 8) 8)))

/-- Stored block header (R137, R291). -/
def decodeStored (c : ElementCtx) (bf : Bool) : Element :=
  if avail c.input c.pos < 3 + padBits (c.pos + 3) + 32 then .needMore
  else .instr (.bhdrStored bf
    (BitVec.ofNat 16 (inBits c.input (c.pos + 3 + padBits (c.pos + 3)) 16))
    (BitVec.ofNat 16 (inBits c.input (c.pos + 3 + padBits (c.pos + 3) + 16) 16)))

/-- `n` 3-bit code lengths from `p` (R138). -/
def readCl (input : List Byte) (p : Nat) : Nat → List (BitVec 3)
  | 0 => []
  | n + 1 => BitVec.ofNat 3 (inBits input p 3) :: readCl input (p + 3) n

/-- Dynamic block header (R138): the counts first (R293), the code lengths only for a legal HLIT (R294). -/
def decodeDynamic (c : ElementCtx) (bf : Bool) : Element :=
  if avail c.input c.pos < 17 then .needMore
  else
    let hlit := BitVec.ofNat 5 (inBits c.input (c.pos + 3) 5)
    let hdist := BitVec.ofNat 5 (inBits c.input (c.pos + 8) 5)
    let hclen := BitVec.ofNat 4 (inBits c.input (c.pos + 13) 4)
    if 286 < hlitValue hlit then .instr (.bhdrDynamic bf hlit hdist hclen [])
    else if avail c.input c.pos < 17 + 3 * hclenValue hclen then .needMore
    else .instr (.bhdrDynamic bf hlit hdist hclen
      (readCl c.input (c.pos + 17) (hclenValue hclen)))

/-- Block header (R136, R290). -/
def decodeBlockHeader (c : ElementCtx) : Element :=
  if avail c.input c.pos < 3 then .needMore
  else
    let bf := decide (bitAt c.input c.pos = 1)
    match inBits c.input (c.pos + 1) 2 with
    | 0 => decodeStored c bf
    | 1 => .instr (.bhdrFixed bf)
    | 2 => decodeDynamic c bf
    | _ => .instr (.bhdrReserved bf)

/-- Code-length element (R142, R320). The symbols of `CLD` are 0..18 (R36): a table with another holds no value. -/
def decodeCl (c : ElementCtx) : Element :=
  withSymbol c.cld c fun sym len =>
    if 19 ≤ sym then .stop .noValue
    else if avail c.input c.pos < len + clExtraBits sym then .needMore
    else .instr (clInstr sym len (inBits c.input (c.pos + len) (clExtraBits sym)))

/-- Run/literal symbol with a run's extra bits (R143). Every symbol from 286 on raises (R350, R355): 286 is
RL_286, the others are RL_287. -/
def decodeRl (c : ElementCtx) : Element :=
  withSymbol c.rld c fun sym len =>
    if sym < 256 then .instr (.lit len (BitVec.ofNat 8 sym))
    else if sym = 256 then .instr (.eob len)
    else if sym < 286 then
      if avail c.input c.pos < len + runExtra (sym - 257) then .needMore
      else .instr (runInstr (sym - 257) len (inBits c.input (c.pos + len) (runExtra (sym - 257))))
    else if sym = 286 then .instr (.rl286 len)
    else .instr (.rl287 len)

/-- Distance symbol with its extra bits, at `P + t1` (R145). Every symbol from 30 on raises (R353, R356): 30 is
D_30, the others are D_31. -/
def decodeDist (c : ElementCtx) : Element :=
  withSymbol c.dd c fun sym len =>
    if sym < 30 then
      if avail c.input c.pos < len + distExtra sym then .needMore
      else .instr (distInstr sym len (inBits c.input (c.pos + len) (distExtra sym)))
    else if sym = 30 then .instr (.d30 len)
    else .instr (.d31 len)

/-- Stored byte or the end of a stored block (R358, R359). -/
def decodeStoredByte (c : ElementCtx) : Element :=
  if c.blockDone then .instr .storedEnd
  else if avail c.input c.pos < 8 then .needMore
  else .instr (.byte (BitVec.ofNat 8 (inBits c.input c.pos 8)))

/-- Four trailer bytes from `q`, big-endian (R149). -/
def trailerValue (input : List Byte) (q : Nat) : Nat :=
  inBits input q 8 * 2 ^ 24 + inBits input (q + 8) 8 * 2 ^ 16 + inBits input (q + 16) 8 * 2 ^ 8
    + inBits input (q + 24) 8

/-- Trailer (R149, R263). -/
def decodeTrailer (c : ElementCtx) : Element :=
  if avail c.input c.pos < padBits c.pos + 32 then .needMore
  else .instr (.adler (BitVec.ofNat 32 (trailerValue c.input (c.pos + padBits c.pos))))

/-- The element the current state owns (R222). -/
def decodeElement (c : ElementCtx) : Element :=
  if c.distance then decodeDist c
  else
    match c.tag with
    | .streamStart => decodeHeader c
    | .blockStart => decodeBlockHeader c
    | .blockTables => decodeCl c
    | .blockUncompressed => decodeStoredByte c
    | .blockCompressed => decodeRl c
    | .streamChecksum => decodeTrailer c
    | .streamEnd => .done
    | .failed => .stop .failedAdvance

/-! ### The encoder -/

/-- A command word of `OP` and `IMM` (R130), its bytes least significant first (DESIGN CHOICE, log 21). -/
def commandWord (op imm : Nat) : List Byte := leBytes 4 (op + 256 * imm)

/-- A palette entry's bytes (R133). -/
def rgbaBytes (p : Rgba) : List Byte := [p.r, p.g, p.b, p.a]

/-- An operand block's bytes (R133). -/
def encodeBlock (b : Block) : List Byte :=
  leBytes 4 b.fmt.toNat ++ b.keys.flatMap (fun k => leBytes 2 k.toNat)
    ++ (if hasPalette b.fmt then leBytes 2 b.palette.length ++ b.palette.flatMap rgbaBytes else [])
    ++ leBytes 4 b.buf.length ++ b.buf

/-- The operand block of a format instruction (R132, R133). -/
def blockOf : Instr → Option Block
  | .fmtIndexed1 pal buf => some ⟨0x13, [], pal, buf⟩
  | .fmtIndexed2 pal buf => some ⟨0x23, [], pal, buf⟩
  | .fmtIndexed4 pal buf => some ⟨0x43, [], pal, buf⟩
  | .fmtIndexed8 pal buf => some ⟨0x83, [], pal, buf⟩
  | .fmtV1 buf => some ⟨0x10, [], [], buf⟩
  | .fmtV2 buf => some ⟨0x20, [], [], buf⟩
  | .fmtV4 buf => some ⟨0x40, [], [], buf⟩
  | .fmtV8 buf => some ⟨0x80, [], [], buf⟩
  | .fmtV16 buf => some ⟨0x100, [], [], buf⟩
  | .fmtV1Key k buf => some ⟨0x210, [k], [], buf⟩
  | .fmtV2Key k buf => some ⟨0x220, [k], [], buf⟩
  | .fmtV4Key k buf => some ⟨0x240, [k], [], buf⟩
  | .fmtV8Key k buf => some ⟨0x280, [k], [], buf⟩
  | .fmtV16Key k buf => some ⟨0x300, [k], [], buf⟩
  | .fmtVa8 buf => some ⟨0x84, [], [], buf⟩
  | .fmtVa16 buf => some ⟨0x104, [], [], buf⟩
  | .fmtRgb8 buf => some ⟨0x82, [], [], buf⟩
  | .fmtRgb16 buf => some ⟨0x102, [], [], buf⟩
  | .fmtRgb8Key kr kg kb buf => some ⟨0x282, [kr, kg, kb], [], buf⟩
  | .fmtRgb16Key kr kg kb buf => some ⟨0x302, [kr, kg, kb], [], buf⟩
  | .fmtRgba8 buf => some ⟨0x86, [], [], buf⟩
  | .fmtRgba16 buf => some ⟨0x106, [], [], buf⟩
  | .fmtUnsupported blk => some blk
  | .new | .push _ | .pull _ | .retained | .finish | .unpack _ | .premul _ _ _ | .read _
  | .reservedOp _ | .zhdr _ _ | .bhdrStored _ _ _ | .bhdrFixed _ | .bhdrDynamic _ _ _ _ _
  | .bhdrReserved _ | .byte _ | .storedEnd | .clLit _ _ | .clExtend _ _ | .clZeros3 _ _
  | .clZeros7 _ _ | .lit _ _ | .eob _ | .run257 _ | .run258 _ | .run259 _ | .run260 _
  | .run261 _ | .run262 _ | .run263 _ | .run264 _ | .run265 _ _ | .run266 _ _ | .run267 _ _
  | .run268 _ _ | .run269 _ _ | .run270 _ _ | .run271 _ _ | .run272 _ _ | .run273 _ _
  | .run274 _ _ | .run275 _ _ | .run276 _ _ | .run277 _ _ | .run278 _ _ | .run279 _ _
  | .run280 _ _ | .run281 _ _ | .run282 _ _ | .run283 _ _ | .run284 _ _ | .run285 _ | .rl286 _
  | .rl287 _ | .dist0 _ | .dist1 _ | .dist2 _ | .dist3 _ | .dist4 _ _ | .dist5 _ _ | .dist6 _ _
  | .dist7 _ _ | .dist8 _ _ | .dist9 _ _ | .dist10 _ _ | .dist11 _ _ | .dist12 _ _ | .dist13 _ _
  | .dist14 _ _ | .dist15 _ _ | .dist16 _ _ | .dist17 _ _ | .dist18 _ _ | .dist19 _ _
  | .dist20 _ _ | .dist21 _ _ | .dist22 _ _ | .dist23 _ _ | .dist24 _ _ | .dist25 _ _
  | .dist26 _ _ | .dist27 _ _ | .dist28 _ _ | .dist29 _ _ | .d30 _ | .d31 _ | .adler _
  | .stdIos _ _ => none

/-- The port bytes of a command (R130); `none` for an instruction of another space. -/
def encodeCommand : Instr → Option (List Byte)
  | .new => some (commandWord 0 0)
  | .push data => some (commandWord 1 data.length ++ data)
  | .pull n => some (commandWord 2 n.toNat)
  | .retained => some (commandWord 3 0)
  | .finish => some (commandWord 4 0)
  | .unpack dst => some (commandWord 5 (widthCode dst))
  | .stdIos dst blk => some (commandWord 5 (widthCode dst + 4) ++ encodeBlock blk)
  | .premul dst c a =>
    some (commandWord 6 (widthCode dst) ++ leBytes (widthBytes dst) c.toNat
      ++ leBytes (widthBytes dst) a.toNat)
  | .read addr => some (commandWord 7 addr.toNat)
  | .reservedOp w => some (leBytes 4 w.toNat)
  | .zhdr _ _ | .bhdrStored _ _ _ | .bhdrFixed _ | .bhdrDynamic _ _ _ _ _ | .bhdrReserved _
  | .byte _ | .storedEnd | .clLit _ _ | .clExtend _ _ | .clZeros3 _ _ | .clZeros7 _ _ | .lit _ _
  | .eob _ | .run257 _ | .run258 _ | .run259 _ | .run260 _ | .run261 _ | .run262 _ | .run263 _
  | .run264 _ | .run265 _ _ | .run266 _ _ | .run267 _ _ | .run268 _ _ | .run269 _ _
  | .run270 _ _ | .run271 _ _ | .run272 _ _ | .run273 _ _ | .run274 _ _ | .run275 _ _
  | .run276 _ _ | .run277 _ _ | .run278 _ _ | .run279 _ _ | .run280 _ _ | .run281 _ _
  | .run282 _ _ | .run283 _ _ | .run284 _ _ | .run285 _ | .rl286 _ | .rl287 _ | .dist0 _
  | .dist1 _ | .dist2 _ | .dist3 _ | .dist4 _ _ | .dist5 _ _ | .dist6 _ _ | .dist7 _ _
  | .dist8 _ _ | .dist9 _ _ | .dist10 _ _ | .dist11 _ _ | .dist12 _ _ | .dist13 _ _
  | .dist14 _ _ | .dist15 _ _ | .dist16 _ _ | .dist17 _ _ | .dist18 _ _ | .dist19 _ _
  | .dist20 _ _ | .dist21 _ _ | .dist22 _ _ | .dist23 _ _ | .dist24 _ _ | .dist25 _ _
  | .dist26 _ _ | .dist27 _ _ | .dist28 _ _ | .dist29 _ _ | .d30 _ | .d31 _ | .adler _
  | .fmtIndexed1 _ _ | .fmtIndexed2 _ _ | .fmtIndexed4 _ _ | .fmtIndexed8 _ _ | .fmtV1 _
  | .fmtV2 _ | .fmtV4 _ | .fmtV8 _ | .fmtV16 _ | .fmtV1Key _ _ | .fmtV2Key _ _ | .fmtV4Key _ _
  | .fmtV8Key _ _ | .fmtV16Key _ _ | .fmtVa8 _ | .fmtVa16 _ | .fmtRgb8 _ | .fmtRgb16 _
  | .fmtRgb8Key _ _ _ _ | .fmtRgb16Key _ _ _ _ | .fmtRgba8 _ | .fmtRgba16 _ | .fmtUnsupported _ => none

/-- The stream bits of an element, first bit first (R135 to R149); `none` for an instruction of another space. -/
def encodeElement (c : ElementCtx) : Instr → Option (List Bool)
  | .zhdr cmf flg => some (natBits 8 cmf.toNat ++ natBits 8 flg.toNat)
  | .bhdrStored bf len nlen =>
    some (bf :: natBits 2 0 ++ List.replicate (padBits (c.pos + 3)) false ++ natBits 16 len.toNat
      ++ natBits 16 nlen.toNat)
  | .bhdrFixed bf => some (bf :: natBits 2 1)
  | .bhdrDynamic bf hlit hdist hclen cl =>
    some (bf :: natBits 2 2 ++ natBits 5 hlit.toNat ++ natBits 5 hdist.toNat
      ++ natBits 4 hclen.toNat ++ cl.flatMap fun x => natBits 3 x.toNat)
  | .bhdrReserved bf => some (bf :: natBits 2 3)
  | .byte v => some (natBits 8 v.toNat)
  | .storedEnd => some []
  | .clLit len k => some (c.cld.codeBits k.toNat len)
  | .clExtend len x => some (c.cld.codeBits 16 len ++ natBits 2 x.toNat)
  | .clZeros3 len x => some (c.cld.codeBits 17 len ++ natBits 3 x.toNat)
  | .clZeros7 len x => some (c.cld.codeBits 18 len ++ natBits 7 x.toNat)
  | .lit len v => some (c.rld.codeBits v.toNat len)
  | .eob len => some (c.rld.codeBits 256 len)
  | .run257 len => some (c.rld.codeBits 257 len)
  | .run258 len => some (c.rld.codeBits 258 len)
  | .run259 len => some (c.rld.codeBits 259 len)
  | .run260 len => some (c.rld.codeBits 260 len)
  | .run261 len => some (c.rld.codeBits 261 len)
  | .run262 len => some (c.rld.codeBits 262 len)
  | .run263 len => some (c.rld.codeBits 263 len)
  | .run264 len => some (c.rld.codeBits 264 len)
  | .run265 len x => some (c.rld.codeBits 265 len ++ natBits 1 x.toNat)
  | .run266 len x => some (c.rld.codeBits 266 len ++ natBits 1 x.toNat)
  | .run267 len x => some (c.rld.codeBits 267 len ++ natBits 1 x.toNat)
  | .run268 len x => some (c.rld.codeBits 268 len ++ natBits 1 x.toNat)
  | .run269 len x => some (c.rld.codeBits 269 len ++ natBits 2 x.toNat)
  | .run270 len x => some (c.rld.codeBits 270 len ++ natBits 2 x.toNat)
  | .run271 len x => some (c.rld.codeBits 271 len ++ natBits 2 x.toNat)
  | .run272 len x => some (c.rld.codeBits 272 len ++ natBits 2 x.toNat)
  | .run273 len x => some (c.rld.codeBits 273 len ++ natBits 3 x.toNat)
  | .run274 len x => some (c.rld.codeBits 274 len ++ natBits 3 x.toNat)
  | .run275 len x => some (c.rld.codeBits 275 len ++ natBits 3 x.toNat)
  | .run276 len x => some (c.rld.codeBits 276 len ++ natBits 3 x.toNat)
  | .run277 len x => some (c.rld.codeBits 277 len ++ natBits 4 x.toNat)
  | .run278 len x => some (c.rld.codeBits 278 len ++ natBits 4 x.toNat)
  | .run279 len x => some (c.rld.codeBits 279 len ++ natBits 4 x.toNat)
  | .run280 len x => some (c.rld.codeBits 280 len ++ natBits 4 x.toNat)
  | .run281 len x => some (c.rld.codeBits 281 len ++ natBits 5 x.toNat)
  | .run282 len x => some (c.rld.codeBits 282 len ++ natBits 5 x.toNat)
  | .run283 len x => some (c.rld.codeBits 283 len ++ natBits 5 x.toNat)
  | .run284 len x => some (c.rld.codeBits 284 len ++ natBits 5 x.toNat)
  | .run285 len => some (c.rld.codeBits 285 len)
  | .rl286 len => some (c.rld.codeBits 286 len)
  | .rl287 len => some (c.rld.codeBits 287 len)
  | .dist0 len => some (c.dd.codeBits 0 len)
  | .dist1 len => some (c.dd.codeBits 1 len)
  | .dist2 len => some (c.dd.codeBits 2 len)
  | .dist3 len => some (c.dd.codeBits 3 len)
  | .dist4 len x => some (c.dd.codeBits 4 len ++ natBits 1 x.toNat)
  | .dist5 len x => some (c.dd.codeBits 5 len ++ natBits 1 x.toNat)
  | .dist6 len x => some (c.dd.codeBits 6 len ++ natBits 2 x.toNat)
  | .dist7 len x => some (c.dd.codeBits 7 len ++ natBits 2 x.toNat)
  | .dist8 len x => some (c.dd.codeBits 8 len ++ natBits 3 x.toNat)
  | .dist9 len x => some (c.dd.codeBits 9 len ++ natBits 3 x.toNat)
  | .dist10 len x => some (c.dd.codeBits 10 len ++ natBits 4 x.toNat)
  | .dist11 len x => some (c.dd.codeBits 11 len ++ natBits 4 x.toNat)
  | .dist12 len x => some (c.dd.codeBits 12 len ++ natBits 5 x.toNat)
  | .dist13 len x => some (c.dd.codeBits 13 len ++ natBits 5 x.toNat)
  | .dist14 len x => some (c.dd.codeBits 14 len ++ natBits 6 x.toNat)
  | .dist15 len x => some (c.dd.codeBits 15 len ++ natBits 6 x.toNat)
  | .dist16 len x => some (c.dd.codeBits 16 len ++ natBits 7 x.toNat)
  | .dist17 len x => some (c.dd.codeBits 17 len ++ natBits 7 x.toNat)
  | .dist18 len x => some (c.dd.codeBits 18 len ++ natBits 8 x.toNat)
  | .dist19 len x => some (c.dd.codeBits 19 len ++ natBits 8 x.toNat)
  | .dist20 len x => some (c.dd.codeBits 20 len ++ natBits 9 x.toNat)
  | .dist21 len x => some (c.dd.codeBits 21 len ++ natBits 9 x.toNat)
  | .dist22 len x => some (c.dd.codeBits 22 len ++ natBits 10 x.toNat)
  | .dist23 len x => some (c.dd.codeBits 23 len ++ natBits 10 x.toNat)
  | .dist24 len x => some (c.dd.codeBits 24 len ++ natBits 11 x.toNat)
  | .dist25 len x => some (c.dd.codeBits 25 len ++ natBits 11 x.toNat)
  | .dist26 len x => some (c.dd.codeBits 26 len ++ natBits 12 x.toNat)
  | .dist27 len x => some (c.dd.codeBits 27 len ++ natBits 12 x.toNat)
  | .dist28 len x => some (c.dd.codeBits 28 len ++ natBits 13 x.toNat)
  | .dist29 len x => some (c.dd.codeBits 29 len ++ natBits 13 x.toNat)
  | .d30 len => some (c.dd.codeBits 30 len)
  | .d31 len => some (c.dd.codeBits 31 len)
  | .adler v =>
    some (List.replicate (padBits c.pos) false ++ natBits 8 (v.toNat / 2 ^ 24)
      ++ natBits 8 (v.toNat / 2 ^ 16) ++ natBits 8 (v.toNat / 2 ^ 8) ++ natBits 8 v.toNat)
  | .new | .push _ | .pull _ | .retained | .finish | .unpack _ | .premul _ _ _ | .read _
  | .reservedOp _ | .fmtIndexed1 _ _ | .fmtIndexed2 _ _ | .fmtIndexed4 _ _ | .fmtIndexed8 _ _
  | .fmtV1 _ | .fmtV2 _ | .fmtV4 _ | .fmtV8 _ | .fmtV16 _ | .fmtV1Key _ _ | .fmtV2Key _ _
  | .fmtV4Key _ _ | .fmtV8Key _ _ | .fmtV16Key _ _ | .fmtVa8 _ | .fmtVa16 _ | .fmtRgb8 _
  | .fmtRgb16 _ | .fmtRgb8Key _ _ _ _ | .fmtRgb16Key _ _ _ _ | .fmtRgba8 _ | .fmtRgba16 _
  | .fmtUnsupported _ | .stdIos _ _ => none

/-! ### The words of the opcode table (log 16) -/

/-- Which space a table word belongs to. -/
inductive TableSpace where
  | command | format | header | blockHeader | storedByte | storedEnd | clSym | rlSym | dSym
  deriving DecidableEq, Repr

/-- The space of a word of one byte: a port command (PUSH, PULL, RESERVED_OP), a block header (0, 4, 6), a
code-length symbol (16, 17, 18), else a distance symbol; 32 and more is a stored byte. -/
def byteSpace (w : Nat) : TableSpace :=
  if w = 1 ∨ w = 2 ∨ w = 8 then .command
  else if w = 0 ∨ w = 4 ∨ w = 6 then .blockHeader
  else if w = 16 ∨ w = 17 ∨ w = 18 then .clSym
  else if w < 32 then .dSym
  else .storedByte

/-- The space of a word of two bytes: STD_IOS, a run/literal symbol, a distance symbol with 8 or more extra
bits, else a zlib header; a word below 256 is a literal symbol. -/
def pairSpace (w : Nat) : TableSpace :=
  if w % 256 = 5 ∧ w / 1024 % 2 = 1 then .command
  else if w / 256 = 1 ∧ w < 288 then .rlSym
  else if w % 32 ≥ 18 ∧ w % 32 ≤ 29 ∧ w % 256 < 32 then .dSym
  else if w = 8 then .header
  else if w < 256 then .rlSym
  else .header

/-- The space a table word of `nbits` bits is read in; the table's formats overlap (log 16). -/
def tableSpace (nbits w : Nat) : TableSpace :=
  if nbits = 0 then .storedEnd
  else if nbits ≤ 8 then byteSpace w
  else if nbits ≤ 16 then pairSpace w
  else if legalFormats.contains w then .format
  else .command

/-- A code-length table that has a code for every symbol 0..18, for reading a table word: lengths 4 for
symbols 0..12 and 5 for 13..18. -/
def tableCl : Table := (build (List.replicate 13 4 ++ List.replicate 6 5) .strict).getD Table.empty

/-- Port bytes of a table word, little-endian, with zero operand bytes after it. -/
def tablePort (w : Nat) : List Byte := leBytes 4 w ++ List.replicate 16 0

/-- Stream bits of a table word in its space: a symbol is its code, anything else its own bits. -/
def tableBits (space : TableSpace) (w : Nat) : List Bool :=
  match space with
  | .clSym => tableCl.codeBits w ((tableCl.entries.find? fun e => e.sym == w).map Entry.len |>.getD 0)
  | .rlSym => fixedRl.codeBits w ((fixedRl.entries.find? fun e => e.sym == w).map Entry.len |>.getD 0)
  | .dSym => fixedD.codeBits (w % 32) 5
  | .storedEnd => []
  | _ => natBits 16 w

/-- Sixteen stream bytes that hold a table word at bit 0, zeros after it. -/
def tableInput (space : TableSpace) (w : Nat) : List Byte := bitsBytes 16 (tableBits space w)

/-- The state tag a table word's space belongs to. -/
def tableTag (space : TableSpace) : StTag :=
  match space with
  | .header => .streamStart
  | .blockHeader => .blockStart
  | .storedByte => .blockUncompressed
  | .storedEnd => .blockUncompressed
  | .clSym => .blockTables
  | .rlSym => .blockCompressed
  | .dSym => .blockCompressed
  | .command => .streamStart
  | .format => .streamStart

/-- The decoder context of a table word of the stream. -/
def tableCtx (space : TableSpace) (w : Nat) : ElementCtx where
  input := tableInput space w
  pos := 0
  tag := tableTag space
  distance := decide (space = .dSym)
  blockDone := decide (space = .storedEnd)
  cld := tableCl
  rld := fixedRl
  dd := fixedD

/-- The instruction the decoder reads from a table word. -/
def decodeTableWord (nbits w : Nat) : Option Instr :=
  match tableSpace nbits w with
  | .command => (decodeCommand (tablePort w)).map Prod.fst
  | .format => (decodeFormat (tablePort w)).map Prod.fst
  | space =>
    match decodeElement (tableCtx space w) with
    | .instr i => some i
    | _ => none

end Sys2Proof
end

