-- ==== Sys2Proof/Machine/Fetch.lean ====
section
/-! DEFINITION. Fetching the next instruction: from the command port between commands, from the operand block inside an UNPACK, from the stream inside a PUSH (R130, R133, R222). -/

namespace Sys2Proof.Machine

/-- What a step finds to do. -/
inductive Fetched where
  /-- An instruction, and the state with its port bytes taken. -/
  | run (i : Instr) (s : State)
  /-- The port does not hold a whole command yet: the block waits for the host (R105, R466). -/
  | wait
  /-- The PUSH ends with this status (R223): NeedsMore, or Done in `streamEnd`. -/
  | endPush (w : Word)
  /-- No instruction, by name (log 13). -/
  | stop (f : Fault)
  deriving Repr

/-- Take an instruction off the port. -/
def State.takePort (s : State) (r : Option (Instr × List Byte)) : Fetched :=
  match r with
  | some (i, rest) => .run i { s with port := rest }
  | none => .wait

/-- The fault of a decoder stop (log 13). -/
def faultOf : DecodeStop → Fault
  | .noValue => .noValue
  | .failedAdvance => .failedAdvance

/-- ADVANCE's fetch (R222): the element of the current state, NeedsMore, or Done. -/
def State.fetchElement (s : State) : Fetched :=
  match decodeElement s.elementCtx with
  | .instr i => .run i s
  | .needMore => .endPush statusNeedsMore
  | .done => .endPush statusDone
  | .stop r => .stop (faultOf r)

/-- The next instruction of the machine. -/
def State.fetch (s : State) : Fetched :=
  match s.activity with
  | .idle => s.takePort (decodeCommand s.port)
  | .unpacking => s.takePort (decodeFormat s.port)
  | .inflating => s.fetchElement
  | .distance => s.fetchElement

/-- A state whose next stream element is the table word `w`, for `State.withFetchWord` (log 4, log 16). -/
def State.placeElement (s : State) (space : TableSpace) (w : Nat) : State :=
  { s with
    activity := if space = .dSym then .distance else .inflating
    input := tableInput space w
    pos := 0
    atoms := packAtoms (tableInput space w) ++ Config.padAtoms
    atomPos := 0
    dropped := 0
    st := tableTag space
    err := none
    cld := tableCl
    rld := fixedRl
    dd := fixedD
    hlit := 257
    hdist := 1
    blockEnd := if space = .storedEnd then s.out.length else s.out.length + 1
    runCount := 3
    runBits := 0 }

/-- A state whose next command or operand block is the table word `w`. -/
def State.placePort (s : State) (a : Activity) (w : Nat) : State :=
  { s with activity := a, port := tablePort w }

/-- The table word `w` placed where the machine fetches next. -/
def State.placeWord (s : State) (nbits w : Nat) : State :=
  match tableSpace nbits w with
  | .command => s.placePort .idle w
  | .format => s.placePort .unpacking w
  | space => s.placeElement space w

end Sys2Proof.Machine
end

