-- ==== Sys2Proof/Machine/Step.lean ====
section
/-! DEFINITION. One step of the machine: one host command, or one stream element inside a PUSH (R4, R222, log 1). -/

namespace Sys2Proof.Machine

/-- One step: run the fetched instruction; wait for the host when there is none; end a PUSH that needs
more input or is done. No rule reads the refusal mark: the step does not either (R221, R456, log 7). -/
def step (s : State) : Host.Outcome State Fault Refusal :=
  match s.fetch with
  | .run i t => exec i t
  | .wait => .next s
  | .endPush w => .next (s.respond w [])
  | .stop f => .fault f

/-- `s` with a table word placed where `step` fetches its next instruction (log 4, log 16). -/
def State.withFetchWord (s : State) (nbits w : Nat) : State := s.placeWord nbits w

end Sys2Proof.Machine
end

