-- ==== Sys2Proof/Safety.lean ====
section
/-! DEFINITION. What counts as a safe run: the invariants of R56 and R58, regular decoder tables (R188, R190), canonical codes (R188), the logical view (R58), and how a session ends (R504). -/

namespace Sys2Proof.Machine

/-! ### Decoder tables -/

/-- A decoder table whose `z` entries are addressed as R190 says, each entry answering exactly the keys that
share its code: DECODE depends on the symbol's own bits only (R182, R188, R190, R191). -/
structure Table.Regular (t : Table) : Prop where
  short : t.n ≤ 256
  length : t.entries.length = t.z
  size : t.z + 127 * t.n = 32768
  lenPos : ∀ e ∈ t.entries, 1 ≤ e.len
  lenMax : ∀ e ∈ t.entries, e.len ≤ 15
  code : ∀ idx e key, t.entries[idx]? = some e → key < 65536 →
    key / 2 ^ (16 - e.len) = t.keyOf idx / 2 ^ (16 - e.len) → t.lookup key = some e

/-- Every symbol of a table is below `k`. -/
def Table.symbolsBelow (t : Table) (k : Nat) : Prop := ∀ e ∈ t.entries, e.sym < k

/-- `first[l]` of R188, `first[1] = 0`. -/
def firstCode (lens : List Nat) : Nat → Nat
  | 0 => 0
  | 1 => 0
  | l + 2 => (firstCode lens (l + 1) + lens.count (l + 1)) * 2

/-- The rank of symbol `s` among the symbols of its length (R188). -/
def codeRank (lens : List Nat) (s : Nat) : Nat := (lens.take s).count (lens.getD s 0)

/-- The canonical code of symbol `s` (R188). -/
def canonicalCode (lens : List Nat) (s : Nat) : Nat :=
  firstCode lens (lens.getD s 0) + codeRank lens s

/-! ### Invariants of the state -/

/-- R56 with the facts about reachable states it needs: before the header there is no output, and a
distance is awaited only inside a compressed block. -/
structure State.Logical (s : State) : Prop where
  /-- R56 item 1. -/
  position : s.pos ≤ 8 * s.input.length
  /-- R56 item 2, `baseIndex <= startIndex`. -/
  baseStart : s.baseIndex ≤ s.startIndex
  /-- R56 item 2, `startIndex <= currentIndex`. -/
  startCurrent : s.startIndex ≤ s.currentIndex
  /-- R56 item 2, `currentIndex <= endIndex`. -/
  currentEnd : s.currentIndex ≤ s.out.length
  /-- R56 item 3. -/
  window : min s.window s.out.length ≤ s.out.length - s.startIndex
  /-- R56 item 4. -/
  failed : s.st = .failed ↔ s.err.isSome
  /-- No output before the header (R260). -/
  launch : s.st = .streamStart → s.out = []
  /-- The distance half of a token is inside a compressed block (R353). -/
  distance : s.activity = .distance → s.st = .blockCompressed
  /-- The first half of a token was all pushed (R353). -/
  token : s.activity = .distance → s.pos + s.runBits ≤ 8 * s.input.length
  /-- `WINDOW` is 0 or a power of two in 256..32768 (R43, R261). -/
  windowLegal : s.window = 0 ∨ ∃ e, e ≤ 7 ∧ s.window = 2 ^ (8 + e)

/-- The physical fields agree with the logical ones (R33, R42, R44, R58, R87). -/
structure State.Physical (s : State) : Prop where
  /-- `P = 16 * dropped + b` (R33). -/
  cursor : s.pos = 16 * s.dropped + s.atomPos
  /-- The atoms hold the bytes not dropped, then three zero atoms (R33). -/
  atoms : s.atoms = packAtoms (s.input.drop (2 * s.dropped)) ++ Config.padAtoms
  /-- `storage` holds `OUT[baseIndex, endIndex)` (R42). -/
  storage : s.storage = s.out.drop s.baseIndex
  /-- The running Adler state covers `OUT[0, baseIndex)` (R44, R266). -/
  adler : (s.adlerS1.toNat, s.adlerS2.toNat) = adlerFold (1, 0) (s.out.take s.baseIndex)

/-- The tables and counts of the current state are as its header left them (R34, R36, R37, R358), and a PUSH
does not run in `failed`. -/
structure State.Tables (s : State) : Prop where
  /-- The parameters are ones R8 allows. -/
  params : s.params.wf = true
  /-- `blockTables` owns a code-length table with codes of at most 7 bits (R36, R193). -/
  cl : s.st = .blockTables →
    s.cld.Regular ∧ s.cld.symbolsBelow 19 ∧ ∀ e ∈ s.cld.entries, e.len ≤ 7
  /-- `HLIT` in 257..286 and `HDIST` in 1..32 (R37). -/
  counts : s.st = .blockTables →
    257 ≤ s.hlit.toNat ∧ s.hlit.toNat ≤ 286 ∧ 1 ≤ s.hdist.toNat ∧ s.hdist.toNat ≤ 32
  /-- The code-length list is not complete yet (R320). -/
  lengths : s.st = .blockTables → s.lengths.length < s.lengthTotal
  /-- `blockCompressed` owns a run/literal and a distance table (R36). -/
  rl : s.st = .blockCompressed → s.rld.Regular ∧ s.rld.symbolsBelow 288
  /-- See `rl`. -/
  d : s.st = .blockCompressed → s.dd.Regular ∧ s.dd.symbolsBelow 32
  /-- A stored block has not passed its end (R358). -/
  stored : s.st = .blockUncompressed → s.out.length ≤ s.blockEnd
  /-- In a stored block `P` is a multiple of 8 (R291, R358). -/
  aligned : s.st = .blockUncompressed → s.pos % 8 = 0
  /-- The distance half of a token is inside a compressed block (R353). -/
  distance : s.activity = .distance → s.st = .blockCompressed
  /-- ADVANCE is not run in `failed` (R222, R228). -/
  running : s.activity = .inflating → s.st ≠ .failed

/-! ### Views -/

/-- The logical view of a state: the physical fields blanked (R58). -/
def State.logical (s : State) : State :=
  { s with
    atoms := []
    atomPos := 0
    dropped := 0
    baseIndex := 0
    storage := []
    storageCap := 0
    adlerS1 := 0
    adlerS2 := 0 }

/-- The inflator's state: what UNPACK, PREMUL and READ leave alone (R55); the response and the progress of the
current command blanked. -/
def State.inflator (s : State) : State :=
  { s with
    activity := .idle
    status := 0
    payload := []
    dst := .w8 }

/-- An outcome seen through a view of its next state. -/
def viewResult (f : State → State) : Result → Result
  | .next t => .next (f t)
  | .fault r => .fault r
  | .refused r => .refused r

/-! ### The end of a session (R504) -/

/-- A session has ended successfully (R504). -/
def State.sessionDone (s : State) : Prop := s.st = .streamEnd

/-- A session has ended in failure (R504). -/
def State.sessionFailed (s : State) : Prop := s.st = .failed

/-- The launch premises of R493. -/
def State.launch (s : State) : Prop :=
  s.err = none ∧ s.refusalMark = false ∧ s.input = [] ∧ s.out = [] ∧ s.baseIndex = 0
    ∧ s.startIndex = 0 ∧ s.currentIndex = 0 ∧ s.window = 0 ∧ s.st = .streamStart

/-- `k` more output bytes fit a finite `OUT_CAP` (R96) and the index counter (R52). -/
def State.roomFor (s : State) (k : Nat) : Prop :=
  (∀ c, s.params.outCap = some c → s.out.length - s.startIndex + k ≤ c) ∧
    s.out.length + k < 2 ^ s.params.countWidth

/-! ### Adler-32 with deferred reduction (R265) -/

/-- The unreduced sums over a block (R265). -/
def adlerSums (a : Nat × Nat) (bytes : List Byte) : Nat × Nat :=
  bytes.foldl (fun a x => (a.1 + x.toNat, a.2 + (a.1 + x.toNat))) a

/-- Adler-32 over blocks, reduced at each block's end only (R265). -/
def adlerBlocks (a : Nat × Nat) : List (List Byte) → Nat × Nat
  | [] => a
  | b :: bs => adlerBlocks ((adlerSums a b).1 % 65521, (adlerSums a b).2 % 65521) bs

/-! ### Elements and their lengths (R150) -/

/-- The bits of a stream element at position `p`, as R150 counts them; 0 for an instruction of another space. -/
def elementBits (p : Nat) : Instr → Nat
  | .zhdr _ _ => 16
  | .bhdrStored _ _ _ => 3 + padBits (p + 3) + 32
  | .bhdrFixed _ => 3
  | .bhdrDynamic _ hlit _ hclen _ => if 286 < hlitValue hlit then 17 else 17 + 3 * hclenValue hclen
  | .bhdrReserved _ => 3
  | .byte _ => 8
  | .storedEnd => 0
  | .clLit len _ => len
  | .clExtend len _ => len + 2
  | .clZeros3 len _ => len + 3
  | .clZeros7 len _ => len + 7
  | .lit len _ => len
  | .eob len => len
  | .run257 len => len
  | .run258 len => len
  | .run259 len => len
  | .run260 len => len
  | .run261 len => len
  | .run262 len => len
  | .run263 len => len
  | .run264 len => len
  | .run265 len _ => len + 1
  | .run266 len _ => len + 1
  | .run267 len _ => len + 1
  | .run268 len _ => len + 1
  | .run269 len _ => len + 2
  | .run270 len _ => len + 2
  | .run271 len _ => len + 2
  | .run272 len _ => len + 2
  | .run273 len _ => len + 3
  | .run274 len _ => len + 3
  | .run275 len _ => len + 3
  | .run276 len _ => len + 3
  | .run277 len _ => len + 4
  | .run278 len _ => len + 4
  | .run279 len _ => len + 4
  | .run280 len _ => len + 4
  | .run281 len _ => len + 5
  | .run282 len _ => len + 5
  | .run283 len _ => len + 5
  | .run284 len _ => len + 5
  | .run285 len => len
  | .rl286 len => len
  | .rl287 len => len
  | .dist0 len => len
  | .dist1 len => len
  | .dist2 len => len
  | .dist3 len => len
  | .dist4 len _ => len + 1
  | .dist5 len _ => len + 1
  | .dist6 len _ => len + 2
  | .dist7 len _ => len + 2
  | .dist8 len _ => len + 3
  | .dist9 len _ => len + 3
  | .dist10 len _ => len + 4
  | .dist11 len _ => len + 4
  | .dist12 len _ => len + 5
  | .dist13 len _ => len + 5
  | .dist14 len _ => len + 6
  | .dist15 len _ => len + 6
  | .dist16 len _ => len + 7
  | .dist17 len _ => len + 7
  | .dist18 len _ => len + 8
  | .dist19 len _ => len + 8
  | .dist20 len _ => len + 9
  | .dist21 len _ => len + 9
  | .dist22 len _ => len + 10
  | .dist23 len _ => len + 10
  | .dist24 len _ => len + 11
  | .dist25 len _ => len + 11
  | .dist26 len _ => len + 12
  | .dist27 len _ => len + 12
  | .dist28 len _ => len + 13
  | .dist29 len _ => len + 13
  | .d30 len => len
  | .d31 len => len
  | .adler _ => padBits p + 32
  | .new | .push _ | .pull _ | .retained | .finish | .unpack _ | .premul _ _ _ | .read _
  | .reservedOp _ | .fmtIndexed1 _ _ | .fmtIndexed2 _ _ | .fmtIndexed4 _ _ | .fmtIndexed8 _ _
  | .fmtV1 _ | .fmtV2 _ | .fmtV4 _ | .fmtV8 _ | .fmtV16 _ | .fmtV1Key _ _ | .fmtV2Key _ _
  | .fmtV4Key _ _ | .fmtV8Key _ _ | .fmtV16Key _ _ | .fmtVa8 _ | .fmtVa16 _ | .fmtRgb8 _
  | .fmtRgb16 _ | .fmtRgb8Key _ _ _ _ | .fmtRgb16Key _ _ _ _ | .fmtRgba8 _ | .fmtRgba16 _
  | .fmtUnsupported _ | .stdIos _ _ => 0

/-- The port bytes of a command: its word and its operand bytes (R130, R133). -/
def commandBytes : Instr → Nat
  | .new => 4
  | .push data => 4 + data.length
  | .pull _ => 4
  | .retained => 4
  | .finish => 4
  | .unpack _ => 4
  | .premul dst _ _ => 4 + 2 * widthBytes dst
  | .read _ => 4
  | .reservedOp _ => 4
  | .stdIos _ blk => 4 + (encodeBlock blk).length
  | .zhdr _ _ | .bhdrStored _ _ _ | .bhdrFixed _ | .bhdrDynamic _ _ _ _ _ | .bhdrReserved _
  | .byte _ | .storedEnd | .clLit _ _ | .clExtend _ _ | .clZeros3 _ _ | .clZeros7 _ _ | .lit _ _
  | .eob _ | .run257 _ | .run258 _ | .run259 _ | .run260 _ | .run261 _ | .run262 _ | .run263 _
  | .run264 _ | .run265 _ _ | .run266 _ _ | .run267 _ _ | .run268 _ _ | .run269 _ _
  | .run270 _ _ | .run271 _ _ | .run272 _ _ | .run273 _ _ | .run274 _ _ | .run275 _ _
  | .run276 _ _ | .run277 _ _ | .run278 _ _ | .run279 _ _ | .run280 _ _ | .run281 _ _
  | .run282 _ _ | .run283 _ _ | .run284 _ _ | .run285 _ | .rl286 _ | .rl287 _ | .dist0 _
  | .dist1 _ | .dist2 _ | .dist3 _ | .dist4 _ _ | .dist5 _ _ | .dist6 _ _ | .dist7 _ _
  | .dist8 _ _ | .dist9 _ _ | .dist10 _ _ | .dist11 _ _ | .dist12 _ _ | .dist13 _ _
  | .dist14 _ _ | .dist15 _ _ | .dist16 _ _ | .dist17 _ _ | .dist18 _ _ | .dist19 _ _
  | .dist20 _ _ | .dist21 _ _ | .dist22 _ _ | .dist23 _ _ | .dist24 _ _ | .dist25 _ _
  | .dist26 _ _ | .dist27 _ _ | .dist28 _ _ | .dist29 _ _ | .d30 _ | .d31 _ | .adler _
  | .fmtIndexed1 _ _ | .fmtIndexed2 _ _ | .fmtIndexed4 _ _ | .fmtIndexed8 _ _ | .fmtV1 _
  | .fmtV2 _ | .fmtV4 _ | .fmtV8 _ | .fmtV16 _ | .fmtV1Key _ _ | .fmtV2Key _ _ | .fmtV4Key _ _
  | .fmtV8Key _ _ | .fmtV16Key _ _ | .fmtVa8 _ | .fmtVa16 _ | .fmtRgb8 _ | .fmtRgb16 _
  | .fmtRgb8Key _ _ _ _ | .fmtRgb16Key _ _ _ _ | .fmtRgba8 _ | .fmtRgba16 _ | .fmtUnsupported _ => 0

/-- A regular table with an entry for the symbol at this length. -/
def Table.gives (t : Table) (sym len : Nat) : Prop := t.Regular ∧ (⟨sym, len⟩ : Entry) ∈ t.entries

/-- The context owns the element (R222): its state or its half of the token, and for a Huffman-coded
element a regular table that gives the symbol at this length (R140). -/
def ElementCtx.owns (c : ElementCtx) : Instr → Prop
  | .zhdr _ _ => c.distance = false ∧ c.tag = .streamStart
  | .bhdrStored _ _ _ => c.distance = false ∧ c.tag = .blockStart
  | .bhdrFixed _ => c.distance = false ∧ c.tag = .blockStart
  | .bhdrDynamic _ _ _ _ _ => c.distance = false ∧ c.tag = .blockStart
  | .bhdrReserved _ => c.distance = false ∧ c.tag = .blockStart
  | .byte _ => c.distance = false ∧ c.tag = .blockUncompressed ∧ c.blockDone = false
  | .storedEnd => c.distance = false ∧ c.tag = .blockUncompressed ∧ c.blockDone = true
  | .clLit len k => c.distance = false ∧ c.tag = .blockTables ∧ c.cld.gives k.toNat len
  | .clExtend len _ => c.distance = false ∧ c.tag = .blockTables ∧ c.cld.gives 16 len
  | .clZeros3 len _ => c.distance = false ∧ c.tag = .blockTables ∧ c.cld.gives 17 len
  | .clZeros7 len _ => c.distance = false ∧ c.tag = .blockTables ∧ c.cld.gives 18 len
  | .lit len v => c.distance = false ∧ c.tag = .blockCompressed ∧ c.rld.gives v.toNat len
  | .eob len => c.distance = false ∧ c.tag = .blockCompressed ∧ c.rld.gives 256 len
  | .run257 len => c.distance = false ∧ c.tag = .blockCompressed ∧ c.rld.gives 257 len
  | .run258 len => c.distance = false ∧ c.tag = .blockCompressed ∧ c.rld.gives 258 len
  | .run259 len => c.distance = false ∧ c.tag = .blockCompressed ∧ c.rld.gives 259 len
  | .run260 len => c.distance = false ∧ c.tag = .blockCompressed ∧ c.rld.gives 260 len
  | .run261 len => c.distance = false ∧ c.tag = .blockCompressed ∧ c.rld.gives 261 len
  | .run262 len => c.distance = false ∧ c.tag = .blockCompressed ∧ c.rld.gives 262 len
  | .run263 len => c.distance = false ∧ c.tag = .blockCompressed ∧ c.rld.gives 263 len
  | .run264 len => c.distance = false ∧ c.tag = .blockCompressed ∧ c.rld.gives 264 len
  | .run265 len _ => c.distance = false ∧ c.tag = .blockCompressed ∧ c.rld.gives 265 len
  | .run266 len _ => c.distance = false ∧ c.tag = .blockCompressed ∧ c.rld.gives 266 len
  | .run267 len _ => c.distance = false ∧ c.tag = .blockCompressed ∧ c.rld.gives 267 len
  | .run268 len _ => c.distance = false ∧ c.tag = .blockCompressed ∧ c.rld.gives 268 len
  | .run269 len _ => c.distance = false ∧ c.tag = .blockCompressed ∧ c.rld.gives 269 len
  | .run270 len _ => c.distance = false ∧ c.tag = .blockCompressed ∧ c.rld.gives 270 len
  | .run271 len _ => c.distance = false ∧ c.tag = .blockCompressed ∧ c.rld.gives 271 len
  | .run272 len _ => c.distance = false ∧ c.tag = .blockCompressed ∧ c.rld.gives 272 len
  | .run273 len _ => c.distance = false ∧ c.tag = .blockCompressed ∧ c.rld.gives 273 len
  | .run274 len _ => c.distance = false ∧ c.tag = .blockCompressed ∧ c.rld.gives 274 len
  | .run275 len _ => c.distance = false ∧ c.tag = .blockCompressed ∧ c.rld.gives 275 len
  | .run276 len _ => c.distance = false ∧ c.tag = .blockCompressed ∧ c.rld.gives 276 len
  | .run277 len _ => c.distance = false ∧ c.tag = .blockCompressed ∧ c.rld.gives 277 len
  | .run278 len _ => c.distance = false ∧ c.tag = .blockCompressed ∧ c.rld.gives 278 len
  | .run279 len _ => c.distance = false ∧ c.tag = .blockCompressed ∧ c.rld.gives 279 len
  | .run280 len _ => c.distance = false ∧ c.tag = .blockCompressed ∧ c.rld.gives 280 len
  | .run281 len _ => c.distance = false ∧ c.tag = .blockCompressed ∧ c.rld.gives 281 len
  | .run282 len _ => c.distance = false ∧ c.tag = .blockCompressed ∧ c.rld.gives 282 len
  | .run283 len _ => c.distance = false ∧ c.tag = .blockCompressed ∧ c.rld.gives 283 len
  | .run284 len _ => c.distance = false ∧ c.tag = .blockCompressed ∧ c.rld.gives 284 len
  | .run285 len => c.distance = false ∧ c.tag = .blockCompressed ∧ c.rld.gives 285 len
  | .rl286 len => c.distance = false ∧ c.tag = .blockCompressed ∧ c.rld.gives 286 len
  | .rl287 len => c.distance = false ∧ c.tag = .blockCompressed ∧ c.rld.gives 287 len
  | .dist0 len => c.distance = true ∧ c.dd.gives 0 len
  | .dist1 len => c.distance = true ∧ c.dd.gives 1 len
  | .dist2 len => c.distance = true ∧ c.dd.gives 2 len
  | .dist3 len => c.distance = true ∧ c.dd.gives 3 len
  | .dist4 len _ => c.distance = true ∧ c.dd.gives 4 len
  | .dist5 len _ => c.distance = true ∧ c.dd.gives 5 len
  | .dist6 len _ => c.distance = true ∧ c.dd.gives 6 len
  | .dist7 len _ => c.distance = true ∧ c.dd.gives 7 len
  | .dist8 len _ => c.distance = true ∧ c.dd.gives 8 len
  | .dist9 len _ => c.distance = true ∧ c.dd.gives 9 len
  | .dist10 len _ => c.distance = true ∧ c.dd.gives 10 len
  | .dist11 len _ => c.distance = true ∧ c.dd.gives 11 len
  | .dist12 len _ => c.distance = true ∧ c.dd.gives 12 len
  | .dist13 len _ => c.distance = true ∧ c.dd.gives 13 len
  | .dist14 len _ => c.distance = true ∧ c.dd.gives 14 len
  | .dist15 len _ => c.distance = true ∧ c.dd.gives 15 len
  | .dist16 len _ => c.distance = true ∧ c.dd.gives 16 len
  | .dist17 len _ => c.distance = true ∧ c.dd.gives 17 len
  | .dist18 len _ => c.distance = true ∧ c.dd.gives 18 len
  | .dist19 len _ => c.distance = true ∧ c.dd.gives 19 len
  | .dist20 len _ => c.distance = true ∧ c.dd.gives 20 len
  | .dist21 len _ => c.distance = true ∧ c.dd.gives 21 len
  | .dist22 len _ => c.distance = true ∧ c.dd.gives 22 len
  | .dist23 len _ => c.distance = true ∧ c.dd.gives 23 len
  | .dist24 len _ => c.distance = true ∧ c.dd.gives 24 len
  | .dist25 len _ => c.distance = true ∧ c.dd.gives 25 len
  | .dist26 len _ => c.distance = true ∧ c.dd.gives 26 len
  | .dist27 len _ => c.distance = true ∧ c.dd.gives 27 len
  | .dist28 len _ => c.distance = true ∧ c.dd.gives 28 len
  | .dist29 len _ => c.distance = true ∧ c.dd.gives 29 len
  | .d30 len => c.distance = true ∧ c.dd.gives 30 len
  | .d31 len => c.distance = true ∧ c.dd.gives 31 len
  | .adler _ => c.distance = false ∧ c.tag = .streamChecksum
  | .new | .push _ | .pull _ | .retained | .finish | .unpack _ | .premul _ _ _ | .read _
  | .reservedOp _ | .fmtIndexed1 _ _ | .fmtIndexed2 _ _ | .fmtIndexed4 _ _ | .fmtIndexed8 _ _
  | .fmtV1 _ | .fmtV2 _ | .fmtV4 _ | .fmtV8 _ | .fmtV16 _ | .fmtV1Key _ _ | .fmtV2Key _ _
  | .fmtV4Key _ _ | .fmtV8Key _ _ | .fmtV16Key _ _ | .fmtVa8 _ | .fmtVa16 _ | .fmtRgb8 _
  | .fmtRgb16 _ | .fmtRgb8Key _ _ _ _ | .fmtRgb16Key _ _ _ _ | .fmtRgba8 _ | .fmtRgba16 _
  | .fmtUnsupported _ | .stdIos _ _ => False

/-! ### Kinds of instruction -/

/-- RUN_257 to RUN_285: the first half of a run token (R353). -/
def runSymbol : Instr → Bool
  | .run257 _ | .run258 _ | .run259 _ | .run260 _ | .run261 _ | .run262 _ | .run263 _
  | .run264 _ | .run265 _ _ | .run266 _ _ | .run267 _ _ | .run268 _ _ | .run269 _ _
  | .run270 _ _ | .run271 _ _ | .run272 _ _ | .run273 _ _ | .run274 _ _ | .run275 _ _
  | .run276 _ _ | .run277 _ _ | .run278 _ _ | .run279 _ _ | .run280 _ _ | .run281 _ _
  | .run282 _ _ | .run283 _ _ | .run284 _ _ | .run285 _ => true
  | .new | .push _ | .pull _ | .retained | .finish | .unpack _ | .premul _ _ _
  | .read _ | .reservedOp _ | .zhdr _ _ | .bhdrStored _ _ _ | .bhdrFixed _
  | .bhdrDynamic _ _ _ _ _ | .bhdrReserved _ | .byte _ | .storedEnd | .clLit _ _
  | .clExtend _ _ | .clZeros3 _ _ | .clZeros7 _ _ | .lit _ _ | .eob _ | .rl286 _
  | .rl287 _ | .dist0 _ | .dist1 _ | .dist2 _ | .dist3 _ | .dist4 _ _ | .dist5 _ _
  | .dist6 _ _ | .dist7 _ _ | .dist8 _ _ | .dist9 _ _ | .dist10 _ _ | .dist11 _ _
  | .dist12 _ _ | .dist13 _ _ | .dist14 _ _ | .dist15 _ _ | .dist16 _ _ | .dist17 _ _
  | .dist18 _ _ | .dist19 _ _ | .dist20 _ _ | .dist21 _ _ | .dist22 _ _ | .dist23 _ _
  | .dist24 _ _ | .dist25 _ _ | .dist26 _ _ | .dist27 _ _ | .dist28 _ _ | .dist29 _ _
  | .d30 _ | .d31 _ | .adler _ | .fmtIndexed1 _ _ | .fmtIndexed2 _ _ | .fmtIndexed4 _ _
  | .fmtIndexed8 _ _ | .fmtV1 _ | .fmtV2 _ | .fmtV4 _ | .fmtV8 _ | .fmtV16 _
  | .fmtV1Key _ _ | .fmtV2Key _ _ | .fmtV4Key _ _ | .fmtV8Key _ _ | .fmtV16Key _ _
  | .fmtVa8 _ | .fmtVa16 _ | .fmtRgb8 _ | .fmtRgb16 _ | .fmtRgb8Key _ _ _ _
  | .fmtRgb16Key _ _ _ _ | .fmtRgba8 _ | .fmtRgba16 _ | .fmtUnsupported _ | .stdIos _ _ => false

/-- DIST_0 to DIST_29: the second half of a run token, which copies (R353). -/
def distanceSymbol : Instr → Bool
  | .dist0 _ | .dist1 _ | .dist2 _ | .dist3 _ | .dist4 _ _ | .dist5 _ _ | .dist6 _ _
  | .dist7 _ _ | .dist8 _ _ | .dist9 _ _ | .dist10 _ _ | .dist11 _ _ | .dist12 _ _
  | .dist13 _ _ | .dist14 _ _ | .dist15 _ _ | .dist16 _ _ | .dist17 _ _ | .dist18 _ _
  | .dist19 _ _ | .dist20 _ _ | .dist21 _ _ | .dist22 _ _ | .dist23 _ _ | .dist24 _ _
  | .dist25 _ _ | .dist26 _ _ | .dist27 _ _ | .dist28 _ _ | .dist29 _ _ => true
  | .new | .push _ | .pull _ | .retained | .finish | .unpack _ | .premul _ _ _
  | .read _ | .reservedOp _ | .zhdr _ _ | .bhdrStored _ _ _ | .bhdrFixed _
  | .bhdrDynamic _ _ _ _ _ | .bhdrReserved _ | .byte _ | .storedEnd | .clLit _ _
  | .clExtend _ _ | .clZeros3 _ _ | .clZeros7 _ _ | .lit _ _ | .eob _ | .run257 _
  | .run258 _ | .run259 _ | .run260 _ | .run261 _ | .run262 _ | .run263 _ | .run264 _
  | .run265 _ _ | .run266 _ _ | .run267 _ _ | .run268 _ _ | .run269 _ _ | .run270 _ _
  | .run271 _ _ | .run272 _ _ | .run273 _ _ | .run274 _ _ | .run275 _ _ | .run276 _ _
  | .run277 _ _ | .run278 _ _ | .run279 _ _ | .run280 _ _ | .run281 _ _ | .run282 _ _
  | .run283 _ _ | .run284 _ _ | .run285 _ | .rl286 _ | .rl287 _ | .d30 _ | .d31 _
  | .adler _ | .fmtIndexed1 _ _ | .fmtIndexed2 _ _ | .fmtIndexed4 _ _
  | .fmtIndexed8 _ _ | .fmtV1 _ | .fmtV2 _ | .fmtV4 _ | .fmtV8 _ | .fmtV16 _
  | .fmtV1Key _ _ | .fmtV2Key _ _ | .fmtV4Key _ _ | .fmtV8Key _ _ | .fmtV16Key _ _
  | .fmtVa8 _ | .fmtVa16 _ | .fmtRgb8 _ | .fmtRgb16 _ | .fmtRgb8Key _ _ _ _
  | .fmtRgb16Key _ _ _ _ | .fmtRgba8 _ | .fmtRgba16 _ | .fmtUnsupported _ | .stdIos _ _ => false

/-- The code-length elements (R320). -/
def codeLengthSymbol : Instr → Bool
  | .clLit _ _ | .clExtend _ _ | .clZeros3 _ _ | .clZeros7 _ _ => true
  | .new | .push _ | .pull _ | .retained | .finish | .unpack _ | .premul _ _ _
  | .read _ | .reservedOp _ | .zhdr _ _ | .bhdrStored _ _ _ | .bhdrFixed _
  | .bhdrDynamic _ _ _ _ _ | .bhdrReserved _ | .byte _ | .storedEnd | .lit _ _ | .eob _
  | .run257 _ | .run258 _ | .run259 _ | .run260 _ | .run261 _ | .run262 _ | .run263 _
  | .run264 _ | .run265 _ _ | .run266 _ _ | .run267 _ _ | .run268 _ _ | .run269 _ _
  | .run270 _ _ | .run271 _ _ | .run272 _ _ | .run273 _ _ | .run274 _ _ | .run275 _ _
  | .run276 _ _ | .run277 _ _ | .run278 _ _ | .run279 _ _ | .run280 _ _ | .run281 _ _
  | .run282 _ _ | .run283 _ _ | .run284 _ _ | .run285 _ | .rl286 _ | .rl287 _
  | .dist0 _ | .dist1 _ | .dist2 _ | .dist3 _ | .dist4 _ _ | .dist5 _ _ | .dist6 _ _
  | .dist7 _ _ | .dist8 _ _ | .dist9 _ _ | .dist10 _ _ | .dist11 _ _ | .dist12 _ _
  | .dist13 _ _ | .dist14 _ _ | .dist15 _ _ | .dist16 _ _ | .dist17 _ _ | .dist18 _ _
  | .dist19 _ _ | .dist20 _ _ | .dist21 _ _ | .dist22 _ _ | .dist23 _ _ | .dist24 _ _
  | .dist25 _ _ | .dist26 _ _ | .dist27 _ _ | .dist28 _ _ | .dist29 _ _ | .d30 _
  | .d31 _ | .adler _ | .fmtIndexed1 _ _ | .fmtIndexed2 _ _ | .fmtIndexed4 _ _
  | .fmtIndexed8 _ _ | .fmtV1 _ | .fmtV2 _ | .fmtV4 _ | .fmtV8 _ | .fmtV16 _
  | .fmtV1Key _ _ | .fmtV2Key _ _ | .fmtV4Key _ _ | .fmtV8Key _ _ | .fmtV16Key _ _
  | .fmtVa8 _ | .fmtVa16 _ | .fmtRgb8 _ | .fmtRgb16 _ | .fmtRgb8Key _ _ _ _
  | .fmtRgb16Key _ _ _ _ | .fmtRgba8 _ | .fmtRgba16 _ | .fmtUnsupported _ | .stdIos _ _ => false

/-- The elements that append to `OUT`: LIT, BYTE and the copying distance symbols (R351, R353, R358). -/
def appendsOutput (i : Instr) : Bool :=
  match i with
  | .lit _ _ => true
  | .byte _ => true
  | i => distanceSymbol i

/-! ### Results of an element that appends -/

/-- The physical side of a transaction that appends `bytes` and consumes `n` bits: the cursor moves (R33),
and the storage grows with or without a compaction that folds what it drops (R42, R44, R95). -/
structure State.Grows (s : State) (bytes : List Byte) (n : Nat) (t : State) : Prop where
  cursor : t.atoms = s.atoms ∧ t.dropped = s.dropped ∧ t.atomPos = s.atomPos + n
  storage :
    (t.baseIndex = s.baseIndex ∧ t.adlerS1 = s.adlerS1 ∧ t.adlerS2 = s.adlerS2 ∧
        t.storage = s.storage ++ bytes) ∨
      (t.baseIndex = s.startIndex ∧
        (t.adlerS1.toNat, t.adlerS2.toNat) =
          adlerFold (s.adlerS1.toNat, s.adlerS2.toNat) (s.storage.take (s.startIndex - s.baseIndex)) ∧
        t.storage = s.storage.drop (s.startIndex - s.baseIndex) ++ bytes)

/-- What the distance symbol `i` does when it names `offset` and takes `bits` bits itself (R353, R357, R96,
R93): the copy of `runCount` bytes, each equal to the byte `offset` before it; or the error; or the hold. -/
def CopiesBack (i : Instr) (offset bits : Nat) : Prop :=
  ∀ s : State,
    (offset ≤ s.refLimit → s.roomFor s.runCount →
      ∃ t bytes, exec i s = .next t ∧
        t.logical = ({ s with
          out := s.out ++ bytes
          pos := s.pos + (s.runBits + bits)
          activity := .inflating } : State).logical ∧
        s.Grows bytes (s.runBits + bits) t ∧
        bytes.length = s.runCount ∧
        ∀ k < s.runCount, t.out[s.out.length + k]? = t.out[s.out.length - offset + k]?) ∧
    (s.refLimit < offset → exec i s = .next (s.raise .invalidStringReference 0)) ∧
    (offset ≤ s.refLimit →
      ∀ cap, s.params.outCap = some cap → cap < s.out.length - s.startIndex + s.runCount →
        exec i s = .next { s with status := statusNeedsPull, payload := [], activity := .idle })

/-! ### Running a command to its end -/

/-- At most `n` steps, stopping when the command has answered (R222, R223). -/
def advanceLoop : Nat → State → Result
  | 0, s => .next s
  | n + 1, s =>
    if s.activity = .idle then .next s
    else
      match step s with
      | .next t => advanceLoop n t
      | .fault r => .fault r
      | .refused r => .refused r

/-! ### Bits of an element in the input -/

/-- The input holds `bits` from position `p`, all of them pushed (R12, R13). -/
def holdsBits (input : List Byte) (p : Nat) (bits : List Bool) : Prop :=
  p + bits.length ≤ 8 * input.length ∧
    ∀ k (h : k < bits.length), bitAt input (p + k) = (bits[k]).toNat

end Sys2Proof.Machine
end

