-- ==== Sys2Proof/Certificates/Slice0/Obligations.lean ====
section
/-! DEFINITION. The statements for the provers: what the numbered rules of spec/ say the instructions and the machine do, the invariants every step keeps, and the agreement of decoder and encoder. -/

open Sys2Proof Sys2Proof.Machine

/-! ### The step -/

/-- One step is `exec` of the decoded instruction: at the command port with its bytes taken, at the operand
block of an UNPACK with its bytes taken, in the stream with nothing around it. Without an instruction it waits
for the host, ends the PUSH with NeedsMore, or ends it with Done (R222, R223, R130, R400; log 1, log 3). -/
def Obligations.StepRunsTheDecodedInstruction : Prop :=
  ∀ s : State,
    (s.activity = .idle → ∀ i rest, decodeCommand s.port = some (i, rest) →
      step s = exec i { s with port := rest }) ∧
    (s.activity = .unpacking → ∀ i rest, decodeFormat s.port = some (i, rest) →
      step s = exec i { s with port := rest }) ∧
    (s.activity = .inflating ∨ s.activity = .distance → ∀ i,
      decodeElement s.elementCtx = .instr i → step s = exec i s) ∧
    (s.activity = .idle → decodeCommand s.port = none → step s = .next s) ∧
    (s.activity = .unpacking → decodeFormat s.port = none → step s = .next s) ∧
    (s.activity = .inflating ∨ s.activity = .distance → decodeElement s.elementCtx = .needMore →
      step s = .next { s with status := statusNeedsMore, payload := [], activity := .idle }) ∧
    (s.activity = .inflating ∨ s.activity = .distance → decodeElement s.elementCtx = .done →
      step s = .next { s with status := statusDone, payload := [], activity := .idle })

/-- The reset state has the values R490 gives, its registers read as R54 says after reset, and NEW, in every
state, gives it again with the parameters and the commands still on the port (R221, R490, R491, R493; log 1,
log 6). The fields R490 gives no value are not stated. -/
def Obligations.ResetAndNewGiveTheLaunchState : Prop :=
  (State.reset.st = .streamStart ∧ State.reset.input = [] ∧ State.reset.pos = 0 ∧
    State.reset.atoms = [0, 0, 0] ∧ State.reset.atomPos = 0 ∧ State.reset.dropped = 0 ∧
    State.reset.out = [] ∧ State.reset.baseIndex = 0 ∧ State.reset.startIndex = 0 ∧
    State.reset.currentIndex = 0 ∧ State.reset.window = 0 ∧ State.reset.adlerS1 = 1 ∧
    State.reset.adlerS2 = 0 ∧ State.reset.err = none ∧ State.reset.refusalMark = false) ∧
  (∀ a, a ∈ [0x00, 0x04, 0x08, 0x0C, 0x10, 0x14, 0x18, 0x1C, 0x20, 0x28] →
    State.reset.register a = 0) ∧
  State.reset.register 0x24 = 1 ∧
  ∀ s : State,
    exec .new s = .next { State.reset with params := s.params, port := s.port } ∧
      ({ State.reset with params := s.params, port := s.port } : State).launch

/-! ### Invariants -/

/-- Every step keeps R56: the position, the order of the four indices, the retained window, and
`ST = failed` exactly when `ERR` holds a value. -/
def Obligations.LogicalInvariantKept : Prop :=
  ∀ s t : State, s.Logical → step s = .next t → t.Logical

/-- Every step keeps the physical fields in agreement with the logical ones: `P = 16 * dropped + b`, the atoms
of the input with their zero tail, the resident output, and the folded Adler-32 state (R33, R42, R44, R58). -/
def Obligations.PhysicalInvariantKept : Prop :=
  ∀ s t : State, s.Logical → s.Physical → step s = .next t → t.Physical

/-- Every step keeps the tables and counts of the current state as its block header left them (R34, R36,
R37, R193, R320, R358). -/
def Obligations.TablesInvariantKept : Prop :=
  ∀ s t : State, s.Tables → step s = .next t → t.Tables

/-- The reset state, and every state NEW gives under legal parameters, meets the three invariants. -/
def Obligations.ResetMeetsTheInvariants : Prop :=
  (State.reset.Logical ∧ State.reset.Physical ∧ State.reset.Tables) ∧
    ∀ s t : State, s.params.wf = true → exec .new s = .next t →
      t.Logical ∧ t.Physical ∧ t.Tables

/-- No step from a state with its tables in order ends in a fault of the model (R190, R222; log 13). -/
def Obligations.NoFaultUnderTheTables : Prop :=
  ∀ (s : State) (f : Fault), s.Tables → step s ≠ .fault f

/-- R58: no result of a step, seen through the logical view, depends on the physical fields. -/
def Obligations.PhysicalFieldsAreNotObservable : Prop :=
  ∀ s s' : State, s.logical = s'.logical →
    viewResult State.logical (step s) = viewResult State.logical (step s')

/-- R231 for one split: a PUSH of `a` that ends without NeedsPull, then a PUSH of `b`, ends as one PUSH of
`a ++ b` does. -/
def Obligations.SplittingAPushChangesNothing : Prop :=
  ∀ (s s1 t t1 u : State) (a b : List Byte) (m n : Nat),
    s.Logical → s.Tables → s.params.inCap = none →
    exec (.push a) s = .next s1 → advanceLoop m s1 = .next t → t.activity = .idle →
    t.status ≠ statusNeedsPull →
    exec (.push b) t = .next t1 → advanceLoop n t1 = .next u → u.activity = .idle →
    ∃ (k : Nat) (v1 v : State), exec (.push (a ++ b)) s = .next v1 ∧ advanceLoop k v1 = .next v ∧
      v.activity = .idle ∧ v.status = u.status ∧ v.input = u.input ∧ v.out = u.out ∧
      v.pos = u.pos ∧ v.st = u.st ∧ v.err = u.err

/-- R230: a PUSH ends after at most `2 * Avail + 2` steps (the model takes two steps for a run token, log 2). -/
def Obligations.PushEndsWithinTwiceTheBits : Prop :=
  ∀ s : State, s.Tables → s.activity = .inflating →
    s.out.length + 258 * avail s.input s.pos < 2 ^ s.params.countWidth →
    ∃ t, advanceLoop (2 * avail s.input s.pos + 2) s = .next t ∧ t.activity = .idle

/-! ### Encodings -/

/-- Decoding the encoding of a well-formed command gives it back, with the bytes after it (R130, R133, R152; the
word's byte order is the model's choice, log 21). -/
def Obligations.CommandsDecodeAsEncoded : Prop :=
  ∀ (i : Instr) (b rest : List Byte), i.wf = true → encodeCommand i = some b →
    decodeCommand (b ++ rest) = some (i, rest)

/-- Port bytes that decode are the encoding of the well-formed command they decode to (R130, R133, R152; log 21). -/
def Obligations.DecodedCommandsAreEncodings : Prop :=
  ∀ (bytes rest : List Byte) (i : Instr), decodeCommand bytes = some (i, rest) →
    i.wf = true ∧ ∃ b, encodeCommand i = some b ∧ bytes = b ++ rest

/-- Decoding the operand block of a well-formed format instruction gives it back; a block that decodes is the
block of a well-formed format instruction (R132, R133, R402; the byte order of a key triple is the model's choice,
log 22). -/
def Obligations.OperandBlocksDecodeAsEncoded : Prop :=
  (∀ (i : Instr) (blk : Block) (rest : List Byte), i.wf = true → blockOf i = some blk →
    decodeFormat (encodeBlock blk ++ rest) = some (i, rest)) ∧
  ∀ (bytes rest : List Byte) (i : Instr), decodeFormat bytes = some (i, rest) →
    i.wf = true ∧ ∃ blk, blockOf i = some blk ∧ bytes = encodeBlock blk ++ rest

/-- A stream that holds the encoding of a well-formed element decodes to it, whatever follows (R134 to R150). -/
def Obligations.ElementsDecodeAsEncoded : Prop :=
  ∀ (c : ElementCtx) (i : Instr) (bits : List Bool), i.wf = true → c.owns i →
    encodeElement c i = some bits → holdsBits c.input c.pos bits → decodeElement c = .instr i

/-- The element the inflator decodes is well-formed, and all of its bits are pushed (R104, R150, R191). -/
def Obligations.DecodedElementsAreWhole : Prop :=
  ∀ (s : State) (i : Instr), s.Tables → s.activity = .inflating ∨ s.activity = .distance →
    decodeElement s.elementCtx = .instr i →
    i.wf = true ∧ elementBits s.elementCtx.pos i ≤ avail s.input s.elementCtx.pos

/-- Words written out from the spec decode to the instructions they stand for (R130, R132, R133, R135, R137,
R146, R147, R149). The command words' byte order is the model's choice (log 21). -/
def Obligations.SpecWordsDecode : Prop :=
  decodeCommand [0x00, 0x00, 0x00, 0x00] = some (.new, []) ∧
  decodeCommand [0x01, 0x02, 0x00, 0x00, 0x78, 0x01] = some (.push [0x78, 0x01], []) ∧
  decodeCommand [0x02, 0x05, 0x00, 0x00] = some (.pull 5, []) ∧
  decodeCommand [0x07, 0x24, 0x00, 0x00] = some (.read 0x24, []) ∧
  decodeCommand [0x08, 0x00, 0x00, 0x00] = some (.reservedOp 8, []) ∧
  decodeFormat [0x86, 0, 0, 0, 4, 0, 0, 0, 0xFF, 0, 0, 0x80] =
    some (.fmtRgba8 [0xFF, 0, 0, 0x80], []) ∧
  decodeElement { State.reset with input := [0x78, 0x01] }.elementCtx = .instr (.zhdr 0x78 0x01) ∧
  decodeElement { State.reset with
      st := .blockStart, input := [0x01, 0x05, 0x00, 0xFA, 0xFF] }.elementCtx =
    .instr (.bhdrStored true 0x0005 0xFFFA) ∧
  decodeElement { State.reset with
      st := .streamChecksum, input := [0x05, 0x8C, 0x01, 0xF5] }.elementCtx =
    .instr (.adler 0x058C01F5)

/-! ### Huffman tables -/

/-- R188: with a table built strict, DECODE answers `(s, L[s])` exactly when the first `L[s]` stream bits spell
the canonical code of `s`, most significant bit first. -/
def Obligations.CodesAreCanonical : Prop :=
  ∀ (lens : List Nat) (t : Table), build lens .strict = some t →
    ∀ (input : List Byte) (p s : Nat), s < lens.length → 1 ≤ lens.getD s 0 → lens.getD s 0 ≤ 15 →
      (t.decode input p = some ⟨s, lens.getD s 0⟩ ↔
        ∀ k < lens.getD s 0,
          bitAt input (p + k) = canonicalCode lens s / 2 ^ (lens.getD s 0 - 1 - k) % 2)

/-- R181: SIZE accepts exactly the complete prefix codes. -/
def Obligations.SizeAcceptsTheCompleteCodes : Prop :=
  ∀ lens : List Nat, sizeValid lens = true ↔
    (codeLevels.map fun l => lens.count l * 2 ^ (15 - l)).sum = 2 ^ 15

/-- R182, R185, R190, R195: a built table has `z` entries, `z = 32768 - 127 * n`, every key addresses one of
them, and over at most 288 symbols it has at most 32641. -/
def Obligations.BuiltTablesHaveTheirSize : Prop :=
  ∀ (lens : List Nat) (m : BuildMode) (t : Table), build lens m = some t →
    t.n ≤ 256 ∧ t.entries.length = t.z ∧ t.z = 32768 - 127 * t.n ∧
      (∀ key < 65536, t.index key < t.z) ∧ (lens.length ≤ 288 → t.z ≤ 32641)

/-- R184: a distance list with fewer than two codes decodes every key as its one symbol, or as the default
symbol, at length 1; two or more codes are built as in strict mode. -/
def Obligations.SmallDistanceListsAreDegenerate : Prop :=
  ∀ (lens : List Nat) (d : Nat),
    ((∀ x ∈ lens, x = 0) → ∀ key < 65536, ∃ t, build lens (.normalizing d) = some t ∧
      t.lookup key = some ⟨d, 1⟩) ∧
    (∀ s < lens.length, lens.getD s 0 ≠ 0 → (∀ s' < lens.length, s' ≠ s → lens.getD s' 0 = 0) →
      ∀ key < 65536, ∃ t, build lens (.normalizing d) = some t ∧ t.lookup key = some ⟨s, 1⟩) ∧
    (∀ s < lens.length, ∀ s' < lens.length, s ≠ s' → lens.getD s 0 ≠ 0 → lens.getD s' 0 ≠ 0 →
      build lens (.normalizing d) = build lens .strict)

/-- R192, R146, R147: the sizes of the ROM tables, and the fixed codes. -/
def Obligations.FixedTablesGiveTheFixedCodes : Prop :=
  fixedRl.n = 200 ∧ fixedRl.z = 7368 ∧ fixedRl.fence = 51200 ∧ fixedRl.fold = 25400 ∧
    fixedD.n = 256 ∧ fixedD.z = 256 ∧
    (∀ s < 144, ∀ x < 256, fixedRl.lookup ((0x30 + s) * 256 + x) = some ⟨s, 8⟩) ∧
    (∀ s < 112, ∀ x < 128, fixedRl.lookup ((0x190 + s) * 128 + x) = some ⟨144 + s, 9⟩) ∧
    (∀ s < 24, ∀ x < 512, fixedRl.lookup (s * 512 + x) = some ⟨256 + s, 7⟩) ∧
    (∀ s < 8, ∀ x < 256, fixedRl.lookup ((0xC0 + s) * 256 + x) = some ⟨280 + s, 8⟩) ∧
    (∀ s < 32, ∀ x < 2048, fixedD.lookup (s * 2048 + x) = some ⟨s, 5⟩)

/-! ### Bits, bytes and checksums -/

/-- R86: bit `15 - i` of `rev16 v` is bit `i` of `v`; reversing twice gives `v`; the rule's examples. -/
def Obligations.Rev16ReversesSixteenBits : Prop :=
  (∀ v < 65536, rev16 (rev16 v) = v ∧ ∀ i < 16, (rev16 v).testBit (15 - i) = v.testBit i) ∧
    rev16 0x0001 = 0x8000 ∧ rev16 0x00F3 = 0xCF00

/-- R83, R84: the two-atom read gives the stream bits at every position and width, zero beyond the pushed bytes;
three 16-bit reads give a 48-bit one, whose low bits are every narrower read. -/
def Obligations.AtomReadsAreStreamReads : Prop :=
  (∀ (s : State) (p n : Nat), s.Physical → 1 ≤ n → n ≤ 16 →
    atomGet s.atoms p n = inBits s.input (16 * s.dropped + p) n) ∧
  ∀ (input : List Byte) (p : Nat),
    inBits input p 48 =
      inBits input p 16 + inBits input (p + 16) 16 * 2 ^ 16 + inBits input (p + 32) 16 * 2 ^ 32 ∧
    ∀ n ≤ 48, inBits input p n = inBits input p 48 % 2 ^ n

/-- R98, R266: the physical `checksum()` is `Adler(OUT)`. -/
def Obligations.ChecksumIsAdlerOfOut : Prop :=
  ∀ s : State, s.Physical → s.checksum = adler s.out

/-- R264, R265: both halves stay below 65521, and reducing only at block boundaries gives the same sums. -/
def Obligations.AdlerReducesAtAnyBoundary : Prop :=
  (∀ bytes : List Byte,
    (adlerFold (1, 0) bytes).1 < 65521 ∧ (adlerFold (1, 0) bytes).2 < 65521) ∧
  (∀ blocks : List (List Byte), adlerBlocks (1, 0) blocks = adlerFold (1, 0) blocks.flatten) ∧
  adler [] = 1 ∧ adler [0x48, 0x65, 0x6C, 0x6C, 0x6F] = 0x058C01F5

/-- R357, R57: the limit of REFCHECK by the check in force; under R56 the strict limit is
`min(WINDOW, endIndex)`, so it depends on the stream only. -/
def Obligations.ReferenceLimitFollowsTheWindow : Prop :=
  ∀ s : State,
    (s.params.windowCheck = .strict →
      s.refLimit = min s.window (s.out.length - s.startIndex)) ∧
    (s.params.windowCheck = .resident → s.refLimit = s.out.length - s.startIndex) ∧
    (s.Logical → s.params.windowCheck = .strict → s.refLimit = min s.window s.out.length)

/-! ### Host commands -/

/-- PUSH (R223, R31, R81, R82, R97, R52): accepted, the input grows and `P` stays, with the consumed atoms
dropped; over a finite `IN_CAP` it is refused, and within it, when a bit position of the grown input would need
more than `COUNT_WIDTH` bits (that the bound is `8 * |IN|` is the model's reading of R52, log 9). -/
def Obligations.PushAppendsTheInput : Prop :=
  ∀ (s : State) (data : List Byte), s.st ≠ .failed →
    ((∀ c, s.params.inCap = some c → s.input.length + data.length - 2 * (s.pos / 16) ≤ c) →
      8 * (s.input.length + data.length) < 2 ^ s.params.countWidth →
      ∃ t, exec (.push data) s = .next t ∧
        t.logical = ({ s with input := s.input ++ data, activity := .inflating } : State).logical ∧
        t.dropped = s.dropped + s.atomPos / 16 ∧ t.atomPos = s.atomPos % 16 ∧
        t.storage = s.storage ∧ t.baseIndex = s.baseIndex ∧ t.adlerS1 = s.adlerS1 ∧
        t.adlerS2 = s.adlerS2) ∧
    (∀ c, s.params.inCap = some c → c < s.input.length + data.length - 2 * (s.pos / 16) →
      exec (.push data) s = .refused .inputCapacity) ∧
    ((∀ c, s.params.inCap = some c → s.input.length + data.length - 2 * (s.pos / 16) ≤ c) →
      2 ^ s.params.countWidth ≤ 8 * (s.input.length + data.length) →
      exec (.push data) s = .refused .counterWidth)

/-- PULL (R224, R94, R131): refused in `failed`; else exactly `n` bytes and the window clamped to what was
released, or None and nothing changed. -/
def Obligations.PullReleasesExactlyTheBytes : Prop :=
  ∀ (s : State) (n : BitVec 24),
    (s.st = .failed → exec (.pull n) s = .refused .sessionFailed) ∧
    (s.st ≠ .failed → n.toNat ≤ s.out.length - s.currentIndex →
      exec (.pull n) s = .next { s with
        status := 1
        payload := (s.out.drop s.currentIndex).take n.toNat
        activity := .idle
        currentIndex := s.currentIndex + n.toNat
        startIndex := min (max (s.out.length - s.window) s.startIndex) (s.currentIndex + n.toNat) }) ∧
    (s.st ≠ .failed → s.out.length - s.currentIndex < n.toNat →
      exec (.pull n) s = .next { s with status := 0, payload := [], activity := .idle })

/-- RETAINED and FINISH (R225, R226, R131), refused in `failed`. -/
def Obligations.RetainedCountsAndFinishEnds : Prop :=
  ∀ s : State,
    (s.st = .failed →
      exec .retained s = .refused .sessionFailed ∧ exec .finish s = .refused .sessionFailed) ∧
    (s.st ≠ .failed → exec .retained s = .next { s with
      status := 0, payload := leBytes 8 (s.out.length - s.currentIndex), activity := .idle }) ∧
    (s.st = .streamEnd →
      exec .finish s = .next { s with status := 0, payload := [], activity := .idle }) ∧
    (s.st ≠ .failed → s.st ≠ .streamEnd → exec .finish s = .next (s.raise .truncatedBitstream 0))

/-- R228: in `failed`, PUSH, PULL, RETAINED and FINISH are refused; NEW and an aligned READ are not. -/
def Obligations.FailedRefusesTheSession : Prop :=
  ∀ s : State, s.st = .failed →
    (∀ data, exec (.push data) s = .refused .sessionFailed) ∧
    (∀ n, exec (.pull n) s = .refused .sessionFailed) ∧
    exec .retained s = .refused .sessionFailed ∧
    exec .finish s = .refused .sessionFailed ∧
    (∃ t, exec .new s = .next t ∧ t.st = .streamStart ∧ t.err = none) ∧
    ∀ addr : Byte, addr.toNat % 4 = 0 → ∃ t, exec (.read addr) s = .next t ∧ t.st = .failed

/-- READ (R232, R54, R131): in every state it answers the register's value and changes nothing else; the
registers of R54, 0 at every other aligned address; an unaligned address is refused. -/
def Obligations.ReadAnswersTheRegisters : Prop :=
  ∀ s : State,
    (∀ addr : Byte, addr.toNat % 4 = 0 →
      exec (.read addr) s = .next { s with
        status := 0, payload := leBytes 4 (s.register addr.toNat), activity := .idle }) ∧
    (∀ addr : Byte, addr.toNat % 4 ≠ 0 → exec (.read addr) s = .refused .unalignedRead) ∧
    s.register 0x00 = tagCode s.st +
      (if s.st = .blockTables ∨ s.st = .blockUncompressed ∨ s.st = .blockCompressed then
        (if s.final then 8 else 0) else 0) ∧
    (s.st ≠ .failed → s.register 0x04 = 0) ∧
    (∀ k a, s.st = .failed → s.err = some ⟨k, a⟩ → s.register 0x04 = errorCode k + a * 2 ^ 16) ∧
    s.register 0x08 = s.window ∧
    s.register 0x0C = s.out.length - s.currentIndex ∧
    s.register 0x10 = s.pos ∧ s.register 0x14 = s.pos / 2 ^ 32 ∧
    s.register 0x18 = 8 * s.input.length - s.pos ∧
    s.register 0x1C = s.out.length ∧ s.register 0x20 = s.out.length / 2 ^ 32 ∧
    s.register 0x24 = adler s.out ∧
    (s.st = .blockUncompressed → s.register 0x28 = s.blockEnd - s.out.length) ∧
    (s.st = .blockTables → s.register 0x28 = s.lengths.length) ∧
    (s.st ≠ .blockUncompressed → s.st ≠ .blockTables → s.register 0x28 = 0) ∧
    ∀ a, 0x28 < a → s.register a = 0

/-- PREMUL (R419, R131): the exactly rounded product, at most `c`; 0 for `a = 0`, `c` for `a = M`. -/
def Obligations.PremulRoundsTheProduct : Prop :=
  ∀ (s : State) (w : Width) (c a : BitVec 64), c.toNat ≤ widthMax w → a.toNat ≤ widthMax w →
    ∃ v, exec (.premul w c a) s =
        .next { s with status := 0, payload := leBytes (widthBytes w) v, activity := .idle } ∧
      v * widthMax w ≤ c.toNat * a.toNat + widthMax w / 2 ∧
      c.toNat * a.toNat + widthMax w / 2 < (v + 1) * widthMax w ∧
      v ≤ c.toNat ∧ (a.toNat = 0 → v = 0) ∧ (a.toNat = widthMax w → v = c.toNat)

/-- UNPACK with `STD = Common` goes on to its operand block; with `STD = iOS` it answers
`Error(unsupported)`, whatever its format; a successful response is the pixel count and the colours
`r, g, b, a`, each component little-endian (R400, R401, R131; log 3). With `STD = iOS` a palette whose `NP` is
outside 1..256 is refused first (R455, R456): that order is the model's reading (log 12). -/
def Obligations.UnpackTakesItsBlockAndAnswersColours : Prop :=
  ∀ (s : State) (w : Width),
    exec (.unpack w) s = .next { s with activity := .unpacking, dst := w } ∧
    (∀ blk : Block,
      ((blk.fmt.toNat % 16 = 3 → 1 ≤ blk.palette.length ∧ blk.palette.length ≤ 256) →
        exec (.stdIos w blk) s =
          .next { s with status := statusError .unsupported 0, payload := [], activity := .idle }) ∧
      (blk.fmt.toNat % 16 = 3 → blk.palette.length = 0 ∨ 256 < blk.palette.length →
        exec (.stdIos w blk) s = .refused .paletteCount)) ∧
    ∀ cs : List Color, s.unpackOk cs = { s with
      status := 0
      payload := leBytes 4 cs.length ++ cs.flatMap fun c =>
        leBytes (widthBytes s.dst) c.r ++ leBytes (widthBytes s.dst) c.g
          ++ leBytes (widthBytes s.dst) c.b ++ leBytes (widthBytes s.dst) c.a
      activity := .idle }

/-- R152: every word with a reserved `OP`, a nonzero `RSV` or a nonzero must-be-zero field decodes to
RESERVED_OP, which is refused; an unaligned READ is refused, an aligned one without a register reads 0. That the
word's bytes stand least significant first on the port is the model's choice (log 21). -/
def Obligations.ReservedWordsAreRefused : Prop :=
  (∀ (w : Word) (rest : List Byte),
    (8 ≤ w.toNat % 16 ∨ w.toNat / 16 % 16 ≠ 0 ∨
      (w.toNat % 16 = 0 ∨ w.toNat % 16 = 3 ∨ w.toNat % 16 = 4) ∧ w.toNat / 256 ≠ 0 ∨
      w.toNat % 16 = 5 ∧ w.toNat / 2048 ≠ 0 ∨ w.toNat % 16 = 6 ∧ w.toNat / 1024 ≠ 0 ∨
      w.toNat % 16 = 7 ∧ w.toNat / 65536 ≠ 0) →
    decodeCommand (leBytes 4 w.toNat ++ rest) = some (.reservedOp w, rest)) ∧
  ∀ (w : Word) (addr : Byte) (s : State),
    exec (.reservedOp w) s = .refused .reservedCommand ∧
    (addr.toNat % 4 ≠ 0 → exec (.read addr) s = .refused .unalignedRead) ∧
    (addr.toNat % 4 = 0 → 0x28 < addr.toNat → exec (.read addr) s =
      .next { s with status := 0, payload := [0, 0, 0, 0], activity := .idle })

/-- R452, R131, R450: a raise writes `ST`, `ERR` and the response, and nothing else; the status word carries
KIND 2, the error's code and its argument. -/
def Obligations.RaiseWritesOnlyTheError : Prop :=
  ∀ (s : State) (k : ErrorKind) (arg : Nat), arg < 2 ^ 16 →
    (∃ w : Word, s.raise k arg = { s with
        st := .failed, err := some ⟨k, arg⟩, status := w, payload := [], activity := .idle } ∧
      w.toNat % 4 = 2 ∧ w.toNat / 4 % 64 = 0 ∧ w.toNat / 256 % 256 = errorCode k ∧
      w.toNat / 65536 = arg) ∧
    1 ≤ errorCode k ∧ errorCode k ≤ 15 ∧ ∀ k', errorCode k = errorCode k' → k = k'

/-! ### The zlib container -/

/-- STREAM_START (R260): nothing is examined below 16 bits; the two bytes are CMF and FLG; a header that passes
the checks sets `WINDOW` and opens the blocks. -/
def Obligations.ZlibHeaderOpensTheStream : Prop :=
  (∀ c : ElementCtx, c.distance = false → c.tag = .streamStart →
    (avail c.input c.pos < 16 → decodeElement c = .needMore) ∧
    (16 ≤ avail c.input c.pos → decodeElement c =
      .instr (.zhdr (BitVec.ofNat 8 (inBits c.input c.pos 16 % 256))
        (BitVec.ofNat 8 (inBits c.input c.pos 16 / 256))))) ∧
  ∀ (cmf flg : Byte) (s : State), cmf.toNat % 16 = 8 → cmf.toNat / 16 < 8 →
    (cmf.toNat * 256 + flg.toNat) % 31 = 0 → flg.toNat / 32 % 2 = 0 →
    exec (.zhdr cmf flg) s = .next { s with
      pos := s.pos + 16, atomPos := s.atomPos + 16, window := 2 ^ (8 + cmf.toNat / 16),
      st := .blockStart }

/-- R262: the four header checks in their order, each with its error; a header that passes all four raises none. -/
def Obligations.HeaderChecksRaiseInOrder : Prop :=
  ∀ (cmf flg : Byte) (s : State),
    (cmf.toNat % 16 ≠ 8 → exec (.zhdr cmf flg) s = .next (s.raise .invalidStreamMethod 0)) ∧
    (cmf.toNat % 16 = 8 → 8 ≤ cmf.toNat / 16 →
      exec (.zhdr cmf flg) s = .next (s.raise .invalidStreamWindowSize (cmf.toNat / 16))) ∧
    (cmf.toNat % 16 = 8 → cmf.toNat / 16 < 8 → (cmf.toNat * 256 + flg.toNat) % 31 ≠ 0 →
      exec (.zhdr cmf flg) s = .next (s.raise .invalidStreamHeaderCheckBits 0)) ∧
    (cmf.toNat % 16 = 8 → cmf.toNat / 16 < 8 → (cmf.toNat * 256 + flg.toNat) % 31 = 0 →
      flg.toNat / 32 % 2 = 1 →
      exec (.zhdr cmf flg) s = .next (s.raise .unexpectedStreamDictionary 0)) ∧
    (cmf.toNat % 16 = 8 → cmf.toNat / 16 < 8 → (cmf.toNat * 256 + flg.toNat) % 31 = 0 →
      flg.toNat / 32 % 2 = 0 →
      ∃ t, exec (.zhdr cmf flg) s = .next t ∧ t.st = .blockStart ∧ t.err = s.err)

/-- STREAM_CHECKSUM (R263, R149): the pad bits are skipped unchecked, four big-endian bytes are read, and the
value must be `Adler(OUT)`. -/
def Obligations.TrailerMustBeTheChecksum : Prop :=
  (∀ c : ElementCtx, c.distance = false → c.tag = .streamChecksum →
    (avail c.input c.pos < (8 - c.pos % 8) % 8 + 32 → decodeElement c = .needMore) ∧
    ((8 - c.pos % 8) % 8 + 32 ≤ avail c.input c.pos →
      ∃ v : Word, decodeElement c = .instr (.adler v) ∧
        v.toNat = inBits c.input (c.pos + (8 - c.pos % 8) % 8) 8 * 2 ^ 24
          + inBits c.input (c.pos + (8 - c.pos % 8) % 8 + 8) 8 * 2 ^ 16
          + inBits c.input (c.pos + (8 - c.pos % 8) % 8 + 16) 8 * 2 ^ 8
          + inBits c.input (c.pos + (8 - c.pos % 8) % 8 + 24) 8)) ∧
  ∀ (v : Word) (s : State),
    (v.toNat = adler s.out → exec (.adler v) s = .next { s with
      pos := s.pos + ((8 - s.pos % 8) % 8 + 32)
      atomPos := s.atomPos + ((8 - s.pos % 8) % 8 + 32)
      st := .streamEnd, status := statusDone, payload := [], activity := .idle }) ∧
    (v.toNat ≠ adler s.out → exec (.adler v) s = .next (s.raise .invalidStreamChecksum 0))

/-! ### Block headers -/

/-- STORED_HEADER (R291, R137). -/
def Obligations.StoredHeaderNeedsTheComplement : Prop :=
  (∀ c : ElementCtx, c.distance = false → c.tag = .blockStart → 3 ≤ avail c.input c.pos →
    inBits c.input (c.pos + 1) 2 = 0 →
    (avail c.input c.pos < 3 + (8 - (c.pos + 3) % 8) % 8 + 32 → decodeElement c = .needMore) ∧
    (3 + (8 - (c.pos + 3) % 8) % 8 + 32 ≤ avail c.input c.pos → decodeElement c =
      .instr (.bhdrStored (decide (inBits c.input c.pos 1 = 1))
        (BitVec.ofNat 16 (inBits c.input (c.pos + 3 + (8 - (c.pos + 3) % 8) % 8) 16))
        (BitVec.ofNat 16 (inBits c.input (c.pos + 3 + (8 - (c.pos + 3) % 8) % 8 + 16) 16))))) ∧
  ∀ (bf : Bool) (len nlen : Half) (s : State),
    (len.toNat = 0xFFFF - nlen.toNat → exec (.bhdrStored bf len nlen) s = .next { s with
      pos := s.pos + (3 + (8 - (s.pos + 3) % 8) % 8 + 32)
      atomPos := s.atomPos + (3 + (8 - (s.pos + 3) % 8) % 8 + 32)
      final := bf, blockEnd := s.out.length + len.toNat, st := .blockUncompressed }) ∧
    (len.toNat ≠ 0xFFFF - nlen.toNat →
      exec (.bhdrStored bf len nlen) s = .next (s.raise .invalidBlockElementCountParity 0)) ∧
    (s.pos + (3 + (8 - (s.pos + 3) % 8) % 8 + 32)) % 8 = 0

/-- BLOCK_START below 3 bits, FIXED_HEADER and the reserved block type (R290, R292, R295). -/
def Obligations.FixedAndReservedHeadersNeedThreeBits : Prop :=
  (∀ c : ElementCtx, c.distance = false → c.tag = .blockStart →
    (avail c.input c.pos < 3 → decodeElement c = .needMore) ∧
    (3 ≤ avail c.input c.pos → inBits c.input (c.pos + 1) 2 = 1 →
      decodeElement c = .instr (.bhdrFixed (decide (inBits c.input c.pos 1 = 1)))) ∧
    (3 ≤ avail c.input c.pos → inBits c.input (c.pos + 1) 2 = 3 →
      decodeElement c = .instr (.bhdrReserved (decide (inBits c.input c.pos 1 = 1))))) ∧
  ∀ (bf : Bool) (s : State),
    exec (.bhdrFixed bf) s = .next { s with
      pos := s.pos + 3, atomPos := s.atomPos + 3, final := bf, rld := fixedRl, dd := fixedD,
      st := .blockCompressed } ∧
    exec (.bhdrReserved bf) s = .next (s.raise .invalidBlockType 0)

/-- DYNAMIC_HEADER as read (R138, R293, R294): 17 bits for the counts, the HLIT check before the code lengths,
the lengths in stream order. -/
def Obligations.DynamicHeaderIsReadInStages : Prop :=
  ∀ c : ElementCtx, c.distance = false → c.tag = .blockStart → 3 ≤ avail c.input c.pos →
    inBits c.input (c.pos + 1) 2 = 2 →
    (avail c.input c.pos < 17 → decodeElement c = .needMore) ∧
    (17 ≤ avail c.input c.pos → 286 < inBits c.input (c.pos + 3) 5 + 257 →
      ∃ bf hlit hdist hclen cl, decodeElement c = .instr (.bhdrDynamic bf hlit hdist hclen cl) ∧
        hlit.toNat = inBits c.input (c.pos + 3) 5) ∧
    (17 ≤ avail c.input c.pos → inBits c.input (c.pos + 3) 5 + 257 ≤ 286 →
      avail c.input c.pos < 17 + 3 * (inBits c.input (c.pos + 13) 4 + 4) →
      decodeElement c = .needMore) ∧
    (inBits c.input (c.pos + 3) 5 + 257 ≤ 286 →
      17 + 3 * (inBits c.input (c.pos + 13) 4 + 4) ≤ avail c.input c.pos →
      ∃ bf hlit hdist hclen cl, decodeElement c = .instr (.bhdrDynamic bf hlit hdist hclen cl) ∧
        bf = decide (inBits c.input c.pos 1 = 1) ∧
        hlit.toNat = inBits c.input (c.pos + 3) 5 ∧ hdist.toNat = inBits c.input (c.pos + 8) 5 ∧
        hclen.toNat = inBits c.input (c.pos + 13) 4 ∧ cl.length = hclen.toNat + 4 ∧
        ∀ i < cl.length, (cl.getD i 0).toNat = inBits c.input (c.pos + 17 + 3 * i) 3)

/-- DYNAMIC_HEADER as run (R293, R294, R139): HLIT 287 and 288 raise; else the code lengths, placed by
`CL_ORDER` with 0 elsewhere, must be a complete code. -/
def Obligations.DynamicHeaderBuildsTheCodeLengthTable : Prop :=
  ∀ (bf : Bool) (hlit hdist : BitVec 5) (hclen : BitVec 4) (cl : List (BitVec 3)) (s : State),
    (286 < hlit.toNat + 257 → exec (.bhdrDynamic bf hlit hdist hclen cl) s =
      .next (s.raise .invalidHuffmanRunLiteralSymbolCount (hlit.toNat + 257))) ∧
    (hlit.toNat + 257 ≤ 286 → cl.length = hclen.toNat + 4 →
      ∀ lens : List Nat, lens.length = 19 →
        (∀ i < 19, lens.getD (clOrder.getD i 0) 0 =
          if i < cl.length then (cl.getD i 0).toNat else 0) →
        (build lens .strict = none → exec (.bhdrDynamic bf hlit hdist hclen cl) s =
          .next (s.raise .invalidHuffmanCodelengthHuffmanTable 0)) ∧
        ∀ t, build lens .strict = some t → exec (.bhdrDynamic bf hlit hdist hclen cl) s =
          .next { s with
            pos := s.pos + (17 + 3 * (hclen.toNat + 4))
            atomPos := s.atomPos + (17 + 3 * (hclen.toNat + 4))
            final := bf, hlit := BitVec.ofNat 9 (hlit.toNat + 257)
            hdist := BitVec.ofNat 6 (hdist.toNat + 1), cld := t, lengths := []
            st := .blockTables })

/-! ### Code lengths -/

/-- CL_STEP (R320 to R326): the four elements, what each appends, overflow, and completion with the run/literal
table strict and the distance table normalizing. -/
def Obligations.CodeLengthElementsAppend : Prop :=
  (∀ (i : Instr) (add : List (BitVec 4)) (n : Nat) (s : State),
    ((∃ len k, i = .clLit len k ∧ add = [k] ∧ n = len) ∨
      (∃ len x k, i = .clExtend len x ∧ s.lengths.getLast? = some k ∧
        add = List.replicate (3 + x.toNat) k ∧ n = len + 2) ∨
      (∃ len x, i = .clZeros3 len x ∧ add = List.replicate (3 + x.toNat) 0 ∧ n = len + 3) ∨
      (∃ len x, i = .clZeros7 len x ∧ add = List.replicate (11 + x.toNat) 0 ∧ n = len + 7)) →
    (s.hlit.toNat + s.hdist.toNat < s.lengths.length + add.length →
      exec i s = .next (s.raise .invalidHuffmanCodelengthSequence 0)) ∧
    (s.lengths.length + add.length < s.hlit.toNat + s.hdist.toNat →
      exec i s = .next { s with
        pos := s.pos + n, atomPos := s.atomPos + n, lengths := s.lengths ++ add }) ∧
    (s.lengths.length + add.length = s.hlit.toNat + s.hdist.toNat →
      (∀ rl d,
        build (((s.lengths ++ add).take s.hlit.toNat).map BitVec.toNat) .strict = some rl →
        build (((s.lengths ++ add).drop s.hlit.toNat).map BitVec.toNat)
          (.normalizing s.params.dDefaultSym) = some d →
        exec i s = .next { s with
          pos := s.pos + n, atomPos := s.atomPos + n, lengths := s.lengths ++ add, rld := rl,
          dd := d, st := .blockCompressed }) ∧
      (build (((s.lengths ++ add).take s.hlit.toNat).map BitVec.toNat) .strict = none ∨
        build (((s.lengths ++ add).drop s.hlit.toNat).map BitVec.toNat)
          (.normalizing s.params.dDefaultSym) = none →
        exec i s = .next (s.raise .invalidHuffmanTable 0)))) ∧
  ∀ (len : Nat) (x : BitVec 2) (s : State), s.lengths = [] →
    exec (.clExtend len x) s = .next (s.raise .invalidHuffmanCodelengthSequence 0)

/-! ### Block data -/

/-- The codes of the stream as read (R142, R143, R145, R190, R191, R320, R350): a code or its extra bits not all
pushed is NeedsMore; else the symbol chooses the element and its extra bits follow the code, least significant
bit first. -/
def Obligations.CodedElementsAreRead : Prop :=
  ∀ (c : ElementCtx) (e : Entry),
    (c.distance = false → c.tag = .blockTables → c.cld.decode c.input c.pos = some e →
      (e.sym < 19 → avail c.input c.pos < e.len + (if e.sym = 16 then 2 else if e.sym = 17 then 3
          else if e.sym = 18 then 7 else 0) → decodeElement c = .needMore) ∧
      (e.len ≤ avail c.input c.pos → e.sym < 16 →
        decodeElement c = .instr (.clLit e.len (BitVec.ofNat 4 e.sym))) ∧
      (e.len + 2 ≤ avail c.input c.pos → e.sym = 16 → decodeElement c =
        .instr (.clExtend e.len (BitVec.ofNat 2 (inBits c.input (c.pos + e.len) 2)))) ∧
      (e.len + 3 ≤ avail c.input c.pos → e.sym = 17 → decodeElement c =
        .instr (.clZeros3 e.len (BitVec.ofNat 3 (inBits c.input (c.pos + e.len) 3)))) ∧
      (e.len + 7 ≤ avail c.input c.pos → e.sym = 18 → decodeElement c =
        .instr (.clZeros7 e.len (BitVec.ofNat 7 (inBits c.input (c.pos + e.len) 7))))) ∧
    (c.distance = false → c.tag = .blockCompressed → c.rld.decode c.input c.pos = some e →
      (avail c.input c.pos < e.len → decodeElement c = .needMore) ∧
      (e.len ≤ avail c.input c.pos → e.sym < 256 →
        decodeElement c = .instr (.lit e.len (BitVec.ofNat 8 e.sym))) ∧
      (e.len ≤ avail c.input c.pos → e.sym = 256 → decodeElement c = .instr (.eob e.len)) ∧
      (∀ j < 29, e.sym = 257 + j →
        (avail c.input c.pos < e.len + runExtra j → decodeElement c = .needMore) ∧
        (e.len + runExtra j ≤ avail c.input c.pos →
          decodeElement c =
            .instr (runInstr j e.len (inBits c.input (c.pos + e.len) (runExtra j))))) ∧
      (e.len ≤ avail c.input c.pos → e.sym = 286 → decodeElement c = .instr (.rl286 e.len)) ∧
      (e.len ≤ avail c.input c.pos → 286 < e.sym → decodeElement c = .instr (.rl287 e.len))) ∧
    (c.distance = true → c.dd.decode c.input c.pos = some e →
      (avail c.input c.pos < e.len → decodeElement c = .needMore) ∧
      (∀ k < 30, e.sym = k →
        (avail c.input c.pos < e.len + distExtra k → decodeElement c = .needMore) ∧
        (e.len + distExtra k ≤ avail c.input c.pos →
          decodeElement c =
            .instr (distInstr k e.len (inBits c.input (c.pos + e.len) (distExtra k))))) ∧
      (e.len ≤ avail c.input c.pos → e.sym = 30 → decodeElement c = .instr (.d30 e.len)) ∧
      (e.len ≤ avail c.input c.pos → 30 < e.sym → decodeElement c = .instr (.d31 e.len)))

/-- LIT and STORED_BYTE (R351, R358, R92, R96): one byte appended and the bits consumed; with a finite `OUT_CAP`
that it does not fit, NeedsPull and nothing changed. -/
def Obligations.BytesAreAppended : Prop :=
  (∀ (v : Byte) (len : Nat) (s : State),
    (s.roomFor 1 → ∃ t, exec (.lit len v) s = .next t ∧
      t.logical = ({ s with out := s.out ++ [v], pos := s.pos + len } : State).logical ∧
      s.Grows [v] len t) ∧
    (∀ cap, s.params.outCap = some cap → cap < s.out.length - s.startIndex + 1 →
      exec (.lit len v) s =
        .next { s with status := statusNeedsPull, payload := [], activity := .idle })) ∧
  (∀ (v : Byte) (s : State),
    (s.roomFor 1 → ∃ t, exec (.byte v) s = .next t ∧
      t.logical = ({ s with out := s.out ++ [v], pos := s.pos + 8 } : State).logical ∧
      s.Grows [v] 8 t) ∧
    (∀ cap, s.params.outCap = some cap → cap < s.out.length - s.startIndex + 1 →
      exec (.byte v) s =
        .next { s with status := statusNeedsPull, payload := [], activity := .idle })) ∧
  ∀ c : ElementCtx, c.distance = false → c.tag = .blockUncompressed → c.blockDone = false →
    (avail c.input c.pos < 8 → decodeElement c = .needMore) ∧
    (8 ≤ avail c.input c.pos →
      decodeElement c = .instr (.byte (BitVec.ofNat 8 (inBits c.input c.pos 8))))

/-- EOB and STORED_END (R352, R359): the final block goes to the trailer, another to the next header;
STORED_END reads no bits and is taken at the block's end. -/
def Obligations.BlocksEndByTheFinalBit : Prop :=
  (∀ (len : Nat) (s : State), exec (.eob len) s = .next { s with
    pos := s.pos + len, atomPos := s.atomPos + len,
    st := if s.final then .streamChecksum else .blockStart }) ∧
  (∀ s : State, exec .storedEnd s = .next { s with
    st := if s.final then .streamChecksum else .blockStart }) ∧
  ∀ s : State, s.activity = .inflating → s.st = .blockUncompressed →
    s.out.length = s.blockEnd → decodeElement s.elementCtx = .instr .storedEnd

/-- RUN_257 to RUN_285, the first half of a run token (R353, R144): `count` and `t1` by the decade table,
and nothing else of the state changes before the distance (log 2). -/
def Obligations.RunSymbolsLatchTheirLength : Prop :=
  ∀ (len : Nat) (s : State),
    (exec (.run257 len) s =
      .next { s with activity := .distance, runCount := 3, runBits := len }) ∧
    (exec (.run258 len) s =
      .next { s with activity := .distance, runCount := 4, runBits := len }) ∧
    (exec (.run259 len) s =
      .next { s with activity := .distance, runCount := 5, runBits := len }) ∧
    (exec (.run260 len) s =
      .next { s with activity := .distance, runCount := 6, runBits := len }) ∧
    (exec (.run261 len) s =
      .next { s with activity := .distance, runCount := 7, runBits := len }) ∧
    (exec (.run262 len) s =
      .next { s with activity := .distance, runCount := 8, runBits := len }) ∧
    (exec (.run263 len) s =
      .next { s with activity := .distance, runCount := 9, runBits := len }) ∧
    (exec (.run264 len) s =
      .next { s with activity := .distance, runCount := 10, runBits := len }) ∧
    (∀ x, exec (.run265 len x) s =
      .next { s with activity := .distance, runCount := 11 + x.toNat, runBits := len + 1 }) ∧
    (∀ x, exec (.run266 len x) s =
      .next { s with activity := .distance, runCount := 13 + x.toNat, runBits := len + 1 }) ∧
    (∀ x, exec (.run267 len x) s =
      .next { s with activity := .distance, runCount := 15 + x.toNat, runBits := len + 1 }) ∧
    (∀ x, exec (.run268 len x) s =
      .next { s with activity := .distance, runCount := 17 + x.toNat, runBits := len + 1 }) ∧
    (∀ x, exec (.run269 len x) s =
      .next { s with activity := .distance, runCount := 19 + x.toNat, runBits := len + 2 }) ∧
    (∀ x, exec (.run270 len x) s =
      .next { s with activity := .distance, runCount := 23 + x.toNat, runBits := len + 2 }) ∧
    (∀ x, exec (.run271 len x) s =
      .next { s with activity := .distance, runCount := 27 + x.toNat, runBits := len + 2 }) ∧
    (∀ x, exec (.run272 len x) s =
      .next { s with activity := .distance, runCount := 31 + x.toNat, runBits := len + 2 }) ∧
    (∀ x, exec (.run273 len x) s =
      .next { s with activity := .distance, runCount := 35 + x.toNat, runBits := len + 3 }) ∧
    (∀ x, exec (.run274 len x) s =
      .next { s with activity := .distance, runCount := 43 + x.toNat, runBits := len + 3 }) ∧
    (∀ x, exec (.run275 len x) s =
      .next { s with activity := .distance, runCount := 51 + x.toNat, runBits := len + 3 }) ∧
    (∀ x, exec (.run276 len x) s =
      .next { s with activity := .distance, runCount := 59 + x.toNat, runBits := len + 3 }) ∧
    (∀ x, exec (.run277 len x) s =
      .next { s with activity := .distance, runCount := 67 + x.toNat, runBits := len + 4 }) ∧
    (∀ x, exec (.run278 len x) s =
      .next { s with activity := .distance, runCount := 83 + x.toNat, runBits := len + 4 }) ∧
    (∀ x, exec (.run279 len x) s =
      .next { s with activity := .distance, runCount := 99 + x.toNat, runBits := len + 4 }) ∧
    (∀ x, exec (.run280 len x) s =
      .next { s with activity := .distance, runCount := 115 + x.toNat, runBits := len + 4 }) ∧
    (∀ x, exec (.run281 len x) s =
      .next { s with activity := .distance, runCount := 131 + x.toNat, runBits := len + 5 }) ∧
    (∀ x, exec (.run282 len x) s =
      .next { s with activity := .distance, runCount := 163 + x.toNat, runBits := len + 5 }) ∧
    (∀ x, exec (.run283 len x) s =
      .next { s with activity := .distance, runCount := 195 + x.toNat, runBits := len + 5 }) ∧
    (∀ x, exec (.run284 len x) s =
      .next { s with activity := .distance, runCount := 227 + x.toNat, runBits := len + 5 }) ∧
    (exec (.run285 len) s =
      .next { s with activity := .distance, runCount := 258, runBits := len })

/-- DIST_0 to DIST_29, the second half of a run token (R353, R145, R357, R93, R96): the offset by the decade
table, and its copy. -/
def Obligations.DistanceSymbolsCopyBack : Prop :=
  ∀ len : Nat,
    (CopiesBack (.dist0 len) 1 len) ∧
    (CopiesBack (.dist1 len) 2 len) ∧
    (CopiesBack (.dist2 len) 3 len) ∧
    (CopiesBack (.dist3 len) 4 len) ∧
    (∀ x, CopiesBack (.dist4 len x) (5 + x.toNat) (len + 1)) ∧
    (∀ x, CopiesBack (.dist5 len x) (7 + x.toNat) (len + 1)) ∧
    (∀ x, CopiesBack (.dist6 len x) (9 + x.toNat) (len + 2)) ∧
    (∀ x, CopiesBack (.dist7 len x) (13 + x.toNat) (len + 2)) ∧
    (∀ x, CopiesBack (.dist8 len x) (17 + x.toNat) (len + 3)) ∧
    (∀ x, CopiesBack (.dist9 len x) (25 + x.toNat) (len + 3)) ∧
    (∀ x, CopiesBack (.dist10 len x) (33 + x.toNat) (len + 4)) ∧
    (∀ x, CopiesBack (.dist11 len x) (49 + x.toNat) (len + 4)) ∧
    (∀ x, CopiesBack (.dist12 len x) (65 + x.toNat) (len + 5)) ∧
    (∀ x, CopiesBack (.dist13 len x) (97 + x.toNat) (len + 5)) ∧
    (∀ x, CopiesBack (.dist14 len x) (129 + x.toNat) (len + 6)) ∧
    (∀ x, CopiesBack (.dist15 len x) (193 + x.toNat) (len + 6)) ∧
    (∀ x, CopiesBack (.dist16 len x) (257 + x.toNat) (len + 7)) ∧
    (∀ x, CopiesBack (.dist17 len x) (385 + x.toNat) (len + 7)) ∧
    (∀ x, CopiesBack (.dist18 len x) (513 + x.toNat) (len + 8)) ∧
    (∀ x, CopiesBack (.dist19 len x) (769 + x.toNat) (len + 8)) ∧
    (∀ x, CopiesBack (.dist20 len x) (1025 + x.toNat) (len + 9)) ∧
    (∀ x, CopiesBack (.dist21 len x) (1537 + x.toNat) (len + 9)) ∧
    (∀ x, CopiesBack (.dist22 len x) (2049 + x.toNat) (len + 10)) ∧
    (∀ x, CopiesBack (.dist23 len x) (3073 + x.toNat) (len + 10)) ∧
    (∀ x, CopiesBack (.dist24 len x) (4097 + x.toNat) (len + 11)) ∧
    (∀ x, CopiesBack (.dist25 len x) (6145 + x.toNat) (len + 11)) ∧
    (∀ x, CopiesBack (.dist26 len x) (8193 + x.toNat) (len + 12)) ∧
    (∀ x, CopiesBack (.dist27 len x) (12289 + x.toNat) (len + 12)) ∧
    (∀ x, CopiesBack (.dist28 len x) (16385 + x.toNat) (len + 13)) ∧
    (∀ x, CopiesBack (.dist29 len x) (24577 + x.toNat) (len + 13))

/-- RL 286, 287 and D 30, 31 (R355, R356), and with them every table symbol from 286 or from 30 on (R350, R353):
the symbol's own bits pushed, the step raises. -/
def Obligations.UnassignedSymbolsRaise : Prop :=
  (∀ (len : Nat) (s : State),
    exec (.rl286 len) s = .next (s.raise .invalidStringReference 0) ∧
    exec (.rl287 len) s = .next (s.raise .invalidStringReference 0) ∧
    exec (.d30 len) s = .next (s.raise .invalidStringReference 0) ∧
    exec (.d31 len) s = .next (s.raise .invalidStringReference 0)) ∧
  ∀ (s : State) (e : Entry),
    (s.activity = .inflating → s.st = .blockCompressed → s.rld.decode s.input s.pos = some e →
      286 ≤ e.sym → e.len ≤ avail s.input s.pos →
      step s = .next (s.raise .invalidStringReference 0)) ∧
    (s.activity = .distance → s.dd.decode s.input (s.pos + s.runBits) = some e →
      30 ≤ e.sym → e.len ≤ avail s.input (s.pos + s.runBits) →
      step s = .next (s.raise .invalidStringReference 0))

/-! ### The pixel unpacker -/

/-- R406, R400: with `NP` in 1..256 the indexed formats answer the palette's colours adapted from depth 8, or
`Error(paletteIndexOutOfRange)` when an index is at or past `NP`; another `NP` is refused. -/
def Obligations.IndexedFormatsLookUpThePalette : Prop :=
  ∀ (pal : List Rgba) (buf : List Byte) (s : State) (i : Instr),
    i = .fmtIndexed1 pal buf ∨ i = .fmtIndexed2 pal buf ∨ i = .fmtIndexed4 pal buf ∨
      i = .fmtIndexed8 pal buf →
    (1 ≤ pal.length → pal.length ≤ 256 → (∀ x ∈ buf, x.toNat < pal.length) →
      exec i s = .next { s with
        status := 0
        payload := leBytes 4 buf.length ++ buf.flatMap fun x =>
          leBytes (widthBytes s.dst) (adapt 8 (widthBits s.dst) (pal.getD x.toNat ⟨0, 0, 0, 0⟩).r.toNat)
            ++ leBytes (widthBytes s.dst)
              (adapt 8 (widthBits s.dst) (pal.getD x.toNat ⟨0, 0, 0, 0⟩).g.toNat)
            ++ leBytes (widthBytes s.dst)
              (adapt 8 (widthBits s.dst) (pal.getD x.toNat ⟨0, 0, 0, 0⟩).b.toNat)
            ++ leBytes (widthBytes s.dst)
              (adapt 8 (widthBits s.dst) (pal.getD x.toNat ⟨0, 0, 0, 0⟩).a.toNat)
        activity := .idle }) ∧
    (1 ≤ pal.length → pal.length ≤ 256 → (∃ x ∈ buf, pal.length ≤ x.toNat) →
      exec i s = .next { s with
        status := statusError .paletteIndexOutOfRange 0, payload := [], activity := .idle }) ∧
    (pal.length = 0 ∨ 256 < pal.length → exec i s = .refused .paletteCount)

/-- The grey formats (R407 to R410, R404, R405): the sample replicated, alpha `M`, or 0 exactly where the raw
sample equals the key. -/
def Obligations.GreyFormatsReplicateTheSample : Prop :=
  ∀ (buf : List Byte) (s : State),
    (∀ d i, (d, i) ∈ [(1, Instr.fmtV1 buf), (2, .fmtV2 buf), (4, .fmtV4 buf), (8, .fmtV8 buf)] →
      exec i s = .next (s.unpackOk ((List.range buf.length).map fun j =>
        let v := adapt d (widthBits s.dst) (buf.getD j 0).toNat
        ⟨v, v, v, widthMax s.dst⟩))) ∧
    (∀ k : Half, ∀ d i, (d, i) ∈ [(1, Instr.fmtV1Key k buf), (2, .fmtV2Key k buf),
        (4, .fmtV4Key k buf), (8, .fmtV8Key k buf)] →
      exec i s = .next (s.unpackOk ((List.range buf.length).map fun j =>
        let v := adapt d (widthBits s.dst) (buf.getD j 0).toNat
        ⟨v, v, v, if (buf.getD j 0).toNat = k.toNat then 0 else widthMax s.dst⟩))) ∧
    exec (.fmtV16 buf) s = .next (s.unpackOk ((List.range (buf.length / 2)).map fun j =>
      let v := adapt 16 (widthBits s.dst)
        ((buf.getD (2 * j) 0).toNat * 256 + (buf.getD (2 * j + 1) 0).toNat)
      ⟨v, v, v, widthMax s.dst⟩)) ∧
    ∀ k : Half, exec (.fmtV16Key k buf) s =
      .next (s.unpackOk ((List.range (buf.length / 2)).map fun j =>
        let x := (buf.getD (2 * j) 0).toNat * 256 + (buf.getD (2 * j + 1) 0).toNat
        let v := adapt 16 (widthBits s.dst) x
        ⟨v, v, v, if x = k.toNat then 0 else widthMax s.dst⟩))

/-- The grey-alpha, RGB and RGBA formats (R411 to R418, R404, R405): each sample adapted in its own lane, 16-bit
samples big-endian, alpha by the format; a key triple must match in all three raw samples. -/
def Obligations.ColourFormatsAdaptTheirLanes : Prop :=
  ∀ (buf : List Byte) (s : State) (kr kg kb : Half),
    let a8 := fun j => adapt 8 (widthBits s.dst) (buf.getD j 0).toNat
    let x16 := fun j => (buf.getD j 0).toNat * 256 + (buf.getD (j + 1) 0).toNat
    let a16 := fun j => adapt 16 (widthBits s.dst) (x16 j)
    let m := widthMax s.dst
    exec (.fmtVa8 buf) s = .next (s.unpackOk ((List.range (buf.length / 2)).map fun j =>
      ⟨a8 (2 * j), a8 (2 * j), a8 (2 * j), a8 (2 * j + 1)⟩)) ∧
    exec (.fmtVa16 buf) s = .next (s.unpackOk ((List.range (buf.length / 4)).map fun j =>
      ⟨a16 (4 * j), a16 (4 * j), a16 (4 * j), a16 (4 * j + 2)⟩)) ∧
    exec (.fmtRgb8 buf) s = .next (s.unpackOk ((List.range (buf.length / 3)).map fun j =>
      ⟨a8 (3 * j), a8 (3 * j + 1), a8 (3 * j + 2), m⟩)) ∧
    exec (.fmtRgb16 buf) s = .next (s.unpackOk ((List.range (buf.length / 6)).map fun j =>
      ⟨a16 (6 * j), a16 (6 * j + 2), a16 (6 * j + 4), m⟩)) ∧
    exec (.fmtRgb8Key kr kg kb buf) s =
      .next (s.unpackOk ((List.range (buf.length / 3)).map fun j =>
        ⟨a8 (3 * j), a8 (3 * j + 1), a8 (3 * j + 2),
          if (buf.getD (3 * j) 0).toNat = kr.toNat ∧ (buf.getD (3 * j + 1) 0).toNat = kg.toNat ∧
            (buf.getD (3 * j + 2) 0).toNat = kb.toNat then 0 else m⟩)) ∧
    exec (.fmtRgb16Key kr kg kb buf) s =
      .next (s.unpackOk ((List.range (buf.length / 6)).map fun j =>
        ⟨a16 (6 * j), a16 (6 * j + 2), a16 (6 * j + 4),
          if x16 (6 * j) = kr.toNat ∧ x16 (6 * j + 2) = kg.toNat ∧ x16 (6 * j + 4) = kb.toNat
          then 0 else m⟩)) ∧
    exec (.fmtRgba8 buf) s = .next (s.unpackOk ((List.range (buf.length / 4)).map fun j =>
      ⟨a8 (4 * j), a8 (4 * j + 1), a8 (4 * j + 2), a8 (4 * j + 3)⟩)) ∧
    exec (.fmtRgba16 buf) s = .next (s.unpackOk ((List.range (buf.length / 8)).map fun j =>
      ⟨a16 (8 * j), a16 (8 * j + 2), a16 (8 * j + 4), a16 (8 * j + 6)⟩))

/-- R402, R132: an FMT word outside the 22 listed decodes to FMT_UNSUPPORTED, which answers
`Error(unsupported)`; with a palette whose `NP` is outside 1..256 it is refused first (R456; the order is the
model's reading of R455, log 12). -/
def Obligations.UnlistedFormatsAreUnsupported : Prop :=
  (∀ blk : Block, blk.fmt.toNat ∉
      [0x13, 0x23, 0x43, 0x83, 0x10, 0x20, 0x40, 0x80, 0x100, 0x210, 0x220, 0x240, 0x280, 0x300,
        0x84, 0x104, 0x82, 0x102, 0x282, 0x302, 0x86, 0x106] →
    formatInstr blk = .fmtUnsupported blk) ∧
  ∀ (blk : Block) (s : State),
    ((blk.fmt.toNat % 16 = 3 → 1 ≤ blk.palette.length ∧ blk.palette.length ≤ 256) →
      exec (.fmtUnsupported blk) s =
        .next { s with status := statusError .unsupported 0, payload := [], activity := .idle }) ∧
    (blk.fmt.toNat % 16 = 3 → blk.palette.length = 0 ∨ 256 < blk.palette.length →
      exec (.fmtUnsupported blk) s = .refused .paletteCount)

/-- R403: ADAPT is the identity at equal widths, upwards the product with the exact quantum, wrapping past
`2^d - 1` only, downwards a shift; with R421's properties: all ones give all ones, all zeros give zero, and it
is monotone on `0 .. 2^d - 1`. -/
def Obligations.AdaptScalesFullRange : Prop :=
  ∀ d w, d ∈ [1, 2, 4, 8, 16] → w ∈ [8, 16, 32, 64] →
    (w = d → ∀ q, adapt d w q = q) ∧
    (d < w → (2 ^ w - 1) / ((2 ^ w - 1) / 2 ^ (w - d)) * (2 ^ d - 1) = 2 ^ w - 1 ∧
      (∀ q, adapt d w q = (2 ^ w - 1) / ((2 ^ w - 1) / 2 ^ (w - d)) * q % 2 ^ w) ∧
      ∀ q ≤ 2 ^ d - 1, adapt d w q = (2 ^ w - 1) / (2 ^ d - 1) * q) ∧
    (w < d → ∀ q, adapt d w q = q / 2 ^ (d - w)) ∧
    adapt d w (2 ^ d - 1) = 2 ^ w - 1 ∧ adapt d w 0 = 0 ∧
    ∀ q q', q ≤ q' → q' ≤ 2 ^ d - 1 → adapt d w q ≤ adapt d w q'

/-! ### Whole-machine rules -/

/-- R55, R400, R401, R232: READ, PREMUL, UNPACK and every format change nothing of the inflator. -/
def Obligations.UnpackerLeavesTheInflatorAlone : Prop :=
  ∀ (i : Instr) (s t : State), blockOf i ≠ none ∨ (∃ w, i = .unpack w) ∨
      (∃ w c a, i = .premul w c a) ∨ (∃ w b, i = .stdIos w b) ∨ (∃ a, i = .read a) →
    exec i s = .next t → t.inflator = s.inflator

/-- Each field is written only by the instructions the spec names (R31, R32, R35 to R43, R45, R53): the frame
of every instruction, field by field. -/
def Obligations.EachFieldHasItsWriters : Prop :=
  ∀ (i : Instr) (s t : State), i ≠ .new → exec i s = .next t →
    t.params = s.params ∧ t.port = s.port ∧ t.refusalMark = s.refusalMark ∧
    (t.input = s.input ∨ ∃ d, i = .push d) ∧
    (t.atoms = s.atoms ∧ t.dropped = s.dropped ∨ ∃ d, i = .push d) ∧
    (t.pos = s.pos ∨ t.pos = s.pos + elementBits s.pos i ∨
      distanceSymbol i = true ∧ t.pos = s.pos + (s.runBits + elementBits s.pos i)) ∧
    (t.atomPos + s.pos = s.atomPos + t.pos ∨ ∃ d, i = .push d) ∧
    (t.final = s.final ∨ (∃ b l n, i = .bhdrStored b l n) ∨ (∃ b, i = .bhdrFixed b) ∨
      ∃ b h d c l, i = .bhdrDynamic b h d c l) ∧
    (t.cld = s.cld ∧ t.hlit = s.hlit ∧ t.hdist = s.hdist ∨ ∃ b h d c l, i = .bhdrDynamic b h d c l) ∧
    (t.lengths = s.lengths ∨ codeLengthSymbol i = true ∨ ∃ b h d c l, i = .bhdrDynamic b h d c l) ∧
    (t.rld = s.rld ∧ t.dd = s.dd ∨ codeLengthSymbol i = true ∨ ∃ b, i = .bhdrFixed b) ∧
    (t.blockEnd = s.blockEnd ∨ ∃ b l n, i = .bhdrStored b l n) ∧
    (t.out = s.out ∧ t.storage = s.storage ∧ t.baseIndex = s.baseIndex ∧
      t.adlerS1 = s.adlerS1 ∧ t.adlerS2 = s.adlerS2 ∧ t.storageCap = s.storageCap ∨
      appendsOutput i = true) ∧
    (t.currentIndex = s.currentIndex ∧ t.startIndex = s.startIndex ∨ ∃ n, i = .pull n) ∧
    (t.window = s.window ∨ ∃ c f, i = .zhdr c f) ∧
    (t.err = s.err ∨ t.st = .failed) ∧
    (t.runCount = s.runCount ∧ t.runBits = s.runBits ∨ runSymbol i = true) ∧
    (t.dst = s.dst ∨ ∃ w, i = .unpack w)

/-- R31, R32, R39, R88, R91: within a session the input and the output only grow at their ends, and the
position and the indices never decrease. -/
def Obligations.SessionsOnlyMoveForward : Prop :=
  ∀ (i : Instr) (s t : State), i ≠ .new → s.Logical → exec i s = .next t →
    s.input <+: t.input ∧ s.out <+: t.out ∧ s.pos ≤ t.pos ∧ s.currentIndex ≤ t.currentIndex ∧
      s.startIndex ≤ t.startIndex ∧ s.baseIndex ≤ t.baseIndex

/-- R220: a step changes `ST` only along the transitions of the table, to `failed` from a state that is not
`streamEnd`, or to `streamStart` by NEW. -/
def Obligations.TransitionsFollowTheTable : Prop :=
  ∀ s t : State, s.Logical → step s = .next t →
    t.st = s.st ∨ (t.st = .failed ∧ s.st ≠ .streamEnd) ∨
    (s.st, t.st) ∈ [(StTag.streamStart, StTag.blockStart), (.blockStart, .blockUncompressed),
      (.blockStart, .blockCompressed), (.blockStart, .blockTables), (.blockTables, .blockCompressed),
      (.blockCompressed, .blockStart), (.blockCompressed, .streamChecksum),
      (.blockUncompressed, .blockStart), (.blockUncompressed, .streamChecksum),
      (.streamChecksum, .streamEnd)] ∨
    (t.st = .streamStart ∧ s.activity = .idle ∧ ∃ rest, decodeCommand s.port = some (.new, rest))

/-- R452, R451, R453: a step that fails the session writes only the error and its response; a step that ends a
PUSH with a hold writes only the response. -/
def Obligations.ErrorsArePreciseAndHoldsKeepTheState : Prop :=
  ∀ s t : State, s.Logical → step s = .next t →
    (t.st = .failed → s.st ≠ .failed → ∃ k a, k ≠ .unsupported ∧ k ≠ .paletteIndexOutOfRange ∧
      t = { s with
        st := .failed, err := some ⟨k, a⟩, status := statusError k a, payload := [],
        activity := .idle, port := t.port } ∧
      (s.activity ≠ .idle → t.port = s.port ∧ k ≠ .truncatedBitstream)) ∧
    (s.activity = .inflating ∨ s.activity = .distance → t.activity = .idle → t.st ≠ .failed →
      t.st ≠ .streamEnd →
      (t.status = statusNeedsMore ∨ t.status = statusNeedsPull) ∧
        t = { s with status := t.status, payload := [], activity := .idle })

/-- R458, R228, R466: a step leaves `failed` by NEW only; until then the session's data stand still. -/
def Obligations.OnlyNewLeavesFailed : Prop :=
  ∀ s t : State, s.Logical → s.st = .failed → step s = .next t →
    (t.st = .failed ∧ t.err = s.err ∧ t.input = s.input ∧ t.pos = s.pos ∧ t.out = s.out ∧
      t.currentIndex = s.currentIndex) ∨
    ∃ rest, s.activity = .idle ∧ decodeCommand s.port = some (.new, rest) ∧
      t = { State.reset with params := s.params, port := rest }
end

