-- ==== Sys2Proof/Laws/Bits.lean ====
section
/-! SUPPORT. Laws of the bit and byte helpers: bit reads (R12), bit reversal (R86), byte order (R99). -/

namespace Sys2Proof.Laws

open Sys2Proof.Machine

/-! ### Bits of the input -/

theorem bitAt_lt (input : List Byte) (p : Nat) : bitAt input p < 2 :=
  Nat.mod_lt _ (by decide)

/-- Zero tail: a bit at or beyond the end reads 0 (R87). -/
theorem bitAt_beyond (input : List Byte) (p : Nat) (h : 8 * input.length ≤ p) :
    bitAt input p = 0 := by
  have : input.length ≤ p / 8 := by omega
  simp [bitAt, List.getD_eq_getElem?_getD, List.getElem?_eq_none this]

/-- More input leaves the bits already pushed alone (R31, R498). -/
theorem bitAt_append (a b : List Byte) (p : Nat) (h : p < 8 * a.length) :
    bitAt (a ++ b) p = bitAt a p := by
  have : p / 8 < a.length := by omega
  simp [bitAt, List.getD_eq_getElem?_getD, List.getElem?_append_left this]

theorem inBits_lt (input : List Byte) (p n : Nat) : inBits input p n < 2 ^ n := by
  induction n generalizing p with
  | zero => simp [inBits]
  | succ n ih =>
    have h1 := bitAt_lt input p
    have h2 := ih (p + 1)
    simp only [inBits, Nat.pow_succ]
    omega

theorem inBits_congr (a b : List Byte) (p n : Nat) (h : ∀ k < n, bitAt a (p + k) = bitAt b (p + k)) :
    inBits a p n = inBits b p n := by
  induction n generalizing p with
  | zero => rfl
  | succ n ih =>
    have h0 := h 0 (by omega)
    have := ih (p + 1) fun k hk => by
      have := h (k + 1) (by omega)
      rwa [show p + (k + 1) = p + 1 + k by omega] at this
    simp_all [inBits]

/-- A field whose bits are all pushed reads the same after more input (R108). -/
theorem inBits_append (a b : List Byte) (p n : Nat) (h : p + n ≤ 8 * a.length) :
    inBits (a ++ b) p n = inBits a p n :=
  inBits_congr _ _ _ _ fun k hk => bitAt_append a b (p + k) (by omega)

/-- A wide read is its low part and its high part (R84). -/
theorem inBits_add (input : List Byte) (p m n : Nat) :
    inBits input p (m + n) = inBits input p m + 2 ^ m * inBits input (p + m) n := by
  induction m generalizing p with
  | zero => simp [inBits]
  | succ m ih =>
    rw [show m + 1 + n = m + n + 1 by omega]
    simp only [inBits, ih, Nat.pow_succ]
    rw [show p + 1 + m = p + (m + 1) by omega]
    ring

theorem inBits_mod (input : List Byte) (p m n : Nat) (h : m ≤ n) :
    inBits input p n % 2 ^ m = inBits input p m := by
  obtain ⟨k, rfl⟩ := Nat.exists_eq_add_of_le h
  rw [inBits_add, Nat.add_mul_mod_self_left, Nat.mod_eq_of_lt (inBits_lt _ _ _)]

/-! ### Bit lists -/

@[simp] theorem natBits_length (n v : Nat) : (natBits n v).length = n := by
  induction n generalizing v with
  | zero => rfl
  | succ n ih => simp [natBits, ih]

theorem bitsNat_lt (bits : List Bool) : bitsNat bits < 2 ^ bits.length := by
  induction bits with
  | nil => simp [bitsNat]
  | cons b bs ih =>
    have : b.toNat ≤ 1 := Bool.toNat_le b
    simp only [bitsNat, List.length_cons, Nat.pow_succ]
    omega

theorem bitsNat_natBits (n v : Nat) : bitsNat (natBits n v) = v % 2 ^ n := by
  induction n generalizing v with
  | zero => simp [natBits, bitsNat, Nat.mod_one]
  | succ n ih =>
    simp only [natBits, bitsNat, ih, Nat.pow_succ']
    rw [Nat.mod_mul]
    have : (decide (v % 2 = 1)).toNat = v % 2 := by
      rcases Nat.mod_two_eq_zero_or_one v with h | h <;> simp [h]
    omega

/-- A held bit list reads as its value (R12). -/
theorem inBits_of_holds (input : List Byte) (p : Nat) (bits : List Bool)
    (h : holdsBits input p bits) : inBits input p bits.length = bitsNat bits := by
  induction bits generalizing p with
  | nil => rfl
  | cons b bs ih =>
    have h0 := h.2 0 (by simp)
    have := ih (p + 1) ⟨by have := h.1; simp at this; omega, fun k hk => by
      have := h.2 (k + 1) (by simp; omega)
      rw [show p + 1 + k = p + (k + 1) by omega]
      simpa using this⟩
    simp only [List.length_cons, inBits, bitsNat, this]
    simp at h0
    rw [h0]

theorem holdsBits_append {input : List Byte} {p : Nat} {a b : List Bool}
    (h : holdsBits input p (a ++ b)) :
    holdsBits input p a ∧ holdsBits input (p + a.length) b := by
  obtain ⟨h1, h2⟩ := h
  simp only [List.length_append] at h1
  refine ⟨⟨by omega, fun k hk => ?_⟩, ⟨by omega, fun k hk => ?_⟩⟩
  · have := h2 k (by simp; omega)
    rwa [List.getElem_append_left hk] at this
  · have := h2 (a.length + k) (by simp; omega)
    rw [List.getElem_append_right (by omega)] at this
    rw [show p + a.length + k = p + (a.length + k) by omega]
    simpa using this

/-- A held field of `n` bits of `v` reads as `v` modulo `2^n` (R99). -/
theorem inBits_natBits {input : List Byte} {p n v : Nat} (h : holdsBits input p (natBits n v)) :
    inBits input p n = v % 2 ^ n := by
  have := inBits_of_holds input p _ h
  rwa [natBits_length, bitsNat_natBits] at this

theorem avail_of_holds {input : List Byte} {p : Nat} {bits : List Bool}
    (h : holdsBits input p bits) : bits.length ≤ avail input p := by
  have := h.1
  unfold avail
  omega

/-! ### Bit reversal -/

theorem rev8_testBit : ∀ x < 256, ∀ i < 8, (rev8 x).testBit (7 - i) = x.testBit i := by
  decide +kernel

theorem rev8_lt (x : Nat) : rev8 x < 256 := by
  unfold rev8
  omega

theorem rev16_lt (v : Nat) : rev16 v < 65536 := by
  have h1 := rev8_lt (v % 256)
  have h2 := rev8_lt (v / 256 % 256)
  unfold rev16
  omega

/-- Bit `15 - i` of `rev16 v` is bit `i` of `v` (R86). -/
theorem rev16_testBit (v i : Nat) (hi : i < 16) : (rev16 v).testBit (15 - i) = v.testBit i := by
  have hr := rev8_lt (v / 256 % 256)
  have e : rev16 v = 2 ^ 8 * rev8 (v % 256) + rev8 (v / 256 % 256) := by unfold rev16; omega
  rw [e, Nat.testBit_two_pow_mul_add _ (by simpa using hr)]
  by_cases h : i < 8
  · have h1 : ¬ (15 - i < 8) := by omega
    rw [if_neg h1, show 15 - i - 8 = 7 - i by omega,
      rev8_testBit _ (Nat.mod_lt _ (by decide)) _ h, show (256 : Nat) = 2 ^ 8 by rfl,
      Nat.testBit_mod_two_pow]
    simp [h]
  · have h1 : 15 - i < 8 := by omega
    rw [if_pos h1]
    obtain ⟨j, rfl⟩ : ∃ j, i = 8 + j := ⟨i - 8, by omega⟩
    rw [show 15 - (8 + j) = 7 - j by omega,
      rev8_testBit _ (Nat.mod_lt _ (by decide)) _ (by omega), show (256 : Nat) = 2 ^ 8 by rfl,
      Nat.testBit_mod_two_pow, Nat.testBit_div_two_pow]
    simp [show j < 8 by omega, Nat.add_comm]

theorem rev16_testBit' (v i : Nat) (hi : i < 16) : (rev16 v).testBit i = v.testBit (15 - i) := by
  have := rev16_testBit v (15 - i) (by omega)
  rwa [show 15 - (15 - i) = i by omega] at this

/-- The top `l` bits of the key come from the low `l` bits of the word (R189). -/
theorem rev16_top (v w l : Nat) (hl : l ≤ 16) (h : v % 2 ^ l = w % 2 ^ l) :
    rev16 v / 2 ^ (16 - l) = rev16 w / 2 ^ (16 - l) := by
  apply Nat.eq_of_testBit_eq
  intro i
  rw [Nat.testBit_div_two_pow, Nat.testBit_div_two_pow]
  by_cases hi : i + (16 - l) < 16
  · rw [rev16_testBit' _ _ hi, rev16_testBit' _ _ hi]
    have := congrArg (fun x => x.testBit (15 - (i + (16 - l)))) h
    simpa [Nat.testBit_mod_two_pow, show 15 - (i + (16 - l)) < l by omega] using this
  · have b : ∀ u, (rev16 u).testBit (i + (16 - l)) = false := fun u =>
      Nat.testBit_lt_two_pow (Nat.lt_of_lt_of_le (rev16_lt u)
        (show 2 ^ 16 ≤ 2 ^ (i + (16 - l)) from Nat.pow_le_pow_right (by decide) (by omega)))
    rw [b, b]

/-- Reversing twice gives the value back (R86). -/
theorem rev16_rev16 (v : Nat) (h : v < 65536) : rev16 (rev16 v) = v := by
  apply Nat.eq_of_testBit_eq
  intro i
  by_cases hi : i < 16
  · rw [rev16_testBit' _ _ hi, rev16_testBit' _ _ (by omega), show 15 - (15 - i) = i by omega]
  · have b : ∀ u, u < 65536 → u.testBit i = false := fun u hu =>
      Nat.testBit_lt_two_pow (Nat.lt_of_lt_of_le hu
        (show 2 ^ 16 ≤ 2 ^ i from Nat.pow_le_pow_right (by decide) (by omega)))
    rw [b _ (rev16_lt _), b _ h]

/-! ### Bytes -/

@[simp] theorem leBytes_length (n v : Nat) : (leBytes n v).length = n := by
  induction n generalizing v with
  | zero => rfl
  | succ n ih => simp [leBytes, ih]

/-- Little-endian bytes read back (R99). -/
theorem leNat_leBytes (n v : Nat) : leNat (leBytes n v) = v % 256 ^ n := by
  induction n generalizing v with
  | zero => simp [leBytes, leNat, Nat.mod_one]
  | succ n ih =>
    simp only [leBytes, leNat, ih, BitVec.toNat_ofNat, Nat.pow_succ']
    exact (Nat.mod_mul).symm

theorem leNat_leBytes_of_lt (n v : Nat) (h : v < 256 ^ n) : leNat (leBytes n v) = v := by
  rw [leNat_leBytes, Nat.mod_eq_of_lt h]

theorem takeBytes_append (a b : List Byte) : takeBytes a.length (a ++ b) = some (a, b) := by
  simp [takeBytes]

theorem takeBytes_append' {n : Nat} (a b : List Byte) (h : a.length = n) :
    takeBytes n (a ++ b) = some (a, b) := h ▸ takeBytes_append a b

theorem takeBytes_le (n v : Nat) (b : List Byte) :
    takeBytes n (leBytes n v ++ b) = some (leBytes n v, b) :=
  takeBytes_append' _ _ (leBytes_length n v)

theorem padBits_lt (p : Nat) : padBits p < 8 := by unfold padBits; omega

/-- The pad reaches a byte boundary (R100). -/
theorem padBits_aligned (p : Nat) : (p + padBits p) % 8 = 0 := by unfold padBits; omega

/-- The first bits of a field (R99). -/
theorem take_natBits (n l v : Nat) (h : l ≤ n) : (natBits n v).take l = natBits l v := by
  induction l generalizing n v with
  | zero => simp [natBits]
  | succ l ih =>
    obtain ⟨m, rfl⟩ : ∃ m, n = m + 1 := ⟨n - 1, by omega⟩
    simp [natBits, ih m _ (by omega)]

/-- Bytes written little-endian from the value they read as are the bytes (R99). -/
theorem leBytes_leNat (b : List Byte) : leBytes b.length (leNat b) = b := by
  induction b with
  | nil => rfl
  | cons x xs ih =>
    have := x.isLt
    simp only [leNat, List.length_cons, leBytes]
    rw [show (x.toNat + 256 * leNat xs) / 256 = leNat xs by omega, ih]
    congr 1
    apply BitVec.eq_of_toNat_eq
    simp only [BitVec.toNat_ofNat]
    omega

/-- What `takeBytes` answers: the bytes, split. -/
theorem takeBytes_some {n : Nat} {bytes : List Byte} {r : List Byte × List Byte} (h : takeBytes n bytes = some r) :
    r.1.length = n ∧ bytes = r.1 ++ r.2 := by
  unfold takeBytes at h
  split at h
  · cases h; simp; omega
  · cases h

theorem leNat_lt (b : List Byte) : leNat b < 256 ^ b.length := by
  induction b with
  | nil => simp [leNat]
  | cons x xs ih =>
    have := x.isLt
    simp only [leNat, List.length_cons, Nat.pow_succ]
    omega

/-! ### Atoms -/

/-- An atom is little-endian (R33, R99). -/
theorem atomOf_toNat (lo hi : Byte) : (atomOf lo hi).toNat = lo.toNat + 256 * hi.toNat := by
  unfold atomOf
  rw [BitVec.toNat_append, ← Nat.shiftLeft_add_eq_or_of_lt lo.isLt, Nat.shiftLeft_eq]
  omega

theorem atomOf_leBytes (k : Half) : atomOf (BitVec.ofNat 8 k.toNat) (BitVec.ofNat 8 (k.toNat / 256)) = k := by
  apply BitVec.eq_of_toNat_eq
  unfold atomOf
  rw [BitVec.toNat_append]
  have := k.isLt
  simp only [BitVec.toNat_ofNat]
  rw [← Nat.shiftLeft_add_eq_or_of_lt (Nat.mod_lt _ (by decide)), Nat.shiftLeft_eq]
  omega

theorem packAtoms_length (b : List Byte) : (packAtoms b).length = (b.length + 1) / 2 := by
  fun_induction packAtoms b with
  | case1 => rfl
  | case2 => simp
  | case3 x y r ih => simp [ih]; omega

/-- Dropping atoms drops byte pairs (R81). -/
theorem packAtoms_drop (k : Nat) (b : List Byte) : (packAtoms b).drop k = packAtoms (b.drop (2 * k)) := by
  induction k generalizing b with
  | zero => rfl
  | succ k ih =>
    match b with
    | [] => rfl
    | [x] => rw [List.drop_eq_nil_of_le (by simp; omega : [x].length ≤ 2 * (k + 1))]; simp [packAtoms]
    | x :: y :: r => simp [packAtoms, ih, Nat.mul_add]

theorem packAtoms_append_even (a b : List Byte) (h : a.length % 2 = 0) :
    packAtoms (a ++ b) = packAtoms a ++ packAtoms b := by
  fun_induction packAtoms a with
  | case1 => rfl
  | case2 => simp at h
  | case3 x y r ih => simp [packAtoms]; exact ih (by simp at h; omega)

theorem atomOf_or (x d : Byte) : atomOf x 0 ||| atomOf 0 d = atomOf x d := by
  unfold atomOf
  rw [BitVec.or_append]
  simp

/-- Packing on merges the first new byte into a half-filled atom (R81). -/
theorem packAtoms_odd (a : List Byte) (d : Byte) (r : List Byte) (h : a.length % 2 = 1) :
    packAtoms (a ++ d :: r) = (packAtoms a).dropLast ++ [((packAtoms a).getLastD 0) ||| atomOf 0 d] ++ packAtoms r := by
  fun_induction packAtoms a with
  | case1 => simp at h
  | case2 x => simp [packAtoms, ← atomOf_or x d]
  | case3 x y t ih =>
    have := ih (by simp at h; omega)
    have ne : packAtoms t ≠ [] := by
      intro h0
      have := packAtoms_length t
      rw [h0] at this
      simp at this h
      omega
    simp only [List.cons_append, packAtoms, this]
    obtain ⟨z, zs, hz⟩ := List.exists_cons_of_ne_nil ne
    simp [hz, List.getLastD]

end Sys2Proof.Laws
end

