-- ==== Sys2Proof/Laws/Huffman.lean ====
section
/-! SUPPORT. Laws of BUILD and DECODE: the Kraft sum, the flat table (R194), and regularity of every built table (R182, R190, R191). -/

namespace Sys2Proof.Laws

open Sys2Proof.Machine

/-! ### SIZE and N_Z -/

/-- The leaves counted down to level `l`, in nodes of that level: `c[j] * 2^(l - j)` over `j` in 1..l. -/
def kraft (lens : List Nat) : Nat → Nat
  | 0 => 0
  | l + 1 => 2 * kraft lens l + lens.count (l + 1)

/-- The interior nodes and the leaves of a level fill it (R181). -/
theorem sizeInterior_kraft (lens : List Nat) (l i : Nat) (h : sizeInterior lens l = some i) :
    i + kraft lens l = 2 ^ l := by
  induction l generalizing i with
  | zero => simp_all [sizeInterior, kraft]
  | succ l ih =>
    simp only [sizeInterior] at h
    split at h
    · cases h
    · next j hj =>
      have := ih j hj
      split at h
      · cases h
      · simp only [Option.some.injEq] at h
        simp only [kraft, Nat.pow_succ]
        omega

theorem sizeInterior_pred (lens : List Nat) (l i : Nat) (h : sizeInterior lens (l + 1) = some i) :
    ∃ j, sizeInterior lens l = some j := by
  simp only [sizeInterior] at h
  split at h
  · cases h
  · next j hj => exact ⟨j, hj⟩

theorem sizeValid_kraft {lens : List Nat} (h : sizeValid lens = true) : kraft lens 15 = 32768 := by
  have h0 : sizeInterior lens 15 = some 0 := by simpa [sizeValid] using h
  have := sizeInterior_kraft lens 15 0 h0
  omega

/-- `n` is the count of 8-bit prefixes the short codes cover (R182). -/
theorem shortSlots_kraft {lens : List Nat} (h : sizeValid lens = true) :
    shortSlots lens = kraft lens 8 ∧ kraft lens 8 ≤ 256 := by
  have h0 : sizeInterior lens 15 = some 0 := by simpa [sizeValid] using h
  obtain ⟨_, h1⟩ := sizeInterior_pred _ _ _ h0
  obtain ⟨_, h1⟩ := sizeInterior_pred _ _ _ h1
  obtain ⟨_, h1⟩ := sizeInterior_pred _ _ _ h1
  obtain ⟨_, h1⟩ := sizeInterior_pred _ _ _ h1
  obtain ⟨_, h1⟩ := sizeInterior_pred _ _ _ h1
  obtain ⟨_, h1⟩ := sizeInterior_pred _ _ _ h1
  obtain ⟨i, h8⟩ := sizeInterior_pred _ _ _ h1
  have := sizeInterior_kraft _ _ _ h8
  simp only [shortSlots, h8, Option.getD_some]
  omega

theorem kraft_long (lens : List Nat) : kraft lens 15 = 128 * kraft lens 8 + longSlots lens := by
  simp only [kraft, longSlots, List.map_cons, List.map_nil, List.sum_cons, List.sum_nil,
    Nat.reduceAdd, Nat.reduceSub, Nat.reducePow]
  omega

/-! ### PACK -/

@[simp] theorem symbolsOf_length (l s : Nat) (lens : List Nat) :
    (symbolsOf l s lens).length = lens.count l := by
  induction lens generalizing s with
  | nil => rfl
  | cons x xs ih =>
    simp only [symbolsOf]
    split
    · next h => simp [ih, h]
    · next h => simp [ih, h]

theorem mem_symbolsOf {l s y : Nat} {lens : List Nat} (h : y ∈ symbolsOf l s lens) :
    s ≤ y ∧ y < s + lens.length := by
  induction lens generalizing s with
  | nil => simp [symbolsOf] at h
  | cons x xs ih =>
    simp only [symbolsOf] at h
    split at h
    · rcases List.mem_cons.1 h with rfl | h
      · simp
      · have := ih h; simp only [List.length_cons]; omega
    · have := ih h; simp only [List.length_cons]; omega

/-- The entries of one level (R183). -/
def levelEntries (lens : List Nat) (l : Nat) : List Entry :=
  (symbolsOf l 0 lens).map fun s => ⟨s, l⟩

@[simp] theorem levelEntries_length (lens : List Nat) (l : Nat) :
    (levelEntries lens l).length = lens.count l := by simp [levelEntries]

theorem mem_levelEntries {lens : List Nat} {l : Nat} {e : Entry} (h : e ∈ levelEntries lens l) :
    e.len = l ∧ e.sym < lens.length := by
  simp only [levelEntries, List.mem_map] at h
  obtain ⟨y, hy, rfl⟩ := h
  have := mem_symbolsOf hy
  exact ⟨rfl, by simpa using this.2⟩

/-- The short and the long half of PACK's order (R183, R185). -/
def shortOrder (lens : List Nat) : List Entry :=
  [1, 2, 3, 4, 5, 6, 7, 8].flatMap (levelEntries lens)

/-- See `shortOrder`. -/
def longOrder (lens : List Nat) : List Entry :=
  [9, 10, 11, 12, 13, 14, 15].flatMap (levelEntries lens)

theorem packOrder_split (lens : List Nat) :
    packOrder lens = shortOrder lens ++ longOrder lens := by
  unfold packOrder shortOrder longOrder
  rw [← List.flatMap_append]
  rfl

theorem mem_shortOrder {lens : List Nat} {e : Entry} (h : e ∈ shortOrder lens) :
    1 ≤ e.len ∧ e.len ≤ 8 ∧ e.sym < lens.length := by
  simp only [shortOrder, List.mem_flatMap] at h
  obtain ⟨l, hl, h⟩ := h
  have := mem_levelEntries h
  simp at hl
  omega

theorem mem_longOrder {lens : List Nat} {e : Entry} (h : e ∈ longOrder lens) :
    9 ≤ e.len ∧ e.len ≤ 15 ∧ e.sym < lens.length := by
  simp only [longOrder, List.mem_flatMap] at h
  obtain ⟨l, hl, h⟩ := h
  have := mem_levelEntries h
  simp at hl
  omega

theorem mem_packOrder {lens : List Nat} {e : Entry} (h : e ∈ packOrder lens) :
    1 ≤ e.len ∧ e.len ≤ 15 ∧ e.sym < lens.length := by
  rw [packOrder_split, List.mem_append] at h
  rcases h with h | h
  · have := mem_shortOrder h; omega
  · have := mem_longOrder h; omega

/-- PACK sorts by length (R183). -/
theorem packOrder_sorted (lens : List Nat) :
    (packOrder lens).Pairwise fun a b => a.len ≤ b.len := by
  have hl : codeLevels.Pairwise (· < ·) := by decide
  unfold packOrder
  rw [List.pairwise_flatMap]
  refine ⟨fun l _ => ?_, hl.imp fun {a b} hab x hx y hy => ?_⟩
  · rw [List.pairwise_map]
    exact List.pairwise_of_forall fun _ _ => Nat.le_refl _
  · have h1 := (mem_levelEntries (lens := lens) hx).1
    have h2 := (mem_levelEntries (lens := lens) hy).1
    omega

/-! ### The flat table (R194) -/

/-- The flat 32768-entry table over the 15-bit key (R194). -/
def flatTable (order : List Entry) : List Entry :=
  order.flatMap fun e => List.replicate (2 ^ (15 - e.len)) e

theorem flatMap_replicate_scale (m : Nat) (hm : 0 < m) (f : Entry → Nat) (order : List Entry)
    (k : Nat) :
    (order.flatMap fun e => List.replicate (m * f e) e)[k]?
      = (order.flatMap fun e => List.replicate (f e) e)[k / m]? := by
  induction order generalizing k with
  | nil => simp
  | cons e es ih =>
    simp only [List.flatMap_cons]
    by_cases h : k < m * f e
    · have h' : k / m < f e := Nat.div_lt_of_lt_mul h
      rw [List.getElem?_append_left (by simpa using h),
        List.getElem?_append_left (by simpa using h')]
      simp [h, h']
    · have h' : ¬ k / m < f e := fun hc => h (by
        have := (Nat.div_lt_iff_lt_mul hm).1 hc
        rwa [Nat.mul_comm] at this)
      rw [List.getElem?_append_right (by simpa using h),
        List.getElem?_append_right (by simpa using h')]
      simp only [List.length_replicate]
      rw [ih, Nat.sub_mul_div]

/-- The blocks of a sorted order are aligned: keys that share an entry's code share the entry (R188). -/
theorem flatTable_block (order : List Entry) (hs : order.Pairwise fun a b => a.len ≤ b.len)
    (off : Nat) (ho : ∀ e ∈ order, 2 ^ (15 - e.len) ∣ off) (k k' : Nat) (e : Entry) (hk : off ≤ k)
    (he : (flatTable order)[k - off]? = some e)
    (hc : k' / 2 ^ (15 - e.len) = k / 2 ^ (15 - e.len)) :
    off ≤ k' ∧ (flatTable order)[k' - off]? = some e := by
  induction order generalizing off with
  | nil => simp [flatTable] at he
  | cons a as ih =>
    have hpos : ∀ l, 0 < 2 ^ (15 - l) := fun l => Nat.two_pow_pos _
    simp only [flatTable, List.flatMap_cons] at he ⊢
    obtain ⟨ha, hs'⟩ := List.pairwise_cons.1 hs
    obtain ⟨c, rfl⟩ := ho a List.mem_cons_self
    by_cases h : k - 2 ^ (15 - a.len) * c < 2 ^ (15 - a.len)
    · rw [List.getElem?_append_left (by simpa using h)] at he
      simp only [List.getElem?_replicate, h, if_true, Option.some.injEq] at he
      subst he
      have hkc : k / 2 ^ (15 - a.len) = c := by
        apply Nat.div_eq_of_lt_le
        · rw [Nat.mul_comm]; exact hk
        · rw [Nat.succ_mul, Nat.mul_comm]; omega
      rw [hkc] at hc
      have h1 := Nat.div_add_mod k' (2 ^ (15 - a.len))
      have h2 := Nat.mod_lt k' (hpos a.len)
      rw [hc] at h1
      have h3 : k' - 2 ^ (15 - a.len) * c < 2 ^ (15 - a.len) := by omega
      refine ⟨by omega, ?_⟩
      rw [List.getElem?_append_left (by simpa using h3)]
      simp [h3]
    · rw [List.getElem?_append_right (by simpa using h)] at he
      simp only [List.length_replicate] at he
      have := ih hs' (2 ^ (15 - a.len) * c + 2 ^ (15 - a.len))
        (fun e' he' => by
          have hd : 2 ^ (15 - e'.len) ∣ 2 ^ (15 - a.len) :=
            pow_dvd_pow 2 (by have := ha e' he'; omega)
          exact Nat.dvd_add (Dvd.dvd.mul_right hd c) hd)
        (by omega)
        (by rw [flatTable]; rwa [Nat.sub_sub] at he)
      refine ⟨Nat.le_trans (Nat.le_add_right _ _) this.1, ?_⟩
      rw [List.getElem?_append_right (by simp; omega)]
      simp only [List.length_replicate]
      rw [Nat.sub_sub]
      exact this.2

/-! ### BUILD -/

theorem materialize_append (a b : List Entry) :
    materialize (a ++ b) = materialize a ++ materialize b := by
  simp [materialize]

/-- The entries of one level of MATERIALIZE (R185). -/
theorem materialize_level (lens : List Nat) (l : Nat) :
    (materialize (levelEntries lens l)).length = lens.count l * clones l := by
  have h : ∀ e ∈ levelEntries lens l, (List.replicate (clones e.len) e).length = clones l :=
    fun e he => by rw [List.length_replicate, (mem_levelEntries he).1]
  rw [materialize, List.length_flatMap, List.map_congr_left h, List.map_const', List.sum_replicate,
    levelEntries_length, smul_eq_mul]

theorem materialize_levels (lens : List Nat) (ls : List Nat) :
    (materialize (ls.flatMap (levelEntries lens))).length
      = (ls.map fun l => lens.count l * clones l).sum := by
  induction ls with
  | nil => rfl
  | cons l ls ih =>
    rw [List.flatMap_cons, materialize_append, List.length_append, materialize_level, ih,
      List.map_cons, List.sum_cons]

theorem materialize_short (lens : List Nat) :
    (materialize (shortOrder lens)).length = kraft lens 8 := by
  rw [shortOrder, materialize_levels]
  simp only [List.map_cons, List.map_nil, List.sum_cons, List.sum_nil, kraft]
  norm_num [clones]
  omega

theorem materialize_long (lens : List Nat) :
    (materialize (longOrder lens)).length = longSlots lens := by
  rw [longOrder, materialize_levels]
  rfl

theorem flat_short (lens : List Nat) (k : Nat) :
    (flatTable (shortOrder lens))[k]? = (materialize (shortOrder lens))[k / 128]? := by
  have h : flatTable (shortOrder lens)
      = (shortOrder lens).flatMap fun e => List.replicate (128 * clones e.len) e := by
    unfold flatTable
    apply List.flatMap_congr
    intro e he
    have := mem_shortOrder he
    congr 1
    rw [clones, if_pos this.2.1, show (128 : Nat) = 2 ^ 7 by rfl, ← Nat.pow_add]
    congr 1; omega
  rw [h, flatMap_replicate_scale 128 (by decide)]
  rfl

theorem flat_long (lens : List Nat) :
    flatTable (longOrder lens) = materialize (longOrder lens) := by
  unfold flatTable materialize
  apply List.flatMap_congr
  intro e he
  have := mem_longOrder he
  rw [clones, if_neg (by omega)]

theorem flat_short_length (lens : List Nat) :
    (flatTable (shortOrder lens)).length = 128 * kraft lens 8 := by
  rw [← materialize_short]
  have h : ∀ e ∈ shortOrder lens, 2 ^ (15 - e.len) = 128 * clones e.len := by
    intro e he
    have := mem_shortOrder he
    rw [clones, if_pos this.2.1, show (128 : Nat) = 2 ^ 7 by rfl, ← Nat.pow_add]
    congr 1; omega
  simp only [flatTable, materialize, List.length_flatMap, List.length_replicate]
  rw [List.map_congr_left h, List.sum_map_mul_left]

/-- What strict BUILD answers (R187). -/
theorem buildStrict_eq {lens : List Nat} {t : Table} (h : buildStrict lens = some t) :
    sizeValid lens = true ∧ t.n = kraft lens 8 ∧ t.z = kraft lens 8 + longSlots lens ∧
      t.entries = materialize (shortOrder lens) ++ materialize (longOrder lens) := by
  unfold buildStrict at h
  split at h
  · next hv =>
    cases h
    have := (shortSlots_kraft hv).1
    simp [this, hv, packOrder_split, materialize_append]
  · cases h

/-- Looking a key up in a strict table is reading the flat table at its 15-bit key (R194). -/
theorem lookup_flat {lens : List Nat} {t : Table} (h : buildStrict lens = some t) (key : Nat) :
    t.lookup key = (flatTable (packOrder lens))[key / 2]? := by
  obtain ⟨hv, hn, hz, he⟩ := buildStrict_eq h
  have hs := materialize_short lens
  have hf := flat_short_length lens
  have e1 : flatTable (packOrder lens)
      = flatTable (shortOrder lens) ++ flatTable (longOrder lens) := by
    rw [packOrder_split]; simp [flatTable]
  unfold Table.lookup Table.index Table.fence Table.fold
  rw [he, e1, hn]
  by_cases hk : key < kraft lens 8 * 256
  · rw [if_pos hk, List.getElem?_append_left (by omega), List.getElem?_append_left (by omega),
      flat_short]
    congr 1; omega
  · rw [if_neg hk, List.getElem?_append_right (by omega), List.getElem?_append_right (by omega),
      flat_long]
    congr 1; omega

theorem index_keyOf (t : Table) (idx : Nat) (h : idx < t.z) (hs : t.z + 127 * t.n = 32768)
    (hn : t.n ≤ 256) : t.index (t.keyOf idx) = idx ∧ t.keyOf idx < 65536 := by
  unfold Table.index Table.keyOf Table.fence Table.fold
  by_cases hi : idx < t.n
  · rw [if_pos hi, if_pos (by omega)]; omega
  · rw [if_neg hi, if_neg (by omega)]; omega

/-- Every strict table is regular (R182, R190, R191). -/
theorem buildStrict_regular {lens : List Nat} {t : Table} (h : buildStrict lens = some t) :
    t.Regular := by
  obtain ⟨hv, hn, hz, he⟩ := buildStrict_eq h
  have hk := sizeValid_kraft hv
  have hl := kraft_long lens
  have h8 := (shortSlots_kraft hv).2
  have hlen : t.entries.length = t.z := by
    rw [he, List.length_append, materialize_short, materialize_long, hz]
  have hsize : t.z + 127 * t.n = 32768 := by omega
  have hmem : ∀ e ∈ t.entries, e ∈ packOrder lens := by
    intro e hm
    rw [he, ← materialize_append, ← packOrder_split] at hm
    simp only [materialize, List.mem_flatMap] at hm
    obtain ⟨a, ha, hm⟩ := hm
    rwa [List.eq_of_mem_replicate hm]
  refine ⟨by omega, hlen, hsize, fun e hm => (mem_packOrder (hmem e hm)).1,
    fun e hm => (mem_packOrder (hmem e hm)).2.1, ?_⟩
  intro idx e key hidx hkey hc
  have hi : idx < t.z := by
    rw [← hlen]; exact (List.getElem?_eq_some_iff.1 hidx).1
  obtain ⟨hik, -⟩ := index_keyOf t idx hi hsize (by omega)
  have hme := mem_packOrder (hmem e (List.mem_of_getElem? hidx))
  have hl0 : (flatTable (packOrder lens))[t.keyOf idx / 2]? = some e := by
    rw [← lookup_flat h, Table.lookup, hik, hidx]
  rw [lookup_flat h]
  have e16 : (2 : Nat) ^ (16 - e.len) = 2 * 2 ^ (15 - e.len) := by
    rw [show 16 - e.len = (15 - e.len) + 1 by omega, Nat.pow_succ']
  rw [e16, ← Nat.div_div_eq_div_mul, ← Nat.div_div_eq_div_mul] at hc
  simpa using (flatTable_block (packOrder lens) (packOrder_sorted lens) 0 (by simp)
    (t.keyOf idx / 2) (key / 2) e (Nat.zero_le _) (by simpa using hl0) hc).2

theorem getElem?_copies {n : Nat} {a e : Entry} {i : Nat} (h : (List.replicate n a)[i]? = some e) :
    e = a ∧ i < n := by
  rw [List.getElem?_replicate] at h
  split at h
  · next hi => exact ⟨(Option.some.inj h).symm, hi⟩
  · cases h

theorem lookup_constant {t : Table} {a e : Entry} (hn : t.n = 256)
    (he : t.entries = List.replicate t.n a) {idx key : Nat} (hi : t.entries[idx]? = some e)
    (hk : key < 65536) : t.lookup key = some e := by
  rw [he] at hi
  obtain ⟨rfl, -⟩ := getElem?_copies hi
  rw [Table.lookup, Table.index, Table.fence, hn, if_pos hk, he, List.getElem?_replicate, if_pos]
  omega

/-- The degenerate table is regular (R184). -/
theorem degenerate_regular (dflt : Nat) (lens : List Nat) : (degenerate dflt lens).Regular := by
  obtain ⟨t, ht⟩ : ∃ t, t = degenerate dflt lens := ⟨_, rfl⟩
  have hn : t.n = 256 := by rw [ht]; rfl
  have hz : t.z = t.n := by rw [ht]; rfl
  have he : t.entries = List.replicate t.n ⟨loneSymbol dflt lens, 1⟩ := by rw [ht]; rfl
  have hm : ∀ e ∈ t.entries, e.len = 1 := fun e h => by
    rw [he] at h; rw [(List.mem_replicate.1 h).2]
  rw [← ht]
  refine ⟨hn.le, ?_, by omega, fun e h => (hm e h).ge, fun e h => by rw [hm e h]; decide, ?_⟩
  · rw [he, List.length_replicate, hz]
  · exact fun idx e key hi hk _ => lookup_constant hn he hi hk

/-- Every table BUILD answers is regular. -/
theorem build_regular {lens : List Nat} {m : BuildMode} {t : Table} (h : build lens m = some t) :
    t.Regular := by
  cases m with
  | strict => exact buildStrict_regular h
  | normalizing d =>
    simp only [build] at h
    split at h
    · cases h; exact degenerate_regular _ _
    · exact buildStrict_regular h

theorem loneSymbol_lt (dflt k : Nat) (lens : List Nat) (hd : dflt < k) (hl : lens.length ≤ k) :
    loneSymbol dflt lens < k := by
  unfold loneSymbol
  simp only
  split <;> omega

/-- The symbols of a built table are symbols of its list, or the default symbol (R183, R184). -/
theorem build_symbolsBelow {lens : List Nat} {m : BuildMode} {t : Table} {k : Nat}
    (h : build lens m = some t) (hl : lens.length ≤ k)
    (hd : ∀ d, m = .normalizing d → d < k) : t.symbolsBelow k := by
  have strict : buildStrict lens = some t → t.symbolsBelow k := by
    intro hb e hm
    obtain ⟨-, -, -, he⟩ := buildStrict_eq hb
    rw [he, ← materialize_append, ← packOrder_split] at hm
    simp only [materialize, List.mem_flatMap] at hm
    obtain ⟨a, ha, hm⟩ := hm
    rw [List.eq_of_mem_replicate hm]
    exact Nat.lt_of_lt_of_le (mem_packOrder ha).2.2 hl
  cases m with
  | strict => exact strict h
  | normalizing d =>
    simp only [build] at h
    split at h
    · cases h
      intro e he
      simp only [degenerate, List.mem_replicate] at he
      rw [he.2]
      exact loneSymbol_lt _ _ _ (hd d rfl) hl
    · exact strict h

/-! ### DECODE -/

/-- A key selects an entry of a regular table (R190). -/
theorem lookup_isSome {t : Table} (h : t.Regular) {key : Nat} (hk : key < 65536) :
    ∃ e, t.lookup key = some e ∧ e ∈ t.entries := by
  have hn := h.short
  have hs := h.size
  have hi : t.index key < t.entries.length := by
    rw [h.length]
    unfold Table.index Table.fence Table.fold
    split <;> omega
  exact ⟨t.entries[t.index key], by rw [Table.lookup, List.getElem?_eq_getElem hi],
    List.getElem_mem hi⟩

/-- DECODE answers an entry of a regular table. -/
theorem decode_isSome {t : Table} (h : t.Regular) (input : List Byte) (p : Nat) :
    ∃ e, t.decode input p = some e ∧ e ∈ t.entries :=
  lookup_isSome h (rev16_lt _)

/-! ### Lengths of the entries -/

theorem symbolsOf_get {l s y : Nat} {lens : List Nat} (h : y ∈ symbolsOf l s lens) : l ∈ lens := by
  induction lens generalizing s with
  | nil => simp [symbolsOf] at h
  | cons x xs ih =>
    simp only [symbolsOf] at h
    split at h
    · next hx => simp [hx]
    · exact List.mem_cons_of_mem _ (ih h)

/-- The length of an entry is a length of the list (R183). -/
theorem entry_len_mem {lens : List Nat} {t : Table} (h : build lens .strict = some t) : ∀ e ∈ t.entries, e.len ∈ lens := by
  intro e hm
  obtain ⟨-, -, -, he⟩ := buildStrict_eq h
  rw [he, ← materialize_append, ← packOrder_split] at hm
  simp only [materialize, List.mem_flatMap] at hm
  obtain ⟨a, ha, hm⟩ := hm
  rw [List.eq_of_mem_replicate hm]
  simp only [packOrder, List.mem_flatMap, List.mem_map] at ha
  obtain ⟨l, -, y, hy, rfl⟩ := ha
  exact symbolsOf_get hy

/-! ### The ROM tables (R192) -/

theorem fixedRl_build : build fixedRlLengths .strict = some fixedRl := by
  have : (build fixedRlLengths .strict).isSome = true := by decide +kernel
  unfold fixedRl
  obtain ⟨t, ht⟩ := Option.isSome_iff_exists.1 this
  rw [ht]; rfl

theorem fixedD_build : build fixedDLengths .strict = some fixedD := by
  have : (build fixedDLengths .strict).isSome = true := by decide +kernel
  unfold fixedD
  obtain ⟨t, ht⟩ := Option.isSome_iff_exists.1 this
  rw [ht]; rfl

theorem fixedRl_ok : fixedRl.Regular ∧ fixedRl.symbolsBelow 288 :=
  ⟨build_regular fixedRl_build, build_symbolsBelow fixedRl_build (by decide +kernel) nofun⟩

theorem fixedD_ok : fixedD.Regular ∧ fixedD.symbolsBelow 32 :=
  ⟨build_regular fixedD_build, build_symbolsBelow fixedD_build (by decide +kernel) nofun⟩

/-! ### The code of a symbol -/

/-- The bits of a code decode to its entry (R140, R190, R191). -/
theorem decode_codeBits {t : Table} {sym len : Nat} (h : t.gives sym len) {input : List Byte} {p : Nat}
    (hb : holdsBits input p (t.codeBits sym len)) :
    t.decode input p = some ⟨sym, len⟩ ∧ 1 ≤ len ∧ len ≤ 15 ∧ (t.codeBits sym len).length = len := by
  obtain ⟨hr, hm⟩ := h
  have h1 := hr.lenPos _ hm
  have h2 := hr.lenMax _ hm
  simp only at h1 h2
  have hi : t.entries[t.entries.idxOf ⟨sym, len⟩]? = some ⟨sym, len⟩ := by
    have := List.idxOf_lt_length_of_mem hm
    rw [List.getElem?_eq_getElem this, List.getElem_idxOf]
  have hk : t.keyOf (t.entries.idxOf ⟨sym, len⟩) < 65536 := by
    have := List.idxOf_lt_length_of_mem hm
    rw [hr.length] at this
    exact (index_keyOf t _ this hr.size hr.short).2
  unfold Table.codeBits at hb ⊢
  rw [take_natBits _ _ _ (by omega)] at hb ⊢
  refine ⟨?_, h1, h2, natBits_length _ _⟩
  have hv := inBits_natBits hb
  refine hr.code _ _ _ hi (rev16_lt _) ?_
  generalize t.keyOf (t.entries.idxOf ⟨sym, len⟩) = K at *
  have hm := inBits_mod input p len 16 (by omega)
  rw [hv] at hm
  have := rev16_top _ _ len (by omega) hm
  rwa [rev16_rev16 K hk] at this

end Sys2Proof.Laws
end

