-- ==== Sys2Proof/Laws/State.lean ====
section
/-! SUPPORT. One lemma per field per named update of State: what it writes and what it leaves. -/

namespace Sys2Proof.Laws

open Sys2Proof.Machine

/-! ### State.commit -/

@[simp] theorem commit_params (s : State) (t : Nat) : (s.commit t).params = s.params := rfl
@[simp] theorem commit_port (s : State) (t : Nat) : (s.commit t).port = s.port := rfl
@[simp] theorem commit_activity (s : State) (t : Nat) : (s.commit t).activity = s.activity := rfl
@[simp] theorem commit_status (s : State) (t : Nat) : (s.commit t).status = s.status := rfl
@[simp] theorem commit_payload (s : State) (t : Nat) : (s.commit t).payload = s.payload := rfl
@[simp] theorem commit_refusalMark (s : State) (t : Nat) :
    (s.commit t).refusalMark = s.refusalMark := rfl
@[simp] theorem commit_input (s : State) (t : Nat) : (s.commit t).input = s.input := rfl
@[simp] theorem commit_pos (s : State) (t : Nat) : (s.commit t).pos = s.pos + t := rfl
@[simp] theorem commit_atoms (s : State) (t : Nat) : (s.commit t).atoms = s.atoms := rfl
@[simp] theorem commit_atomPos (s : State) (t : Nat) : (s.commit t).atomPos = s.atomPos + t := rfl
@[simp] theorem commit_dropped (s : State) (t : Nat) : (s.commit t).dropped = s.dropped := rfl
@[simp] theorem commit_st (s : State) (t : Nat) : (s.commit t).st = s.st := rfl
@[simp] theorem commit_final (s : State) (t : Nat) : (s.commit t).final = s.final := rfl
@[simp] theorem commit_cld (s : State) (t : Nat) : (s.commit t).cld = s.cld := rfl
@[simp] theorem commit_rld (s : State) (t : Nat) : (s.commit t).rld = s.rld := rfl
@[simp] theorem commit_dd (s : State) (t : Nat) : (s.commit t).dd = s.dd := rfl
@[simp] theorem commit_hlit (s : State) (t : Nat) : (s.commit t).hlit = s.hlit := rfl
@[simp] theorem commit_hdist (s : State) (t : Nat) : (s.commit t).hdist = s.hdist := rfl
@[simp] theorem commit_lengths (s : State) (t : Nat) : (s.commit t).lengths = s.lengths := rfl
@[simp] theorem commit_blockEnd (s : State) (t : Nat) : (s.commit t).blockEnd = s.blockEnd := rfl
@[simp] theorem commit_out (s : State) (t : Nat) : (s.commit t).out = s.out := rfl
@[simp] theorem commit_currentIndex (s : State) (t : Nat) :
    (s.commit t).currentIndex = s.currentIndex := rfl
@[simp] theorem commit_startIndex (s : State) (t : Nat) :
    (s.commit t).startIndex = s.startIndex := rfl
@[simp] theorem commit_baseIndex (s : State) (t : Nat) : (s.commit t).baseIndex = s.baseIndex := rfl
@[simp] theorem commit_storage (s : State) (t : Nat) : (s.commit t).storage = s.storage := rfl
@[simp] theorem commit_storageCap (s : State) (t : Nat) :
    (s.commit t).storageCap = s.storageCap := rfl
@[simp] theorem commit_window (s : State) (t : Nat) : (s.commit t).window = s.window := rfl
@[simp] theorem commit_adlerS1 (s : State) (t : Nat) : (s.commit t).adlerS1 = s.adlerS1 := rfl
@[simp] theorem commit_adlerS2 (s : State) (t : Nat) : (s.commit t).adlerS2 = s.adlerS2 := rfl
@[simp] theorem commit_err (s : State) (t : Nat) : (s.commit t).err = s.err := rfl
@[simp] theorem commit_runCount (s : State) (t : Nat) : (s.commit t).runCount = s.runCount := rfl
@[simp] theorem commit_runBits (s : State) (t : Nat) : (s.commit t).runBits = s.runBits := rfl
@[simp] theorem commit_dst (s : State) (t : Nat) : (s.commit t).dst = s.dst := rfl

/-! ### State.respond -/

@[simp] theorem respond_params (s : State) (w : Word) (bytes : List Byte) :
    (s.respond w bytes).params = s.params := rfl
@[simp] theorem respond_port (s : State) (w : Word) (bytes : List Byte) :
    (s.respond w bytes).port = s.port := rfl
@[simp] theorem respond_activity (s : State) (w : Word) (bytes : List Byte) :
    (s.respond w bytes).activity = .idle := rfl
@[simp] theorem respond_status (s : State) (w : Word) (bytes : List Byte) :
    (s.respond w bytes).status = w := rfl
@[simp] theorem respond_payload (s : State) (w : Word) (bytes : List Byte) :
    (s.respond w bytes).payload = bytes := rfl
@[simp] theorem respond_refusalMark (s : State) (w : Word) (bytes : List Byte) :
    (s.respond w bytes).refusalMark = s.refusalMark := rfl
@[simp] theorem respond_input (s : State) (w : Word) (bytes : List Byte) :
    (s.respond w bytes).input = s.input := rfl
@[simp] theorem respond_pos (s : State) (w : Word) (bytes : List Byte) :
    (s.respond w bytes).pos = s.pos := rfl
@[simp] theorem respond_atoms (s : State) (w : Word) (bytes : List Byte) :
    (s.respond w bytes).atoms = s.atoms := rfl
@[simp] theorem respond_atomPos (s : State) (w : Word) (bytes : List Byte) :
    (s.respond w bytes).atomPos = s.atomPos := rfl
@[simp] theorem respond_dropped (s : State) (w : Word) (bytes : List Byte) :
    (s.respond w bytes).dropped = s.dropped := rfl
@[simp] theorem respond_st (s : State) (w : Word) (bytes : List Byte) :
    (s.respond w bytes).st = s.st := rfl
@[simp] theorem respond_final (s : State) (w : Word) (bytes : List Byte) :
    (s.respond w bytes).final = s.final := rfl
@[simp] theorem respond_cld (s : State) (w : Word) (bytes : List Byte) :
    (s.respond w bytes).cld = s.cld := rfl
@[simp] theorem respond_rld (s : State) (w : Word) (bytes : List Byte) :
    (s.respond w bytes).rld = s.rld := rfl
@[simp] theorem respond_dd (s : State) (w : Word) (bytes : List Byte) :
    (s.respond w bytes).dd = s.dd := rfl
@[simp] theorem respond_hlit (s : State) (w : Word) (bytes : List Byte) :
    (s.respond w bytes).hlit = s.hlit := rfl
@[simp] theorem respond_hdist (s : State) (w : Word) (bytes : List Byte) :
    (s.respond w bytes).hdist = s.hdist := rfl
@[simp] theorem respond_lengths (s : State) (w : Word) (bytes : List Byte) :
    (s.respond w bytes).lengths = s.lengths := rfl
@[simp] theorem respond_blockEnd (s : State) (w : Word) (bytes : List Byte) :
    (s.respond w bytes).blockEnd = s.blockEnd := rfl
@[simp] theorem respond_out (s : State) (w : Word) (bytes : List Byte) :
    (s.respond w bytes).out = s.out := rfl
@[simp] theorem respond_currentIndex (s : State) (w : Word) (bytes : List Byte) :
    (s.respond w bytes).currentIndex = s.currentIndex := rfl
@[simp] theorem respond_startIndex (s : State) (w : Word) (bytes : List Byte) :
    (s.respond w bytes).startIndex = s.startIndex := rfl
@[simp] theorem respond_baseIndex (s : State) (w : Word) (bytes : List Byte) :
    (s.respond w bytes).baseIndex = s.baseIndex := rfl
@[simp] theorem respond_storage (s : State) (w : Word) (bytes : List Byte) :
    (s.respond w bytes).storage = s.storage := rfl
@[simp] theorem respond_storageCap (s : State) (w : Word) (bytes : List Byte) :
    (s.respond w bytes).storageCap = s.storageCap := rfl
@[simp] theorem respond_window (s : State) (w : Word) (bytes : List Byte) :
    (s.respond w bytes).window = s.window := rfl
@[simp] theorem respond_adlerS1 (s : State) (w : Word) (bytes : List Byte) :
    (s.respond w bytes).adlerS1 = s.adlerS1 := rfl
@[simp] theorem respond_adlerS2 (s : State) (w : Word) (bytes : List Byte) :
    (s.respond w bytes).adlerS2 = s.adlerS2 := rfl
@[simp] theorem respond_err (s : State) (w : Word) (bytes : List Byte) :
    (s.respond w bytes).err = s.err := rfl
@[simp] theorem respond_runCount (s : State) (w : Word) (bytes : List Byte) :
    (s.respond w bytes).runCount = s.runCount := rfl
@[simp] theorem respond_runBits (s : State) (w : Word) (bytes : List Byte) :
    (s.respond w bytes).runBits = s.runBits := rfl
@[simp] theorem respond_dst (s : State) (w : Word) (bytes : List Byte) :
    (s.respond w bytes).dst = s.dst := rfl

/-! ### State.raise -/

@[simp] theorem raise_params (s : State) (k : ErrorKind) (a : Nat) :
    (s.raise k a).params = s.params := rfl
@[simp] theorem raise_port (s : State) (k : ErrorKind) (a : Nat) :
    (s.raise k a).port = s.port := rfl
@[simp] theorem raise_activity (s : State) (k : ErrorKind) (a : Nat) :
    (s.raise k a).activity = .idle := rfl
@[simp] theorem raise_status (s : State) (k : ErrorKind) (a : Nat) :
    (s.raise k a).status = statusError k a := rfl
@[simp] theorem raise_payload (s : State) (k : ErrorKind) (a : Nat) :
    (s.raise k a).payload = [] := rfl
@[simp] theorem raise_refusalMark (s : State) (k : ErrorKind) (a : Nat) :
    (s.raise k a).refusalMark = s.refusalMark := rfl
@[simp] theorem raise_input (s : State) (k : ErrorKind) (a : Nat) :
    (s.raise k a).input = s.input := rfl
@[simp] theorem raise_pos (s : State) (k : ErrorKind) (a : Nat) : (s.raise k a).pos = s.pos := rfl
@[simp] theorem raise_atoms (s : State) (k : ErrorKind) (a : Nat) :
    (s.raise k a).atoms = s.atoms := rfl
@[simp] theorem raise_atomPos (s : State) (k : ErrorKind) (a : Nat) :
    (s.raise k a).atomPos = s.atomPos := rfl
@[simp] theorem raise_dropped (s : State) (k : ErrorKind) (a : Nat) :
    (s.raise k a).dropped = s.dropped := rfl
@[simp] theorem raise_st (s : State) (k : ErrorKind) (a : Nat) : (s.raise k a).st = .failed := rfl
@[simp] theorem raise_final (s : State) (k : ErrorKind) (a : Nat) :
    (s.raise k a).final = s.final := rfl
@[simp] theorem raise_cld (s : State) (k : ErrorKind) (a : Nat) : (s.raise k a).cld = s.cld := rfl
@[simp] theorem raise_rld (s : State) (k : ErrorKind) (a : Nat) : (s.raise k a).rld = s.rld := rfl
@[simp] theorem raise_dd (s : State) (k : ErrorKind) (a : Nat) : (s.raise k a).dd = s.dd := rfl
@[simp] theorem raise_hlit (s : State) (k : ErrorKind) (a : Nat) :
    (s.raise k a).hlit = s.hlit := rfl
@[simp] theorem raise_hdist (s : State) (k : ErrorKind) (a : Nat) :
    (s.raise k a).hdist = s.hdist := rfl
@[simp] theorem raise_lengths (s : State) (k : ErrorKind) (a : Nat) :
    (s.raise k a).lengths = s.lengths := rfl
@[simp] theorem raise_blockEnd (s : State) (k : ErrorKind) (a : Nat) :
    (s.raise k a).blockEnd = s.blockEnd := rfl
@[simp] theorem raise_out (s : State) (k : ErrorKind) (a : Nat) : (s.raise k a).out = s.out := rfl
@[simp] theorem raise_currentIndex (s : State) (k : ErrorKind) (a : Nat) :
    (s.raise k a).currentIndex = s.currentIndex := rfl
@[simp] theorem raise_startIndex (s : State) (k : ErrorKind) (a : Nat) :
    (s.raise k a).startIndex = s.startIndex := rfl
@[simp] theorem raise_baseIndex (s : State) (k : ErrorKind) (a : Nat) :
    (s.raise k a).baseIndex = s.baseIndex := rfl
@[simp] theorem raise_storage (s : State) (k : ErrorKind) (a : Nat) :
    (s.raise k a).storage = s.storage := rfl
@[simp] theorem raise_storageCap (s : State) (k : ErrorKind) (a : Nat) :
    (s.raise k a).storageCap = s.storageCap := rfl
@[simp] theorem raise_window (s : State) (k : ErrorKind) (a : Nat) :
    (s.raise k a).window = s.window := rfl
@[simp] theorem raise_adlerS1 (s : State) (k : ErrorKind) (a : Nat) :
    (s.raise k a).adlerS1 = s.adlerS1 := rfl
@[simp] theorem raise_adlerS2 (s : State) (k : ErrorKind) (a : Nat) :
    (s.raise k a).adlerS2 = s.adlerS2 := rfl
@[simp] theorem raise_err (s : State) (k : ErrorKind) (a : Nat) :
    (s.raise k a).err = some ⟨k, a⟩ := rfl
@[simp] theorem raise_runCount (s : State) (k : ErrorKind) (a : Nat) :
    (s.raise k a).runCount = s.runCount := rfl
@[simp] theorem raise_runBits (s : State) (k : ErrorKind) (a : Nat) :
    (s.raise k a).runBits = s.runBits := rfl
@[simp] theorem raise_dst (s : State) (k : ErrorKind) (a : Nat) : (s.raise k a).dst = s.dst := rfl

/-! ### State.rebase -/

@[simp] theorem rebase_params (s : State) (data : List Byte) :
    (s.rebase data).params = s.params := rfl
@[simp] theorem rebase_port (s : State) (data : List Byte) : (s.rebase data).port = s.port := rfl
@[simp] theorem rebase_activity (s : State) (data : List Byte) :
    (s.rebase data).activity = s.activity := rfl
@[simp] theorem rebase_status (s : State) (data : List Byte) :
    (s.rebase data).status = s.status := rfl
@[simp] theorem rebase_payload (s : State) (data : List Byte) :
    (s.rebase data).payload = s.payload := rfl
@[simp] theorem rebase_refusalMark (s : State) (data : List Byte) :
    (s.rebase data).refusalMark = s.refusalMark := rfl
@[simp] theorem rebase_input (s : State) (data : List Byte) :
    (s.rebase data).input = s.input ++ data := rfl
@[simp] theorem rebase_pos (s : State) (data : List Byte) : (s.rebase data).pos = s.pos := rfl
@[simp] theorem rebase_atoms (s : State) (data : List Byte) :
    (s.rebase data).atoms = rebaseAtoms (s.atoms.drop (s.atomPos / 16)) (decide (s.input.length % 2 = 1)) data := rfl
@[simp] theorem rebase_atomPos (s : State) (data : List Byte) :
    (s.rebase data).atomPos = s.atomPos - 16 * (s.atomPos / 16) := rfl
@[simp] theorem rebase_dropped (s : State) (data : List Byte) :
    (s.rebase data).dropped = s.dropped + s.atomPos / 16 := rfl
@[simp] theorem rebase_st (s : State) (data : List Byte) : (s.rebase data).st = s.st := rfl
@[simp] theorem rebase_final (s : State) (data : List Byte) : (s.rebase data).final = s.final := rfl
@[simp] theorem rebase_cld (s : State) (data : List Byte) : (s.rebase data).cld = s.cld := rfl
@[simp] theorem rebase_rld (s : State) (data : List Byte) : (s.rebase data).rld = s.rld := rfl
@[simp] theorem rebase_dd (s : State) (data : List Byte) : (s.rebase data).dd = s.dd := rfl
@[simp] theorem rebase_hlit (s : State) (data : List Byte) : (s.rebase data).hlit = s.hlit := rfl
@[simp] theorem rebase_hdist (s : State) (data : List Byte) : (s.rebase data).hdist = s.hdist := rfl
@[simp] theorem rebase_lengths (s : State) (data : List Byte) :
    (s.rebase data).lengths = s.lengths := rfl
@[simp] theorem rebase_blockEnd (s : State) (data : List Byte) :
    (s.rebase data).blockEnd = s.blockEnd := rfl
@[simp] theorem rebase_out (s : State) (data : List Byte) : (s.rebase data).out = s.out := rfl
@[simp] theorem rebase_currentIndex (s : State) (data : List Byte) :
    (s.rebase data).currentIndex = s.currentIndex := rfl
@[simp] theorem rebase_startIndex (s : State) (data : List Byte) :
    (s.rebase data).startIndex = s.startIndex := rfl
@[simp] theorem rebase_baseIndex (s : State) (data : List Byte) :
    (s.rebase data).baseIndex = s.baseIndex := rfl
@[simp] theorem rebase_storage (s : State) (data : List Byte) :
    (s.rebase data).storage = s.storage := rfl
@[simp] theorem rebase_storageCap (s : State) (data : List Byte) :
    (s.rebase data).storageCap = s.storageCap := rfl
@[simp] theorem rebase_window (s : State) (data : List Byte) :
    (s.rebase data).window = s.window := rfl
@[simp] theorem rebase_adlerS1 (s : State) (data : List Byte) :
    (s.rebase data).adlerS1 = s.adlerS1 := rfl
@[simp] theorem rebase_adlerS2 (s : State) (data : List Byte) :
    (s.rebase data).adlerS2 = s.adlerS2 := rfl
@[simp] theorem rebase_err (s : State) (data : List Byte) : (s.rebase data).err = s.err := rfl
@[simp] theorem rebase_runCount (s : State) (data : List Byte) :
    (s.rebase data).runCount = s.runCount := rfl
@[simp] theorem rebase_runBits (s : State) (data : List Byte) :
    (s.rebase data).runBits = s.runBits := rfl
@[simp] theorem rebase_dst (s : State) (data : List Byte) : (s.rebase data).dst = s.dst := rfl

/-! ### State.shift -/

@[simp] theorem shift_params (s : State) (k : Nat) : (s.shift k).params = s.params := rfl
@[simp] theorem shift_port (s : State) (k : Nat) : (s.shift k).port = s.port := rfl
@[simp] theorem shift_activity (s : State) (k : Nat) : (s.shift k).activity = s.activity := rfl
@[simp] theorem shift_status (s : State) (k : Nat) : (s.shift k).status = s.status := rfl
@[simp] theorem shift_payload (s : State) (k : Nat) : (s.shift k).payload = s.payload := rfl
@[simp] theorem shift_refusalMark (s : State) (k : Nat) :
    (s.shift k).refusalMark = s.refusalMark := rfl
@[simp] theorem shift_input (s : State) (k : Nat) : (s.shift k).input = s.input := rfl
@[simp] theorem shift_pos (s : State) (k : Nat) : (s.shift k).pos = s.pos := rfl
@[simp] theorem shift_atoms (s : State) (k : Nat) : (s.shift k).atoms = s.atoms := rfl
@[simp] theorem shift_atomPos (s : State) (k : Nat) : (s.shift k).atomPos = s.atomPos := rfl
@[simp] theorem shift_dropped (s : State) (k : Nat) : (s.shift k).dropped = s.dropped := rfl
@[simp] theorem shift_st (s : State) (k : Nat) : (s.shift k).st = s.st := rfl
@[simp] theorem shift_final (s : State) (k : Nat) : (s.shift k).final = s.final := rfl
@[simp] theorem shift_cld (s : State) (k : Nat) : (s.shift k).cld = s.cld := rfl
@[simp] theorem shift_rld (s : State) (k : Nat) : (s.shift k).rld = s.rld := rfl
@[simp] theorem shift_dd (s : State) (k : Nat) : (s.shift k).dd = s.dd := rfl
@[simp] theorem shift_hlit (s : State) (k : Nat) : (s.shift k).hlit = s.hlit := rfl
@[simp] theorem shift_hdist (s : State) (k : Nat) : (s.shift k).hdist = s.hdist := rfl
@[simp] theorem shift_lengths (s : State) (k : Nat) : (s.shift k).lengths = s.lengths := rfl
@[simp] theorem shift_blockEnd (s : State) (k : Nat) : (s.shift k).blockEnd = s.blockEnd := rfl
@[simp] theorem shift_out (s : State) (k : Nat) : (s.shift k).out = s.out := rfl
@[simp] theorem shift_currentIndex (s : State) (k : Nat) :
    (s.shift k).currentIndex = s.currentIndex := rfl
@[simp] theorem shift_startIndex (s : State) (k : Nat) :
    (s.shift k).startIndex = s.startIndex := rfl
@[simp] theorem shift_baseIndex (s : State) (k : Nat) : (s.shift k).baseIndex = s.startIndex := rfl
@[simp] theorem shift_storage (s : State) (k : Nat) :
    (s.shift k).storage = s.storage.drop (s.startIndex - s.baseIndex) := rfl
@[simp] theorem shift_storageCap (s : State) (k : Nat) :
    (s.shift k).storageCap = s.shiftCap k := rfl
@[simp] theorem shift_window (s : State) (k : Nat) : (s.shift k).window = s.window := rfl
@[simp] theorem shift_adlerS1 (s : State) (k : Nat) :
    (s.shift k).adlerS1 = BitVec.ofNat 16 s.shiftAdler.1 := rfl
@[simp] theorem shift_adlerS2 (s : State) (k : Nat) :
    (s.shift k).adlerS2 = BitVec.ofNat 16 s.shiftAdler.2 := rfl
@[simp] theorem shift_err (s : State) (k : Nat) : (s.shift k).err = s.err := rfl
@[simp] theorem shift_runCount (s : State) (k : Nat) : (s.shift k).runCount = s.runCount := rfl
@[simp] theorem shift_runBits (s : State) (k : Nat) : (s.shift k).runBits = s.runBits := rfl
@[simp] theorem shift_dst (s : State) (k : Nat) : (s.shift k).dst = s.dst := rfl

/-! ### State.makeRoom -/

@[simp] theorem makeRoom_params (s : State) (k : Nat) : (s.makeRoom k).params = s.params := by
  unfold State.makeRoom; split <;> rfl
@[simp] theorem makeRoom_port (s : State) (k : Nat) : (s.makeRoom k).port = s.port := by
  unfold State.makeRoom; split <;> rfl
@[simp] theorem makeRoom_activity (s : State) (k : Nat) : (s.makeRoom k).activity = s.activity := by
  unfold State.makeRoom; split <;> rfl
@[simp] theorem makeRoom_status (s : State) (k : Nat) : (s.makeRoom k).status = s.status := by
  unfold State.makeRoom; split <;> rfl
@[simp] theorem makeRoom_payload (s : State) (k : Nat) : (s.makeRoom k).payload = s.payload := by
  unfold State.makeRoom; split <;> rfl
@[simp] theorem makeRoom_refusalMark (s : State) (k : Nat) :
    (s.makeRoom k).refusalMark = s.refusalMark := by
  unfold State.makeRoom; split <;> rfl
@[simp] theorem makeRoom_input (s : State) (k : Nat) : (s.makeRoom k).input = s.input := by
  unfold State.makeRoom; split <;> rfl
@[simp] theorem makeRoom_pos (s : State) (k : Nat) : (s.makeRoom k).pos = s.pos := by
  unfold State.makeRoom; split <;> rfl
@[simp] theorem makeRoom_atoms (s : State) (k : Nat) : (s.makeRoom k).atoms = s.atoms := by
  unfold State.makeRoom; split <;> rfl
@[simp] theorem makeRoom_atomPos (s : State) (k : Nat) : (s.makeRoom k).atomPos = s.atomPos := by
  unfold State.makeRoom; split <;> rfl
@[simp] theorem makeRoom_dropped (s : State) (k : Nat) : (s.makeRoom k).dropped = s.dropped := by
  unfold State.makeRoom; split <;> rfl
@[simp] theorem makeRoom_st (s : State) (k : Nat) : (s.makeRoom k).st = s.st := by
  unfold State.makeRoom; split <;> rfl
@[simp] theorem makeRoom_final (s : State) (k : Nat) : (s.makeRoom k).final = s.final := by
  unfold State.makeRoom; split <;> rfl
@[simp] theorem makeRoom_cld (s : State) (k : Nat) : (s.makeRoom k).cld = s.cld := by
  unfold State.makeRoom; split <;> rfl
@[simp] theorem makeRoom_rld (s : State) (k : Nat) : (s.makeRoom k).rld = s.rld := by
  unfold State.makeRoom; split <;> rfl
@[simp] theorem makeRoom_dd (s : State) (k : Nat) : (s.makeRoom k).dd = s.dd := by
  unfold State.makeRoom; split <;> rfl
@[simp] theorem makeRoom_hlit (s : State) (k : Nat) : (s.makeRoom k).hlit = s.hlit := by
  unfold State.makeRoom; split <;> rfl
@[simp] theorem makeRoom_hdist (s : State) (k : Nat) : (s.makeRoom k).hdist = s.hdist := by
  unfold State.makeRoom; split <;> rfl
@[simp] theorem makeRoom_lengths (s : State) (k : Nat) : (s.makeRoom k).lengths = s.lengths := by
  unfold State.makeRoom; split <;> rfl
@[simp] theorem makeRoom_blockEnd (s : State) (k : Nat) : (s.makeRoom k).blockEnd = s.blockEnd := by
  unfold State.makeRoom; split <;> rfl
@[simp] theorem makeRoom_out (s : State) (k : Nat) : (s.makeRoom k).out = s.out := by
  unfold State.makeRoom; split <;> rfl
@[simp] theorem makeRoom_currentIndex (s : State) (k : Nat) :
    (s.makeRoom k).currentIndex = s.currentIndex := by
  unfold State.makeRoom; split <;> rfl
@[simp] theorem makeRoom_startIndex (s : State) (k : Nat) :
    (s.makeRoom k).startIndex = s.startIndex := by
  unfold State.makeRoom; split <;> rfl
@[simp] theorem makeRoom_window (s : State) (k : Nat) : (s.makeRoom k).window = s.window := by
  unfold State.makeRoom; split <;> rfl
@[simp] theorem makeRoom_err (s : State) (k : Nat) : (s.makeRoom k).err = s.err := by
  unfold State.makeRoom; split <;> rfl
@[simp] theorem makeRoom_runCount (s : State) (k : Nat) : (s.makeRoom k).runCount = s.runCount := by
  unfold State.makeRoom; split <;> rfl
@[simp] theorem makeRoom_runBits (s : State) (k : Nat) : (s.makeRoom k).runBits = s.runBits := by
  unfold State.makeRoom; split <;> rfl
@[simp] theorem makeRoom_dst (s : State) (k : Nat) : (s.makeRoom k).dst = s.dst := by
  unfold State.makeRoom; split <;> rfl

/-! ### State.emit -/

@[simp] theorem emit_params (s : State) (bytes : List Byte) : (s.emit bytes).params = s.params := by
  unfold State.emit State.makeRoom; split <;> rfl
@[simp] theorem emit_port (s : State) (bytes : List Byte) : (s.emit bytes).port = s.port := by
  unfold State.emit State.makeRoom; split <;> rfl
@[simp] theorem emit_activity (s : State) (bytes : List Byte) :
    (s.emit bytes).activity = s.activity := by
  unfold State.emit State.makeRoom; split <;> rfl
@[simp] theorem emit_status (s : State) (bytes : List Byte) : (s.emit bytes).status = s.status := by
  unfold State.emit State.makeRoom; split <;> rfl
@[simp] theorem emit_payload (s : State) (bytes : List Byte) :
    (s.emit bytes).payload = s.payload := by
  unfold State.emit State.makeRoom; split <;> rfl
@[simp] theorem emit_refusalMark (s : State) (bytes : List Byte) :
    (s.emit bytes).refusalMark = s.refusalMark := by
  unfold State.emit State.makeRoom; split <;> rfl
@[simp] theorem emit_input (s : State) (bytes : List Byte) : (s.emit bytes).input = s.input := by
  unfold State.emit State.makeRoom; split <;> rfl
@[simp] theorem emit_pos (s : State) (bytes : List Byte) : (s.emit bytes).pos = s.pos := by
  unfold State.emit State.makeRoom; split <;> rfl
@[simp] theorem emit_atoms (s : State) (bytes : List Byte) : (s.emit bytes).atoms = s.atoms := by
  unfold State.emit State.makeRoom; split <;> rfl
@[simp] theorem emit_atomPos (s : State) (bytes : List Byte) :
    (s.emit bytes).atomPos = s.atomPos := by
  unfold State.emit State.makeRoom; split <;> rfl
@[simp] theorem emit_dropped (s : State) (bytes : List Byte) :
    (s.emit bytes).dropped = s.dropped := by
  unfold State.emit State.makeRoom; split <;> rfl
@[simp] theorem emit_st (s : State) (bytes : List Byte) : (s.emit bytes).st = s.st := by
  unfold State.emit State.makeRoom; split <;> rfl
@[simp] theorem emit_final (s : State) (bytes : List Byte) : (s.emit bytes).final = s.final := by
  unfold State.emit State.makeRoom; split <;> rfl
@[simp] theorem emit_cld (s : State) (bytes : List Byte) : (s.emit bytes).cld = s.cld := by
  unfold State.emit State.makeRoom; split <;> rfl
@[simp] theorem emit_rld (s : State) (bytes : List Byte) : (s.emit bytes).rld = s.rld := by
  unfold State.emit State.makeRoom; split <;> rfl
@[simp] theorem emit_dd (s : State) (bytes : List Byte) : (s.emit bytes).dd = s.dd := by
  unfold State.emit State.makeRoom; split <;> rfl
@[simp] theorem emit_hlit (s : State) (bytes : List Byte) : (s.emit bytes).hlit = s.hlit := by
  unfold State.emit State.makeRoom; split <;> rfl
@[simp] theorem emit_hdist (s : State) (bytes : List Byte) : (s.emit bytes).hdist = s.hdist := by
  unfold State.emit State.makeRoom; split <;> rfl
@[simp] theorem emit_lengths (s : State) (bytes : List Byte) :
    (s.emit bytes).lengths = s.lengths := by
  unfold State.emit State.makeRoom; split <;> rfl
@[simp] theorem emit_blockEnd (s : State) (bytes : List Byte) :
    (s.emit bytes).blockEnd = s.blockEnd := by
  unfold State.emit State.makeRoom; split <;> rfl
@[simp] theorem emit_out (s : State) (bytes : List Byte) :
    (s.emit bytes).out = s.out ++ bytes := rfl
@[simp] theorem emit_currentIndex (s : State) (bytes : List Byte) :
    (s.emit bytes).currentIndex = s.currentIndex := by
  unfold State.emit State.makeRoom; split <;> rfl
@[simp] theorem emit_startIndex (s : State) (bytes : List Byte) :
    (s.emit bytes).startIndex = s.startIndex := by
  unfold State.emit State.makeRoom; split <;> rfl
@[simp] theorem emit_baseIndex (s : State) (bytes : List Byte) :
    (s.emit bytes).baseIndex = (s.makeRoom bytes.length).baseIndex := rfl
@[simp] theorem emit_storage (s : State) (bytes : List Byte) :
    (s.emit bytes).storage = (s.makeRoom bytes.length).storage ++ bytes := rfl
@[simp] theorem emit_storageCap (s : State) (bytes : List Byte) :
    (s.emit bytes).storageCap = (s.makeRoom bytes.length).storageCap := rfl
@[simp] theorem emit_window (s : State) (bytes : List Byte) : (s.emit bytes).window = s.window := by
  unfold State.emit State.makeRoom; split <;> rfl
@[simp] theorem emit_adlerS1 (s : State) (bytes : List Byte) :
    (s.emit bytes).adlerS1 = (s.makeRoom bytes.length).adlerS1 := rfl
@[simp] theorem emit_adlerS2 (s : State) (bytes : List Byte) :
    (s.emit bytes).adlerS2 = (s.makeRoom bytes.length).adlerS2 := rfl
@[simp] theorem emit_err (s : State) (bytes : List Byte) : (s.emit bytes).err = s.err := by
  unfold State.emit State.makeRoom; split <;> rfl
@[simp] theorem emit_runCount (s : State) (bytes : List Byte) :
    (s.emit bytes).runCount = s.runCount := by
  unfold State.emit State.makeRoom; split <;> rfl
@[simp] theorem emit_runBits (s : State) (bytes : List Byte) :
    (s.emit bytes).runBits = s.runBits := by
  unfold State.emit State.makeRoom; split <;> rfl
@[simp] theorem emit_dst (s : State) (bytes : List Byte) : (s.emit bytes).dst = s.dst := by
  unfold State.emit State.makeRoom; split <;> rfl

end Sys2Proof.Laws
end

