-- ==== Sys2Proof/Laws/Ops.lean ====
section
/-! SUPPORT. One lemma per shared operation: output append and copy (R92, R93, R95), room (R96, R52), Adler-32 (R264), release (R94), unpacking (R404, R405), code-length placement (R294). -/

namespace Sys2Proof.Laws

open Sys2Proof.Machine

/-! ### Operand checks -/

theorem hasPalette_iff (f : Word) : hasPalette f = true ↔ f.toNat % 16 = 3 := by
  unfold hasPalette
  exact decide_eq_true_iff

theorem paletteCountOk_iff (pal : List Rgba) :
    paletteCountOk pal = true ↔ 1 ≤ pal.length ∧ pal.length ≤ 256 := by
  unfold paletteCountOk
  rw [Bool.and_eq_true, decide_eq_true_iff, decide_eq_true_iff]
  rfl

/-- The unsupported UNPACK, by its palette count (R401, R402, R455, R456). -/
theorem unpackUnsupported_eq (blk : Block) (s : State) :
    unpackUnsupported blk s =
      if blk.fmt.toNat % 16 = 3 ∧ ¬(1 ≤ blk.palette.length ∧ blk.palette.length ≤ 256) then
        .refused .paletteCount
      else .next (s.unpackError .unsupported) := by
  unfold unpackUnsupported
  simp only [Bool.and_eq_true, hasPalette_iff, Bool.not_eq_true', ← Bool.not_eq_true, paletteCountOk_iff]

theorem unpackUnsupported_next {blk : Block} {s t : State} (h : unpackUnsupported blk s = .next t) :
    s.unpackError .unsupported = t := by
  rw [unpackUnsupported_eq] at h
  split at h
  · cases h
  · exact Host.Outcome.next.inj h

/-- The code lengths of a dynamic header, placed by `CL_ORDER` (R294). -/
theorem clLengths_eq (cl : List (BitVec 3)) (lens : List Nat) (h19 : lens.length = 19)
    (h : ∀ i < 19, lens.getD (clOrder.getD i 0) 0 =
      if i < cl.length then (cl.getD i 0).toNat else 0) : clLengths cl = lens := by
  have order : ∀ s < 19, clOrder.idxOf s < 19 ∧ clOrder.getD (clOrder.idxOf s) 0 = s := by decide
  apply List.ext_getElem
  · simp [clLengths, h19]
  · intro s h1 h2
    obtain ⟨a, b⟩ := order s (by omega)
    have := h _ a
    rw [b] at this
    simp only [clLengths, List.getElem_map, List.getElem_range]
    rw [show lens[s] = lens.getD s 0 by simp [List.getD_eq_getElem?_getD, h2], this]
    split
    · rfl
    · next hh => simp [List.getD_eq_getElem?_getD, List.getElem?_eq_none (Nat.not_lt.1 hh)]

@[simp] theorem clLengths_length (cl : List (BitVec 3)) : (clLengths cl).length = 19 := by
  simp [clLengths]

/-- A code-length code has at most 7 bits (R193). -/
theorem clLengths_le (cl : List (BitVec 3)) : ∀ x ∈ clLengths cl, x ≤ 7 := by
  intro x hx
  simp only [clLengths, List.mem_map] at hx
  obtain ⟨s, -, rfl⟩ := hx
  have := (cl.getD (clOrder.idxOf s) 0).isLt
  omega

/-! ### Room for output -/

/-- Where there is room, neither the capacity nor the counter is exceeded (R96, R52). -/
theorem roomFor_iff (s : State) (k : Nat) :
    s.roomFor k ↔ s.outputOver k = false ∧ s.indexOver k = false := by
  unfold State.roomFor State.outputOver State.indexOver
  rw [decide_eq_false_iff_not, Nat.not_le]
  cases s.params.outCap with
  | none => simp
  | some c => simp

theorem outputOver_of {s : State} {k cap : Nat} (h : s.params.outCap = some cap)
    (h' : cap < s.out.length - s.startIndex + k) : s.outputOver k = true := by
  simp [State.outputOver, h, h']

/-- What `withRoom` answers when it answers a next state. -/
theorem withRoom_next {s t done : State} {k : Nat} (h : s.withRoom k done = .next t) :
    (s.outputOver k = true ∧ t = s.respond statusNeedsPull []) ∨ (s.roomFor k ∧ t = done) := by
  unfold State.withRoom at h
  split at h
  · next h1 => exact .inl ⟨h1, by cases h; rfl⟩
  · next h1 =>
    split at h
    · cases h
    · next h2 =>
      refine .inr ⟨(roomFor_iff s k).2 ⟨?_, ?_⟩, by cases h; rfl⟩
      · simpa using h1
      · simpa using h2

theorem withRoom_of_room {s : State} {k : Nat} (h : s.roomFor k) (done : State) :
    s.withRoom k done = .next done := by
  obtain ⟨a, b⟩ := (roomFor_iff s k).1 h
  simp only [State.withRoom, a, b, Bool.false_eq_true, if_false]

theorem refLimit_le (s : State) : s.refLimit ≤ s.out.length - s.startIndex := by
  unfold State.refLimit
  split <;> omega

/-! ### Adler-32 -/

theorem adlerStep_lt (a : Nat × Nat) (x : Byte) :
    (adlerStep a x).1 < 65521 ∧ (adlerStep a x).2 < 65521 := by
  unfold adlerStep
  constructor <;> exact Nat.mod_lt _ (by decide)

theorem adlerFold_append (a : Nat × Nat) (x y : List Byte) :
    adlerFold a (x ++ y) = adlerFold (adlerFold a x) y := by
  simp [adlerFold]

/-- Both halves stay in 16 bits (R264). -/
theorem adlerFold_lt (a : Nat × Nat) (bytes : List Byte) (h : a.1 < 65536 ∧ a.2 < 65536) :
    (adlerFold a bytes).1 < 65536 ∧ (adlerFold a bytes).2 < 65536 := by
  unfold adlerFold
  induction bytes generalizing a with
  | nil => exact h
  | cons x xs ih =>
    have := adlerStep_lt a x
    exact ih _ ⟨by omega, by omega⟩

/-! ### Appending output -/

/-- The physical side of an append (R42, R44, R92, R95). -/
theorem emit_grows (s : State) (bytes : List Byte) (n : Nat) :
    s.Grows bytes n ((s.emit bytes).commit n) := by
  unfold State.emit State.makeRoom
  by_cases h : s.storageCap < s.storage.length + bytes.length
  · simp only [if_pos h]
    refine ⟨⟨rfl, rfl, rfl⟩, .inr ⟨rfl, ?_, rfl⟩⟩
    have := adlerFold_lt (s.adlerS1.toNat, s.adlerS2.toNat)
      (s.storage.take (s.startIndex - s.baseIndex)) ⟨s.adlerS1.isLt, s.adlerS2.isLt⟩
    simp only [State.shift, State.commit, State.shiftAdler, BitVec.toNat_ofNat]
    rw [Nat.mod_eq_of_lt (by omega), Nat.mod_eq_of_lt (by omega)]
  · simp only [if_neg h]
    exact ⟨⟨rfl, rfl, rfl⟩, .inl ⟨rfl, rfl, rfl, rfl⟩⟩

/-- The logical side of an append: `OUT` grows at its end and nothing else changes (R91, R92). -/
theorem emit_logical (s : State) (bytes : List Byte) (n : Nat) :
    ((s.emit bytes).commit n).logical =
      ({ s with out := s.out ++ bytes, pos := s.pos + n } : State).logical := by
  unfold State.emit State.makeRoom
  split <;> rfl

/-- The forward copy (R93): each new byte is the one `off` before it. -/
theorem copyForward_spec (off n : Nat) (o : List Byte) (h1 : 1 ≤ off) (h2 : off ≤ o.length) :
    ∃ b, copyForward off n o = o ++ b ∧ b.length = n ∧
      ∀ k < n, (o ++ b)[o.length + k]? = (o ++ b)[o.length - off + k]? := by
  induction n generalizing o with
  | zero => exact ⟨[], by simp [copyForward], rfl, fun k h => absurd h (Nat.not_lt_zero _)⟩
  | succ n ih =>
    obtain ⟨b, hb, hl, hk⟩ := ih (o ++ [o.getD (o.length - off) 0]) (by simp; omega)
    refine ⟨o.getD (o.length - off) 0 :: b, by rw [copyForward, hb, List.append_assoc]; rfl,
      by simp [hl], ?_⟩
    intro k hkn
    cases k with
    | zero =>
      have : o.length - off < o.length := by omega
      simp [List.getElem?_append_left this, List.getD_eq_getElem?_getD, this]
    | succ k =>
      have := hk k (by omega)
      simp only [List.append_assoc, List.singleton_append, List.length_append,
        List.length_singleton] at this
      rw [show o.length + (k + 1) = o.length + 1 + k by omega, this]
      congr 1
      omega

theorem copyForward_append (off n : Nat) (o : List Byte) :
    ∃ b, copyForward off n o = o ++ b ∧ b.length = n := by
  induction n generalizing o with
  | zero => exact ⟨[], by simp [copyForward], rfl⟩
  | succ n ih =>
    obtain ⟨b, hb, hl⟩ := ih (o ++ [o.getD (o.length - off) 0])
    exact ⟨_ :: b, by rw [copyForward, hb, List.append_assoc]; rfl, by simp [hl]⟩

@[simp] theorem copyBytes_length (o : List Byte) (off n : Nat) :
    (copyBytes o off n).length = n := by
  obtain ⟨b, hb, hl⟩ := copyForward_append off n o
  simp [copyBytes, hb, hl]

/-! ### Release -/

/-- `OutRelease` answers exactly when enough bytes are retained (R94). -/
theorem outRelease_eq_some {s : State} {n : Nat} {r : List Byte × State}
    (h : s.outRelease n = some r) :
    n ≤ s.out.length - s.currentIndex ∧ r = ((s.out.drop s.currentIndex).take n,
      { s with
        currentIndex := s.currentIndex + n
        startIndex := s.releaseStart (s.currentIndex + n) }) := by
  unfold State.outRelease at h
  split at h
  · next hn => exact ⟨hn, by cases h; rfl⟩
  · cases h

/-! ### Unpacking -/

/-- The groups of a buffer of 8-bit samples (R404, R405). -/
theorem unpackGroups_bytes (n : Nat) (kernel : List Nat → Color) (buf : List Byte) :
    unpackGroups n 8 kernel buf = (List.range (buf.length / n)).map fun j =>
      kernel ((List.range n).map fun i => (buf.getD (n * j + i) 0).toNat) := by
  simp only [unpackGroups, sampleBytes, Nat.le_refl, if_true, Nat.mul_one]
  refine List.map_congr_left fun j _ => congrArg kernel (List.map_congr_left fun i _ => ?_)
  rw [sample, if_pos (by decide), Nat.mul_comm]

/-- The groups of a buffer of 16-bit samples, big-endian (R404, R405). -/
theorem unpackGroups_halves (n : Nat) (kernel : List Nat → Color) (buf : List Byte) :
    unpackGroups n 16 kernel buf = (List.range (buf.length / (n * 2))).map fun j =>
      kernel ((List.range n).map fun i =>
        (buf.getD (n * 2 * j + 2 * i) 0).toNat * 256
          + (buf.getD (n * 2 * j + 2 * i + 1) 0).toNat) := by
  have : sampleBytes 16 = 2 := rfl
  simp only [unpackGroups, this]
  refine List.map_congr_left fun j _ => congrArg kernel (List.map_congr_left fun i _ => ?_)
  rw [sample, if_neg (by decide), Nat.mul_comm j]

/-- The palette's colours when every index is below `NP` (R406). -/
theorem indexedColors_some (w : Width) (pal : List Rgba) (buf : List Byte)
    (h : ∀ x ∈ buf, x.toNat < pal.length) :
    indexedColors w pal buf =
      some (buf.map fun x => paletteColor w (pal.getD x.toNat ⟨0, 0, 0, 0⟩)) := by
  induction buf with
  | nil => rfl
  | cons x xs ih =>
    have hx := h x List.mem_cons_self
    rw [indexedColors, ih (fun y hy => h y (List.mem_cons_of_mem _ hy)),
      List.getElem?_eq_getElem hx]
    simp [List.getD_eq_getElem?_getD, hx]

/-- No colours when an index is at or past `NP` (R406). -/
theorem indexedColors_none (w : Width) (pal : List Rgba) (buf : List Byte)
    (h : ∃ x ∈ buf, pal.length ≤ x.toNat) : indexedColors w pal buf = none := by
  induction buf with
  | nil => simp at h
  | cons x xs ih =>
    obtain ⟨y, hy, hl⟩ := h
    rcases List.mem_cons.1 hy with rfl | hy
    · simp [indexedColors, List.getElem?_eq_none hl]
    · rw [indexedColors, ih ⟨y, hy, hl⟩]
      cases pal[x.toNat]? <;> rfl

/-! ### Input -/

/-- The atoms after a rebase are the packed bytes and the zero tail (R81). -/
theorem rebaseAtoms_eq (rem data : List Byte) :
    rebaseAtoms (packAtoms rem ++ Config.padAtoms) (decide (rem.length % 2 = 1)) data = packAtoms (rem ++ data) ++ Config.padAtoms := by
  unfold rebaseAtoms
  have hb : (packAtoms rem ++ Config.padAtoms).take ((packAtoms rem ++ Config.padAtoms).length - 3) = packAtoms rem := by
    simp [Config.padAtoms]
  simp only [hb]
  cases ho : decide (rem.length % 2 = 1) with
  | false => 
    simp only []
    rw [packAtoms_append_even _ _ (by simp at ho; omega)]
  | true =>
    cases data with
    | nil => simp [packAtoms]
    | cons d r => simp only [packAtoms_odd _ _ _ (of_decide_eq_true ho)]

/-- An append writes `OUT`, the cursor and the physical output fields only (R92). -/
theorem emit_eq (s : State) (bytes : List Byte) (n : Nat) : (s.emit bytes).commit n = { s with
    pos := s.pos + n
    out := s.out ++ bytes
    atomPos := s.atomPos + n
    storage := (s.emit bytes).storage
    storageCap := (s.emit bytes).storageCap
    baseIndex := (s.emit bytes).baseIndex
    adlerS1 := (s.emit bytes).adlerS1
    adlerS2 := (s.emit bytes).adlerS2 } := by
  unfold State.emit State.makeRoom
  split <;> rfl

end Sys2Proof.Laws
end

