-- ==== Sys2Proof/Laws/Exec.lean ====
section
/-! SUPPORT. What `exec` can do: every next state is one of the effects listed here (the inversion of the dispatch, R220, R452, R453). -/

namespace Sys2Proof.Laws

open Sys2Proof.Machine

/-- The elements and the command that can fail the session (R450). -/
def failsSession (i : Instr) : Bool :=
  match i with
  | .finish => true
  | .new => false
  | .push _ => false
  | .pull _ => false
  | .retained => false
  | .unpack _ => false
  | .premul _ _ _ => false
  | .read _ => false
  | .reservedOp _ => false
  | .stdIos _ _ => false
  | i => decide (blockOf i = none)

/-- The effects of the instructions, one constructor a shape. -/
inductive Effect (s : State) : Instr → State → Prop where
  | renew : Effect s .new s.renew
  | accept (data) : s.st ≠ .failed → s.inputOver data.length = false →
      s.positionOver data.length = false →
      Effect s (.push data) { s.rebase data with activity := .inflating }
  | release (n : BitVec 24) : s.st ≠ .failed → n.toNat ≤ s.out.length - s.currentIndex →
      Effect s (.pull n) (({ s with
        currentIndex := s.currentIndex + n.toNat
        startIndex := s.releaseStart (s.currentIndex + n.toNat) } : State).respond statusSome
          ((s.out.drop s.currentIndex).take n.toNat))
  | answer (i w bytes) : failsSession i = false ∨ i = .finish ∧ s.st = .streamEnd → appendsOutput i = false →
      Effect s i (s.respond w bytes)
  | fail (i k a) : failsSession i = true → k ≠ .unsupported → k ≠ .paletteIndexOutOfRange →
      (i = .finish → s.st ≠ .failed ∧ s.st ≠ .streamEnd) →
      (i ≠ .finish → k ≠ .truncatedBitstream) → Effect s i (s.raise k a)
  | unpack (w) : Effect s (.unpack w) { s with activity := .unpacking, dst := w }
  | header (cmf flg : Byte) : cmf.toNat / 16 < 8 →
      Effect s (.zhdr cmf flg)
        { s.commit 16 with window := 2 ^ (8 + cmf.toNat / 16), st := .blockStart }
  | stored (bf) (len nlen : Half) :
      Effect s (.bhdrStored bf len nlen) { s.commit (3 + padBits (s.pos + 3) + 32) with
        final := bf, blockEnd := s.out.length + len.toNat, st := .blockUncompressed }
  | fixed (bf) :
      Effect s (.bhdrFixed bf)
        { s.commit 3 with final := bf, rld := fixedRl, dd := fixedD, st := .blockCompressed }
  | dynamic (bf hlit hdist hclen cl t) : hlitValue hlit ≤ 286 → build (clLengths cl) .strict = some t →
      Effect s (.bhdrDynamic bf hlit hdist hclen cl) { s.commit (17 + 3 * hclenValue hclen) with
        final := bf
        hlit := BitVec.ofNat 9 (hlitValue hlit)
        hdist := BitVec.ofNat 6 (hdistValue hdist)
        cld := t, lengths := [], st := .blockTables }
  | lengths (i n add) : codeLengthSymbol i = true → n = elementBits s.pos i →
      s.lengths.length + add.length < s.lengthTotal →
      Effect s i { s.commit n with lengths := s.lengths ++ add }
  | complete (i n add rl d) : codeLengthSymbol i = true → n = elementBits s.pos i →
      s.lengths.length + add.length = s.lengthTotal →
      build (s.rlLengths (s.lengths ++ add)) .strict = some rl →
      build (s.dLengths (s.lengths ++ add)) (.normalizing s.params.dDefaultSym) = some d →
      Effect s i { s.commit n with
        lengths := s.lengths ++ add, rld := rl, dd := d, st := .blockCompressed }
  | append (i v n) : (∃ len v, i = .lit len v) ∨ (∃ v, i = .byte v) → n = elementBits s.pos i →
      s.roomFor 1 → Effect s i ((s.outAppend v).commit n)
  | hold (i) : appendsOutput i = true → Effect s i (s.respond statusNeedsPull [])
  | endBlock (i n) : (∃ len, i = .eob len) ∨ i = .storedEnd → n = elementBits s.pos i →
      Effect s i { s.commit n with st := afterBlock s.final }
  | run (i count n) : runSymbol i = true → n = elementBits s.pos i → count ≤ 258 →
      Effect s i { s with activity := .distance, runCount := count, runBits := n }
  | copy (i offset n) : distanceSymbol i = true → n = elementBits s.pos i → 1 ≤ offset →
      offset ≤ s.refLimit → s.roomFor s.runCount →
      Effect s i { (s.outExpand offset s.runCount).commit (s.runBits + n) with
        activity := .inflating }
  | trailer (v : Word) : v.toNat = adler s.out →
      Effect s (.adler v)
        { (s.commit (padBits s.pos + 32)).respond statusDone [] with st := .streamEnd }

variable {s t : State}

theorem next_inj {a b : State} (h : (Host.Outcome.next a : Result) = .next b) : a = b :=
  Host.Outcome.next.inj h

theorem of_answer {i : Instr} {w : Word} {bytes : List Byte} (hi : failsSession i = false)
    (ha : appendsOutput i = false) (h : (.next (s.respond w bytes) : Result) = .next t) :
    Effect s i t :=
  next_inj h ▸ .answer i w bytes (.inl hi) ha

theorem of_fail {i : Instr} {k : ErrorKind} {a : Nat} (hi : failsSession i = true)
    (hf : i ≠ .finish) (h1 : k ≠ .unsupported) (h2 : k ≠ .paletteIndexOutOfRange)
    (h3 : k ≠ .truncatedBitstream) (h : (.next (s.raise k a) : Result) = .next t) : Effect s i t :=
  next_inj h ▸ .fail i k a hi h1 h2 (fun e => absurd e hf) fun _ => h3

theorem of_appendLengths {i : Instr} {n : Nat} {add : List (BitVec 4)}
    (hi : codeLengthSymbol i = true) (hfs : failsSession i = true) (hf : i ≠ .finish)
    (hn : n = elementBits s.pos i) (h : appendLengths n add s = .next t) : Effect s i t := by
  unfold appendLengths at h
  split at h
  · exact of_fail hfs hf (by decide) (by decide) (by decide) h
  · split at h
    · next h1 =>
      unfold completeLengths at h
      split at h
      · next rl d h2 h3 => exact next_inj h ▸ .complete i n add rl d hi hn h1 h2 h3
      · exact of_fail hfs hf (by decide) (by decide) (by decide) h
    · exact next_inj h ▸ .lengths i n add hi hn (by omega)

theorem of_append {i : Instr} {v : Byte} {n : Nat} (hi : (∃ len v, i = .lit len v) ∨ ∃ v, i = .byte v)
    (ha : appendsOutput i = true) (hn : n = elementBits s.pos i)
    (h : s.withRoom 1 ((s.outAppend v).commit n) = .next t) : Effect s i t := by
  rcases withRoom_next h with ⟨-, rfl⟩ | ⟨hr, rfl⟩
  · exact .hold i ha
  · exact .append i v n hi hn hr

theorem runCount_le : ∀ j < 29, runBase j + (2 ^ runExtra j - 1) ≤ 258 := by decide

theorem of_run {i : Instr} (j : Nat) {len x : Nat} (hi : runSymbol i = true)
    (hn : len + runExtra j = elementBits s.pos i) (hj : j < 29) (hx : x < 2 ^ runExtra j)
    (h : runToken j len x s = .next t) : Effect s i t := by
  have := runCount_le j hj
  exact next_inj h ▸ .run i (runBase j + x) (len + runExtra j) hi hn (by omega)

theorem of_dist {i : Instr} (k : Nat) {len x : Nat} (hi : distanceSymbol i = true)
    (ha : appendsOutput i = true) (hfs : failsSession i = true) (hf : i ≠ .finish)
    (hn : len + distExtra k = elementBits s.pos i) (hk : 1 ≤ distBase k)
    (h : distToken k len x s = .next t) : Effect s i t := by
  unfold distToken at h
  split at h
  · exact of_fail hfs hf (by decide) (by decide) (by decide) h
  · next h1 =>
    rcases withRoom_next h with ⟨-, rfl⟩ | ⟨hr, rfl⟩
    · exact .hold i ha
    · rw [Nat.add_assoc]
      exact .copy i (distBase k + x) (len + distExtra k) hi hn (by omega) (by omega) hr

theorem of_indexed {i : Instr} {pal : List Rgba} {buf : List Byte} (hi : failsSession i = false)
    (ha : appendsOutput i = false) (h : unpackIndexed pal buf s = .next t) : Effect s i t := by
  unfold unpackIndexed at h
  split at h
  · split at h <;> exact of_answer hi ha h
  · cases h

theorem of_unsupported {i : Instr} {blk : Block} (hi : failsSession i = false)
    (ha : appendsOutput i = false) (h : unpackUnsupported blk s = .next t) : Effect s i t :=
  unpackUnsupported_next h ▸ .answer i _ _ (.inl hi) ha

/-- Every next state of `exec` is one of the effects. -/
theorem exec_effect {i : Instr} (h : exec i s = .next t) : Effect s i t := by
  cases i with
  | new => exact next_inj h ▸ .renew
  | push data =>
    simp only [exec, execPush] at h
    split at h
    · cases h
    · next h0 =>
      split at h
      · cases h
      · next h1 =>
        split at h
        · cases h
        · next h2 => exact next_inj h ▸ .accept data h0 (by simpa using h1) (by simpa using h2)
  | pull n =>
    simp only [exec, execPull] at h
    split at h
    · cases h
    · next h0 =>
      split at h
      · next r hr =>
        obtain ⟨hn, rfl⟩ := outRelease_eq_some hr
        exact next_inj h ▸ .release n h0 hn
      · exact of_answer rfl rfl h
  | retained =>
    simp only [exec, execRetained] at h
    split at h
    · cases h
    · exact of_answer rfl rfl h
  | finish =>
    simp only [exec, execFinish] at h
    split at h
    · cases h
    · next h0 =>
      split at h
      · next h1 => exact next_inj h ▸ .answer _ _ _ (.inr ⟨rfl, h1⟩) rfl
      · next h1 =>
        exact next_inj h ▸ .fail _ _ _ rfl (by decide) (by decide) (fun _ => ⟨h0, h1⟩)
          fun e => absurd rfl e
  | unpack dst => exact next_inj h ▸ .unpack dst
  | premul dst c a => exact of_answer rfl rfl h
  | read addr =>
    simp only [exec, execRead] at h
    split at h
    · cases h
    · exact of_answer rfl rfl h
  | reservedOp word => cases h
  | zhdr cmf flg =>
    simp only [exec, execZhdr] at h
    split at h
    · exact of_fail rfl (by simp) (by decide) (by decide) (by decide) h
    · split at h
      · exact of_fail rfl (by simp) (by decide) (by decide) (by decide) h
      · next h1 =>
        split at h
        · exact of_fail rfl (by simp) (by decide) (by decide) (by decide) h
        · split at h
          · exact of_fail rfl (by simp) (by decide) (by decide) (by decide) h
          · exact next_inj h ▸ .header cmf flg (Nat.not_le.1 h1)
  | bhdrStored bfinal len nlen =>
    simp only [exec, execBhdrStored] at h
    split at h
    · exact of_fail rfl (by simp) (by decide) (by decide) (by decide) h
    · exact next_inj h ▸ .stored bfinal len nlen
  | bhdrFixed bfinal => exact next_inj h ▸ .fixed bfinal
  | bhdrDynamic bfinal hlit hdist hclen cl =>
    simp only [exec, execBhdrDynamic] at h
    split at h
    · exact of_fail rfl (by simp) (by decide) (by decide) (by decide) h
    · next h1 =>
      split at h
      · exact of_fail rfl (by simp) (by decide) (by decide) (by decide) h
      · next ht => exact next_inj h ▸ .dynamic bfinal hlit hdist hclen cl _ (Nat.not_lt.1 h1) ht
  | bhdrReserved bfinal => exact of_fail rfl (by simp) (by decide) (by decide) (by decide) h
  | byte v => exact of_append (.inr ⟨v, rfl⟩) rfl rfl h
  | storedEnd => exact next_inj h ▸ .endBlock (n := 0) _ (.inr rfl) rfl
  | clLit len k => exact of_appendLengths rfl rfl (by simp) rfl h
  | clExtend len x =>
    simp only [exec, execClExtend] at h
    split at h
    · exact of_fail rfl (by simp) (by decide) (by decide) (by decide) h
    · exact of_appendLengths rfl rfl (by simp) rfl h
  | clZeros3 len x => exact of_appendLengths rfl rfl (by simp) rfl h
  | clZeros7 len x => exact of_appendLengths rfl rfl (by simp) rfl h
  | lit len v => exact of_append (.inl ⟨len, v, rfl⟩) rfl rfl h
  | eob len => exact next_inj h ▸ .endBlock _ len (.inl ⟨len, rfl⟩) rfl
  | run257 len => exact of_run 0 rfl rfl (by decide) (by decide) h
  | run258 len => exact of_run 1 rfl rfl (by decide) (by decide) h
  | run259 len => exact of_run 2 rfl rfl (by decide) (by decide) h
  | run260 len => exact of_run 3 rfl rfl (by decide) (by decide) h
  | run261 len => exact of_run 4 rfl rfl (by decide) (by decide) h
  | run262 len => exact of_run 5 rfl rfl (by decide) (by decide) h
  | run263 len => exact of_run 6 rfl rfl (by decide) (by decide) h
  | run264 len => exact of_run 7 rfl rfl (by decide) (by decide) h
  | run265 len x => exact of_run 8 rfl rfl (by decide) x.isLt h
  | run266 len x => exact of_run 9 rfl rfl (by decide) x.isLt h
  | run267 len x => exact of_run 10 rfl rfl (by decide) x.isLt h
  | run268 len x => exact of_run 11 rfl rfl (by decide) x.isLt h
  | run269 len x => exact of_run 12 rfl rfl (by decide) x.isLt h
  | run270 len x => exact of_run 13 rfl rfl (by decide) x.isLt h
  | run271 len x => exact of_run 14 rfl rfl (by decide) x.isLt h
  | run272 len x => exact of_run 15 rfl rfl (by decide) x.isLt h
  | run273 len x => exact of_run 16 rfl rfl (by decide) x.isLt h
  | run274 len x => exact of_run 17 rfl rfl (by decide) x.isLt h
  | run275 len x => exact of_run 18 rfl rfl (by decide) x.isLt h
  | run276 len x => exact of_run 19 rfl rfl (by decide) x.isLt h
  | run277 len x => exact of_run 20 rfl rfl (by decide) x.isLt h
  | run278 len x => exact of_run 21 rfl rfl (by decide) x.isLt h
  | run279 len x => exact of_run 22 rfl rfl (by decide) x.isLt h
  | run280 len x => exact of_run 23 rfl rfl (by decide) x.isLt h
  | run281 len x => exact of_run 24 rfl rfl (by decide) x.isLt h
  | run282 len x => exact of_run 25 rfl rfl (by decide) x.isLt h
  | run283 len x => exact of_run 26 rfl rfl (by decide) x.isLt h
  | run284 len x => exact of_run 27 rfl rfl (by decide) x.isLt h
  | run285 len => exact of_run 28 rfl rfl (by decide) (by decide) h
  | rl286 len => exact of_fail rfl (by simp) (by decide) (by decide) (by decide) h
  | rl287 len => exact of_fail rfl (by simp) (by decide) (by decide) (by decide) h
  | dist0 len => exact of_dist 0 rfl rfl rfl (by simp) rfl (by decide) h
  | dist1 len => exact of_dist 1 rfl rfl rfl (by simp) rfl (by decide) h
  | dist2 len => exact of_dist 2 rfl rfl rfl (by simp) rfl (by decide) h
  | dist3 len => exact of_dist 3 rfl rfl rfl (by simp) rfl (by decide) h
  | dist4 len x => exact of_dist 4 rfl rfl rfl (by simp) rfl (by decide) h
  | dist5 len x => exact of_dist 5 rfl rfl rfl (by simp) rfl (by decide) h
  | dist6 len x => exact of_dist 6 rfl rfl rfl (by simp) rfl (by decide) h
  | dist7 len x => exact of_dist 7 rfl rfl rfl (by simp) rfl (by decide) h
  | dist8 len x => exact of_dist 8 rfl rfl rfl (by simp) rfl (by decide) h
  | dist9 len x => exact of_dist 9 rfl rfl rfl (by simp) rfl (by decide) h
  | dist10 len x => exact of_dist 10 rfl rfl rfl (by simp) rfl (by decide) h
  | dist11 len x => exact of_dist 11 rfl rfl rfl (by simp) rfl (by decide) h
  | dist12 len x => exact of_dist 12 rfl rfl rfl (by simp) rfl (by decide) h
  | dist13 len x => exact of_dist 13 rfl rfl rfl (by simp) rfl (by decide) h
  | dist14 len x => exact of_dist 14 rfl rfl rfl (by simp) rfl (by decide) h
  | dist15 len x => exact of_dist 15 rfl rfl rfl (by simp) rfl (by decide) h
  | dist16 len x => exact of_dist 16 rfl rfl rfl (by simp) rfl (by decide) h
  | dist17 len x => exact of_dist 17 rfl rfl rfl (by simp) rfl (by decide) h
  | dist18 len x => exact of_dist 18 rfl rfl rfl (by simp) rfl (by decide) h
  | dist19 len x => exact of_dist 19 rfl rfl rfl (by simp) rfl (by decide) h
  | dist20 len x => exact of_dist 20 rfl rfl rfl (by simp) rfl (by decide) h
  | dist21 len x => exact of_dist 21 rfl rfl rfl (by simp) rfl (by decide) h
  | dist22 len x => exact of_dist 22 rfl rfl rfl (by simp) rfl (by decide) h
  | dist23 len x => exact of_dist 23 rfl rfl rfl (by simp) rfl (by decide) h
  | dist24 len x => exact of_dist 24 rfl rfl rfl (by simp) rfl (by decide) h
  | dist25 len x => exact of_dist 25 rfl rfl rfl (by simp) rfl (by decide) h
  | dist26 len x => exact of_dist 26 rfl rfl rfl (by simp) rfl (by decide) h
  | dist27 len x => exact of_dist 27 rfl rfl rfl (by simp) rfl (by decide) h
  | dist28 len x => exact of_dist 28 rfl rfl rfl (by simp) rfl (by decide) h
  | dist29 len x => exact of_dist 29 rfl rfl rfl (by simp) rfl (by decide) h
  | d30 len => exact of_fail rfl (by simp) (by decide) (by decide) (by decide) h
  | d31 len => exact of_fail rfl (by simp) (by decide) (by decide) (by decide) h
  | adler v =>
    simp only [exec, execAdler] at h
    split at h
    · exact of_fail rfl (by simp) (by decide) (by decide) (by decide) h
    · next h1 => exact next_inj h ▸ .trailer v (Decidable.not_not.1 h1)
  | fmtIndexed1 pal buf => exact of_indexed rfl rfl h
  | fmtIndexed2 pal buf => exact of_indexed rfl rfl h
  | fmtIndexed4 pal buf => exact of_indexed rfl rfl h
  | fmtIndexed8 pal buf => exact of_indexed rfl rfl h
  | fmtV1 buf => exact of_answer rfl rfl h
  | fmtV2 buf => exact of_answer rfl rfl h
  | fmtV4 buf => exact of_answer rfl rfl h
  | fmtV8 buf => exact of_answer rfl rfl h
  | fmtV16 buf => exact of_answer rfl rfl h
  | fmtV1Key k buf => exact of_answer rfl rfl h
  | fmtV2Key k buf => exact of_answer rfl rfl h
  | fmtV4Key k buf => exact of_answer rfl rfl h
  | fmtV8Key k buf => exact of_answer rfl rfl h
  | fmtV16Key k buf => exact of_answer rfl rfl h
  | fmtVa8 buf => exact of_answer rfl rfl h
  | fmtVa16 buf => exact of_answer rfl rfl h
  | fmtRgb8 buf => exact of_answer rfl rfl h
  | fmtRgb16 buf => exact of_answer rfl rfl h
  | fmtRgb8Key kr kg kb buf => exact of_answer rfl rfl h
  | fmtRgb16Key kr kg kb buf => exact of_answer rfl rfl h
  | fmtRgba8 buf => exact of_answer rfl rfl h
  | fmtRgba16 buf => exact of_answer rfl rfl h
  | fmtUnsupported blk => exact of_unsupported rfl rfl h
  | stdIos dst blk => exact of_unsupported rfl rfl h

end Sys2Proof.Laws
end

