-- ==== Sys2Proof/Laws/Fetch.lean ====
section
/-! SUPPORT. What the element decoder and the step can do: every decoded element with the bits it needs (R150, R222), every step as a wait, the end of a PUSH, or `exec` of one instruction. -/

namespace Sys2Proof.Laws

open Sys2Proof.Machine

/-- The run/literal element of a symbol (R143). -/
def symbolInstr (sym len x : Nat) : Instr :=
  if sym < 256 then .lit len (BitVec.ofNat 8 sym)
  else if sym = 256 then .eob len
  else if sym < 286 then runInstr (sym - 257) len x
  else if sym = 286 then .rl286 len
  else .rl287 len

/-- Extra bits of a run/literal symbol (R143, R144). -/
def symbolExtra (sym : Nat) : Nat := if 257 ≤ sym ∧ sym < 286 then runExtra (sym - 257) else 0

/-- The element of a distance symbol (R145). -/
def distanceInstr (sym len x : Nat) : Instr :=
  if sym < 30 then distInstr sym len x else if sym = 30 then .d30 len else .d31 len

/-- Extra bits of a distance symbol (R145). -/
def distanceExtra (sym : Nat) : Nat := if sym < 30 then distExtra sym else 0

/-- The elements the decoder answers, each with the state that owns it and the bits that are pushed. -/
inductive Decoded (c : ElementCtx) : Instr → Prop where
  | header (cmf flg) : c.distance = false → c.tag = .streamStart → 16 ≤ avail c.input c.pos →
      Decoded c (.zhdr cmf flg)
  | stored (bf len nlen) : c.distance = false → c.tag = .blockStart →
      3 + padBits (c.pos + 3) + 32 ≤ avail c.input c.pos → Decoded c (.bhdrStored bf len nlen)
  | fixed (bf) : c.distance = false → c.tag = .blockStart → 3 ≤ avail c.input c.pos →
      Decoded c (.bhdrFixed bf)
  | reserved (bf) : c.distance = false → c.tag = .blockStart → 3 ≤ avail c.input c.pos →
      Decoded c (.bhdrReserved bf)
  | badCount (bf hlit hdist hclen) : c.distance = false → c.tag = .blockStart →
      286 < hlitValue hlit → 17 ≤ avail c.input c.pos →
      Decoded c (.bhdrDynamic bf hlit hdist hclen [])
  | dynamic (bf hlit hdist hclen cl) : c.distance = false → c.tag = .blockStart →
      hlitValue hlit ≤ 286 → cl.length = hclenValue hclen →
      17 + 3 * hclenValue hclen ≤ avail c.input c.pos →
      Decoded c (.bhdrDynamic bf hlit hdist hclen cl)
  | codeLength (e x) : c.distance = false → c.tag = .blockTables →
      c.cld.decode c.input c.pos = some e → e.sym < 19 →
      e.len + clExtraBits e.sym ≤ avail c.input c.pos → x < 2 ^ clExtraBits e.sym →
      Decoded c (clInstr e.sym e.len x)
  | symbol (e x) : c.distance = false → c.tag = .blockCompressed →
      c.rld.decode c.input c.pos = some e →
      e.len + symbolExtra e.sym ≤ avail c.input c.pos → x < 2 ^ symbolExtra e.sym →
      Decoded c (symbolInstr e.sym e.len x)
  | distance (e x) : c.distance = true → c.dd.decode c.input c.pos = some e →
      e.len + distanceExtra e.sym ≤ avail c.input c.pos → x < 2 ^ distanceExtra e.sym →
      Decoded c (distanceInstr e.sym e.len x)
  | byte (v) : c.distance = false → c.tag = .blockUncompressed → c.blockDone = false →
      8 ≤ avail c.input c.pos → Decoded c (.byte v)
  | storedEnd : c.distance = false → c.tag = .blockUncompressed → c.blockDone = true →
      Decoded c .storedEnd
  | trailer (v) : c.distance = false → c.tag = .streamChecksum →
      padBits c.pos + 32 ≤ avail c.input c.pos → Decoded c (.adler v)

variable {c : ElementCtx} {i : Instr}

theorem withSymbol_instr {t : Table} {k : Nat → Nat → Element}
    (h : withSymbol t c k = .instr i) :
    ∃ e, t.decode c.input c.pos = some e ∧ e.len ≤ avail c.input c.pos ∧ k e.sym e.len = .instr i := by
  unfold withSymbol at h
  split at h
  · cases h
  · next e he =>
    split at h
    · cases h
    · next hl => exact ⟨e, he, Nat.not_lt.1 hl, h⟩

@[simp] theorem readCl_length (input : List Byte) (p n : Nat) : (readCl input p n).length = n := by
  induction n generalizing p with
  | zero => rfl
  | succ n ih => simp [readCl, ih]

theorem decodeBlockHeader_instr (hd : c.distance = false) (ht : c.tag = .blockStart)
    (h : decodeBlockHeader c = .instr i) : Decoded c i := by
  unfold decodeBlockHeader at h
  split at h
  · cases h
  · next h3 =>
    simp only at h
    split at h
    · unfold decodeStored at h
      split at h
      · cases h
      · next hs =>
        cases h
        exact .stored _ _ _ hd ht (Nat.not_lt.1 hs)
    · cases h
      exact .fixed _ hd ht (Nat.not_lt.1 h3)
    · unfold decodeDynamic at h
      split at h
      · cases h
      · next h17 =>
        simp only at h
        split at h
        · next hh =>
          cases h
          exact .badCount _ _ _ _ hd ht hh (Nat.not_lt.1 h17)
        · next hh =>
          split at h
          · cases h
          · next hc =>
            cases h
            exact .dynamic _ _ _ _ _ hd ht (Nat.not_lt.1 hh) (readCl_length ..) (Nat.not_lt.1 hc)
    · cases h
      exact .reserved _ hd ht (Nat.not_lt.1 h3)

theorem decodeCl_instr (hd : c.distance = false) (ht : c.tag = .blockTables)
    (h : decodeCl c = .instr i) : Decoded c i := by
  obtain ⟨e, he, -, h⟩ := withSymbol_instr h
  split at h
  · cases h
  · next hs =>
    split at h
    · cases h
    · next hl =>
      cases h
      exact .codeLength e _ hd ht he (Nat.not_le.1 hs) (Nat.not_lt.1 hl) (inBits_lt _ _ _)

theorem decodeRl_instr (hd : c.distance = false) (ht : c.tag = .blockCompressed)
    (h : decodeRl c = .instr i) : Decoded c i := by
  obtain ⟨e, he, hl, h⟩ := withSymbol_instr h
  have plain : ¬(257 ≤ e.sym ∧ e.sym < 286) → symbolInstr e.sym e.len 0 = i → Decoded c i := by
    intro h2 h3
    have hx : symbolExtra e.sym = 0 := if_neg h2
    have ha : e.len + symbolExtra e.sym ≤ avail c.input c.pos := hx ▸ hl
    exact h3 ▸ .symbol e 0 hd ht he ha (Nat.two_pow_pos _)
  by_cases h1 : e.sym < 256
  · rw [if_pos h1] at h
    exact plain (by omega) ((if_pos h1).trans (Element.instr.inj h))
  rw [if_neg h1] at h
  by_cases h2 : e.sym = 256
  · rw [if_pos h2] at h
    refine plain (by omega) ?_
    rw [symbolInstr, if_neg h1, if_pos h2]
    exact Element.instr.inj h
  rw [if_neg h2] at h
  by_cases h3 : e.sym < 286
  · rw [if_pos h3] at h
    have hx : symbolExtra e.sym = runExtra (e.sym - 257) := if_pos ⟨by omega, h3⟩
    by_cases h4 : avail c.input c.pos < e.len + runExtra (e.sym - 257)
    · rw [if_pos h4] at h
      cases h
    · rw [if_neg h4] at h
      have hi : symbolInstr e.sym e.len
          (inBits c.input (c.pos + e.len) (runExtra (e.sym - 257))) = i := by
        rw [symbolInstr, if_neg h1, if_neg h2, if_pos h3]
        exact Element.instr.inj h
      have ha : e.len + symbolExtra e.sym ≤ avail c.input c.pos := hx ▸ Nat.not_lt.1 h4
      exact hi ▸ .symbol e _ hd ht he ha (hx ▸ inBits_lt _ _ _)
  rw [if_neg h3] at h
  by_cases h4 : e.sym = 286
  · rw [if_pos h4] at h
    refine plain (by omega) ?_
    rw [symbolInstr, if_neg h1, if_neg h2, if_neg h3, if_pos h4]
    exact Element.instr.inj h
  rw [if_neg h4] at h
  refine plain (by omega) ?_
  rw [symbolInstr, if_neg h1, if_neg h2, if_neg h3, if_neg h4]
  exact Element.instr.inj h

theorem decodeDist_instr (hd : c.distance = true) (h : decodeDist c = .instr i) : Decoded c i := by
  obtain ⟨e, he, hl, h⟩ := withSymbol_instr h
  have plain : ¬e.sym < 30 → distanceInstr e.sym e.len 0 = i → Decoded c i := by
    intro h1 h3
    have hx : distanceExtra e.sym = 0 := if_neg h1
    have ha : e.len + distanceExtra e.sym ≤ avail c.input c.pos := hx ▸ hl
    exact h3 ▸ .distance e 0 hd he ha (Nat.two_pow_pos _)
  by_cases h1 : e.sym < 30
  · rw [if_pos h1] at h
    have hx : distanceExtra e.sym = distExtra e.sym := if_pos h1
    by_cases h2 : avail c.input c.pos < e.len + distExtra e.sym
    · rw [if_pos h2] at h
      cases h
    · rw [if_neg h2] at h
      have hi : distanceInstr e.sym e.len
          (inBits c.input (c.pos + e.len) (distExtra e.sym)) = i :=
        (if_pos h1).trans (Element.instr.inj h)
      have ha : e.len + distanceExtra e.sym ≤ avail c.input c.pos := hx ▸ Nat.not_lt.1 h2
      exact hi ▸ .distance e _ hd he ha (hx ▸ inBits_lt _ _ _)
  rw [if_neg h1] at h
  by_cases h2 : e.sym = 30
  · rw [if_pos h2] at h
    refine plain h1 ?_
    rw [distanceInstr, if_neg h1, if_pos h2]
    exact Element.instr.inj h
  rw [if_neg h2] at h
  refine plain h1 ?_
  rw [distanceInstr, if_neg h1, if_neg h2]
  exact Element.instr.inj h

/-- What the decoder answers, by the state and the bits it needs (R150, R222). -/
theorem decodeElement_instr (h : decodeElement c = .instr i) : Decoded c i := by
  unfold decodeElement at h
  split at h
  · next hd => exact decodeDist_instr hd h
  · next hd =>
    have hd : c.distance = false := by simpa using hd
    split at h
    · next ht =>
      unfold decodeHeader at h
      split at h
      · cases h
      · next ha =>
        cases h
        exact .header _ _ hd ht (Nat.not_lt.1 ha)
    · next ht => exact decodeBlockHeader_instr hd ht h
    · next ht => exact decodeCl_instr hd ht h
    · next ht =>
      unfold decodeStoredByte at h
      split at h
      · next hb =>
        cases h
        exact .storedEnd hd ht hb
      · next hb =>
        split at h
        · cases h
        · next ha =>
          cases h
          exact .byte _ hd ht (by simpa using hb) (Nat.not_lt.1 ha)
    · next ht => exact decodeRl_instr hd ht h
    · next ht =>
      unfold decodeTrailer at h
      split at h
      · cases h
      · next ha =>
        cases h
        exact .trailer _ hd ht (Nat.not_lt.1 ha)
    · cases h
    · cases h

/-! ### Kinds and lengths of the decoded symbols -/

theorem clInstr_facts {sym len x : Nat} (p : Nat) :
    codeLengthSymbol (clInstr sym len x) = true ∧
      elementBits p (clInstr sym len x) = len + clExtraBits sym := by
  unfold clInstr clExtraBits
  split
  · exact ⟨rfl, rfl⟩
  · split
    · exact ⟨rfl, rfl⟩
    · split <;> exact ⟨rfl, rfl⟩

theorem runInstr_facts {j len x : Nat} (h : j < 29) (p : Nat) :
    runSymbol (runInstr j len x) = true ∧
      elementBits p (runInstr j len x) = len + runExtra j := by
  have : j ∈ List.range 29 := List.mem_range.2 h
  simp only [List.range_succ, List.range_zero, List.nil_append, List.cons_append, List.mem_cons,
    List.not_mem_nil, or_false] at this
  rcases this with h|h|h|h|h|h|h|h|h|h|h|h|h|h|h|h|h|h|h|h|h|h|h|h|h|h|h|h|h <;> subst h <;> exact ⟨rfl, rfl⟩

theorem distInstr_facts {k len x : Nat} (h : k < 30) (p : Nat) :
    distanceSymbol (distInstr k len x) = true ∧
      elementBits p (distInstr k len x) = len + distExtra k := by
  have : k ∈ List.range 30 := List.mem_range.2 h
  simp only [List.range_succ, List.range_zero, List.nil_append, List.cons_append, List.mem_cons,
    List.not_mem_nil, or_false] at this
  rcases this with h|h|h|h|h|h|h|h|h|h|h|h|h|h|h|h|h|h|h|h|h|h|h|h|h|h|h|h|h|h <;> subst h <;> exact ⟨rfl, rfl⟩

theorem symbolInstr_bits {sym len x : Nat} (p : Nat) :
    elementBits p (symbolInstr sym len x) = len + symbolExtra sym := by
  unfold symbolInstr symbolExtra
  split
  · rw [if_neg (by omega)]; rfl
  · split
    · rw [if_neg (by omega)]; rfl
    · split
      · rw [if_pos (by omega)]; exact (runInstr_facts (by omega) p).2
      · split <;> (rw [if_neg (by omega)]; rfl)

theorem distanceInstr_bits {sym len x : Nat} (p : Nat) :
    elementBits p (distanceInstr sym len x) = len + distanceExtra sym := by
  unfold distanceInstr distanceExtra
  split
  · next h => exact (distInstr_facts h p).2
  · split <;> rfl

/-- A decoded element's bits are all pushed (R104, R150). -/
theorem Decoded.bits (h : Decoded c i) : elementBits c.pos i ≤ avail c.input c.pos := by
  cases h with
  | badCount bf hlit hdist hclen hd ht hh ha => simpa [elementBits, hh] using ha
  | dynamic bf hlit hdist hclen cl hd ht hh hl ha => simpa [elementBits, Nat.not_lt.2 hh] using ha
  | codeLength e x hd ht he hs ha => exact (clInstr_facts c.pos).2 ▸ ha
  | symbol e x hd ht he ha => exact symbolInstr_bits c.pos ▸ ha
  | distance e x hd he ha => exact distanceInstr_bits c.pos ▸ ha
  | storedEnd => exact Nat.zero_le _
  | _ => assumption

/-- The bits of an element counted from the token's start: a distance symbol has no padding (R150, R353). -/
theorem Decoded.bits_at (h : Decoded c i) {p : Nat} (hp : c.distance = false → p = c.pos) :
    elementBits p i ≤ avail c.input c.pos := by
  cases hc : c.distance with
  | false => exact hp hc ▸ h.bits
  | true =>
    cases h with
    | distance e x hd he ha => exact distanceInstr_bits p ▸ ha
    | header _ _ hd | fixed _ hd | reserved _ hd | stored _ _ _ hd | badCount _ _ _ _ hd
    | dynamic _ _ _ _ _ hd | codeLength _ _ hd | symbol _ _ hd | byte _ hd | storedEnd hd
    | trailer _ hd => exact absurd (hc.symm.trans hd) (by decide)

/-! ### The step -/

/-- What a step can do (R222, R223). -/
inductive StepCase (s : State) : State → Prop where
  | wait : StepCase s s
  | needMore : s.activity = .inflating ∨ s.activity = .distance →
      decodeElement s.elementCtx = .needMore → StepCase s (s.respond statusNeedsMore [])
  | done : s.activity = .inflating ∨ s.activity = .distance →
      decodeElement s.elementCtx = .done → StepCase s (s.respond statusDone [])
  | command (i rest t) : s.activity = .idle → decodeCommand s.port = some (i, rest) →
      exec i { s with port := rest } = .next t → StepCase s t
  | format (i rest t) : s.activity = .unpacking → decodeFormat s.port = some (i, rest) →
      exec i { s with port := rest } = .next t → StepCase s t
  | element (i t) : s.activity = .inflating ∨ s.activity = .distance →
      decodeElement s.elementCtx = .instr i → exec i s = .next t → StepCase s t

theorem fetchElement_cases {s : State} (ha : s.activity = .inflating ∨ s.activity = .distance)
    {t : State} (h : (match s.fetchElement with
      | .run i u => exec i u
      | .wait => .next s
      | .endPush w => .next (s.respond w [])
      | .stop f => .fault f) = .next t) : StepCase s t := by
  unfold State.fetchElement at h
  cases hd : decodeElement s.elementCtx with
  | instr i => simp only [hd] at h; exact .element i t ha hd h
  | needMore => simp only [hd] at h; cases h; exact .needMore ha hd
  | done => simp only [hd] at h; cases h; exact .done ha hd
  | stop r => simp only [hd] at h; cases h

/-- Every step that answers a next state, by what it did. -/
theorem step_case {s t : State} (h : step s = .next t) : StepCase s t := by
  unfold step State.fetch at h
  cases ha : s.activity with
  | idle =>
    simp only [ha] at h
    cases hc : decodeCommand s.port with
    | none => simp only [State.takePort, hc] at h; cases h; exact .wait
    | some r => simp only [State.takePort, hc] at h; exact .command r.1 r.2 t ha hc h
  | unpacking =>
    simp only [ha] at h
    cases hc : decodeFormat s.port with
    | none => simp only [State.takePort, hc] at h; cases h; exact .wait
    | some r => simp only [State.takePort, hc] at h; exact .format r.1 r.2 t ha hc h
  | inflating => simp only [ha] at h; exact fetchElement_cases (.inl ha) h
  | distance => simp only [ha] at h; exact fetchElement_cases (.inr ha) h

/-! ### Which space an instruction is of -/

/-- The classes of elements are elements: no command and no format. -/
theorem class_element {i : Instr} (h : codeLengthSymbol i = true ∨ runSymbol i = true ∨
    distanceSymbol i = true ∨ appendsOutput i = true) : commandBytes i = 0 ∧ blockOf i = none := by
  cases i <;> first | exact ⟨rfl, rfl⟩ | (rcases h with h | h | h | h <;> cases h)

theorem decodeOperands_command {w : Word} {r : List Byte} {i : Instr} {rest : List Byte}
    (h : decodeOperands w r = some (i, rest)) : commandBytes i ≠ 0 := by
  unfold decodeOperands at h
  split at h
  · cases h; simp [commandBytes]
  · obtain ⟨d, -, h⟩ := Option.map_eq_some_iff.1 h
    cases h
    simp [commandBytes]
  · cases h; simp [commandBytes]
  · cases h; simp [commandBytes]
  · cases h; simp [commandBytes]
  · split at h
    · obtain ⟨d, -, h⟩ := Option.map_eq_some_iff.1 h
      cases h
      simp [commandBytes]
    · cases h
      simp [commandBytes]
  · obtain ⟨c, -, h⟩ := Option.bind_eq_some_iff.1 h
    obtain ⟨d, -, h⟩ := Option.map_eq_some_iff.1 h
    cases h
    simp [commandBytes]
  · cases h; simp [commandBytes]
  · cases h; simp [commandBytes]

/-- What the port decodes to is a command (R130). -/
theorem decodeCommand_command {bytes rest : List Byte} {i : Instr}
    (h : decodeCommand bytes = some (i, rest)) : commandBytes i ≠ 0 := by
  obtain ⟨w, -, h⟩ := Option.bind_eq_some_iff.1 h
  split at h
  · cases h; simp [commandBytes]
  · exact decodeOperands_command h

theorem formatInstr_format (b : Block) : blockOf (formatInstr b) ≠ none := by
  unfold formatInstr
  split <;> exact Option.some_ne_none _

/-- What an operand block decodes to is a format (R132). -/
theorem decodeFormat_format {bytes rest : List Byte} {i : Instr}
    (h : decodeFormat bytes = some (i, rest)) : blockOf i ≠ none := by
  obtain ⟨b, -, h⟩ := Option.map_eq_some_iff.1 h
  cases h
  exact formatInstr_format _

/-- The effects of the commands (R221 to R232). -/
inductive CommandEffect (s : State) : Instr → State → Prop where
  | renew : CommandEffect s .new s.renew
  | accept (data) : s.st ≠ .failed → CommandEffect s (.push data) { s.rebase data with activity := .inflating }
  | release (n : BitVec 24) : s.st ≠ .failed → n.toNat ≤ s.out.length - s.currentIndex →
      CommandEffect s (.pull n) (({ s with
        currentIndex := s.currentIndex + n.toNat
        startIndex := s.releaseStart (s.currentIndex + n.toNat) } : State).respond statusSome
          ((s.out.drop s.currentIndex).take n.toNat))
  | answer (i w bytes) : CommandEffect s i (s.respond w bytes)
  | fail (k a) : s.st ≠ .failed → s.st ≠ .streamEnd → k ≠ .unsupported →
      k ≠ .paletteIndexOutOfRange → CommandEffect s .finish (s.raise k a)
  | unpack (w) : CommandEffect s (.unpack w) { s with activity := .unpacking, dst := w }

theorem failsSession_command {i : Instr} (h : commandBytes i ≠ 0) (hf : failsSession i = true) :
    i = .finish := by
  cases i <;> first | rfl | exact absurd rfl h | cases hf

/-- What a command can do. -/
theorem Effect.command {s t : State} {i : Instr} (h : Effect s i t) (hc : commandBytes i ≠ 0) :
    CommandEffect s i t := by
  cases h with
  | renew => exact .renew
  | accept data h0 => exact .accept data h0
  | release n h0 h1 => exact .release n h0 h1
  | answer _ w bytes => exact .answer i w bytes
  | fail _ k a hf h1 h2 h3 =>
    obtain rfl := failsSession_command hc hf
    exact .fail k a (h3 rfl).1 (h3 rfl).2 h1 h2
  | unpack w => exact .unpack w
  | lengths _ n add h1 => exact absurd (class_element (.inl h1)).1 hc
  | complete _ n add rl d h1 => exact absurd (class_element (.inl h1)).1 hc
  | run _ count n h1 => exact absurd (class_element (.inr (.inl h1))).1 hc
  | copy _ offset n h1 => exact absurd (class_element (.inr (.inr (.inl h1)))).1 hc
  | hold _ h1 => exact absurd (class_element (.inr (.inr (.inr h1)))).1 hc
  | append _ v n h1 => rcases h1 with ⟨_, _, rfl⟩ | ⟨_, rfl⟩ <;> exact absurd rfl hc
  | endBlock _ n h1 => rcases h1 with ⟨_, rfl⟩ | rfl <;> exact absurd rfl hc
  | _ => exact absurd rfl hc

theorem failsSession_format {i : Instr} (h : blockOf i ≠ none) : failsSession i = false := by
  cases i <;> first | rfl | exact absurd rfl h

/-- A format answers (R400). -/
theorem Effect.format {s t : State} {i : Instr} (h : Effect s i t) (hb : blockOf i ≠ none) :
    ∃ w bytes, t = s.respond w bytes := by
  cases h with
  | answer _ w bytes => exact ⟨w, bytes, rfl⟩
  | fail _ k a hf => exact absurd hf (by simp [failsSession_format hb])
  | lengths _ n add h1 => exact absurd (class_element (.inl h1)).2 hb
  | complete _ n add rl d h1 => exact absurd (class_element (.inl h1)).2 hb
  | run _ count n h1 => exact absurd (class_element (.inr (.inl h1))).2 hb
  | copy _ offset n h1 => exact absurd (class_element (.inr (.inr (.inl h1)))).2 hb
  | hold _ h1 => exact absurd (class_element (.inr (.inr (.inr h1)))).2 hb
  | append _ v n h1 => rcases h1 with ⟨_, _, rfl⟩ | ⟨_, rfl⟩ <;> exact absurd rfl hb
  | endBlock _ n h1 => rcases h1 with ⟨_, rfl⟩ | rfl <;> exact absurd rfl hb
  | _ => exact absurd rfl hb

theorem clInstr_class {sym len x : Nat} : codeLengthSymbol (clInstr sym len x) = true :=
  (clInstr_facts 0).1

/-- What the decoder answers is an element. -/
theorem Decoded.element {c : ElementCtx} {i : Instr} (h : Decoded c i) :
    commandBytes i = 0 ∧ blockOf i = none := by
  cases h with
  | codeLength => exact class_element (.inl clInstr_class)
  | symbol e x =>
    unfold symbolInstr
    split
    · exact ⟨rfl, rfl⟩
    · split
      · exact ⟨rfl, rfl⟩
      · split
        · exact class_element (.inr (.inl (runInstr_facts (by omega) 0).1))
        · split <;> exact ⟨rfl, rfl⟩
  | distance e x =>
    unfold distanceInstr
    split
    · next h => exact class_element (.inr (.inr (.inl (distInstr_facts h 0).1)))
    · split <;> exact ⟨rfl, rfl⟩
  | _ => exact ⟨rfl, rfl⟩

/-- The state that owns an element (R222); `streamEnd`, which owns none, for the other spaces. -/
def elementTag : Instr → StTag
  | .zhdr _ _ => .streamStart
  | .bhdrStored _ _ _ | .bhdrFixed _ | .bhdrDynamic _ _ _ _ _ | .bhdrReserved _ => .blockStart
  | .clLit _ _ | .clExtend _ _ | .clZeros3 _ _ | .clZeros7 _ _ => .blockTables
  | .byte _ | .storedEnd => .blockUncompressed
  | .lit _ _ | .eob _ | .run257 _ | .run258 _ | .run259 _ | .run260 _ | .run261 _
  | .run262 _ | .run263 _ | .run264 _ | .run265 _ _ | .run266 _ _ | .run267 _ _
  | .run268 _ _ | .run269 _ _ | .run270 _ _ | .run271 _ _ | .run272 _ _ | .run273 _ _
  | .run274 _ _ | .run275 _ _ | .run276 _ _ | .run277 _ _ | .run278 _ _ | .run279 _ _
  | .run280 _ _ | .run281 _ _ | .run282 _ _ | .run283 _ _ | .run284 _ _ | .run285 _
  | .rl286 _ | .rl287 _ | .dist0 _ | .dist1 _ | .dist2 _ | .dist3 _ | .dist4 _ _
  | .dist5 _ _ | .dist6 _ _ | .dist7 _ _ | .dist8 _ _ | .dist9 _ _ | .dist10 _ _
  | .dist11 _ _ | .dist12 _ _ | .dist13 _ _ | .dist14 _ _ | .dist15 _ _ | .dist16 _ _
  | .dist17 _ _ | .dist18 _ _ | .dist19 _ _ | .dist20 _ _ | .dist21 _ _ | .dist22 _ _
  | .dist23 _ _ | .dist24 _ _ | .dist25 _ _ | .dist26 _ _ | .dist27 _ _ | .dist28 _ _
  | .dist29 _ _ | .d30 _ | .d31 _ => .blockCompressed
  | .adler _ => .streamChecksum
  | .new | .push _ | .pull _ | .retained | .finish | .unpack _ | .premul _ _ _
  | .read _ | .reservedOp _ | .fmtIndexed1 _ _ | .fmtIndexed2 _ _ | .fmtIndexed4 _ _
  | .fmtIndexed8 _ _ | .fmtV1 _ | .fmtV2 _ | .fmtV4 _ | .fmtV8 _ | .fmtV16 _
  | .fmtV1Key _ _ | .fmtV2Key _ _ | .fmtV4Key _ _ | .fmtV8Key _ _ | .fmtV16Key _ _
  | .fmtVa8 _ | .fmtVa16 _ | .fmtRgb8 _ | .fmtRgb16 _ | .fmtRgb8Key _ _ _ _
  | .fmtRgb16Key _ _ _ _ | .fmtRgba8 _ | .fmtRgba16 _ | .fmtUnsupported _ | .stdIos _ _ => .streamEnd

theorem elementTag_cl {i : Instr} (h : codeLengthSymbol i = true) : elementTag i = .blockTables := by
  cases i <;> first | rfl | cases h

theorem elementTag_run {i : Instr} (h : runSymbol i = true) : elementTag i = .blockCompressed := by
  cases i <;> first | rfl | cases h

theorem elementTag_dist {i : Instr} (h : distanceSymbol i = true) :
    elementTag i = .blockCompressed := by
  cases i <;> first | rfl | cases h

/-- A decoded element is owned by the current state (R222). -/
theorem Decoded.tag {c : ElementCtx} {i : Instr} (h : Decoded c i)
    (hc : c.distance = true → c.tag = .blockCompressed) : elementTag i = c.tag := by
  cases h with
  | header cmf flg hd ht | fixed bf hd ht | reserved bf hd ht | trailer v hd ht | byte v hd ht => exact ht.symm
  | stored bf len nlen hd ht => exact ht.symm
  | badCount bf hlit hdist hclen hd ht => exact ht.symm
  | dynamic bf hlit hdist hclen cl hd ht => exact ht.symm
  | storedEnd hd ht => exact ht.symm
  | codeLength e x hd ht => exact (elementTag_cl clInstr_class).trans ht.symm
  | symbol e x hd ht =>
    rw [ht]
    unfold symbolInstr
    split
    · rfl
    · split
      · rfl
      · split
        · exact elementTag_run (runInstr_facts (by omega) 0).1
        · split <;> rfl
  | distance e x hd =>
    rw [hc hd]
    unfold distanceInstr
    split
    · next h => exact elementTag_dist (distInstr_facts h 0).1
    · split <;> rfl

theorem run_not_distance {i : Instr} (h : runSymbol i = true) : distanceSymbol i = false := by
  cases i <;> first | rfl | cases h

/-- A distance symbol is decoded in the distance half of a token only (R353). -/
theorem Decoded.half {c : ElementCtx} {i : Instr} (h : Decoded c i) (hi : distanceSymbol i = true) :
    c.distance = true := by
  cases h with
  | codeLength e x =>
    exact absurd ((elementTag_cl clInstr_class).symm.trans (elementTag_dist hi)) (by decide)
  | symbol e x =>
    exfalso
    unfold symbolInstr at hi
    split at hi
    · cases hi
    · split at hi
      · cases hi
      · split at hi
        · exact Bool.false_ne_true ((run_not_distance (runInstr_facts (by omega) 0).1).symm.trans hi)
        · split at hi <;> cases hi
  | distance e x hd => exact hd
  | _ => cases hi

/-- The distance half decodes a distance symbol (R353, R356). -/
theorem Decoded.distance_half {c : ElementCtx} {i : Instr} (h : Decoded c i)
    (hc : c.distance = true) : distanceSymbol i = true ∨ ∃ len, i = .d30 len ∨ i = .d31 len := by
  cases h with
  | distance e x hd he ha =>
    unfold distanceInstr
    split
    · next h => exact .inl (distInstr_facts h 0).1
    · split
      · exact .inr ⟨_, .inl rfl⟩
      · exact .inr ⟨_, .inr rfl⟩
  | header _ _ hd | fixed _ hd | reserved _ hd | stored _ _ _ hd | badCount _ _ _ _ hd
  | dynamic _ _ _ _ _ hd | codeLength _ _ hd | symbol _ _ hd | byte _ hd | storedEnd hd
  | trailer _ hd => exact absurd (hc.symm.trans hd) (by decide)

/-- A byte is decoded before the end of its block only (R358). -/
theorem Decoded.byte_undone {c : ElementCtx} {v : Byte} (h : Decoded c (.byte v))
    (ht : c.tag = .blockUncompressed) (hc : c.distance = false) : c.blockDone = false := by
  generalize hi : Instr.byte v = i at h
  cases h with
  | byte v' hd ht' hb => exact hb
  | storedEnd => cases hi
  | distance e x hd => exact absurd (hc.symm.trans hd) (by decide)
  | header _ _ _ h' | fixed _ _ h' | reserved _ _ h' | stored _ _ _ _ h' | badCount _ _ _ _ _ h'
  | dynamic _ _ _ _ _ _ h' | codeLength _ _ _ h' | symbol _ _ _ h' 
  | trailer _ _ h' => exact absurd (ht.symm.trans h') (by decide)

/-- Everything the step can do, with the kind of the instruction it ran. -/
inductive StepEffect (s : State) : State → Prop where
  | wait : StepEffect s s
  | needMore : s.activity = .inflating ∨ s.activity = .distance →
      decodeElement s.elementCtx = .needMore → StepEffect s (s.respond statusNeedsMore [])
  | done : s.activity = .inflating ∨ s.activity = .distance →
      decodeElement s.elementCtx = .done → StepEffect s (s.respond statusDone [])
  | command (i rest t) : s.activity = .idle → decodeCommand s.port = some (i, rest) →
      CommandEffect { s with port := rest } i t → StepEffect s t
  | format (i rest w bytes) : s.activity = .unpacking → decodeFormat s.port = some (i, rest) →
      StepEffect s (({ s with port := rest } : State).respond w bytes)
  | element (i t) : s.activity = .inflating ∨ s.activity = .distance →
      Decoded s.elementCtx i → Effect s i t → StepEffect s t

/-- The inversion of the step. -/
theorem step_effect {s t : State} (h : step s = .next t) : StepEffect s t := by
  cases step_case h with
  | wait => exact .wait
  | needMore ha hd => exact .needMore ha hd
  | done ha hd => exact .done ha hd
  | command i rest t ha hd he =>
    exact .command i rest t ha hd ((exec_effect he).command (decodeCommand_command hd))
  | format i rest t ha hd he =>
    obtain ⟨w, b, rfl⟩ := (exec_effect he).format (decodeFormat_format hd)
    exact .format i rest w b ha hd
  | element i t ha hd he => exact .element i t ha (decodeElement_instr hd) (exec_effect he)

end Sys2Proof.Laws
end

