-- ==== Sys2Proof/Laws/PerInstr.lean ====
section
/-! SUPPORT. Statements made for every instruction: the length of its encoding (R150, R130, R133). -/

namespace Sys2Proof.Laws.ElementLength

open Sys2Proof Sys2Proof.Machine Sys2Proof.Laws

/-- A well-formed element has the bits R150 counts; a well-formed command has the port bytes of R130 and
R133. -/
def Statement (i : Instr) : Prop :=
  i.wf = true →
    (∀ c bits, encodeElement c i = some bits → bits.length = elementBits c.pos i) ∧
      (∀ b, encodeCommand i = some b → b.length = commandBytes i)

theorem codeBits_length (t : Table) (sym len : Nat) (h : len ≤ 15) :
    (t.codeBits sym len).length = len := by
  rw [Table.codeBits, List.length_take, natBits_length]
  omega

theorem codeLen_le {len : Nat} (h : codeLenOk len = true) : len ≤ 15 := by
  simp only [codeLenOk, Bool.and_eq_true, decide_eq_true_eq] at h
  exact h.2

theorem clLen_le {len : Nat} (h : clLenOk len = true) : len ≤ 15 := by
  simp only [clLenOk, Bool.and_eq_true, decide_eq_true_eq] at h
  omega

/-- An element of the stream is no command. -/
theorem of_element {i : Instr} (hc : encodeCommand i = none)
    (h : i.wf = true → ∀ c bits, encodeElement c i = some bits →
      bits.length = elementBits c.pos i) : Statement i :=
  fun hw => ⟨h hw, fun b hb => by rw [hc] at hb; cases hb⟩

/-- A command is no element of the stream. -/
theorem of_command {i : Instr} (he : ∀ c, encodeElement c i = none)
    (h : i.wf = true → ∀ b, encodeCommand i = some b → b.length = commandBytes i) : Statement i :=
  fun hw => ⟨fun c bits hb => (by rw [he c] at hb; cases hb), h hw⟩

/-- An instruction of the operand block space is neither. -/
theorem of_format {i : Instr} (he : ∀ c, encodeElement c i = none) (hc : encodeCommand i = none) :
    Statement i :=
  of_command he fun _ b hb => by rw [hc] at hb; cases hb

/-- A code of `len` bits with `e` extra bits. -/
theorem of_code {i : Instr} {len e : Nat} (table : ElementCtx → Table) (sym x : Nat)
    (hc : encodeCommand i = none) (hl : i.wf = true → len ≤ 15)
    (he : ∀ c, encodeElement c i = some ((table c).codeBits sym len ++ natBits e x))
    (hb : ∀ p, elementBits p i = len + e) : Statement i :=
  of_element hc fun hw c bits h => by
    rw [he c] at h
    rw [← Option.some.inj h, List.length_append, codeBits_length _ _ _ (hl hw), natBits_length, hb]

/-- An element with these bits. -/
theorem of_bits {i : Instr} (f : ElementCtx → List Bool) (hc : encodeCommand i = none)
    (he : ∀ c, encodeElement c i = some (f c))
    (hl : i.wf = true → ∀ c, (f c).length = elementBits c.pos i) : Statement i :=
  of_element hc fun hw c bits h => by
    rw [he c] at h
    rw [← Option.some.inj h, hl hw]

/-- A command with these bytes. -/
theorem of_bytes {i : Instr} (f : List Byte) (he : ∀ c, encodeElement c i = none)
    (hc : encodeCommand i = some f) (hl : i.wf = true → f.length = commandBytes i) : Statement i :=
  of_command he fun hw b h => by
    rw [hc] at h
    rw [← Option.some.inj h, hl hw]

/-- A bare code of `len` bits. -/
theorem of_bare {i : Instr} {len : Nat} (table : ElementCtx → Table) (sym : Nat)
    (hc : encodeCommand i = none) (hl : i.wf = true → len ≤ 15)
    (he : ∀ c, encodeElement c i = some ((table c).codeBits sym len))
    (hb : ∀ p, elementBits p i = len) : Statement i :=
  of_element hc fun hw c bits h => by
    rw [he c] at h
    rw [← Option.some.inj h, codeBits_length _ _ _ (hl hw), hb]

theorem new : Statement .new :=
  of_bytes _ (fun _ => rfl) rfl fun _ => by
    simp [commandWord, commandBytes]

theorem push (data : List Byte) : Statement (.push data) :=
  of_bytes _ (fun _ => rfl) rfl fun _ => by
    simp [commandWord, commandBytes]

theorem pull (n : BitVec 24) : Statement (.pull n) :=
  of_bytes _ (fun _ => rfl) rfl fun _ => by
    simp [commandWord, commandBytes]

theorem retained : Statement .retained :=
  of_bytes _ (fun _ => rfl) rfl fun _ => by
    simp [commandWord, commandBytes]

theorem finish : Statement .finish :=
  of_bytes _ (fun _ => rfl) rfl fun _ => by
    simp [commandWord, commandBytes]

theorem unpack (dst : Width) : Statement (.unpack dst) :=
  of_bytes _ (fun _ => rfl) rfl fun _ => by
    simp [commandWord, commandBytes]

theorem premul (dst : Width) (c a : BitVec 64) : Statement (.premul dst c a) :=
  of_bytes _ (fun _ => rfl) rfl fun _ => by
    simp [commandWord, commandBytes]
    omega

theorem read (addr : Byte) : Statement (.read addr) :=
  of_bytes _ (fun _ => rfl) rfl fun _ => by
    simp [commandWord, commandBytes]

theorem reservedOp (word : Word) : Statement (.reservedOp word) :=
  of_bytes _ (fun _ => rfl) rfl fun _ => by
    simp [commandBytes]

theorem zhdr (cmf flg : Byte) : Statement (.zhdr cmf flg) :=
  of_bits _ rfl (fun _ => rfl) fun _ c => by
    simp [elementBits]

theorem bhdrStored (bfinal : Bool) (len nlen : Half) : Statement (.bhdrStored bfinal len nlen) :=
  of_bits _ rfl (fun _ => rfl) fun _ c => by
    simp [elementBits]
    omega

theorem bhdrFixed (bfinal : Bool) : Statement (.bhdrFixed bfinal) :=
  of_bits _ rfl (fun _ => rfl) fun _ c => by
    simp [elementBits]

theorem bhdrDynamic (bfinal : Bool) (hlit hdist : BitVec 5) (hclen : BitVec 4) (cl : List (BitVec 3)) :
    Statement (.bhdrDynamic bfinal hlit hdist hclen cl) :=
  of_bits _ rfl (fun _ => rfl) fun hw c => by
    have hl : cl.length = if 286 < hlitValue hlit then 0 else hclenValue hclen := by
      simpa [Instr.wf] using hw
    simp only [List.length_append, List.length_cons, natBits_length,
      List.length_flatMap, List.map_const', List.sum_replicate, smul_eq_mul, elementBits]
    rw [hl]
    split <;> omega

theorem bhdrReserved (bfinal : Bool) : Statement (.bhdrReserved bfinal) :=
  of_bits _ rfl (fun _ => rfl) fun _ c => by
    simp [elementBits]

theorem byte (v : Byte) : Statement (.byte v) :=
  of_bits _ rfl (fun _ => rfl) fun _ c => by
    simp [elementBits]

theorem storedEnd : Statement .storedEnd :=
  of_bits _ rfl (fun _ => rfl) fun _ c => by
    simp [elementBits]

theorem clLit (len : Nat) (k : BitVec 4) : Statement (.clLit len k) :=
  of_bare ElementCtx.cld k.toNat rfl clLen_le (fun _ => rfl) fun _ => rfl

theorem clExtend (len : Nat) (x : BitVec 2) : Statement (.clExtend len x) :=
  of_code ElementCtx.cld 16 x.toNat rfl clLen_le (fun _ => rfl) fun _ => rfl

theorem clZeros3 (len : Nat) (x : BitVec 3) : Statement (.clZeros3 len x) :=
  of_code ElementCtx.cld 17 x.toNat rfl clLen_le (fun _ => rfl) fun _ => rfl

theorem clZeros7 (len : Nat) (x : BitVec 7) : Statement (.clZeros7 len x) :=
  of_code ElementCtx.cld 18 x.toNat rfl clLen_le (fun _ => rfl) fun _ => rfl

theorem lit (len : Nat) (v : Byte) : Statement (.lit len v) :=
  of_bare ElementCtx.rld v.toNat rfl codeLen_le (fun _ => rfl) fun _ => rfl

theorem eob (len : Nat) : Statement (.eob len) :=
  of_bare ElementCtx.rld 256 rfl codeLen_le (fun _ => rfl) fun _ => rfl

theorem run257 (len : Nat) : Statement (.run257 len) :=
  of_bare ElementCtx.rld 257 rfl codeLen_le (fun _ => rfl) fun _ => rfl

theorem run258 (len : Nat) : Statement (.run258 len) :=
  of_bare ElementCtx.rld 258 rfl codeLen_le (fun _ => rfl) fun _ => rfl

theorem run259 (len : Nat) : Statement (.run259 len) :=
  of_bare ElementCtx.rld 259 rfl codeLen_le (fun _ => rfl) fun _ => rfl

theorem run260 (len : Nat) : Statement (.run260 len) :=
  of_bare ElementCtx.rld 260 rfl codeLen_le (fun _ => rfl) fun _ => rfl

theorem run261 (len : Nat) : Statement (.run261 len) :=
  of_bare ElementCtx.rld 261 rfl codeLen_le (fun _ => rfl) fun _ => rfl

theorem run262 (len : Nat) : Statement (.run262 len) :=
  of_bare ElementCtx.rld 262 rfl codeLen_le (fun _ => rfl) fun _ => rfl

theorem run263 (len : Nat) : Statement (.run263 len) :=
  of_bare ElementCtx.rld 263 rfl codeLen_le (fun _ => rfl) fun _ => rfl

theorem run264 (len : Nat) : Statement (.run264 len) :=
  of_bare ElementCtx.rld 264 rfl codeLen_le (fun _ => rfl) fun _ => rfl

theorem run265 (len : Nat) (x : BitVec 1) : Statement (.run265 len x) :=
  of_code ElementCtx.rld 265 x.toNat rfl codeLen_le (fun _ => rfl) fun _ => rfl

theorem run266 (len : Nat) (x : BitVec 1) : Statement (.run266 len x) :=
  of_code ElementCtx.rld 266 x.toNat rfl codeLen_le (fun _ => rfl) fun _ => rfl

theorem run267 (len : Nat) (x : BitVec 1) : Statement (.run267 len x) :=
  of_code ElementCtx.rld 267 x.toNat rfl codeLen_le (fun _ => rfl) fun _ => rfl

theorem run268 (len : Nat) (x : BitVec 1) : Statement (.run268 len x) :=
  of_code ElementCtx.rld 268 x.toNat rfl codeLen_le (fun _ => rfl) fun _ => rfl

theorem run269 (len : Nat) (x : BitVec 2) : Statement (.run269 len x) :=
  of_code ElementCtx.rld 269 x.toNat rfl codeLen_le (fun _ => rfl) fun _ => rfl

theorem run270 (len : Nat) (x : BitVec 2) : Statement (.run270 len x) :=
  of_code ElementCtx.rld 270 x.toNat rfl codeLen_le (fun _ => rfl) fun _ => rfl

theorem run271 (len : Nat) (x : BitVec 2) : Statement (.run271 len x) :=
  of_code ElementCtx.rld 271 x.toNat rfl codeLen_le (fun _ => rfl) fun _ => rfl

theorem run272 (len : Nat) (x : BitVec 2) : Statement (.run272 len x) :=
  of_code ElementCtx.rld 272 x.toNat rfl codeLen_le (fun _ => rfl) fun _ => rfl

theorem run273 (len : Nat) (x : BitVec 3) : Statement (.run273 len x) :=
  of_code ElementCtx.rld 273 x.toNat rfl codeLen_le (fun _ => rfl) fun _ => rfl

theorem run274 (len : Nat) (x : BitVec 3) : Statement (.run274 len x) :=
  of_code ElementCtx.rld 274 x.toNat rfl codeLen_le (fun _ => rfl) fun _ => rfl

theorem run275 (len : Nat) (x : BitVec 3) : Statement (.run275 len x) :=
  of_code ElementCtx.rld 275 x.toNat rfl codeLen_le (fun _ => rfl) fun _ => rfl

theorem run276 (len : Nat) (x : BitVec 3) : Statement (.run276 len x) :=
  of_code ElementCtx.rld 276 x.toNat rfl codeLen_le (fun _ => rfl) fun _ => rfl

theorem run277 (len : Nat) (x : BitVec 4) : Statement (.run277 len x) :=
  of_code ElementCtx.rld 277 x.toNat rfl codeLen_le (fun _ => rfl) fun _ => rfl

theorem run278 (len : Nat) (x : BitVec 4) : Statement (.run278 len x) :=
  of_code ElementCtx.rld 278 x.toNat rfl codeLen_le (fun _ => rfl) fun _ => rfl

theorem run279 (len : Nat) (x : BitVec 4) : Statement (.run279 len x) :=
  of_code ElementCtx.rld 279 x.toNat rfl codeLen_le (fun _ => rfl) fun _ => rfl

theorem run280 (len : Nat) (x : BitVec 4) : Statement (.run280 len x) :=
  of_code ElementCtx.rld 280 x.toNat rfl codeLen_le (fun _ => rfl) fun _ => rfl

theorem run281 (len : Nat) (x : BitVec 5) : Statement (.run281 len x) :=
  of_code ElementCtx.rld 281 x.toNat rfl codeLen_le (fun _ => rfl) fun _ => rfl

theorem run282 (len : Nat) (x : BitVec 5) : Statement (.run282 len x) :=
  of_code ElementCtx.rld 282 x.toNat rfl codeLen_le (fun _ => rfl) fun _ => rfl

theorem run283 (len : Nat) (x : BitVec 5) : Statement (.run283 len x) :=
  of_code ElementCtx.rld 283 x.toNat rfl codeLen_le (fun _ => rfl) fun _ => rfl

theorem run284 (len : Nat) (x : BitVec 5) : Statement (.run284 len x) :=
  of_code ElementCtx.rld 284 x.toNat rfl codeLen_le (fun _ => rfl) fun _ => rfl

theorem run285 (len : Nat) : Statement (.run285 len) :=
  of_bare ElementCtx.rld 285 rfl codeLen_le (fun _ => rfl) fun _ => rfl

theorem rl286 (len : Nat) : Statement (.rl286 len) :=
  of_bare ElementCtx.rld 286 rfl codeLen_le (fun _ => rfl) fun _ => rfl

theorem rl287 (len : Nat) : Statement (.rl287 len) :=
  of_bare ElementCtx.rld 287 rfl codeLen_le (fun _ => rfl) fun _ => rfl

theorem dist0 (len : Nat) : Statement (.dist0 len) :=
  of_bare ElementCtx.dd 0 rfl codeLen_le (fun _ => rfl) fun _ => rfl

theorem dist1 (len : Nat) : Statement (.dist1 len) :=
  of_bare ElementCtx.dd 1 rfl codeLen_le (fun _ => rfl) fun _ => rfl

theorem dist2 (len : Nat) : Statement (.dist2 len) :=
  of_bare ElementCtx.dd 2 rfl codeLen_le (fun _ => rfl) fun _ => rfl

theorem dist3 (len : Nat) : Statement (.dist3 len) :=
  of_bare ElementCtx.dd 3 rfl codeLen_le (fun _ => rfl) fun _ => rfl

theorem dist4 (len : Nat) (x : BitVec 1) : Statement (.dist4 len x) :=
  of_code ElementCtx.dd 4 x.toNat rfl codeLen_le (fun _ => rfl) fun _ => rfl

theorem dist5 (len : Nat) (x : BitVec 1) : Statement (.dist5 len x) :=
  of_code ElementCtx.dd 5 x.toNat rfl codeLen_le (fun _ => rfl) fun _ => rfl

theorem dist6 (len : Nat) (x : BitVec 2) : Statement (.dist6 len x) :=
  of_code ElementCtx.dd 6 x.toNat rfl codeLen_le (fun _ => rfl) fun _ => rfl

theorem dist7 (len : Nat) (x : BitVec 2) : Statement (.dist7 len x) :=
  of_code ElementCtx.dd 7 x.toNat rfl codeLen_le (fun _ => rfl) fun _ => rfl

theorem dist8 (len : Nat) (x : BitVec 3) : Statement (.dist8 len x) :=
  of_code ElementCtx.dd 8 x.toNat rfl codeLen_le (fun _ => rfl) fun _ => rfl

theorem dist9 (len : Nat) (x : BitVec 3) : Statement (.dist9 len x) :=
  of_code ElementCtx.dd 9 x.toNat rfl codeLen_le (fun _ => rfl) fun _ => rfl

theorem dist10 (len : Nat) (x : BitVec 4) : Statement (.dist10 len x) :=
  of_code ElementCtx.dd 10 x.toNat rfl codeLen_le (fun _ => rfl) fun _ => rfl

theorem dist11 (len : Nat) (x : BitVec 4) : Statement (.dist11 len x) :=
  of_code ElementCtx.dd 11 x.toNat rfl codeLen_le (fun _ => rfl) fun _ => rfl

theorem dist12 (len : Nat) (x : BitVec 5) : Statement (.dist12 len x) :=
  of_code ElementCtx.dd 12 x.toNat rfl codeLen_le (fun _ => rfl) fun _ => rfl

theorem dist13 (len : Nat) (x : BitVec 5) : Statement (.dist13 len x) :=
  of_code ElementCtx.dd 13 x.toNat rfl codeLen_le (fun _ => rfl) fun _ => rfl

theorem dist14 (len : Nat) (x : BitVec 6) : Statement (.dist14 len x) :=
  of_code ElementCtx.dd 14 x.toNat rfl codeLen_le (fun _ => rfl) fun _ => rfl

theorem dist15 (len : Nat) (x : BitVec 6) : Statement (.dist15 len x) :=
  of_code ElementCtx.dd 15 x.toNat rfl codeLen_le (fun _ => rfl) fun _ => rfl

theorem dist16 (len : Nat) (x : BitVec 7) : Statement (.dist16 len x) :=
  of_code ElementCtx.dd 16 x.toNat rfl codeLen_le (fun _ => rfl) fun _ => rfl

theorem dist17 (len : Nat) (x : BitVec 7) : Statement (.dist17 len x) :=
  of_code ElementCtx.dd 17 x.toNat rfl codeLen_le (fun _ => rfl) fun _ => rfl

theorem dist18 (len : Nat) (x : BitVec 8) : Statement (.dist18 len x) :=
  of_code ElementCtx.dd 18 x.toNat rfl codeLen_le (fun _ => rfl) fun _ => rfl

theorem dist19 (len : Nat) (x : BitVec 8) : Statement (.dist19 len x) :=
  of_code ElementCtx.dd 19 x.toNat rfl codeLen_le (fun _ => rfl) fun _ => rfl

theorem dist20 (len : Nat) (x : BitVec 9) : Statement (.dist20 len x) :=
  of_code ElementCtx.dd 20 x.toNat rfl codeLen_le (fun _ => rfl) fun _ => rfl

theorem dist21 (len : Nat) (x : BitVec 9) : Statement (.dist21 len x) :=
  of_code ElementCtx.dd 21 x.toNat rfl codeLen_le (fun _ => rfl) fun _ => rfl

theorem dist22 (len : Nat) (x : BitVec 10) : Statement (.dist22 len x) :=
  of_code ElementCtx.dd 22 x.toNat rfl codeLen_le (fun _ => rfl) fun _ => rfl

theorem dist23 (len : Nat) (x : BitVec 10) : Statement (.dist23 len x) :=
  of_code ElementCtx.dd 23 x.toNat rfl codeLen_le (fun _ => rfl) fun _ => rfl

theorem dist24 (len : Nat) (x : BitVec 11) : Statement (.dist24 len x) :=
  of_code ElementCtx.dd 24 x.toNat rfl codeLen_le (fun _ => rfl) fun _ => rfl

theorem dist25 (len : Nat) (x : BitVec 11) : Statement (.dist25 len x) :=
  of_code ElementCtx.dd 25 x.toNat rfl codeLen_le (fun _ => rfl) fun _ => rfl

theorem dist26 (len : Nat) (x : BitVec 12) : Statement (.dist26 len x) :=
  of_code ElementCtx.dd 26 x.toNat rfl codeLen_le (fun _ => rfl) fun _ => rfl

theorem dist27 (len : Nat) (x : BitVec 12) : Statement (.dist27 len x) :=
  of_code ElementCtx.dd 27 x.toNat rfl codeLen_le (fun _ => rfl) fun _ => rfl

theorem dist28 (len : Nat) (x : BitVec 13) : Statement (.dist28 len x) :=
  of_code ElementCtx.dd 28 x.toNat rfl codeLen_le (fun _ => rfl) fun _ => rfl

theorem dist29 (len : Nat) (x : BitVec 13) : Statement (.dist29 len x) :=
  of_code ElementCtx.dd 29 x.toNat rfl codeLen_le (fun _ => rfl) fun _ => rfl

theorem d30 (len : Nat) : Statement (.d30 len) :=
  of_bare ElementCtx.dd 30 rfl codeLen_le (fun _ => rfl) fun _ => rfl

theorem d31 (len : Nat) : Statement (.d31 len) :=
  of_bare ElementCtx.dd 31 rfl codeLen_le (fun _ => rfl) fun _ => rfl

theorem adler (v : Word) : Statement (.adler v) :=
  of_bits _ rfl (fun _ => rfl) fun _ c => by
    simp [elementBits]

theorem fmtIndexed1 (pal : List Rgba) (buf : List Byte) : Statement (.fmtIndexed1 pal buf) := of_format (fun _ => rfl) rfl

theorem fmtIndexed2 (pal : List Rgba) (buf : List Byte) : Statement (.fmtIndexed2 pal buf) := of_format (fun _ => rfl) rfl

theorem fmtIndexed4 (pal : List Rgba) (buf : List Byte) : Statement (.fmtIndexed4 pal buf) := of_format (fun _ => rfl) rfl

theorem fmtIndexed8 (pal : List Rgba) (buf : List Byte) : Statement (.fmtIndexed8 pal buf) := of_format (fun _ => rfl) rfl

theorem fmtV1 (buf : List Byte) : Statement (.fmtV1 buf) := of_format (fun _ => rfl) rfl

theorem fmtV2 (buf : List Byte) : Statement (.fmtV2 buf) := of_format (fun _ => rfl) rfl

theorem fmtV4 (buf : List Byte) : Statement (.fmtV4 buf) := of_format (fun _ => rfl) rfl

theorem fmtV8 (buf : List Byte) : Statement (.fmtV8 buf) := of_format (fun _ => rfl) rfl

theorem fmtV16 (buf : List Byte) : Statement (.fmtV16 buf) := of_format (fun _ => rfl) rfl

theorem fmtV1Key (k : Half) (buf : List Byte) : Statement (.fmtV1Key k buf) := of_format (fun _ => rfl) rfl

theorem fmtV2Key (k : Half) (buf : List Byte) : Statement (.fmtV2Key k buf) := of_format (fun _ => rfl) rfl

theorem fmtV4Key (k : Half) (buf : List Byte) : Statement (.fmtV4Key k buf) := of_format (fun _ => rfl) rfl

theorem fmtV8Key (k : Half) (buf : List Byte) : Statement (.fmtV8Key k buf) := of_format (fun _ => rfl) rfl

theorem fmtV16Key (k : Half) (buf : List Byte) : Statement (.fmtV16Key k buf) := of_format (fun _ => rfl) rfl

theorem fmtVa8 (buf : List Byte) : Statement (.fmtVa8 buf) := of_format (fun _ => rfl) rfl

theorem fmtVa16 (buf : List Byte) : Statement (.fmtVa16 buf) := of_format (fun _ => rfl) rfl

theorem fmtRgb8 (buf : List Byte) : Statement (.fmtRgb8 buf) := of_format (fun _ => rfl) rfl

theorem fmtRgb16 (buf : List Byte) : Statement (.fmtRgb16 buf) := of_format (fun _ => rfl) rfl

theorem fmtRgb8Key (kr kg kb : Half) (buf : List Byte) : Statement (.fmtRgb8Key kr kg kb buf) := of_format (fun _ => rfl) rfl

theorem fmtRgb16Key (kr kg kb : Half) (buf : List Byte) : Statement (.fmtRgb16Key kr kg kb buf) := of_format (fun _ => rfl) rfl

theorem fmtRgba8 (buf : List Byte) : Statement (.fmtRgba8 buf) := of_format (fun _ => rfl) rfl

theorem fmtRgba16 (buf : List Byte) : Statement (.fmtRgba16 buf) := of_format (fun _ => rfl) rfl

theorem fmtUnsupported (blk : Block) : Statement (.fmtUnsupported blk) := of_format (fun _ => rfl) rfl

theorem stdIos (dst : Width) (blk : Block) : Statement (.stdIos dst blk) :=
  of_bytes _ (fun _ => rfl) rfl fun _ => by
    simp [commandWord, commandBytes]

end Sys2Proof.Laws.ElementLength
end

