-- ==== Sys2Proof/Laws/Port.lean ====
section
/-! SUPPORT. The UNPACK operand block: its bytes and its decoding agree (R133). -/

namespace Sys2Proof.Laws

open Sys2Proof.Machine

theorem readPalette_rgbaBytes (pal : List Rgba) : readPalette pal.length (pal.flatMap rgbaBytes) = pal := by
  induction pal with
  | nil => rfl
  | cons p ps ih => simp [rgbaBytes, readPalette, ih]

theorem rgbaBytes_length (pal : List Rgba) : (pal.flatMap rgbaBytes).length = 4 * pal.length := by
  induction pal with
  | nil => rfl
  | cons p ps ih => simp [rgbaBytes, ih]; omega

theorem keyBytes_length (keys : List Half) : (keys.flatMap fun k => leBytes 2 k.toNat).length = 2 * keys.length := by
  induction keys with
  | nil => rfl
  | cons p ps ih => simp [ih]; omega

theorem readKeys_keyBytes (keys : List Half) : readKeys keys.length (keys.flatMap fun k => leBytes 2 k.toNat) = keys := by
  induction keys with
  | nil => rfl
  | cons p ps ih =>
    show atomOf _ _ :: readKeys ps.length _ = p :: ps
    rw [atomOf_leBytes]
    exact congrArg _ ih

/-- Decoding an operand block's bytes gives it back (R133). -/
theorem decodeBlock_encodeBlock (b : Block) (rest : List Byte) (h : b.wf = true) :
    decodeBlock (encodeBlock b ++ rest) = some (b, rest) := by
  simp only [Block.wf, palOk, bufOk, Bool.and_eq_true, decide_eq_true_eq, Bool.or_eq_true] at h
  obtain ⟨⟨⟨h1, h2⟩, h3⟩, h4⟩ := h
  have hf : BitVec.ofNat 32 (leNat (leBytes 4 b.fmt.toNat)) = b.fmt := by
    rw [leNat_leBytes_of_lt _ _ b.fmt.isLt]; simp
  unfold decodeBlock encodeBlock
  simp only [List.append_assoc]
  rw [takeBytes_le]
  simp only [Option.bind_some, hf]
  rw [takeBytes_append' _ _ (by rw [keyBytes_length, h1])]
  simp only [Option.bind_some]
  rw [← h1, readKeys_keyBytes]
  have hl : ∀ rest, (takeBytes 4 (leBytes 4 b.buf.length ++ (b.buf ++ rest))).bind (fun l =>
          (takeBytes (leNat l.1) l.2).map fun c =>
            (({ fmt := b.fmt
                keys := b.keys
                palette := b.palette
                buf := c.1 } : Block), c.2)) = some (b, rest) := by
    intro rest
    rw [takeBytes_le]
    simp only [Option.bind_some]
    rw [leNat_leBytes_of_lt _ _ h4, takeBytes_append]
    rfl
  unfold decodePalette
  cases hp : hasPalette b.fmt with
  | false =>
    have : b.palette = [] := List.eq_nil_of_length_eq_zero (by simpa [hp] using h3)
    simpa [this] using hl rest
  | true =>
    simp only [if_true, List.append_assoc]
    rw [takeBytes_le]
    simp only [Option.bind_some]
    rw [leNat_leBytes_of_lt _ _ h2, takeBytes_append' _ _ (rgbaBytes_length _)]
    simp only [Option.map_some, Option.bind_some]
    rw [readPalette_rgbaBytes]
    exact hl rest

theorem readKeys_eq (n : Nat) (b : List Byte) (h : b.length = 2 * n) :
    (readKeys n b).length = n ∧ (readKeys n b).flatMap (fun k => leBytes 2 k.toNat) = b := by
  induction n generalizing b with
  | zero => simp at h; simp [readKeys, h]
  | succ n ih =>
    match b with
    | lo :: hi :: r =>
      obtain ⟨a, c⟩ := ih r (by simp at h; omega)
      refine ⟨by simp [readKeys, a], ?_⟩
      simp only [readKeys, List.flatMap_cons, c, atomOf_toNat]
      have := leBytes_leNat [lo, hi]
      simp only [leNat, List.length_cons, List.length_nil] at this
      rw [show lo.toNat + 256 * hi.toNat = lo.toNat + 256 * (hi.toNat + 256 * 0) by omega, this]
      rfl
    | [x] => simp at h; omega
    | [] => simp at h

theorem readPalette_eq (n : Nat) (b : List Byte) (h : b.length = 4 * n) :
    (readPalette n b).length = n ∧ (readPalette n b).flatMap rgbaBytes = b := by
  induction n generalizing b with
  | zero => simp at h; simp [readPalette, h]
  | succ n ih =>
    match b with
    | r :: g :: u :: a :: t =>
      obtain ⟨c, d⟩ := ih t (by simp at h; omega)
      exact ⟨by simp [readPalette, c], by simp [readPalette, d, rgbaBytes]⟩
    | [x, y, z] => simp at h; omega
    | [x, y] => simp at h; omega
    | [x] => simp at h; omega
    | [] => simp at h

/-- Bytes that decode to an operand block are its bytes (R133). -/
theorem decodeBlock_eq {bytes rest : List Byte} {b : Block} (h : decodeBlock bytes = some (b, rest)) :
    b.wf = true ∧ bytes = encodeBlock b ++ rest := by
  obtain ⟨f, hf, h⟩ := Option.bind_eq_some_iff.1 h
  obtain ⟨k, hk, h⟩ := Option.bind_eq_some_iff.1 h
  obtain ⟨p, hp, h⟩ := Option.bind_eq_some_iff.1 h
  obtain ⟨l, hl, h⟩ := Option.bind_eq_some_iff.1 h
  obtain ⟨c, hc, h⟩ := Option.map_eq_some_iff.1 h
  obtain ⟨f1, f2⟩ := takeBytes_some hf
  obtain ⟨k1, k2⟩ := takeBytes_some hk
  obtain ⟨l1, l2⟩ := takeBytes_some hl
  obtain ⟨c1, c2⟩ := takeBytes_some hc
  have e1 : (BitVec.ofNat 32 (leNat f.1)).toNat = leNat f.1 := by
    have := leNat_lt f.1
    rw [f1] at this
    rw [BitVec.toNat_ofNat]; exact Nat.mod_eq_of_lt (by omega)
  have e2 : leBytes 4 (leNat f.1) = f.1 := by have := leBytes_leNat f.1; rwa [f1] at this
  have e3 : leBytes 4 (leNat l.1) = l.1 := by have := leBytes_leNat l.1; rwa [l1] at this
  have b1 := leNat_lt l.1
  rw [l1] at b1
  obtain ⟨m1, m2⟩ := readKeys_eq _ _ k1
  simp only [Prod.mk.injEq] at h
  obtain ⟨rfl, rfl⟩ := h
  generalize hF : BitVec.ofNat 32 (leNat f.1) = F at *
  unfold decodePalette at hp
  cases hq : hasPalette F with
  | false =>
    simp only [hq, Bool.false_eq_true, if_false, Option.some.injEq] at hp
    subst hp
    refine ⟨by simp [Block.wf, m1, palOk, bufOk]; omega, ?_⟩
    simp only [encodeBlock, m2, hq, e1, e2, c1, e3]
    rw [f2, k2]
    simp only at l2
    rw [l2, c2]
    simp
  | true =>
    simp only [hq, if_true] at hp
    obtain ⟨np, hn, hp⟩ := Option.bind_eq_some_iff.1 hp
    obtain ⟨q, hqq, hp⟩ := Option.map_eq_some_iff.1 hp
    subst hp
    obtain ⟨n1, n2⟩ := takeBytes_some hn
    obtain ⟨q1, q2⟩ := takeBytes_some hqq
    obtain ⟨r1, r2⟩ := readPalette_eq _ _ q1
    have e4 : leBytes 2 (leNat np.1) = np.1 := by have := leBytes_leNat np.1; rwa [n1] at this
    have b2 := leNat_lt np.1
    rw [n1] at b2
    refine ⟨by simp [Block.wf, m1, palOk, bufOk, r1, hq]; omega, ?_⟩
    simp only [encodeBlock, m2, hq, e1, e2, c1, e3, if_true, r1, r2, e4]
    simp only at l2
    rw [f2, k2, n2, q2, l2, c2]
    simp

end Sys2Proof.Laws
end

