-- ==== Sys2Proof/Tests/Slice0.lean ====
section
/-! SUPPORT. Tests: ill-formed terms refused by WellFormed, words written out from the spec's encodings, one step a test from the spec's vectors, and a witness for each statement that has hypotheses. -/

namespace Sys2Proof.Tests

open Sys2Proof.Machine

-- One theorem at a time: every kernel evaluation in a thread of its own would not fit in memory.
set_option Elab.async false


/-! ### Helpers -/

/-- Bytes of stream bits in stream order, the first bit the least significant of its byte (R11). -/
def stream : List Nat → List Byte
  | a :: b :: c :: d :: e :: f :: g :: h :: rest =>
    BitVec.ofNat 8 (a + 2 * b + 4 * c + 8 * d + 16 * e + 32 * f + 64 * g + 128 * h) :: stream rest
  | [] => []
  | [a] => [BitVec.ofNat 8 a]
  | [a, b] => [BitVec.ofNat 8 (a + 2 * b)]
  | [a, b, c] => [BitVec.ofNat 8 (a + 2 * b + 4 * c)]
  | [a, b, c, d] => [BitVec.ofNat 8 (a + 2 * b + 4 * c + 8 * d)]
  | [a, b, c, d, e] => [BitVec.ofNat 8 (a + 2 * b + 4 * c + 8 * d + 16 * e)]
  | [a, b, c, d, e, f] => [BitVec.ofNat 8 (a + 2 * b + 4 * c + 8 * d + 16 * e + 32 * f)]
  | [a, b, c, d, e, f, g] => [BitVec.ofNat 8 (a + 2 * b + 4 * c + 8 * d + 16 * e + 32 * f + 64 * g)]

/-- A context at the start of `bits`, with the fixed tables. -/
def ctx (tag : StTag) (distance : Bool) (bits : List Nat) : ElementCtx where
  input := stream bits ++ [0, 0, 0, 0]
  pos := 0
  tag := tag
  distance := distance
  blockDone := false
  cld := Table.empty
  rld := fixedRl
  dd := fixedD

/-- Each row's bits decode to its instruction. -/
def decodes (tag : StTag) (distance : Bool) (rows : List (List Nat × Instr)) : Bool :=
  rows.all fun r => decodeElement (ctx tag distance r.1) == .instr r.2

/-- Each row's operand block, its FMT word and what follows, decodes to its instruction. -/
def decodesFormat (rows : List (List Byte × Instr)) : Bool :=
  rows.all fun r => decodeFormat r.1 == some (r.2, [])

/-- The result is a next state that satisfies `p`. -/
def nextIs (r : Result) (p : State → Bool) : Bool :=
  match r with
  | .next t => p t
  | .fault _ => false
  | .refused _ => false

/-- The result is this refusal. -/
def refusedBy (r : Result) (f : Refusal) : Bool :=
  match r with
  | .next _ => false
  | .fault _ => false
  | .refused g => g == f

/-- The state failed with this kind, argument and status word, and `P` where it was. -/
def failedWith (s t : State) (k : ErrorKind) (arg : Nat) (w : Word) : Bool :=
  t.st == .failed && t.err == some ⟨k, arg⟩ && t.status == w && t.pos == s.pos && t.payload == []

/-- "Hello". -/
def hello : List Byte := [0x48, 0x65, 0x6C, 0x6C, 0x6F]

/-- After "Hello" in a final stored block, at its trailer (V1). -/
def atTrailer : State :=
  { State.reset with st := .streamChecksum, final := true, pos := 96, out := hello, storage := hello }

/-- In a compressed block, with "ab" produced and a window of 32768 (V5). -/
def inBlock : State :=
  { State.reset with
    st := .blockCompressed, activity := .inflating, out := [0x61, 0x62], storage := [0x61, 0x62]
    window := 32768, rld := fixedRl, dd := fixedD }

/-- In a dynamic block's code lengths, `HLIT = 258`, `HDIST = 3` (CV5, CV6). -/
def inLengths (lens : List (BitVec 4)) : State :=
  { State.reset with
    st := .blockTables, activity := .inflating, hlit := 258, hdist := 3, lengths := lens }

/-! ### WellFormed refuses an ill-formed term for each check -/

theorem test_wf_code_length :
    [Instr.lit 0 0, .lit 16 0, .eob 0, .run285 16, .rl286 0, .dist29 16 0, .d31 0].all
      (fun i => !i.wf) = true := by decide

theorem test_wf_cl_length :
    [Instr.clLit 0 0, .clLit 8 0, .clExtend 8 0, .clZeros3 0 0, .clZeros7 8 0].all
      (fun i => !i.wf) = true := by decide

theorem test_wf_premul :
    (Instr.premul .w8 0x100 0).wf = false ∧ (Instr.premul .w8 0 0x100).wf = false ∧
      (Instr.premul .w32 0x100000000 0).wf = false := by decide

theorem test_wf_reserved : (Instr.reservedOp 0x00000007).wf = false := by decide

theorem test_wf_dynamic :
    (Instr.bhdrDynamic true 0 0 0 [1, 1, 1]).wf = false ∧
      (Instr.bhdrDynamic true 30 0 0 [1, 1, 1, 1]).wf = false := by decide

theorem test_wf_block :
    (Instr.stdIos .w8 ⟨0x210, [], [], []⟩).wf = false ∧
      (Instr.stdIos .w8 ⟨0x86, [], [⟨0, 0, 0, 0⟩], []⟩).wf = false ∧
      (Instr.fmtUnsupported ⟨0x86, [], [], []⟩).wf = false := by decide

theorem test_wf_push : (Instr.push (List.replicate (2 ^ 24) 0)).wf = false := by
  simp only [Instr.wf, List.length_replicate]
  decide

theorem test_wf_palette :
    (Instr.fmtIndexed8 (List.replicate (2 ^ 16) ⟨0, 0, 0, 0⟩) []).wf = false := by
  simp only [Instr.wf, palOk, List.length_replicate]
  decide

theorem test_wf_buffer : (Instr.fmtV8 (List.replicate (2 ^ 32) 0)).wf = false := by
  simp only [Instr.wf, bufOk, List.length_replicate]
  decide

/-! ### Decoding: commands (R130, words of section "Command words" of 95_test_vectors.md) -/

theorem test_decode_commands :
    [([0x00, 0x00, 0x00, 0x00], Instr.new), ([0x01, 0x01, 0x00, 0x00, 0x78], .push [0x78]),
      ([0x02, 0x0D, 0x00, 0x00], .pull 13), ([0x03, 0x00, 0x00, 0x00], .retained),
      ([0x04, 0x00, 0x00, 0x00], .finish), ([0x05, 0x01, 0x00, 0x00], .unpack .w16),
      ([0x06, 0x00, 0x00, 0x00, 0xC8, 0x80], .premul .w8 200 128),
      ([0x06, 0x01, 0x00, 0x00, 0xFF, 0xFF, 0x00, 0x80], .premul .w16 0xFFFF 0x8000),
      ([0x07, 0x0C, 0x00, 0x00], .read 0x0C)].all
      (fun r => decodeCommand r.1 == some (r.2, [])) = true := by decide +kernel

/-- STD_IOS (P7 command 3), and RESERVED_OP: a reserved OP, a nonzero RSV, a nonzero must-be-zero field (R152). -/
theorem test_decode_refusable :
    decodeCommand [0x05, 0x04, 0x00, 0x00, 0x86, 0, 0, 0, 0, 0, 0, 0]
        = some (.stdIos .w8 ⟨0x86, [], [], []⟩, []) ∧
      [([0x0F, 0, 0, 0], Instr.reservedOp 0x0F), ([0x10, 0, 0, 0], .reservedOp 0x10),
        ([0x00, 0x01, 0, 0], .reservedOp 0x100), ([0x05, 0x08, 0, 0], .reservedOp 0x805),
        ([0x06, 0x04, 0, 0], .reservedOp 0x406), ([0x07, 0x00, 0x01, 0], .reservedOp 0x10007)].all
        (fun r => decodeCommand r.1 == some (r.2, [])) = true := by decide +kernel

/-- A command that is not all there waits (R466). -/
theorem test_decode_waits :
    decodeCommand [0x01, 0x02, 0, 0, 0x78] = none ∧ decodeCommand [0x00, 0x00, 0x00] = none := by
  decide +kernel

/-! ### Decoding: formats (R132: CT in bits 3:0, DEPTH in 8:4, KEY in bit 9) -/

theorem test_decode_formats_plain :
    decodesFormat [
      ([0x13, 0x00, 0, 0, 0x01, 0x00, 0x0A, 0x14, 0x1E, 0x28, 1, 0, 0, 0, 0], Instr.fmtIndexed1 [⟨10, 20, 30, 40⟩] [0]),
      ([0x23, 0x00, 0, 0, 0x01, 0x00, 0x0A, 0x14, 0x1E, 0x28, 1, 0, 0, 0, 0], Instr.fmtIndexed2 [⟨10, 20, 30, 40⟩] [0]),
      ([0x43, 0x00, 0, 0, 0x01, 0x00, 0x0A, 0x14, 0x1E, 0x28, 1, 0, 0, 0, 0], Instr.fmtIndexed4 [⟨10, 20, 30, 40⟩] [0]),
      ([0x83, 0x00, 0, 0, 0x01, 0x00, 0x0A, 0x14, 0x1E, 0x28, 1, 0, 0, 0, 0], Instr.fmtIndexed8 [⟨10, 20, 30, 40⟩] [0]),
      ([0x10, 0x00, 0, 0, 1, 0, 0, 0, 7], Instr.fmtV1 [7]),
      ([0x20, 0x00, 0, 0, 1, 0, 0, 0, 7], Instr.fmtV2 [7]),
      ([0x40, 0x00, 0, 0, 1, 0, 0, 0, 7], Instr.fmtV4 [7]),
      ([0x80, 0x00, 0, 0, 1, 0, 0, 0, 7], Instr.fmtV8 [7]),
      ([0x00, 0x01, 0, 0, 1, 0, 0, 0, 7], Instr.fmtV16 [7])] = true := by decide +kernel

theorem test_decode_formats_key :
    decodesFormat [
      ([0x10, 0x02, 0, 0, 0x34, 0x12, 1, 0, 0, 0, 7], Instr.fmtV1Key 0x1234 [7]),
      ([0x20, 0x02, 0, 0, 0x34, 0x12, 1, 0, 0, 0, 7], Instr.fmtV2Key 0x1234 [7]),
      ([0x40, 0x02, 0, 0, 0x34, 0x12, 1, 0, 0, 0, 7], Instr.fmtV4Key 0x1234 [7]),
      ([0x80, 0x02, 0, 0, 0x34, 0x12, 1, 0, 0, 0, 7], Instr.fmtV8Key 0x1234 [7]),
      ([0x00, 0x03, 0, 0, 0x34, 0x12, 1, 0, 0, 0, 7], Instr.fmtV16Key 0x1234 [7])] = true := by decide +kernel

theorem test_decode_formats_colour :
    decodesFormat [
      ([0x84, 0x00, 0, 0, 1, 0, 0, 0, 7], Instr.fmtVa8 [7]),
      ([0x04, 0x01, 0, 0, 1, 0, 0, 0, 7], Instr.fmtVa16 [7]),
      ([0x82, 0x00, 0, 0, 1, 0, 0, 0, 7], Instr.fmtRgb8 [7]),
      ([0x02, 0x01, 0, 0, 1, 0, 0, 0, 7], Instr.fmtRgb16 [7]),
      ([0x86, 0x00, 0, 0, 1, 0, 0, 0, 7], Instr.fmtRgba8 [7]),
      ([0x06, 0x01, 0, 0, 1, 0, 0, 0, 7], Instr.fmtRgba16 [7]),
      ([0x82, 0x02, 0, 0, 0x34, 0x12, 0x78, 0x56, 0xBC, 0x9A, 0, 0, 0, 0], Instr.fmtRgb8Key 0x1234 0x5678 0x9ABC []),
      ([0x02, 0x03, 0, 0, 0x34, 0x12, 0x78, 0x56, 0xBC, 0x9A, 0, 0, 0, 0], Instr.fmtRgb16Key 0x1234 0x5678 0x9ABC []),
      ([0x44, 0x00, 0, 0, 1, 0, 0, 0, 7], Instr.fmtUnsupported ⟨0x44, [], [], [7]⟩),
      ([0x03, 0x01, 0, 0, 0, 0, 0, 0, 0, 0], Instr.fmtUnsupported ⟨0x103, [], [], []⟩)] = true := by decide +kernel

/-! ### Decoding: the stream (R135 to R149) -/

/-- CMF 0x78, FLG 0x01 (V1). -/
theorem test_decode_header :
    decodes .streamStart false [([0, 0, 0, 1, 1, 1, 1, 0, 1, 0, 0, 0, 0, 0, 0, 0], .zhdr 0x78 0x01)] = true := by decide +kernel

/-- Stored, fixed and reserved block headers: BFINAL, BTYPE least significant bit first, 5 pad bits, LEN, NLEN. -/
theorem test_decode_blocks :
    decodes .blockStart false [
      ([1, 0, 0, 0, 0, 0, 0, 0, 1, 0, 1, 0, 0, 0, 0, 0, 0, 0, 0, 0, 0, 0, 0, 0, 0, 1, 0, 1, 1, 1, 1, 1, 1, 1, 1, 1, 1, 1, 1, 1],
        .bhdrStored true 5 0xFFFA),
      ([1, 1, 0], .bhdrFixed true),
      ([0, 1, 1], .bhdrReserved false)] = true := by decide +kernel

/-- Dynamic headers: HLIT 1, HDIST 2, HCLEN 0 with four 3-bit lengths; HLIT 30 (287) with none read (R293). -/
theorem test_decode_dynamic :
    decodes .blockStart false [
      ([1, 0, 1, 1, 0, 0, 0, 0, 0, 1, 0, 0, 0, 0, 0, 0, 0, 1, 0, 0, 0, 0, 0, 0, 0, 0, 1, 0, 0],
        .bhdrDynamic true 1 2 0 [1, 0, 0, 1]),
      ([0, 0, 1, 0, 1, 1, 1, 1, 0, 1, 0, 0, 0, 0, 0, 0, 0], .bhdrDynamic false 30 2 0 [])] = true := by decide +kernel

theorem test_decode_byte_and_end :
    decodes .blockUncompressed false [([1, 0, 1, 0, 0, 1, 0, 1], .byte 0xA5)] = true ∧
      decodeElement { ctx .blockUncompressed false [] with blockDone := true } = .instr .storedEnd := by
  decide +kernel

/-- Trailer, most significant byte first (V1); from bit 3 it starts after 5 pad bits. -/
theorem test_decode_trailer :
    decodes .streamChecksum false [([1, 0, 1, 0, 0, 0, 0, 0, 0, 0, 1, 1, 0, 0, 0, 1, 1, 0, 0, 0, 0, 0, 0, 0, 1, 0, 1, 0, 1, 1, 1, 1], .adler 0x058C01F5)] = true ∧
      decodeElement { ctx .streamChecksum false ([0, 0, 0, 0, 0, 0, 0, 0, 1, 0, 1, 0, 0, 0, 0, 0, 0, 0, 1, 1, 0, 0, 0, 1, 1, 0, 0, 0, 0, 0, 0, 0, 1, 0, 1, 0, 1, 1, 1, 1]) with pos := 3 } =
        .instr (.adler 0x058C01F5) := by decide +kernel

/-- Code-length codes of lengths 1, 2, 3, 3 for symbols 16, 17, 18 and 5: 16 is `0`, 17 is `10`, 5 is `110`,
18 is `111`; extra bits least significant first. -/
theorem test_decode_code_lengths :
    ((build [0, 0, 0, 0, 0, 3, 0, 0, 0, 0, 0, 0, 0, 0, 0, 0, 1, 2, 3] .strict).any fun t =>
      [([0, 1, 0], Instr.clExtend 1 1), ([1, 0, 1, 1, 0], .clZeros3 2 3),
        ([1, 1, 0], .clLit 3 5), ([1, 1, 1, 1, 0, 0, 0, 0, 0, 1], .clZeros7 3 65)].all fun r =>
        decodeElement { ctx .blockTables false r.1 with cld := t } == .instr r.2) = true := by
  decide +kernel

/-- Fixed codes of R146: 8 bits from 0x30, 9 bits from 0x190, 7 bits from 0, 8 bits from 0xC0. -/
theorem test_decode_literals :
    decodes .blockCompressed false [
      ([0, 1, 1, 1, 1, 0, 0, 0], .lit 8 0x48),
      ([1, 1, 1, 1, 1, 1, 1, 1, 1], .lit 9 0xFF),
      ([0, 0, 0, 0, 0, 0, 0], .eob 7),
      ([1, 1, 0, 0, 0, 1, 1, 0], .rl286 8),
      ([1, 1, 0, 0, 0, 1, 1, 1], .rl287 8)] = true := by decide +kernel

/-- Run symbols with the extra bits of R144, the first bit read the least significant. -/
theorem test_decode_runs_1 :
    decodes .blockCompressed false [
      ([0, 0, 0, 0, 0, 0, 1], .run257 7),
      ([0, 0, 0, 0, 0, 1, 0], .run258 7),
      ([0, 0, 0, 0, 0, 1, 1], .run259 7),
      ([0, 0, 0, 0, 1, 0, 0], .run260 7),
      ([0, 0, 0, 0, 1, 0, 1], .run261 7),
      ([0, 0, 0, 0, 1, 1, 0], .run262 7),
      ([0, 0, 0, 0, 1, 1, 1], .run263 7),
      ([0, 0, 0, 1, 0, 0, 0], .run264 7),
      ([0, 0, 0, 1, 0, 0, 1, 1], .run265 7 1),
      ([0, 0, 0, 1, 0, 1, 0, 1], .run266 7 1)] = true := by decide +kernel

/-- Run symbols with the extra bits of R144, the first bit read the least significant. -/
theorem test_decode_runs_2 :
    decodes .blockCompressed false [
      ([0, 0, 0, 1, 0, 1, 1, 1], .run267 7 1),
      ([0, 0, 0, 1, 1, 0, 0, 1], .run268 7 1),
      ([0, 0, 0, 1, 1, 0, 1, 1, 1], .run269 7 3),
      ([0, 0, 0, 1, 1, 1, 0, 1, 1], .run270 7 3),
      ([0, 0, 0, 1, 1, 1, 1, 1, 1], .run271 7 3),
      ([0, 0, 1, 0, 0, 0, 0, 1, 1], .run272 7 3),
      ([0, 0, 1, 0, 0, 0, 1, 1, 0, 1], .run273 7 5),
      ([0, 0, 1, 0, 0, 1, 0, 1, 0, 1], .run274 7 5),
      ([0, 0, 1, 0, 0, 1, 1, 1, 0, 1], .run275 7 5),
      ([0, 0, 1, 0, 1, 0, 0, 1, 0, 1], .run276 7 5)] = true := by decide +kernel

/-- Run symbols with the extra bits of R144, the first bit read the least significant. -/
theorem test_decode_runs_3 :
    decodes .blockCompressed false [
      ([0, 0, 1, 0, 1, 0, 1, 1, 0, 0, 1], .run277 7 9),
      ([0, 0, 1, 0, 1, 1, 0, 1, 0, 0, 1], .run278 7 9),
      ([0, 0, 1, 0, 1, 1, 1, 1, 0, 0, 1], .run279 7 9),
      ([1, 1, 0, 0, 0, 0, 0, 0, 1, 0, 0, 1], .run280 8 9),
      ([1, 1, 0, 0, 0, 0, 0, 1, 1, 0, 0, 0, 1], .run281 8 17),
      ([1, 1, 0, 0, 0, 0, 1, 0, 1, 0, 0, 0, 1], .run282 8 17),
      ([1, 1, 0, 0, 0, 0, 1, 1, 1, 0, 0, 0, 1], .run283 8 17),
      ([1, 1, 0, 0, 0, 1, 0, 0, 1, 0, 0, 0, 1], .run284 8 17),
      ([1, 1, 0, 0, 0, 1, 0, 1], .run285 8)] = true := by decide +kernel

/-- Distance symbols, 5-bit codes (R147), with the extra bits of R145. -/
theorem test_decode_distances_1 :
    decodes .blockCompressed true [
      ([0, 0, 0, 0, 0], .dist0 5),
      ([0, 0, 0, 0, 1], .dist1 5),
      ([0, 0, 0, 1, 0], .dist2 5),
      ([0, 0, 0, 1, 1], .dist3 5),
      ([0, 0, 1, 0, 0, 1], .dist4 5 1),
      ([0, 0, 1, 0, 1, 1], .dist5 5 1),
      ([0, 0, 1, 1, 0, 1, 1], .dist6 5 3),
      ([0, 0, 1, 1, 1, 1, 1], .dist7 5 3)] = true := by decide +kernel

/-- Distance symbols, 5-bit codes (R147), with the extra bits of R145. -/
theorem test_decode_distances_2 :
    decodes .blockCompressed true [
      ([0, 1, 0, 0, 0, 1, 0, 1], .dist8 5 5),
      ([0, 1, 0, 0, 1, 1, 0, 1], .dist9 5 5),
      ([0, 1, 0, 1, 0, 1, 0, 0, 1], .dist10 5 9),
      ([0, 1, 0, 1, 1, 1, 0, 0, 1], .dist11 5 9),
      ([0, 1, 1, 0, 0, 1, 0, 0, 0, 1], .dist12 5 17),
      ([0, 1, 1, 0, 1, 1, 0, 0, 0, 1], .dist13 5 17),
      ([0, 1, 1, 1, 0, 1, 0, 0, 0, 0, 1], .dist14 5 33),
      ([0, 1, 1, 1, 1, 1, 0, 0, 0, 0, 1], .dist15 5 33)] = true := by decide +kernel

/-- Distance symbols, 5-bit codes (R147), with the extra bits of R145. -/
theorem test_decode_distances_3 :
    decodes .blockCompressed true [
      ([1, 0, 0, 0, 0, 1, 0, 0, 0, 0, 0, 1], .dist16 5 65),
      ([1, 0, 0, 0, 1, 1, 0, 0, 0, 0, 0, 1], .dist17 5 65),
      ([1, 0, 0, 1, 0, 1, 0, 0, 0, 0, 0, 0, 1], .dist18 5 129),
      ([1, 0, 0, 1, 1, 1, 0, 0, 0, 0, 0, 0, 1], .dist19 5 129),
      ([1, 0, 1, 0, 0, 1, 0, 0, 0, 0, 0, 0, 0, 1], .dist20 5 257),
      ([1, 0, 1, 0, 1, 1, 0, 0, 0, 0, 0, 0, 0, 1], .dist21 5 257),
      ([1, 0, 1, 1, 0, 1, 0, 0, 0, 0, 0, 0, 0, 0, 1], .dist22 5 513),
      ([1, 0, 1, 1, 1, 1, 0, 0, 0, 0, 0, 0, 0, 0, 1], .dist23 5 513)] = true := by decide +kernel

/-- Distance symbols, 5-bit codes (R147), with the extra bits of R145. -/
theorem test_decode_distances_4 :
    decodes .blockCompressed true [
      ([1, 1, 0, 0, 0, 1, 0, 0, 0, 0, 0, 0, 0, 0, 0, 1], .dist24 5 1025),
      ([1, 1, 0, 0, 1, 1, 0, 0, 0, 0, 0, 0, 0, 0, 0, 1], .dist25 5 1025),
      ([1, 1, 0, 1, 0, 1, 0, 0, 0, 0, 0, 0, 0, 0, 0, 0, 1], .dist26 5 2049),
      ([1, 1, 0, 1, 1, 1, 0, 0, 0, 0, 0, 0, 0, 0, 0, 0, 1], .dist27 5 2049),
      ([1, 1, 1, 0, 0, 1, 0, 0, 0, 0, 0, 0, 0, 0, 0, 0, 0, 1], .dist28 5 4097),
      ([1, 1, 1, 0, 1, 1, 0, 0, 0, 0, 0, 0, 0, 0, 0, 0, 0, 1], .dist29 5 4097),
      ([1, 1, 1, 1, 0], .d30 5),
      ([1, 1, 1, 1, 1], .d31 5)] = true := by decide +kernel

/-- Below its bits an element is not read: HV6, and BV3c (the HLIT check needs 17 bits). -/
theorem test_decode_needs_more :
    decodeElement { State.reset with input := [0x78] }.elementCtx = .needMore ∧
      decodeElement { State.reset with input := [0x78, 0x01, 0xF5, 0x00], pos := 16, st := .blockStart }.elementCtx
        = .needMore ∧
      decodeElement { State.reset with st := .streamEnd }.elementCtx = .done := by decide +kernel

/-! ### The words of the opcode table -/

theorem test_table_words :
    decodeTableWord 8 0x1 = some (.push []) ∧ decodeTableWord 32 0x7 = some (.read 0) ∧
      decodeTableWord 8 0x2 = some (.pull 0) ∧ decodeTableWord 16 0x11D = some (.run285 8) ∧
      decodeTableWord 32 0x86 = some (.fmtRgba8 []) ∧ decodeTableWord 8 0x0 =
        some (.bhdrStored false 0 0) := by decide +kernel

theorem test_table_step :
    nextIs (step (State.reset.withFetchWord 16 0x100)) (fun t => t.st == .blockStart && t.pos == 7) = true ∧
      nextIs (step (State.reset.withFetchWord 32 0x86)) (fun t => t.payload == [0, 0, 0, 0]) = true := by
  decide +kernel

/-! ### Host commands -/

/-- NEW after an error (P5 commands 2 and 7). -/
theorem test_new :
    nextIs (exec .new (inBlock.raise .invalidStringReference 0))
      (fun t => t.st == .streamStart && t.err == none && t.out == [] && t.register 0 == 0) = true := by
  decide +kernel

theorem test_push :
    nextIs (exec (.push [0x9C, 0xF3]) { State.reset with input := [0x78], atoms := [0x0078, 0, 0, 0] })
      (fun t => t.input == [0x78, 0x9C, 0xF3] && t.pos == 0 && t.activity == .inflating &&
        t.atoms == [0x9C78, 0x00F3, 0, 0, 0]) = true := by decide +kernel

/-- PUSH in `failed` is refused (DV6); over a finite IN_CAP it is refused (R97). -/
theorem test_push_refused :
    refusedBy (exec (.push []) (State.reset.raise .invalidStreamMethod 0)) .sessionFailed = true ∧
      refusedBy (exec (.push [1, 2]) { State.reset with params := { Params.default with inCap := some 1 } })
        .inputCapacity = true := by decide +kernel

/-- PULL of all of "Hello", and of one byte more (R224). -/
theorem test_pull :
    nextIs (exec (.pull 5) atTrailer)
      (fun t => t.status == 1 && t.payload == hello && t.currentIndex == 5 && t.startIndex == 5) = true ∧
    nextIs (exec (.pull 6) atTrailer) (fun t => t.status == 0 && t.payload == [] && t.currentIndex == 0)
      = true := by decide +kernel

/-- A release keeps the window (R94): 10 bytes, window 4, 8 pulled. -/
theorem test_pull_window :
    nextIs (exec (.pull 8) { State.reset with out := List.replicate 10 7, window := 4 })
      (fun t => t.currentIndex == 8 && t.startIndex == 6) = true := by decide +kernel

theorem test_retained :
    nextIs (exec .retained atTrailer) (fun t => t.payload == [5, 0, 0, 0, 0, 0, 0, 0]) = true := by
  decide +kernel

/-- FINISH in `streamStart` (DV5) and in `streamEnd` (DV3). -/
theorem test_finish :
    nextIs (exec .finish State.reset) (fun t => failedWith State.reset t .truncatedBitstream 0 0x102) = true ∧
      nextIs (exec .finish { State.reset with st := .streamEnd }) (fun t => t.st == .streamEnd && t.status == 0)
        = true := by decide +kernel

/-- READ 0x24 after "Hello" (V1), 0x00 and 0x04 after an error (P5). -/
theorem test_read :
    nextIs (exec (.read 0x24) atTrailer) (fun t => t.payload == [0xF5, 0x01, 0x8C, 0x05]) = true ∧
      nextIs (exec (.read 0x00) (inBlock.raise .invalidStringReference 0))
        (fun t => t.payload == [7, 0, 0, 0]) = true ∧
      nextIs (exec (.read 0x04) (inBlock.raise .invalidStringReference 0))
        (fun t => t.payload == [0x0D, 0, 0, 0]) = true := by decide +kernel

/-- An unaligned READ is refused (DV8); an address without a register reads 0 (DV9). -/
theorem test_read_other :
    refusedBy (exec (.read 2) State.reset) .unalignedRead = true ∧
      nextIs (exec (.read 0x2C) atTrailer) (fun t => t.payload == [0, 0, 0, 0]) = true := by
  decide +kernel

/-- PREMUL: the examples of R419. -/
theorem test_premul :
    [premulValue .w8 200 128, premulValue .w8 1 128, premulValue .w8 100 1, premulValue .w8 128 128]
        = [100, 1, 0, 64] ∧
      premulValue .w16 0xFFFF 0x8000 = 0x8000 ∧ premulValue .w32 (2 ^ 31) (2 ^ 31) = 2 ^ 30 ∧
      nextIs (exec (.premul .w16 0xFFFF 0x8000) State.reset) (fun t => t.payload == [0x00, 0x80]) = true := by
  decide +kernel

theorem test_unpack :
    nextIs (exec (.unpack .w32) atTrailer)
      (fun t => t.activity == .unpacking && t.dst == .w32 && t.st == .streamChecksum) = true := by
  decide +kernel

/-- P7 command 3. -/
theorem test_std_ios :
    nextIs (exec (.stdIos .w8 ⟨0x86, [], [], []⟩) State.reset) (fun t => t.status == 0xE02) = true := by
  decide +kernel

/-- R455: the palette count, here 0, is checked before `STD` (log 12). -/
theorem test_std_ios_palette_count :
    refusedBy (exec (.stdIos .w8 ⟨0x83, [], [], []⟩) State.reset) .paletteCount = true := by
  decide +kernel

theorem test_reserved_op :
    refusedBy (exec (.reservedOp 8) State.reset) .reservedCommand = true := by decide +kernel

/-! ### The container and the block headers -/

/-- HV5 and HV9: windows 256 and 32768. -/
theorem test_zhdr :
    nextIs (exec (.zhdr 0x08 0x1D) State.reset)
        (fun t => t.st == .blockStart && t.pos == 16 && t.window == 256) = true ∧
      nextIs (exec (.zhdr 0x78 0x5E) State.reset) (fun t => t.window == 32768) = true := by decide +kernel

/-- HV1, HV2, HV3, HV4, HV7 and HV8. -/
theorem test_zhdr_checks :
    [(0x79, 0x01, ErrorKind.invalidStreamMethod, 0, (0x202 : Word)),
      (0x88, 0x1C, .invalidStreamWindowSize, 8, 0x80302),
      (0x78, 0x00, .invalidStreamHeaderCheckBits, 0, 0x402),
      (0x78, 0xBB, .unexpectedStreamDictionary, 0, 0x502),
      (0x79, 0x00, .invalidStreamMethod, 0, 0x202),
      (0x88, 0x00, .invalidStreamWindowSize, 8, 0x80302)].all (fun r =>
      nextIs (exec (.zhdr r.1 r.2.1) State.reset)
        (fun t => failedWith State.reset t r.2.2.1 r.2.2.2.1 r.2.2.2.2)) = true := by decide +kernel

/-- V1 transaction 9; V1b and V4b, where any other trailer fails. -/
theorem test_adler :
    nextIs (exec (.adler 0x058C01F5) atTrailer)
        (fun t => t.st == .streamEnd && t.pos == 128 && t.status == 0) = true ∧
      [0x077C0204, 0x058C01F4].all (fun v => nextIs (exec (.adler v) atTrailer)
        (fun t => failedWith atTrailer t .invalidStreamChecksum 0 0x602)) = true := by decide +kernel

/-- V1 transaction 2, and BV1. -/
theorem test_bhdr_stored :
    nextIs (exec (.bhdrStored true 5 0xFFFA) { State.reset with st := .blockStart, pos := 16 })
        (fun t => t.st == .blockUncompressed && t.pos == 56 && t.blockEnd == 5 && t.final) = true ∧
      nextIs (exec (.bhdrStored true 5 0xFFFB) { State.reset with st := .blockStart, pos := 16 })
        (fun t => failedWith { State.reset with pos := 16 } t .invalidBlockElementCountParity 0 0x802)
        = true := by decide +kernel

/-- V2: from 16 to 19; BV2. -/
theorem test_bhdr_fixed :
    nextIs (exec (.bhdrFixed true) { State.reset with st := .blockStart, pos := 16 })
      (fun t => t.st == .blockCompressed && t.pos == 19 && t.rld.n == 200 && t.dd.n == 256) = true := by
  decide +kernel

theorem test_bhdr_reserved :
    nextIs (exec (.bhdrReserved true) State.reset)
      (fun t => failedWith State.reset t .invalidBlockType 0 0x702) = true := by decide +kernel

/-- BV3 and BV3b, BV4 and BV5. -/
theorem test_bhdr_dynamic_fails :
    nextIs (exec (.bhdrDynamic true 30 0 0 []) State.reset)
        (fun t => failedWith State.reset t .invalidHuffmanRunLiteralSymbolCount 287 0x011F0902) = true ∧
      nextIs (exec (.bhdrDynamic true 31 0 0 []) State.reset)
        (fun t => failedWith State.reset t .invalidHuffmanRunLiteralSymbolCount 288 0x01200902) = true ∧
      [[0, 0, 0, 0], [0, 0, 0, 1]].all (fun cl => nextIs (exec (.bhdrDynamic true 0 0 0 cl) State.reset)
        (fun t => failedWith State.reset t .invalidHuffmanCodelengthHuffmanTable 0 0xA02)) = true := by
  decide +kernel

/-- CV1's header: CL symbols 16, 17, 18 and 0 of length 2, from 16 to 45. -/
theorem test_bhdr_dynamic :
    nextIs (exec (.bhdrDynamic true 0 0 0 [2, 2, 2, 2]) { State.reset with st := .blockStart, pos := 16 })
      (fun t => t.st == .blockTables && t.pos == 45 && t.hlit == 257 && t.hdist == 1 && t.lengths == [] &&
        t.cld.lookup 0 == some ⟨0, 2⟩ && t.cld.lookup 0xFFFF == some ⟨18, 2⟩) = true := by
  decide +kernel

/-! ### Code lengths -/

/-- R321: one length appended. -/
theorem test_cl_lit :
    nextIs (exec (.clLit 2 9) (inLengths [3])) (fun t => t.lengths == [3, 9] && t.pos == 2) = true := by
  decide +kernel

/-- R322: the last length repeated; CV1: an error with no length yet. -/
theorem test_cl_extend :
    nextIs (exec (.clExtend 2 1) (inLengths [9, 3]))
        (fun t => t.lengths == [9, 3, 3, 3, 3, 3] && t.pos == 4) = true ∧
      nextIs (exec (.clExtend 2 1) (inLengths []))
        (fun t => failedWith (inLengths []) t .invalidHuffmanCodelengthSequence 0 0xB02) = true := by
  decide +kernel

/-- R323: 3 to 10 zeros. -/
theorem test_cl_zeros3 :
    nextIs (exec (.clZeros3 2 7) (inLengths [1]))
      (fun t => t.lengths == 1 :: List.replicate 10 0 && t.pos == 5) = true := by decide +kernel

/-- R324: 11 to 138 zeros; CV2: past `HLIT + HDIST`. -/
theorem test_cl_zeros7 :
    nextIs (exec (.clZeros7 2 127) (inLengths []))
        (fun t => t.lengths == List.replicate 138 0 && t.pos == 9) = true ∧
      nextIs (exec (.clZeros7 2 127) (inLengths (List.replicate 138 0)))
        (fun t => failedWith (inLengths []) t .invalidHuffmanCodelengthSequence 0 0xB02) = true := by
  decide +kernel

/-- CV6: 256 zeros, then 1, 1, 1, 1 and 0 complete; CV5: a third distance code of length 1 fails. -/
theorem test_cl_completes :
    nextIs (exec (.clLit 2 0) (inLengths (List.replicate 256 0 ++ [1, 1, 1, 1])))
        (fun t => t.st == .blockCompressed && t.rld.lookup 0 == some ⟨256, 1⟩ &&
          t.dd.lookup 0xFFFF == some ⟨1, 1⟩ && t.pos == 2) = true ∧
      nextIs (exec (.clLit 2 1) (inLengths (List.replicate 256 0 ++ [1, 1, 1, 1])))
        (fun t => failedWith (inLengths []) t .invalidHuffmanTable 0 0xC02) = true := by decide +kernel

/-! ### Block data -/

theorem test_lit :
    nextIs (exec (.lit 8 0x48) inBlock) (fun t => t.out == [0x61, 0x62, 0x48] && t.pos == 8) = true := by
  decide +kernel

/-- A finite OUT_CAP holds the literal (R96). -/
theorem test_lit_hold :
    nextIs (exec (.lit 8 0x48) { inBlock with params := { Params.default with outCap := some 2 } })
      (fun t => t.out == [0x61, 0x62] && t.pos == 0 && t.status == 3 && t.activity == .idle) = true := by
  decide +kernel

/-- EOB by FINAL (R352). -/
theorem test_eob :
    nextIs (exec (.eob 7) { inBlock with final := true }) (fun t => t.st == .streamChecksum && t.pos == 7)
        = true ∧
      nextIs (exec (.eob 7) inBlock) (fun t => t.st == .blockStart) = true := by decide +kernel

/-- V1 transactions 3 and 8. -/
theorem test_byte :
    nextIs (exec (.byte 0x48) { State.reset with st := .blockUncompressed, pos := 56, blockEnd := 5 })
      (fun t => t.out == [0x48] && t.pos == 64 && t.st == .blockUncompressed) = true := by decide +kernel

theorem test_stored_end :
    nextIs (exec .storedEnd { atTrailer with st := .blockUncompressed, blockEnd := 5 })
      (fun t => t.st == .streamChecksum && t.pos == 96) = true := by decide +kernel

/-- The lengths of R144: base, and base with all extra bits set. -/
theorem test_run_lengths :
    [(Instr.run257 7, 3, 7), (.run264 7, 10, 7), (.run265 7 1, 12, 8), (.run268 7 0, 17, 8),
      (.run269 7 3, 22, 9), (.run272 7 0, 31, 9), (.run273 7 6, 41, 10), (.run276 7 7, 66, 10),
      (.run277 7 0, 67, 11), (.run280 8 15, 130, 12), (.run281 8 0, 131, 13), (.run284 8 31, 258, 13),
      (.run285 8, 258, 8)].all (fun r => nextIs (exec r.1 inBlock)
      (fun t => t.runCount == r.2.1 && t.runBits == r.2.2 && t.activity == .distance && t.pos == 0)) = true := by
  decide +kernel

/-- The base distances of R145. -/
theorem test_distance_bases :
    (List.range 30).map distBase = [1, 2, 3, 4, 5, 7, 9, 13, 17, 25, 33, 49, 65, 97, 129, 193, 257, 385, 513,
      769, 1025, 1537, 2049, 3073, 4097, 6145, 8193, 12289, 16385, 24577] := by decide

/-- An overlapping copy (R93): 5 bytes from 2 back. -/
theorem test_distance_copy :
    nextIs (exec (.dist1 5) { inBlock with activity := .distance, runCount := 5, runBits := 7 })
      (fun t => t.out == [0x61, 0x62, 0x61, 0x62, 0x61, 0x62, 0x61] && t.pos == 12 &&
        t.activity == .inflating) = true := by decide +kernel

/-- V5: distance 5 after 2 bytes. -/
theorem test_distance_too_far :
    nextIs (exec (.dist4 5 0) { inBlock with activity := .distance, runCount := 3, runBits := 7 })
      (fun t => failedWith inBlock t .invalidStringReference 0 0xD02 && t.out == [0x61, 0x62]) = true := by
  decide +kernel

theorem test_unassigned :
    [Instr.rl286 8, .rl287 8, .d30 5, .d31 5].all (fun i => nextIs (exec i inBlock)
      (fun t => failedWith inBlock t .invalidStringReference 0 0xD02)) = true := by decide +kernel

/-! ### Huffman tables -/

/-- LV1, LV2 and LV8; LV3 to LV7 fail in strict mode; LV6 and LV7 in normalizing mode. -/
theorem test_build :
    ((build [1, 1] .strict).map fun t => (t.n, t.z)) = some (256, 256) ∧
      build [2, 1, 3, 3] .strict = some ⟨256, 256, List.replicate 128 ⟨1, 1⟩ ++ List.replicate 64 ⟨0, 2⟩
        ++ List.replicate 32 ⟨2, 3⟩ ++ List.replicate 32 ⟨3, 3⟩⟩ ∧
      ((build [1, 2, 3, 4, 5, 6, 7, 8, 9, 9] .strict).map fun t => (t.n, t.z, t.fence, t.fold))
        = some (255, 383, 65280, 32385) ∧
      [[1, 1, 1], [1, 2], [1, 1, 2], [1], [0, 0]].all (fun l => build l .strict == none) = true ∧
      build [1] (.normalizing 30) = some ⟨256, 256, List.replicate 256 ⟨0, 1⟩⟩ ∧
      build [0, 0] (.normalizing 30) = some ⟨256, 256, List.replicate 256 ⟨30, 1⟩⟩ := by decide +kernel

/-! ### The unpacker (R406 to R418, their examples) -/

/-- The response payload of colours at one byte a component. -/
def px8 (cs : List (List Byte)) : List Byte := leBytes 4 cs.length ++ cs.flatten

/-- The response payload of colours at two bytes a component. -/
def px16 (cs : List (List Nat)) : List Byte := leBytes 4 cs.length ++ cs.flatten.flatMap (leBytes 2)

/-- UNPACK in progress at width `w`. -/
def at_ (w : Width) : State := { State.reset with activity := .unpacking, dst := w }

/-- Each row's instruction answers its payload. -/
def answers (w : Width) (rows : List (Instr × List Byte)) : Bool :=
  rows.all fun r => nextIs (exec r.1 (at_ w))
    (fun t => t.status == 0 && t.payload == r.2 && t.activity == .idle)

theorem test_indexed :
    answers .w16 ([Instr.fmtIndexed1, .fmtIndexed2, .fmtIndexed4, .fmtIndexed8].map fun f =>
      (f [⟨10, 20, 30, 40⟩, ⟨1, 2, 3, 4⟩] [1, 0],
        px16 [[257, 514, 771, 1028], [2570, 5140, 7710, 10280]])) = true ∧
      nextIs (exec (.fmtIndexed8 [⟨10, 20, 30, 40⟩, ⟨1, 2, 3, 4⟩] [1, 0, 2]) (at_ .w16))
        (fun t => t.status == 0xF02 && t.payload == []) = true := by decide +kernel

/-- `NP` outside 1..256 is refused (R400). -/
theorem test_indexed_refused :
    [Instr.fmtIndexed1, .fmtIndexed2, .fmtIndexed4, .fmtIndexed8].all (fun f =>
      refusedBy (exec (f [] []) (at_ .w8)) .paletteCount) = true := by decide +kernel

theorem test_grey :
    answers .w8 [(.fmtV1 [0, 1, 2], px8 [[0, 0, 0, 255], [255, 255, 255, 255], [254, 254, 254, 255]]),
      (.fmtV2 [3], px8 [[255, 255, 255, 255]]), (.fmtV4 [0x0A], px8 [[0xAA, 0xAA, 0xAA, 0xFF]]),
      (.fmtV8 [0x10], px8 [[16, 16, 16, 255]]),
      (.fmtV16 [0x12, 0x34], px8 [[0x12, 0x12, 0x12, 0xFF]])] = true ∧
      answers .w16 [(.fmtV2 [2], px16 [[0xAAAA, 0xAAAA, 0xAAAA, 0xFFFF]])] = true := by decide +kernel

theorem test_grey_key :
    answers .w8 [(.fmtV8Key 0x10 [0x10, 0x11], px8 [[16, 16, 16, 0], [17, 17, 17, 255]]),
      (.fmtV1Key 1 [0, 1], px8 [[0, 0, 0, 255], [255, 255, 255, 0]]),
      (.fmtV2Key 2 [2], px8 [[0xAA, 0xAA, 0xAA, 0]]), (.fmtV4Key 2 [2], px8 [[0x22, 0x22, 0x22, 0]])]
      = true ∧
      answers .w16 [(.fmtV16Key 0x1234 [0x12, 0x34, 0x12, 0x35],
        px16 [[0x1234, 0x1234, 0x1234, 0], [0x1235, 0x1235, 0x1235, 0xFFFF]])] = true := by decide +kernel

theorem test_colour8 :
    answers .w8 [(.fmtVa8 [0x40, 0x80], px8 [[0x40, 0x40, 0x40, 0x80]]),
      (.fmtVa16 [0x40, 0x00, 0x80, 0x01], px8 [[0x40, 0x40, 0x40, 0x80]]),
      (.fmtRgb8 [1, 2, 3, 4, 5], px8 [[1, 2, 3, 255]]),
      (.fmtRgb16 [0, 1, 0, 2, 0, 3], px8 [[0, 0, 0, 255]]),
      (.fmtRgb8Key 1 2 3 [1, 2, 3, 1, 2, 4], px8 [[1, 2, 3, 0], [1, 2, 4, 255]]),
      (.fmtRgba8 [0xFF, 0, 0, 0x80, 0, 0xFF, 0, 0xFF, 9], px8 [[255, 0, 0, 128], [0, 255, 0, 255]])]
      = true := by decide +kernel

theorem test_colour16 :
    answers .w16 [(.fmtRgba8 [0xFF, 0, 0, 0x80, 0, 0xFF, 0, 0xFF],
        px16 [[65535, 0, 0, 32896], [0, 65535, 0, 65535]]),
      (.fmtRgb16Key 0x1234 0x5678 0x9ABC
          [0x12, 0x34, 0x56, 0x78, 0x9A, 0xBC, 0x12, 0x34, 0x56, 0x78, 0x9A, 0xBD],
        px16 [[0x1234, 0x5678, 0x9ABC, 0], [0x1234, 0x5678, 0x9ABD, 0xFFFF]])] = true ∧
      answers .w64 [(.fmtRgba16 [0xAB, 0xCD, 1, 2, 3, 4, 5, 6], leBytes 4 1 ++ [0xABCDABCDABCDABCD,
        0x0102010201020102, 0x0304030403040304, 0x0506050605060506].flatMap (leBytes 8))] = true := by
  decide +kernel

/-- ADAPT: the examples of R403. -/
theorem test_adapt :
    [adapt 2 16 2, adapt 4 8 0x0A, adapt 16 8 0x1234, adapt 16 32 0x1234, adapt 8 64 0x80]
      = [0xAAAA, 0xAA, 0x12, 0x12341234, 0x8080808080808080] := by decide +kernel

theorem test_unsupported :
    nextIs (exec (.fmtUnsupported ⟨0x44, [], [], [7]⟩) (at_ .w8)) (fun t => t.status == 0xE02) = true ∧
      refusedBy (exec (.fmtUnsupported ⟨0x103, [], [], []⟩) (at_ .w8)) .paletteCount = true := by
  decide +kernel

/-- R350, R353: symbols past 287 and past 31 raise as 286 and 30 do. -/
theorem test_symbols_past_the_alphabets :
    nextIs (step { inBlock with input := [0, 0], rld := ⟨256, 256, List.replicate 256 ⟨300, 1⟩⟩ })
        (fun t => t.err == some ⟨.invalidStringReference, 0⟩) = true ∧
      nextIs (step { inBlock with
          input := [0, 0], activity := .distance, dd := ⟨256, 256, List.replicate 256 ⟨40, 1⟩⟩ })
        (fun t => t.err == some ⟨.invalidStringReference, 0⟩) = true := by decide +kernel

/-- R221, R490: NEW runs and clears the refusal mark; a READ runs and keeps it. -/
theorem test_refusal_mark :
    nextIs (step { State.reset with refusalMark := true, port := [0, 0, 0, 0] })
        (fun t => t.refusalMark == false) = true ∧
      nextIs (step { State.reset with refusalMark := true, port := [7, 0, 0, 0] })
        (fun t => t.refusalMark && t.payload == [0, 0, 0, 0]) = true := by decide +kernel

/-! ### Bits and checksums -/

/-- Adler-32 of "", "Hello", "Hello World!" and "ab" (V1, V2b, V5). -/
theorem test_adler_values :
    [adler [], adler hello, adler [0x61, 0x62],
      adler (hello ++ [0x20, 0x57, 0x6F, 0x72, 0x6C, 0x64, 0x21])] =
      [1, 0x058C01F5, 0x012600C4, 0x1C49043E] := by decide +kernel


/-! ### Witnesses: a state and operands that meet the hypotheses of each statement -/

theorem next_of_nextIs {r : Result} {p : State → Bool} (h : nextIs r p = true) : ∃ t, r = .next t := by
  cases r with
  | next t => exact ⟨t, rfl⟩
  | fault f => cases h
  | refused f => cases h

/-- A PUSH of a zlib header in progress. -/
def started : State :=
  { State.reset with input := [0x78, 0x01], activity := .inflating, atoms := [0x0178, 0, 0, 0] }

/-- The distance half of a token in a fixed block: symbol 0 is next. -/
def inToken : State :=
  { inBlock with activity := .distance, runCount := 3, runBits := 0, input := [0, 0], atoms := [0, 0, 0, 0] }

/-- A session that failed with no output, a NEW on its port. -/
def failedSession : State :=
  { State.reset with st := .failed, err := some ⟨.invalidStreamMethod, 0⟩, port := [0, 0, 0, 0] }

theorem started_logical : started.Logical :=
  ⟨by decide, by decide, by decide, by decide, by decide, by decide, fun _ => rfl, nofun, nofun, .inl rfl⟩

theorem inToken_logical : inToken.Logical :=
  ⟨by decide, by decide, by decide, by decide, by decide, ⟨nofun, nofun⟩, nofun, fun _ => rfl,
    fun _ => by decide, .inr ⟨7, by decide, rfl⟩⟩

theorem failedSession_logical : failedSession.Logical :=
  ⟨by decide, by decide, by decide, by decide, by decide, ⟨fun _ => rfl, fun _ => rfl⟩, nofun, nofun, nofun, .inl rfl⟩

theorem started_physical : started.Physical := ⟨by decide, by decide, by decide, by decide⟩

theorem started_tables : started.Tables :=
  ⟨by decide, nofun, nofun, nofun, nofun, nofun, nofun, nofun, nofun, fun _ => nofun⟩

theorem inToken_rld : inToken.rld = fixedRl := by simp only [inToken, inBlock]

theorem inToken_dd : inToken.dd = fixedD := by simp only [inToken, inBlock]

theorem inToken_tables : inToken.Tables :=
  ⟨by decide, nofun, nofun, nofun, fun _ => inToken_rld ▸ Laws.fixedRl_ok,
    fun _ => inToken_dd ▸ Laws.fixedD_ok, nofun, nofun, fun _ => rfl, nofun⟩

theorem started_steps : ∃ t, step started = .next t :=
  next_of_nextIs (p := fun _ => true) (by decide +kernel)

theorem inToken_steps : ∃ t, step inToken = .next t :=
  next_of_nextIs (p := fun _ => true) (by decide +kernel)

theorem failedSession_steps : ∃ t, step failedSession = .next t :=
  next_of_nextIs (p := fun _ => true) (by decide +kernel)

/-- An UNPACK in progress with a v8 block, empty, on the port. -/
def unpackingV8 : State :=
  { State.reset with activity := .unpacking, port := [0x80, 0, 0, 0, 0, 0, 0, 0] }

/-- A PUSH in progress in state `st` with this input. -/
def pushing (st : StTag) (input : List Byte) (p : Nat) : State :=
  { State.reset with st := st, activity := .inflating, input := input, pos := p }

theorem witness_StepRunsTheDecodedInstruction_port :
    (State.reset.activity = .idle ∧ decodeCommand State.reset.port = none) ∧
      (failedSession.activity = .idle ∧
        decodeCommand failedSession.port = some (.new, [])) ∧
      (unpackingV8.activity = .unpacking ∧
        decodeFormat unpackingV8.port = some (.fmtV8 [], [])) ∧
      decodeFormat { unpackingV8 with port := [] }.port = none := by decide +kernel

theorem witness_StepRunsTheDecodedInstruction_stream :
    (started.activity = .inflating ∧
      decodeElement started.elementCtx = .instr (.zhdr 0x78 0x01)) ∧
      (inToken.activity = .distance ∧
        decodeElement inToken.elementCtx = .instr (.dist0 5)) ∧
      decodeElement (pushing .streamStart [0x78] 0).elementCtx = .needMore ∧
      decodeElement (pushing .streamEnd [] 0).elementCtx = .done := by decide +kernel

theorem witness_LogicalInvariantKept : ∃ s t : State, s.Logical ∧ step s = .next t :=
  started_steps.elim fun t h => ⟨started, t, started_logical, h⟩

theorem witness_LogicalInvariantKept_token : ∃ s t : State, s.Logical ∧ step s = .next t :=
  inToken_steps.elim fun t h => ⟨inToken, t, inToken_logical, h⟩

theorem witness_PhysicalInvariantKept : ∃ s t : State, s.Logical ∧ s.Physical ∧ step s = .next t :=
  started_steps.elim fun t h => ⟨started, t, started_logical, started_physical, h⟩

theorem witness_TablesInvariantKept : ∃ s t : State, s.Tables ∧ step s = .next t :=
  inToken_steps.elim fun t h => ⟨inToken, t, inToken_tables, h⟩

theorem witness_ResetMeetsTheInvariants : started.params.wf = true ∧ ∃ t, exec .new started = .next t :=
  ⟨by decide, _, rfl⟩

theorem witness_NoFaultUnderTheTables : inToken.Tables := inToken_tables

theorem witness_PhysicalFieldsAreNotObservable :
    ∃ s s' : State, s ≠ s' ∧ s.logical = s'.logical :=
  ⟨started, { started with storageCap := 16 }, by decide, by decide⟩

/-- The first PUSH reads the header and needs more; the second, of no bytes, needs more at once. -/
theorem witness_SplittingAPushChangesNothing :
    started.Logical ∧ started.Tables ∧ started.params.inCap = none ∧
      ∃ s1 t t1 u : State, exec (.push [0x01]) started = .next s1 ∧
        advanceLoop 2 s1 = .next t ∧ t.activity = .idle ∧ t.status ≠ statusNeedsPull ∧
        exec (.push []) t = .next t1 ∧ advanceLoop 2 t1 = .next u ∧ u.activity = .idle :=
  ⟨started_logical, started_tables, rfl, _, _, _, _, rfl, rfl, by decide, by decide, rfl, rfl, by decide⟩

theorem witness_PushEndsWithinTwiceTheBits :
    started.Tables ∧ started.activity = .inflating ∧
      started.out.length + 258 * avail started.input started.pos < 2 ^ started.params.countWidth :=
  ⟨started_tables, by decide, by decide⟩

theorem witness_CommandsDecodeAsEncoded :
    (Instr.premul .w64 5 7).wf = true ∧ (encodeCommand (.premul .w64 5 7)).isSome = true ∧
      (Instr.reservedOp 8).wf = true ∧ (encodeCommand (.reservedOp 8)).isSome = true := by decide

theorem witness_DecodedCommandsAreEncodings :
    decodeCommand [0x02, 0xFF, 0xFF, 0xFF, 0x00] = some (.pull 0xFFFFFF, [0x00]) := by decide +kernel

theorem witness_OperandBlocksDecodeAsEncoded :
    (Instr.fmtV1Key 1 [7]).wf = true ∧ blockOf (.fmtV1Key 1 [7]) = some ⟨0x210, [1], [], [7]⟩ ∧
      decodeFormat [0x44, 0, 0, 0, 0, 0, 0, 0] = some (.fmtUnsupported ⟨0x44, [], [], []⟩, []) := by
  decide +kernel

theorem witness_ElementsDecodeAsEncoded :
    (Instr.zhdr 0x78 0x01).wf = true ∧ started.elementCtx.owns (.zhdr 0x78 0x01) ∧
      ∃ bits, encodeElement started.elementCtx (.zhdr 0x78 0x01) = some bits ∧
        holdsBits started.elementCtx.input started.elementCtx.pos bits :=
  ⟨rfl, ⟨rfl, rfl⟩, _, rfl, by decide, by decide⟩

theorem inToken_gives : inToken.elementCtx.dd.gives 0 5 :=
  ⟨Laws.fixedD_ok.1, List.mem_of_getElem? (i := 0) (by decide +kernel)⟩

theorem witness_ElementsDecodeAsEncoded_symbol :
    (Instr.dist0 5).wf = true ∧ inToken.elementCtx.owns (.dist0 5) ∧
      ∃ bits, encodeElement inToken.elementCtx (.dist0 5) = some bits ∧
        holdsBits inToken.elementCtx.input inToken.elementCtx.pos bits :=
  ⟨rfl, ⟨by decide, inToken_gives⟩, _, rfl, by decide +kernel, by decide +kernel⟩

theorem witness_DecodedElementsAreWhole :
    inToken.Tables ∧ inToken.activity = .distance ∧
      decodeElement inToken.elementCtx = .instr (.dist0 5) :=
  ⟨inToken_tables, rfl, by decide +kernel⟩

/-- A complete code with lengths 1 to 15, its last symbol at the longest length. -/
theorem witness_CodesAreCanonical :
    (build [1, 2, 3, 4, 5, 6, 7, 8, 9, 10, 11, 12, 13, 14, 15, 15] .strict).isSome = true ∧
      ([1, 2, 3, 4, 5, 6, 7, 8, 9, 10, 11, 12, 13, 14, 15, 15] : List Nat).getD 15 0 = 15 := by
  decide +kernel

theorem witness_BuiltTablesHaveTheirSize :
    (build [1, 1] .strict).isSome = true ∧ (build [3] (.normalizing 30)).isSome = true ∧
      (build fixedRlLengths .strict).isSome = true ∧ fixedRlLengths.length ≤ 288 := by decide +kernel

theorem witness_SmallDistanceListsAreDegenerate :
    (∀ x ∈ ([0, 0] : List Nat), x = 0) ∧
      (([0, 5] : List Nat).getD 1 0 ≠ 0 ∧ ∀ s' < 2, s' ≠ 1 → ([0, 5] : List Nat).getD s' 0 = 0) ∧
      (([1, 1] : List Nat).getD 0 0 ≠ 0 ∧ ([1, 1] : List Nat).getD 1 0 ≠ 0) := by decide

theorem witness_AtomReadsAreStreamReads : started.Physical ∧ 1 ≤ 16 ∧ 16 ≤ 16 :=
  ⟨started_physical, by decide, by decide⟩

theorem witness_ChecksumIsAdlerOfOut : started.Physical := started_physical

theorem witness_ReferenceLimitFollowsTheWindow :
    inToken.Logical ∧ inToken.params.windowCheck = .strict ∧
      ({ inToken with params := { Params.default with windowCheck := .resident } } : State).params.windowCheck
        = .resident := ⟨inToken_logical, rfl, rfl⟩

/-- `IN_CAP` unbounded, exactly met, and exceeded by one byte. -/
theorem witness_PushAppendsTheInput :
    started.st ≠ .failed ∧ (∀ c, started.params.inCap = some c → started.input.length + 1 - 2 * (started.pos / 16) ≤ c) ∧
      8 * (started.input.length + 1) < 2 ^ started.params.countWidth ∧
      started.input.length + 1 - 2 * (started.pos / 16) ≤ 3 ∧
      2 < started.input.length + 1 - 2 * (started.pos / 16) := by
  exact ⟨by decide, nofun, by decide, by decide, by decide⟩

/-- The least PUSH past 64-bit positions after two bytes, and the greatest that is not. -/
theorem witness_PushAppendsTheInput_counter :
    ∃ data data' : List Byte, data.length = data'.length + 1 ∧
      2 ^ started.params.countWidth ≤ 8 * (started.input.length + data.length) ∧
      8 * (started.input.length + data'.length) < 2 ^ started.params.countWidth := by
  have hw : started.params.countWidth = 64 ∧ started.input.length = 2 := by decide
  refine ⟨List.replicate (2 ^ 61 - 2) 0, List.replicate (2 ^ 61 - 3) 0, ?_⟩
  rw [List.length_replicate, List.length_replicate, hw.1, hw.2]
  decide

/-- Palettes of 1, 256, 0 and 257 entries, and a format without one. -/
theorem witness_UnpackTakesItsBlockAndAnswersColours :
    (0x83 : Word).toNat % 16 = 3 ∧ (0x86 : Word).toNat % 16 ≠ 3 ∧
      [1, 256].all (fun n => decide (1 ≤ (List.replicate n (⟨0, 0, 0, 0⟩ : Rgba)).length) &&
        decide ((List.replicate n (⟨0, 0, 0, 0⟩ : Rgba)).length ≤ 256)) = true ∧
      (List.replicate 0 (⟨0, 0, 0, 0⟩ : Rgba)).length = 0 ∧
      256 < (List.replicate 257 (⟨0, 0, 0, 0⟩ : Rgba)).length := by
  simp only [List.length_replicate]
  decide

theorem witness_PullReleasesExactlyTheBytes :
    failedSession.st = .failed ∧ atTrailer.st ≠ .failed ∧ (5 : BitVec 24).toNat ≤ atTrailer.out.length - atTrailer.currentIndex ∧
      atTrailer.out.length - atTrailer.currentIndex < (6 : BitVec 24).toNat := by decide

theorem witness_RetainedCountsAndFinishEnds :
    ({ State.reset with st := .streamEnd } : State).st = .streamEnd ∧ State.reset.st ≠ .streamEnd ∧
      State.reset.st ≠ .failed ∧ failedSession.st = .failed := by decide

theorem witness_FailedRefusesTheSession : failedSession.st = .failed ∧ (0x28 : Byte).toNat % 4 = 0 := by
  decide

theorem witness_ReadAnswersTheRegisters :
    (0xFC : Byte).toNat % 4 = 0 ∧ (0x01 : Byte).toNat % 4 ≠ 0 ∧ started.st ≠ .failed ∧
      failedSession.err = some ⟨.invalidStreamMethod, 0⟩ ∧ (inLengths []).st = .blockTables ∧
      0x28 < 0x2C := by decide

theorem witness_PremulRoundsTheProduct :
    [(Width.w8, (0xFF : BitVec 64)), (.w16, 0xFFFF), (.w32, 0xFFFFFFFF), (.w64, 0xFFFFFFFFFFFFFFFF)].all
      (fun r => decide (r.2.toNat ≤ widthMax r.1) && decide (r.2.toNat = widthMax r.1)) = true ∧
      (0 : BitVec 64).toNat ≤ widthMax .w8 := by decide

/-- The least word of each reserved class. -/
theorem witness_ReservedWordsAreRefused :
    8 ≤ (0x8 : Word).toNat % 16 ∧ (0x10 : Word).toNat / 16 % 16 ≠ 0 ∧
      ((0x100 : Word).toNat % 16 = 0 ∧ (0x100 : Word).toNat / 256 ≠ 0) ∧
      ((0x103 : Word).toNat % 16 = 3 ∧ (0x103 : Word).toNat / 256 ≠ 0) ∧
      ((0x104 : Word).toNat % 16 = 4 ∧ (0x104 : Word).toNat / 256 ≠ 0) ∧
      ((0x805 : Word).toNat % 16 = 5 ∧ (0x805 : Word).toNat / 2048 ≠ 0) ∧
      ((0x406 : Word).toNat % 16 = 6 ∧ (0x406 : Word).toNat / 1024 ≠ 0) ∧
      ((0x10007 : Word).toNat % 16 = 7 ∧ (0x10007 : Word).toNat / 65536 ≠ 0) ∧
      (0x29 : Byte).toNat % 4 ≠ 0 ∧ ((0x2C : Byte).toNat % 4 = 0 ∧ 0x28 < (0x2C : Byte).toNat) := by decide

theorem witness_RaiseWritesOnlyTheError : (65535 : Nat) < 2 ^ 16 := by decide

/-- 15 bits left and 16; HV5 and V1. -/
theorem witness_ZlibHeaderOpensTheStream :
    (∀ p ∈ [0, 1], (pushing .streamStart [0x78, 0x01] p).elementCtx.distance = false ∧
      (pushing .streamStart [0x78, 0x01] p).elementCtx.tag = .streamStart) ∧
      avail [0x78, 0x01] 1 < 16 ∧ 16 ≤ avail [0x78, 0x01] 0 ∧
      [((0x08 : Byte), (0x1D : Byte)), (0x78, 0x01)].all (fun h => decide (h.1.toNat % 16 = 8) &&
        decide (h.1.toNat / 16 < 8) && decide ((h.1.toNat * 256 + h.2.toNat) % 31 = 0) &&
        decide (h.2.toNat / 32 % 2 = 0)) = true := by decide

/-- HV1, HV2, HV3 and HV4; the greatest legal CINFO; R262's accepted example. -/
theorem witness_HeaderChecksRaiseInOrder :
    (0x79 : Byte).toNat % 16 ≠ 8 ∧ ((0x88 : Byte).toNat % 16 = 8 ∧ 8 ≤ (0x88 : Byte).toNat / 16) ∧
      ((0x78 : Byte).toNat % 16 = 8 ∧ (0x78 : Byte).toNat / 16 < 8 ∧
        ((0x78 : Byte).toNat * 256 + (0x00 : Byte).toNat) % 31 ≠ 0) ∧
      ((0x78 : Byte).toNat % 16 = 8 ∧ (0x78 : Byte).toNat / 16 < 8 ∧
        ((0x78 : Byte).toNat * 256 + (0xBB : Byte).toNat) % 31 = 0 ∧ (0xBB : Byte).toNat / 32 % 2 = 1) ∧
      ((0x08 : Byte).toNat % 16 = 8 ∧ (0x08 : Byte).toNat / 16 < 8 ∧
        ((0x08 : Byte).toNat * 256 + (0x1D : Byte).toNat) % 31 = 0 ∧ (0x1D : Byte).toNat / 32 % 2 = 0) := by
  decide

/-- From bit 3, 5 pad bits and 32: 29 bits left and 37; V1's trailer, and another. -/
theorem witness_TrailerMustBeTheChecksum :
    (∀ n ∈ [4, 5], (pushing .streamChecksum (List.replicate n 0) 3).elementCtx.distance = false ∧
      (pushing .streamChecksum (List.replicate n 0) 3).elementCtx.tag = .streamChecksum) ∧
      avail (List.replicate 4 0) 3 < (8 - 3 % 8) % 8 + 32 ∧
      (8 - 3 % 8) % 8 + 32 ≤ avail (List.replicate 5 0) 3 ∧
      (0x058C01F5 : Word).toNat = adler atTrailer.out ∧ (0x058C01F4 : Word).toNat ≠ adler atTrailer.out := by
  decide +kernel

/-- A stored header at bit 0 with 32 and with 40 bits pushed; a complement, and BV1. -/
theorem witness_StoredHeaderNeedsTheComplement :
    (∀ b ∈ [[0x01, 0, 0, 0], [0x01, 5, 0, 0xFA, 0xFF]], (pushing .blockStart b 0).elementCtx.distance = false ∧
      (pushing .blockStart b 0).elementCtx.tag = .blockStart ∧ 3 ≤ avail b 0 ∧ inBits b (0 + 1) 2 = 0) ∧
      avail [0x01, 0, 0, 0] 0 < 3 + (8 - (0 + 3) % 8) % 8 + 32 ∧
      3 + (8 - (0 + 3) % 8) % 8 + 32 ≤ avail [0x01, 5, 0, 0xFA, 0xFF] 0 ∧
      (0x0005 : Half).toNat = 0xFFFF - (0xFFFA : Half).toNat ∧
      (0x0005 : Half).toNat ≠ 0xFFFF - (0xFFFB : Half).toNat := by decide +kernel

/-- Two bits left and three; the fixed and the reserved type. -/
theorem witness_FixedAndReservedHeadersNeedThreeBits :
    (∀ b ∈ [[0x60], [0xE0]], (pushing .blockStart b 5).elementCtx.distance = false ∧
      (pushing .blockStart b 5).elementCtx.tag = .blockStart ∧ 3 ≤ avail b 5) ∧
      avail [0x60] 6 < 3 ∧ inBits [0x60] (5 + 1) 2 = 1 ∧ inBits [0xE0] (5 + 1) 2 = 3 := by
  decide +kernel

/-- 16 bits left and 17; HLIT 287 and 286; 28 bits left and 29 for HCLEN 4. -/
theorem witness_DynamicHeaderIsReadInStages :
    (∀ b ∈ [[0xF5, 0], [0xF5, 0, 0], [0xED, 0, 0], [0xED, 0, 0, 0]],
      (pushing .blockStart b 0).elementCtx.distance = false ∧
      (pushing .blockStart b 0).elementCtx.tag = .blockStart ∧ 3 ≤ avail b 0 ∧ inBits b (0 + 1) 2 = 2) ∧
      avail [0xF5, 0] 0 < 17 ∧ 17 ≤ avail [0xF5, 0, 0] 0 ∧
      286 < inBits [0xF5, 0, 0] (0 + 3) 5 + 257 ∧ inBits [0xED, 0, 0] (0 + 3) 5 + 257 ≤ 286 ∧
      avail [0xED, 0, 0] 0 < 17 + 3 * (inBits [0xED, 0, 0] (0 + 13) 4 + 4) ∧
      17 + 3 * (inBits [0xED, 0, 0, 0] (0 + 13) 4 + 4) ≤ avail [0xED, 0, 0, 0] 0 := by decide +kernel

/-- HLIT 287 and 286; CV1's code lengths, and all zero (BV4). -/
theorem witness_DynamicHeaderBuildsTheCodeLengthTable :
    286 < (30 : BitVec 5).toNat + 257 ∧ (29 : BitVec 5).toNat + 257 ≤ 286 ∧
      ([2, 2, 2, 2] : List (BitVec 3)).length = (0 : BitVec 4).toNat + 4 ∧
      (∀ i < 19, ([2, 0, 0, 0, 0, 0, 0, 0, 0, 0, 0, 0, 0, 0, 0, 0, 2, 2, 2] : List Nat).getD (clOrder.getD i 0) 0 =
        if i < ([2, 2, 2, 2] : List (BitVec 3)).length then (([2, 2, 2, 2] : List (BitVec 3)).getD i 0).toNat else 0) ∧
      (build [2, 0, 0, 0, 0, 0, 0, 0, 0, 0, 0, 0, 0, 0, 0, 0, 2, 2, 2] .strict).isSome = true ∧
      build (List.replicate 19 0) .strict = none := by decide +kernel

/-- Each element, and the three ends: past `HLIT + HDIST`, before it, and at it with and without tables
(CV5, CV6). -/
theorem witness_CodeLengthElementsAppend :
    (inLengths [9]).lengths.getLast? = some 9 ∧
      (inLengths []).hlit.toNat + (inLengths []).hdist.toNat < 256 + 6 ∧
      0 + 1 < (inLengths []).hlit.toNat + (inLengths []).hdist.toNat ∧
      260 + 1 = (inLengths []).hlit.toNat + (inLengths []).hdist.toNat ∧
      (build (List.replicate 256 0 ++ [1, 1]) .strict).isSome = true ∧
      (build [1, 1, 0] (.normalizing 30)).isSome = true ∧ build [1, 1, 1] (.normalizing 30) = none := by
  decide +kernel

/-- A context in a fixed block (`distance` its second half) with this input. -/
def coded (distance : Bool) (input : List Byte) : ElementCtx :=
  { ctx .blockCompressed distance [] with input := input }

/-- The fixed tables' entries at the symbols' ends, their bits all pushed or not. -/
theorem witness_CodedElementsAreRead :
    ((coded false []).distance = false ∧ (coded false []).tag = .blockCompressed ∧
        (coded true []).distance = true) ∧
      ([([0xFF, 0xFF], 255, 9), ([0x00], 256, 7), ([0x40], 257, 7), ([0xA3], 285, 8), ([0x63], 286, 8),
        ([0xE3], 287, 8)].all fun r => (coded false r.1).rld.decode r.1 0 == some ⟨r.2.1, r.2.2⟩ &&
          decide (r.2.2 ≤ avail r.1 0)) = true ∧
      ((coded false [0xFF]).rld.decode [0xFF] 0).any (fun e => decide (avail [0xFF] 0 < e.len)) = true ∧
      ([([0x00], 0, 5), ([0x17], 29, 5), ([0x0F], 30, 5), ([0x1F], 31, 5)].all fun r =>
        (coded true r.1).dd.decode r.1 0 == some ⟨r.2.1, r.2.2⟩ && decide (r.2.2 ≤ avail r.1 0)) = true ∧
      avail [0x17, 0] 0 < 5 + distExtra 29 ∧ 5 + distExtra 29 ≤ avail [0x17, 0, 0] 0 ∧
      avail [0x63] 1 < 8 + runExtra 27 ∧ 7 + runExtra 0 ≤ avail [0x40] 0 := by decide +kernel

theorem witness_CodedElementsAreRead_code_lengths :
    ((ctx .blockTables false []).distance = false ∧ (ctx .blockTables false []).tag = .blockTables) ∧
      (build [0, 0, 0, 0, 0, 3, 0, 0, 0, 0, 0, 0, 0, 0, 0, 0, 1, 2, 3] .strict).any (fun t =>
        t.decode [0x00] 0 == some ⟨16, 1⟩ && t.decode [0x01] 0 == some ⟨17, 2⟩ &&
          t.decode [0x07] 0 == some ⟨18, 3⟩ && t.decode [0x03] 0 == some ⟨5, 3⟩) = true ∧
      avail [0x07] 0 < 3 + 7 ∧ 3 + 7 ≤ avail [0x07, 0] 0 := by decide +kernel

theorem inBlock_room : inBlock.roomFor 1 := ⟨nofun, by decide⟩

theorem witness_BytesAreAppended :
    inBlock.roomFor 1 ∧
      (({ inBlock with params := { Params.default with outCap := some 2 } } : State).params.outCap = some 2 ∧
        2 < inBlock.out.length - inBlock.startIndex + 1) ∧
      ((ctx .blockUncompressed false []).distance = false ∧ (ctx .blockUncompressed false []).tag = .blockUncompressed ∧
        (ctx .blockUncompressed false []).blockDone = false) ∧
      avail [0xA5] 1 < 8 ∧ 8 ≤ avail [0xA5] 0 :=
  ⟨inBlock_room, by decide, ⟨rfl, rfl, rfl⟩, by decide, by decide⟩

theorem witness_BlocksEndByTheFinalBit :
    (pushing .blockUncompressed [] 0).activity = .inflating ∧
      (pushing .blockUncompressed [] 0).st = .blockUncompressed ∧
      (pushing .blockUncompressed [] 0).out.length = (pushing .blockUncompressed [] 0).blockEnd := by decide

/-- The fixed codes of 286 and 287, and of 30 and 31, all bits pushed. -/
theorem witness_UnassignedSymbolsRaise :
    (inBlock.activity = .inflating ∧ inBlock.st = .blockCompressed ∧
      ([([0x63], 286), ([0xE3], 287)].all fun r =>
        inBlock.rld.decode r.1 0 == some ⟨r.2, 8⟩ && decide (8 ≤ avail r.1 0)) = true) ∧
    (inToken.activity = .distance ∧
      ([([0x0F], 30), ([0x1F], 31)].all fun r =>
        inToken.dd.decode r.1 0 == some ⟨r.2, 5⟩ && decide (5 ≤ avail r.1 0)) = true) := by decide +kernel

/-- The copy's three ends: within the limit and the room, past the limit, within the limit but not the room. -/
theorem witness_DistanceSymbolsCopyBack :
    2 ≤ inToken.refLimit ∧ inToken.roomFor inToken.runCount ∧ inToken.refLimit < 3 ∧
      ({ inToken with params := { Params.default with outCap := some 4 } } : State).params.outCap = some 4 ∧
      4 < inToken.out.length - inToken.startIndex + inToken.runCount :=
  ⟨by decide, ⟨nofun, by decide⟩, by decide, rfl, by decide⟩

theorem full_window (o : List Byte) (h : o.length = 32768) :
    24577 + (8191 : BitVec 13).toNat ≤ State.refLimit { inToken with out := o } := by
  have e : State.refLimit { inToken with out := o } = min 32768 (o.length - 0) := rfl
  rw [e, h]
  decide

/-- The farthest distance, 32768, within a full window. -/
theorem witness_DistanceSymbolsCopyBack_far :
    ∃ s : State, 24577 + (8191 : BitVec 13).toNat ≤ s.refLimit :=
  ⟨_, full_window (List.replicate 32768 0) List.length_replicate⟩

theorem witness_IndexedFormatsLookUpThePalette :
    (∀ x ∈ ([0, 0xFF] : List Byte), x.toNat < (List.replicate 256 (⟨0, 0, 0, 0⟩ : Rgba)).length) ∧
      (∃ x ∈ ([0, 1] : List Byte), (List.replicate 1 (⟨0, 0, 0, 0⟩ : Rgba)).length ≤ x.toNat) ∧
      (List.replicate 0 (⟨0, 0, 0, 0⟩ : Rgba)).length = 0 ∧
      256 < (List.replicate 257 (⟨0, 0, 0, 0⟩ : Rgba)).length := by
  simp only [List.length_replicate]
  decide

theorem witness_GreyFormatsReplicateTheSample :
    (8, Instr.fmtV8 [7]) ∈ [(1, Instr.fmtV1 [7]), (2, .fmtV2 [7]), (4, .fmtV4 [7]), (8, .fmtV8 [7])] ∧
      (1, Instr.fmtV1Key 7 [7]) ∈ [(1, Instr.fmtV1Key 7 [7]), (2, .fmtV2Key 7 [7]), (4, .fmtV4Key 7 [7]),
        (8, .fmtV8Key 7 [7])] := by decide

theorem witness_UnlistedFormatsAreUnsupported :
    (0x44 : Word).toNat ∉ [0x13, 0x23, 0x43, 0x83, 0x10, 0x20, 0x40, 0x80, 0x100, 0x210, 0x220, 0x240, 0x280,
        0x300, 0x84, 0x104, 0x82, 0x102, 0x282, 0x302, 0x86, 0x106] ∧
      (0x103 : Word).toNat % 16 = 3 ∧ ([⟨0, 0, 0, 0⟩] : List Rgba).length = 1 ∧
      ([] : List Rgba).length = 0 := by decide

theorem witness_AdaptScalesFullRange :
    ((8 : Nat) ∈ [1, 2, 4, 8, 16] ∧ (8 : Nat) ∈ [8, 16, 32, 64]) ∧ (1 : Nat) < 64 ∧ (8 : Nat) < 16 ∧
      (1 : Nat) ≤ 2 ^ 1 - 1 ∧ (65535 : Nat) ≤ 2 ^ 16 - 1 := by decide

theorem witness_UnpackerLeavesTheInflatorAlone :
    (blockOf (.fmtV8 [7]) ≠ none ∧ ∃ t, exec (.fmtV8 [7]) inBlock = .next t) ∧
      (∃ t, exec (.unpack .w8) inBlock = .next t) ∧ (∃ t, exec (.premul .w8 1 1) inBlock = .next t) ∧
      (∃ t, exec (.stdIos .w8 ⟨0x86, [], [], []⟩) inBlock = .next t) ∧
      ∃ t, exec (.read 0) inBlock = .next t :=
  ⟨⟨nofun, _, rfl⟩, ⟨_, rfl⟩, ⟨_, rfl⟩, ⟨_, rfl⟩, _, rfl⟩

theorem witness_EachFieldHasItsWriters : Instr.eob 7 ≠ .new ∧ ∃ t, exec (.eob 7) inBlock = .next t :=
  ⟨nofun, _, rfl⟩

theorem witness_SessionsOnlyMoveForward :
    Instr.zhdr 0x78 0x01 ≠ .new ∧ started.Logical ∧ ∃ t, exec (.zhdr 0x78 0x01) started = .next t :=
  ⟨nofun, started_logical, next_of_nextIs (p := fun _ => true) (by decide +kernel)⟩

theorem witness_TransitionsFollowTheTable :
    started.Logical ∧ nextIs (step started) (fun t => t.st == .blockStart) = true ∧
      failedSession.Logical ∧ nextIs (step failedSession) (fun t => t.st == .streamStart) = true :=
  ⟨started_logical, by decide +kernel, failedSession_logical, by decide +kernel⟩

theorem pushing_logical (b : List Byte) : (pushing .streamStart b 0).Logical :=
  ⟨Nat.zero_le _, Nat.le_refl _, Nat.le_refl _, Nat.le_refl _, Nat.le_refl _, ⟨nofun, nofun⟩, fun _ => rfl,
    nofun, nofun, .inl rfl⟩

/-- HV1's header fails; one byte of a header holds. -/
theorem witness_ErrorsArePreciseAndHoldsKeepTheState :
    ((pushing .streamStart [0x79, 0x01] 0).Logical ∧ (pushing .streamStart [0x79, 0x01] 0).st ≠ .failed ∧
      nextIs (step (pushing .streamStart [0x79, 0x01] 0)) (fun t => t.st == .failed) = true) ∧
    ((pushing .streamStart [0x78] 0).Logical ∧ (pushing .streamStart [0x78] 0).activity = .inflating ∧
      nextIs (step (pushing .streamStart [0x78] 0)) (fun t => t.activity == .idle && t.st == .streamStart) = true) :=
  ⟨⟨pushing_logical _, by decide, by decide +kernel⟩, pushing_logical _, rfl, by decide +kernel⟩

theorem witness_OnlyNewLeavesFailed :
    failedSession.Logical ∧ failedSession.st = .failed ∧ ∃ t, step failedSession = .next t :=
  ⟨failedSession_logical, rfl, failedSession_steps⟩

end Sys2Proof.Tests
end

section
/-! Facts the invariants share: the element a PUSH decodes, the end of a block, and the append of output. -/

namespace Sys2Proof.Machine

open Sys2Proof.Laws

variable {s t : State} {i : Instr}

/-! ### Facts about the element a PUSH decodes -/

theorem elementCtx_distance : s.elementCtx.distance = true ↔ s.activity = .distance := by
  simp [State.elementCtx]

theorem elementCtx_pos_distance (h : s.activity = .distance) :
    s.elementCtx.pos = s.pos + s.runBits := if_pos h

theorem elementCtx_pos_plain (h : s.activity ≠ .distance) : s.elementCtx.pos = s.pos := if_neg h

/-- A decoded element's bits, counted from `P`, are pushed (R104, R150). -/
theorem pos_add_elementBits_le (hp : s.pos ≤ 8 * s.input.length) (hd : Decoded s.elementCtx i) :
    s.pos + elementBits s.pos i ≤ 8 * s.input.length := by
  by_cases ha : s.activity = .distance
  · have hb := hd.bits_at (p := s.pos) fun h => by simp [elementCtx_distance.2 ha] at h
    rw [elementCtx_pos_distance ha] at hb
    simp only [avail, State.elementCtx] at hb
    omega
  · have hb := hd.bits
    rw [elementCtx_pos_plain ha] at hb
    simp only [avail, State.elementCtx] at hb
    omega

/-- In the distance half the bits of the whole token are pushed (R353). -/
theorem pos_add_tokenBits_le (ha : s.activity = .distance)
    (hp : s.pos + s.runBits ≤ 8 * s.input.length) (hd : Decoded s.elementCtx i) :
    s.pos + (s.runBits + elementBits s.pos i) ≤ 8 * s.input.length := by
  have hb := hd.bits_at (p := s.pos) fun h => by simp [elementCtx_distance.2 ha] at h
  rw [elementCtx_pos_distance ha] at hb
  simp only [avail, State.elementCtx] at hb
  omega

/-- A decoded element is one the current state owns (R222). -/
theorem elementTag_eq_st (h : s.activity = .distance → s.st = .blockCompressed)
    (hd : Decoded s.elementCtx i) : elementTag i = s.st :=
  hd.tag fun hc => h (elementCtx_distance.1 hc)

theorem elementTag_ne_failed (i : Instr) : elementTag i ≠ .failed := by
  cases i <;> exact nofun

/-- The elements of the distance half of a token (R353, R356). -/
def endsToken (i : Instr) : Prop := distanceSymbol i = true ∨ ∃ len, i = .d30 len ∨ i = .d31 len

theorem endsToken_tag (h : endsToken i) : elementTag i = .blockCompressed := by
  rcases h with h | ⟨_, rfl | rfl⟩
  · exact elementTag_dist h
  · rfl
  · rfl

theorem not_endsToken_of_tag (h : elementTag i ≠ .blockCompressed) : ¬endsToken i :=
  fun he => h (endsToken_tag he)

theorem not_endsToken_of_run (h : runSymbol i = true) : ¬endsToken i := by
  rintro (hd | ⟨_, rfl | rfl⟩)
  · exact absurd (run_not_distance h) (by simp [hd])
  · cases h
  · cases h

/-- An element that ends no token is decoded at an ADVANCE boundary. -/
theorem activity_ne_distance (hd : Decoded s.elementCtx i) (hi : ¬endsToken i) :
    s.activity ≠ .distance :=
  fun h => hi (hd.distance_half (elementCtx_distance.2 h))

theorem distanceSymbol_activity (hd : Decoded s.elementCtx i) (hi : distanceSymbol i = true) :
    s.activity = .distance := elementCtx_distance.1 (hd.half hi)

theorem afterBlock_eq (b : Bool) : afterBlock b = .streamChecksum ∨ afterBlock b = .blockStart := by
  cases b
  · exact .inr rfl
  · exact .inl rfl

@[simp] theorem outAppend_eq_emit (s : State) (v : Byte) : s.outAppend v = s.emit [v] := rfl

@[simp] theorem outExpand_eq_emit (s : State) (offset count : Nat) :
    s.outExpand offset count = s.emit (copyBytes s.out offset count) := rfl

/-- After an append the resident storage starts where it did, or at `startIndex` (R95). -/
theorem emit_baseIndex_cases (s : State) (bytes : List Byte) :
    (s.emit bytes).baseIndex = s.baseIndex ∨ (s.emit bytes).baseIndex = s.startIndex :=
  (emit_grows s bytes 0).storage.imp And.left And.left

end Sys2Proof.Machine
end

section
/-! O3: R56 and the facts it needs are kept by every step. -/

namespace Sys2Proof.Machine

open Sys2Proof.Laws

variable {s t : State} {i : Instr}

theorem State.Logical.err_none (hs : s.Logical) (h : s.st ≠ .failed) : s.err.isSome = false := by
  simpa using mt hs.failed.2 h

/-- A session that has not failed stays so under a tag other than `failed`. -/
theorem State.Logical.failed_iff (hs : s.Logical) (h : s.st ≠ .failed) {tag : StTag} (ht : tag ≠ .failed) :
    tag = .failed ↔ s.err.isSome := by
  simp [ht, hs.err_none h]

/-- A change that keeps the output, the indices and the window has the other clauses of `Logical` to meet. -/
theorem State.Logical.of_same_output (hs : s.Logical) (hout : t.out = s.out)
    (hbase : t.baseIndex = s.baseIndex) (hstart : t.startIndex = s.startIndex)
    (hcurrent : t.currentIndex = s.currentIndex) (hwindow : t.window = s.window)
    (hpos : t.pos ≤ 8 * t.input.length) (hfailed : t.st = .failed ↔ t.err.isSome)
    (hlaunch : t.st = .streamStart → s.out = []) (hact : t.activity ≠ .distance) : t.Logical where
  position := hpos
  baseStart := by rw [hbase, hstart]; exact hs.baseStart
  startCurrent := by rw [hstart, hcurrent]; exact hs.startCurrent
  currentEnd := by rw [hcurrent, hout]; exact hs.currentEnd
  window := by rw [hwindow, hout, hstart]; exact hs.window
  failed := hfailed
  launch := by rw [hout]; exact hlaunch
  distance := fun h => absurd h hact
  token := fun h => absurd h hact
  windowLegal := by rw [hwindow]; exact hs.windowLegal

theorem State.Logical.respond (hs : s.Logical) (w : Word) (bytes : List Byte) : (s.respond w bytes).Logical :=
  hs.of_same_output rfl rfl rfl rfl rfl hs.position hs.failed hs.launch nofun

theorem State.Logical.raise (hs : s.Logical) (k : ErrorKind) (a : Nat) : (s.raise k a).Logical :=
  hs.of_same_output rfl rfl rfl rfl rfl hs.position (by simp) nofun nofun

theorem State.Logical.port (hs : s.Logical) (rest : List Byte) : ({ s with port := rest } : State).Logical :=
  { hs with }

theorem State.Logical.renew (s : State) : s.renew.Logical where
  position := Nat.le_refl _
  baseStart := Nat.le_refl _
  startCurrent := Nat.le_refl _
  currentEnd := Nat.le_refl _
  window := Nat.le_refl _
  failed := ⟨nofun, nofun⟩
  launch := fun _ => rfl
  distance := nofun
  token := nofun
  windowLegal := .inl rfl

/-- A release moves `startIndex` no further than the window and `currentIndex` allow (R94). -/
theorem State.Logical.release (hs : s.Logical) {n : Nat} (hn : n ≤ s.out.length - s.currentIndex) :
    ({ s with
      currentIndex := s.currentIndex + n
      startIndex := s.releaseStart (s.currentIndex + n) } : State).Logical := by
  have hbase := hs.baseStart
  have hstart := hs.startCurrent
  have hcurrent := hs.currentEnd
  have hwindow := hs.window
  refine { hs with baseStart := ?_, startCurrent := ?_, currentEnd := ?_, window := ?_ } <;>
    simp only [State.releaseStart] <;> omega

/-- Commands keep R56. -/
theorem State.Logical.command (hs : s.Logical) (h : CommandEffect s i t) : t.Logical := by
  cases h with
  | renew => exact .renew s
  | accept data =>
    refine hs.of_same_output rfl rfl rfl rfl rfl ?_ hs.failed hs.launch nofun
    have hp := hs.position
    simp only [rebase_pos, rebase_input, List.length_append]
    omega
  | release n h0 hn => exact (hs.release hn).respond _ _
  | answer _ w bytes => exact hs.respond w bytes
  | fail k a => exact hs.raise k a
  | unpack w => exact hs.of_same_output rfl rfl rfl rfl rfl hs.position hs.failed hs.launch nofun

/-- Appending `bytes` and moving on by `n` pushed bits keeps R56 (R91, R95). -/
theorem State.Logical.append (hs : s.Logical) (hst : s.st ≠ .streamStart) {bytes : List Byte} {n : Nat}
    (hn : s.pos + n ≤ 8 * s.input.length) {act : Activity} (hact : act ≠ .distance) :
    ({ (s.emit bytes).commit n with activity := act } : State).Logical := by
  have hbase := hs.baseStart
  have hstart := hs.startCurrent
  have hcurrent := hs.currentEnd
  have hwindow := hs.window
  have hemit : (s.emit bytes).baseIndex ≤ s.startIndex := by
    rcases emit_baseIndex_cases s bytes with h | h <;> omega
  constructor
  case position => simpa using hn
  case baseStart => simpa using hemit
  case startCurrent => simpa using hstart
  case currentEnd => simp; omega
  case window => simp only [commit_window, emit_window, commit_out, emit_out, commit_startIndex,
    emit_startIndex, List.length_append]; omega
  case failed => simpa using hs.failed
  case launch => intro h; exact absurd (by simpa using h) hst
  case distance => exact fun h => absurd h hact
  case token => exact fun h => absurd h hact
  case windowLegal => simpa using hs.windowLegal

/-- Stream elements keep R56. -/
theorem State.Logical.element (hs : s.Logical) (hd : Decoded s.elementCtx i) (he : Effect s i t) :
    t.Logical := by
  have htag : elementTag i = s.st := elementTag_eq_st hs.distance hd
  have hend := pos_add_elementBits_le hs.position hd
  have hnf : s.st ≠ .failed := htag ▸ elementTag_ne_failed i
  have hplain : elementTag i ≠ .blockCompressed → s.activity ≠ .distance := fun h =>
    activity_ne_distance hd (not_endsToken_of_tag h)
  cases he with
  | renew | accept | release | unpack => exact absurd hd.element.1 (by simp [commandBytes])
  | answer _ w bytes => exact hs.respond w bytes
  | fail _ k a => exact hs.raise k a
  | hold => exact hs.respond _ _
  | header cmf flg hc =>
    have hout : s.out = [] := hs.launch htag.symm
    have hbase := hs.baseStart
    have hstart := hs.startCurrent
    have hcurrent := hs.currentEnd
    have hact := hplain nofun
    exact {
      position := hend
      baseStart := hbase
      startCurrent := hstart
      currentEnd := hcurrent
      window := by simp [hout]
      failed := hs.failed_iff hnf nofun
      launch := nofun
      distance := fun h => absurd h hact
      token := fun h => absurd h hact
      windowLegal := .inr ⟨_, Nat.lt_succ_iff.1 hc, rfl⟩ }
  | stored bf len nlen =>
    exact hs.of_same_output rfl rfl rfl rfl rfl hend (hs.failed_iff hnf nofun) nofun (hplain nofun)
  | fixed bf =>
    exact hs.of_same_output rfl rfl rfl rfl rfl hend (hs.failed_iff hnf nofun) nofun (hplain nofun)
  | dynamic bf hlit hdist hclen cl tab hl =>
    rw [elementBits, if_neg (Nat.not_lt.2 hl)] at hend
    exact hs.of_same_output rfl rfl rfl rfl rfl hend (hs.failed_iff hnf nofun) nofun (hplain nofun)
  | lengths _ n add hi hn =>
    have hact := hplain (by simp [elementTag_cl hi])
    exact hs.of_same_output rfl rfl rfl rfl rfl (hn ▸ hend) hs.failed hs.launch hact
  | complete _ n add rl d hi hn =>
    have hact := hplain (by simp [elementTag_cl hi])
    exact hs.of_same_output rfl rfl rfl rfl rfl (hn ▸ hend) (hs.failed_iff hnf nofun) nofun hact
  | append _ v n hi hn =>
    have hact : s.activity ≠ .distance := activity_ne_distance hd (by
      rcases hi with ⟨_, _, rfl⟩ | ⟨_, rfl⟩ <;> simp [endsToken, distanceSymbol])
    have hst : s.st ≠ .streamStart := by
      rcases hi with ⟨_, _, rfl⟩ | ⟨_, rfl⟩ <;> exact htag ▸ nofun
    exact hs.append hst (bytes := [v]) (hn ▸ hend)
      (act := ((s.emit [v]).commit n).activity) (by simpa using hact)
  | endBlock _ n hi hn =>
    have hact : s.activity ≠ .distance := activity_ne_distance hd (by
      rcases hi with ⟨_, rfl⟩ | rfl <;> simp [endsToken, distanceSymbol])
    refine hs.of_same_output rfl rfl rfl rfl rfl (hn ▸ hend) (hs.failed_iff hnf ?_) ?_ hact <;>
      rcases afterBlock_eq s.final with h | h <;> simp [h]
  | run _ count n hi hn =>
    have hst : s.st = .blockCompressed := htag ▸ elementTag_run hi
    exact { hs with distance := fun _ => hst, token := fun _ => hn ▸ hend }
  | copy _ offset n hi hn =>
    have hst : s.st ≠ .streamStart := htag ▸ (by simp [elementTag_dist hi])
    have hact := distanceSymbol_activity hd hi
    have htoken := pos_add_tokenBits_le hact (hs.token hact) hd
    exact hs.append hst (hn ▸ htoken) nofun
  | trailer v =>
    exact hs.of_same_output rfl rfl rfl rfl rfl hend (hs.failed_iff hnf nofun) nofun nofun

/-- Settles O3: each case of the step is a response, a command or an element, and each of these keeps R56. -/
theorem logicalInvariantKept : Obligations.LogicalInvariantKept := by
  intro s t hs h
  cases step_effect h with
  | wait => exact hs
  | needMore | done => exact hs.respond _ _
  | command i rest _ ha hdec he => exact (hs.port rest).command he
  | format i rest w bytes => exact (hs.port rest).respond w bytes
  | element i _ ha hd he => exact hs.element hd he

end Sys2Proof.Machine
end

section
/-! O4: the physical fields stay in agreement with the logical ones (R33, R42, R44, R58). -/

namespace Sys2Proof.Machine

open Sys2Proof.Laws

variable {s t : State} {i : Instr}

/-- A change of neither the input nor the output, which moves both cursors alike. -/
theorem State.Physical.of_same_buffers (hs : s.Physical) (n : Nat) (hpos : t.pos = s.pos + n)
    (hatomPos : t.atomPos = s.atomPos + n) (hdropped : t.dropped = s.dropped)
    (hatoms : t.atoms = s.atoms) (hinput : t.input = s.input) (hout : t.out = s.out)
    (hbase : t.baseIndex = s.baseIndex) (hstorage : t.storage = s.storage)
    (hs1 : t.adlerS1 = s.adlerS1) (hs2 : t.adlerS2 = s.adlerS2) : t.Physical where
  cursor := by have := hs.cursor; omega
  atoms := by rw [hatoms, hinput, hdropped]; exact hs.atoms
  storage := by rw [hstorage, hout, hbase]; exact hs.storage
  adler := by rw [hs1, hs2, hout, hbase]; exact hs.adler

theorem State.Physical.respond (hs : s.Physical) (w : Word) (bytes : List Byte) :
    (s.respond w bytes).Physical := { hs with }

theorem State.Physical.raise (hs : s.Physical) (k : ErrorKind) (a : Nat) : (s.raise k a).Physical :=
  { hs with }

theorem State.Physical.port (hs : s.Physical) (rest : List Byte) :
    ({ s with port := rest } : State).Physical := { hs with }

theorem State.Physical.renew (s : State) : s.renew.Physical := ⟨rfl, rfl, rfl, rfl⟩

/-- `rebase` packs the bytes after the atoms it drops, old and new ones, and adds the zero tail (R81). -/
theorem State.Physical.rebase_atoms (hs : s.Physical) (hpos : s.pos ≤ 8 * s.input.length)
    (data : List Byte) : (s.rebase data).atoms =
      packAtoms ((s.input ++ data).drop (2 * (s.dropped + s.atomPos / 16))) ++ Config.padAtoms := by
  have hcursor := hs.cursor
  have hle : 2 * (s.dropped + s.atomPos / 16) ≤ s.input.length := by omega
  have hkept : s.atoms.drop (s.atomPos / 16) =
      packAtoms (s.input.drop (2 * (s.dropped + s.atomPos / 16))) ++ Config.padAtoms := by
    rw [hs.atoms, List.drop_append_of_le_length, packAtoms_drop, List.drop_drop, Nat.mul_add]
    rw [packAtoms_length, List.length_drop]
    omega
  have hodd : decide (s.input.length % 2 = 1) =
      decide ((s.input.drop (2 * (s.dropped + s.atomPos / 16))).length % 2 = 1) := by
    rw [List.length_drop]
    exact decide_eq_decide.2 (by omega)
  rw [Laws.rebase_atoms, hkept, hodd, rebaseAtoms_eq, List.drop_append_of_le_length hle]

theorem State.Physical.rebase (hs : s.Physical) (hpos : s.pos ≤ 8 * s.input.length)
    (data : List Byte) : (s.rebase data).Physical where
  cursor := by have := hs.cursor; simp only [rebase_pos, rebase_dropped, rebase_atomPos]; omega
  atoms := hs.rebase_atoms hpos data
  storage := hs.storage
  adler := hs.adler

/-- The resident output and the folded Adler state after an append, with or without a compaction (R42, R44, R95). -/
theorem State.Physical.of_grows (hs : s.Physical) (hbase : s.baseIndex ≤ s.startIndex)
    (hstart : s.startIndex ≤ s.out.length) {bytes : List Byte} {n : Nat} (hg : s.Grows bytes n t)
    (hpos : t.pos = s.pos + n) (hinput : t.input = s.input) (hout : t.out = s.out ++ bytes) :
    t.Physical := by
  obtain ⟨⟨hatoms, hdropped, hatomPos⟩, hgrow⟩ := hg
  have hcursor : t.pos = 16 * t.dropped + t.atomPos := by have := hs.cursor; omega
  have hpacked : t.atoms = packAtoms (t.input.drop (2 * t.dropped)) ++ Config.padAtoms := by
    rw [hatoms, hinput, hdropped]; exact hs.atoms
  rcases hgrow with ⟨hb, h1, h2, hst⟩ | ⟨hb, hadler, hst⟩
  case inl =>
    refine ⟨hcursor, hpacked, ?_, ?_⟩
    · rw [hst, hout, hb, hs.storage, List.drop_append_of_le_length (by omega)]
    · rw [h1, h2, hout, hb, hs.adler, List.take_append_of_le_length (by omega)]
  case inr =>
    have hsplit : s.baseIndex + (s.startIndex - s.baseIndex) = s.startIndex := by omega
    refine ⟨hcursor, hpacked, ?_, ?_⟩
    · rw [hst, hout, hb, hs.storage, List.drop_drop, hsplit, List.drop_append_of_le_length hstart]
    · rw [hadler, hs.adler, hs.storage, ← adlerFold_append, ← List.take_add, hsplit, hout, hb,
        List.take_append_of_le_length hstart]

/-- Every instruction keeps the agreement. -/
theorem State.Physical.effect (hs : s.Physical) (hl : s.Logical) (he : Effect s i t) : t.Physical := by
  have hstart : s.startIndex ≤ s.out.length := Nat.le_trans hl.startCurrent hl.currentEnd
  cases he with
  | renew => exact .renew s
  | accept data => exact { hs.rebase hl.position data with }
  | release | unpack | run => exact { hs with }
  | answer _ w bytes => exact hs.respond w bytes
  | fail _ k a => exact hs.raise k a
  | hold => exact hs.respond _ _
  | header | stored | fixed | dynamic | lengths | complete | endBlock | trailer =>
    exact hs.of_same_buffers _ rfl rfl rfl rfl rfl rfl rfl rfl rfl rfl
  | append _ v n =>
    exact hs.of_grows hl.baseStart hstart (emit_grows s [v] n) (by simp) (by simp) (by simp)
  | copy _ offset n =>
    have hg := emit_grows s (copyBytes s.out offset s.runCount) (s.runBits + n)
    exact { hs.of_grows hl.baseStart hstart hg (by simp) (by simp) (by simp) with }

/-- Settles O4: no command, format or element breaks the agreement, and waiting and ending a PUSH touch none of its
fields. -/
theorem physicalInvariantKept : Obligations.PhysicalInvariantKept := by
  intro s t hl hs h
  cases step_case h with
  | wait => exact hs
  | needMore | done => exact hs.respond _ _
  | command i rest _ ha hdec he => exact (hs.port rest).effect (hl.port rest) (exec_effect he)
  | format i rest _ ha hdec he => exact (hs.port rest).effect (hl.port rest) (exec_effect he)
  | element i _ ha hdec he => exact hs.effect hl (exec_effect he)

end Sys2Proof.Machine
end

section
/-! O5: the tables and counts of the current state stay in order (R34, R36, R37, R193, R320, R358). -/

namespace Sys2Proof.Machine

open Sys2Proof.Laws

variable {s t : State} {i : Instr}

/-! ### The tables a header builds -/

/-- The code-length table of a dynamic header (R36, R193, R294). -/
theorem clTable_ok {cl : List (BitVec 3)} {tab : Table} (h : build (clLengths cl) .strict = some tab) :
    tab.Regular ∧ tab.symbolsBelow 19 ∧ ∀ e ∈ tab.entries, e.len ≤ 7 :=
  ⟨build_regular h, build_symbolsBelow h (clLengths_length cl).le nofun,
    fun e he => clLengths_le cl _ (entry_len_mem h e he)⟩

theorem rlLengths_length_le (s : State) (lens : List (BitVec 4)) :
    (s.rlLengths lens).length ≤ s.hlit.toNat := by
  simp only [State.rlLengths, List.length_map, List.length_take]
  omega

theorem dLengths_length_le (s : State) (lens : List (BitVec 4)) :
    (s.dLengths lens).length ≤ s.hdist.toNat := by
  simp only [State.dLengths, List.length_map, List.length_take]
  omega

/-- `HLIT` is held without loss (R293). -/
theorem toNat_hlitValue (h : BitVec 5) : (BitVec.ofNat 9 (hlitValue h)).toNat = hlitValue h := by
  have := h.isLt
  simp only [hlitValue, BitVec.toNat_ofNat]
  omega

/-- `HDIST` is held without loss (R293). -/
theorem toNat_hdistValue (h : BitVec 5) : (BitVec.ofNat 6 (hdistValue h)).toNat = hdistValue h := by
  have := h.isLt
  simp only [hdistValue, BitVec.toNat_ofNat]
  omega

theorem dDefaultSym_lt {p : Params} (h : p.wf = true) : p.dDefaultSym < 32 := by
  simp only [Params.wf, Bool.and_eq_true, decide_eq_true_eq] at h
  omega

/-- A stored block's data start at a byte boundary (R291). -/
theorem storedHeader_aligned (p : Nat) : (p + (3 + padBits (p + 3) + 32)) % 8 = 0 := by
  have := padBits_aligned (p + 3)
  omega

/-! ### What keeps the invariant -/

/-- A state whose tag owns neither a table nor a stored block. -/
theorem State.Tables.of_plain_tag (hp : t.params.wf = true) (htag : t.st = .streamStart ∨
    t.st = .blockStart ∨ t.st = .streamChecksum ∨ t.st = .streamEnd) (hact : t.activity ≠ .distance) :
    t.Tables := by
  constructor
  case params => exact hp
  case distance => exact fun h => absurd h hact
  all_goals rcases htag with h | h | h | h <;> simp [h]

theorem State.Tables.respond (hs : s.Tables) (w : Word) (bytes : List Byte) :
    (s.respond w bytes).Tables :=
  { hs with distance := nofun, running := nofun }

theorem State.Tables.raise (hs : s.Tables) (k : ErrorKind) (a : Nat) : (s.raise k a).Tables where
  params := hs.params
  cl := nofun
  counts := nofun
  lengths := nofun
  rl := nofun
  d := nofun
  stored := nofun
  aligned := nofun
  distance := nofun
  running := nofun

theorem State.Tables.port (hs : s.Tables) (rest : List Byte) :
    ({ s with port := rest } : State).Tables := { hs with }

/-- Commands keep the tables. -/
theorem State.Tables.command (hs : s.Tables) (h : CommandEffect s i t) : t.Tables := by
  cases h with
  | renew => exact .of_plain_tag hs.params (.inl rfl) nofun
  | accept data hst => exact { hs with distance := nofun, running := fun _ => hst }
  | release => exact { hs with distance := nofun, running := nofun }
  | answer _ w bytes => exact hs.respond w bytes
  | fail k a => exact hs.raise k a
  | unpack w => exact { hs with distance := nofun, running := nofun }

/-- In `blockCompressed`, with its tables, the rest of the invariant holds of itself. -/
theorem State.Tables.of_compressed (hp : t.params.wf = true) (hst : t.st = .blockCompressed)
    (hrl : t.rld.Regular ∧ t.rld.symbolsBelow 288) (hd : t.dd.Regular ∧ t.dd.symbolsBelow 32) :
    t.Tables := by
  constructor
  case params => exact hp
  case rl => exact fun _ => hrl
  case d => exact fun _ => hd
  case distance => exact fun _ => hst
  all_goals simp [hst]

/-- In `blockUncompressed`, before the block's end and at a byte boundary, likewise. -/
theorem State.Tables.of_stored (hp : t.params.wf = true) (hst : t.st = .blockUncompressed)
    (hend : t.out.length ≤ t.blockEnd) (halign : t.pos % 8 = 0) (hact : t.activity ≠ .distance) :
    t.Tables := by
  constructor
  case params => exact hp
  case stored => exact fun _ => hend
  case aligned => exact fun _ => halign
  case distance => exact fun h => absurd h hact
  all_goals simp [hst]

/-- In `blockTables`, with its table, its counts and an incomplete list, likewise. -/
theorem State.Tables.of_codeLengths (hp : t.params.wf = true) (hst : t.st = .blockTables)
    (hcl : t.cld.Regular ∧ t.cld.symbolsBelow 19 ∧ ∀ e ∈ t.cld.entries, e.len ≤ 7)
    (hc : 257 ≤ t.hlit.toNat ∧ t.hlit.toNat ≤ 286 ∧ 1 ≤ t.hdist.toNat ∧ t.hdist.toNat ≤ 32)
    (hl : t.lengths.length < t.lengthTotal) (hact : t.activity ≠ .distance) : t.Tables := by
  constructor
  case params => exact hp
  case cl => exact fun _ => hcl
  case counts => exact fun _ => hc
  case lengths => exact fun _ => hl
  case distance => exact fun h => absurd h hact
  all_goals simp [hst]

/-- A complete list builds the two tables of its block (R326). -/
theorem State.Tables.complete (hs : s.Tables) (hst : s.st = .blockTables) {lens : List (BitVec 4)}
    {rl d : Table} (hrl : build (s.rlLengths lens) .strict = some rl)
    (hd : build (s.dLengths lens) (.normalizing s.params.dDefaultSym) = some d) :
    (rl.Regular ∧ rl.symbolsBelow 288) ∧ d.Regular ∧ d.symbolsBelow 32 := by
  obtain ⟨-, hhlit, -, hhdist⟩ := hs.counts hst
  have hrlLen := rlLengths_length_le s lens
  have hdLen := dLengths_length_le s lens
  have hdflt := dDefaultSym_lt hs.params
  refine ⟨⟨build_regular hrl, build_symbolsBelow hrl (by omega) nofun⟩, build_regular hd,
    build_symbolsBelow hd (by omega) ?_⟩
  rintro _ ⟨⟩
  exact hdflt

/-- Stream elements keep the tables. -/
theorem State.Tables.element (hs : s.Tables) (hd : Decoded s.elementCtx i) (he : Effect s i t) :
    t.Tables := by
  have htag : elementTag i = s.st := elementTag_eq_st hs.distance hd
  have hplain : elementTag i ≠ .blockCompressed → s.activity ≠ .distance := fun h =>
    activity_ne_distance hd (not_endsToken_of_tag h)
  cases he with
  | renew | accept | release | unpack => exact absurd hd.element.1 (by simp [commandBytes])
  | answer _ w bytes => exact hs.respond w bytes
  | fail _ k a => exact hs.raise k a
  | hold => exact hs.respond _ _
  | header => exact .of_plain_tag hs.params (.inr (.inl rfl)) (hplain nofun)
  | trailer => exact .of_plain_tag hs.params (.inr (.inr (.inr rfl))) nofun
  | endBlock _ n hi =>
    have hact : s.activity ≠ .distance := activity_ne_distance hd (by
      rcases hi with ⟨_, rfl⟩ | rfl <;> simp [endsToken, distanceSymbol])
    refine .of_plain_tag hs.params ?_ hact
    rcases afterBlock_eq s.final with h | h <;> simp [h]
  | stored bf len nlen =>
    exact .of_stored hs.params rfl (Nat.le_add_right _ _) (storedHeader_aligned s.pos) (hplain nofun)
  | fixed bf => exact .of_compressed hs.params rfl (by simpa using fixedRl_ok) (by simpa using fixedD_ok)
  | dynamic bf hlit hdist hclen cl tab hle htab =>
    have hdlt := hdist.isLt
    have hhlit : 257 ≤ hlitValue hlit := Nat.le_add_left _ _
    have hhdist : hdistValue hdist = hdist.toNat + 1 := rfl
    refine .of_codeLengths hs.params rfl (clTable_ok htab) ?_ ?_ (hplain nofun)
    · simp only [toNat_hlitValue, toNat_hdistValue]
      omega
    · simp only [State.lengthTotal, toNat_hlitValue, List.length_nil]
      omega
  | lengths _ n add hi hn hlt =>
    have hst : s.st = .blockTables := htag ▸ elementTag_cl hi
    exact .of_codeLengths hs.params hst (hs.cl hst) (hs.counts hst)
      (by rw [List.length_append]; exact hlt) (hplain (by simp [elementTag_cl hi]))
  | complete _ n add rl d hi hn hlen hrl hdd =>
    obtain ⟨hrlOk, hdOk⟩ := hs.complete (htag ▸ elementTag_cl hi) hrl hdd
    exact .of_compressed hs.params rfl hrlOk hdOk
  | append _ v n hi hn =>
    rcases hi with ⟨len, v', rfl⟩ | ⟨v', rfl⟩
    · have hst : s.st = .blockCompressed := htag.symm
      exact .of_compressed (by simpa using hs.params) (by simpa using hst) (by simpa using hs.rl hst)
        (by simpa using hs.d hst)
    · have hst : s.st = .blockUncompressed := htag.symm
      have hact := hplain nofun
      have hundone : s.out.length ≠ s.blockEnd := by
        have := hd.byte_undone hst (by simpa [State.elementCtx] using hact)
        simpa [State.elementCtx] using this
      have hend := hs.stored hst
      have halign := hs.aligned hst
      have hbits : n = 8 := hn
      refine .of_stored (by simpa using hs.params) (by simpa using hst) ?_ ?_ (by simpa using hact)
      · simp only [outAppend_eq_emit, commit_out, emit_out, List.length_append, List.length_singleton,
          commit_blockEnd, emit_blockEnd]
        omega
      · simp only [outAppend_eq_emit, commit_pos, emit_pos]
        omega
  | run _ count n hi =>
    have hst : s.st = .blockCompressed := htag ▸ elementTag_run hi
    exact .of_compressed hs.params hst (hs.rl hst) (hs.d hst)
  | copy _ offset n hi =>
    have hst : s.st = .blockCompressed := htag ▸ elementTag_dist hi
    exact .of_compressed (by simpa using hs.params) (by simpa using hst) (by simpa using hs.rl hst)
      (by simpa using hs.d hst)

/-- Settles O5: each case of the step is a response, a command or an element, and each of these keeps the tables. -/
theorem tablesInvariantKept : Obligations.TablesInvariantKept := by
  intro s t hs h
  cases step_effect h with
  | wait => exact hs
  | needMore | done => exact hs.respond _ _
  | command i rest _ ha hdec he => exact (hs.port rest).command he
  | format i rest w bytes => exact (hs.port rest).respond w bytes
  | element i _ ha hd he => exact hs.element hd he

end Sys2Proof.Machine
end

section
/-! O8: no result depends on the physical fields (R58): a step of a state and a step of its logical view look alike
through the logical view. -/

namespace Sys2Proof.Machine

open Sys2Proof.Laws

variable {s t : State}

/-- Two results that look alike through the logical view. -/
def sameLogical (a b : Result) : Prop := viewResult State.logical a = viewResult State.logical b

theorem sameLogical_next (h : s.logical = t.logical) : sameLogical (.next s) (.next t) :=
  congrArg Host.Outcome.next h

theorem sameLogical_ite {c : Prop} [Decidable c] {a b a' b' : Result} (ha : sameLogical a a')
    (hb : sameLogical b b') : sameLogical (if c then a else b) (if c then a' else b') := by
  split
  · exact ha
  · exact hb

/-! ### The shared operations -/

theorem withRoom_logical (s : State) (k : Nat) {done done' : State} (h : done.logical = done'.logical) :
    sameLogical (s.withRoom k done) (s.logical.withRoom k done') :=
  sameLogical_ite rfl (sameLogical_ite rfl (sameLogical_next h))

/-- An append looks the same from the logical view, whether it compacts or not (R58, R95). -/
theorem emit_commit_logical (s : State) (bytes : List Byte) (n : Nat) :
    ((s.emit bytes).commit n).logical = ((s.logical.emit bytes).commit n).logical := by
  rw [emit_logical, emit_logical]
  rfl

theorem distToken_logical (k len x : Nat) (s : State) :
    sameLogical (distToken k len x s) (distToken k len x s.logical) := by
  refine sameLogical_ite rfl (withRoom_logical s s.runCount ?_)
  exact congrArg (fun u : State => { u with activity := .inflating }) (emit_commit_logical s _ _)

theorem completeLengths_logical (n : Nat) (lens : List (BitVec 4)) (s : State) :
    sameLogical (completeLengths n lens s) (completeLengths n lens s.logical) := by
  have hrl : s.logical.rlLengths lens = s.rlLengths lens := rfl
  have hd : s.logical.dLengths lens = s.dLengths lens := rfl
  have hp : s.logical.params = s.params := rfl
  unfold completeLengths
  rw [hrl, hd, hp]
  split <;> rfl

theorem appendLengths_logical (n : Nat) (add : List (BitVec 4)) (s : State) :
    sameLogical (appendLengths n add s) (appendLengths n add s.logical) :=
  sameLogical_ite rfl (sameLogical_ite (completeLengths_logical n _ s) rfl)

theorem unpackIndexed_logical (pal : List Rgba) (buf : List Byte) (s : State) :
    sameLogical (unpackIndexed pal buf s) (unpackIndexed pal buf s.logical) := by
  refine sameLogical_ite ?_ rfl
  have hdst : s.logical.dst = s.dst := rfl
  rw [hdst]
  split <;> rfl

theorem unpackUnsupported_logical (blk : Block) (s : State) :
    sameLogical (unpackUnsupported blk s) (unpackUnsupported blk s.logical) :=
  sameLogical_ite rfl rfl

/-! ### Commands and headers -/

theorem execPush_logical (data : List Byte) (s : State) :
    sameLogical (execPush data s) (execPush data s.logical) :=
  sameLogical_ite rfl (sameLogical_ite rfl (sameLogical_ite rfl (sameLogical_next rfl)))

theorem execPull_logical (n : BitVec 24) (s : State) :
    sameLogical (execPull n s) (execPull n s.logical) := by
  refine sameLogical_ite rfl ?_
  by_cases hn : n.toNat ≤ s.out.length - s.currentIndex
  · have hn' : n.toNat ≤ s.logical.out.length - s.logical.currentIndex := hn
    rw [State.outRelease, State.outRelease, if_pos hn, if_pos hn']
    rfl
  · have hn' : ¬n.toNat ≤ s.logical.out.length - s.logical.currentIndex := hn
    rw [State.outRelease, State.outRelease, if_neg hn, if_neg hn']
    rfl

theorem execBhdrDynamic_logical (bf : Bool) (hlit hdist : BitVec 5) (hclen : BitVec 4)
    (cl : List (BitVec 3)) (s : State) :
    sameLogical (execBhdrDynamic bf hlit hdist hclen cl s)
      (execBhdrDynamic bf hlit hdist hclen cl s.logical) := by
  refine sameLogical_ite rfl ?_
  split <;> rfl

theorem execClExtend_logical (len : Nat) (x : BitVec 2) (s : State) :
    sameLogical (execClExtend len x s) (execClExtend len x s.logical) := by
  have hl : s.logical.lengths = s.lengths := rfl
  unfold execClExtend
  rw [hl]
  split
  · rfl
  · exact appendLengths_logical _ _ s

/-! ### Every instruction -/

/-- The meaning of an instruction reads nothing that the logical view blanks. -/
theorem exec_logical (i : Instr) (s : State) : sameLogical (exec i s) (exec i s.logical) := by
  cases i with
  | push data => exact execPush_logical data s
  | pull n => exact execPull_logical n s
  | retained => exact sameLogical_ite rfl rfl
  | finish => exact sameLogical_ite rfl (sameLogical_ite rfl rfl)
  | read addr => exact sameLogical_ite rfl rfl
  | zhdr cmf flg =>
    exact sameLogical_ite rfl (sameLogical_ite rfl (sameLogical_ite rfl (sameLogical_ite rfl rfl)))
  | bhdrStored bf len nlen => exact sameLogical_ite rfl rfl
  | bhdrDynamic bf hlit hdist hclen cl => exact execBhdrDynamic_logical bf hlit hdist hclen cl s
  | byte v => exact withRoom_logical s 1 (emit_commit_logical s [v] 8)
  | lit len v => exact withRoom_logical s 1 (emit_commit_logical s [v] len)
  | clExtend len x => exact execClExtend_logical len x s
  | clLit | clZeros3 | clZeros7 => exact appendLengths_logical _ _ s
  | dist0 | dist1 | dist2 | dist3 | dist4 | dist5 | dist6 | dist7 | dist8 | dist9 | dist10 | dist11
  | dist12 | dist13 | dist14 | dist15 | dist16 | dist17 | dist18 | dist19 | dist20 | dist21 | dist22
  | dist23 | dist24 | dist25 | dist26 | dist27 | dist28 | dist29 => exact distToken_logical _ _ _ s
  | adler v => exact sameLogical_ite rfl rfl
  | fmtIndexed1 | fmtIndexed2 | fmtIndexed4 | fmtIndexed8 => exact unpackIndexed_logical _ _ s
  | fmtUnsupported | stdIos => exact unpackUnsupported_logical _ s
  | _ => rfl

/-! ### The step -/

/-- What a fetch found, seen through the logical view. -/
def Fetched.logical : Fetched → Fetched
  | .run i t => .run i t.logical
  | .wait => .wait
  | .endPush w => .endPush w
  | .stop f => .stop f

theorem fetchElement_logical (s : State) : s.logical.fetchElement = s.fetchElement.logical := by
  have hctx : s.logical.elementCtx = s.elementCtx := rfl
  unfold State.fetchElement
  rw [hctx]
  split <;> rfl

theorem takePort_logical (s : State) (r : Option (Instr × List Byte)) :
    s.logical.takePort r = (s.takePort r).logical := by
  cases r <;> rfl

/-- The fetch reads the port, or the input from `P`, and no physical field. -/
theorem fetch_logical (s : State) : s.logical.fetch = s.fetch.logical := by
  have hact : s.logical.activity = s.activity := rfl
  unfold State.fetch
  rw [hact]
  split
  · exact takePort_logical s _
  · exact takePort_logical s _
  · exact fetchElement_logical s
  · exact fetchElement_logical s

theorem step_logical (s : State) : sameLogical (step s) (step s.logical) := by
  unfold step
  rw [fetch_logical]
  cases s.fetch with
  | run i u => exact exec_logical i u
  | wait => rfl
  | endPush w => rfl
  | stop f => rfl

/-- Settles O8: each of the two steps looks like the step of the one logical view. -/
theorem physicalFieldsAreNotObservable : Obligations.PhysicalFieldsAreNotObservable := by
  intro s s' h
  have hs := step_logical s
  have hs' := step_logical s'
  rw [← h] at hs'
  exact hs.trans hs'.symm

end Sys2Proof.Machine
end

section
/-! O55, O56, O57, O26: what the unpacker leaves alone, the writers of each field, and what only grows within a session. -/

namespace Sys2Proof.Machine

open Sys2Proof.Laws

variable {s t : State} {i : Instr}

/-! ### The unpacker (R55) -/

@[simp] theorem respond_inflator (s : State) (w : Word) (bytes : List Byte) :
    (s.respond w bytes).inflator = s.inflator := rfl

/-- Settles O55: READ, PREMUL, STD_IOS and the formats only respond, and UNPACK notes the width of its command. -/
theorem unpackerLeavesTheInflatorAlone : Obligations.UnpackerLeavesTheInflatorAlone := by
  rintro i s t (hf | ⟨w, rfl⟩ | ⟨w, c, a, rfl⟩ | ⟨w, b, rfl⟩ | ⟨a, rfl⟩) h
  · obtain ⟨w, bytes, rfl⟩ := (exec_effect h).format hf
    exact respond_inflator s w bytes
  · rw [← next_inj h]
    rfl
  · rw [← next_inj h]
    exact respond_inflator s _ _
  · rw [← unpackUnsupported_next h]
    exact respond_inflator s _ _
  · simp only [exec, execRead] at h
    split at h
    · cases h
    · rw [← next_inj h]
      exact respond_inflator s _ _

/-! ### The writers of each field, one lemma a field (R31 to R45) -/

theorem appendsOutput_of_distance (h : distanceSymbol i = true) : appendsOutput i = true := by
  unfold appendsOutput
  split
  · rfl
  · rfl
  · exact h

/-- The host's side: no instruction but NEW writes the parameters, the port or the refusal mark. -/
theorem effect_host_fields (he : Effect s i t) (hi : i ≠ .new) :
    t.params = s.params ∧ t.port = s.port ∧ t.refusalMark = s.refusalMark := by
  cases he with
  | renew => exact absurd rfl hi
  | _ => simp

/-- `IN` and the dropped atoms are PUSH's (R31, R33). -/
theorem effect_input (he : Effect s i t) (hi : i ≠ .new) :
    (t.input = s.input ∧ t.atoms = s.atoms ∧ t.dropped = s.dropped) ∨ ∃ d, i = .push d := by
  cases he with
  | renew => exact absurd rfl hi
  | accept data => exact .inr ⟨data, rfl⟩
  | _ => simp

/-- `P` moves by the bits of the element, or of the whole token (R32, R353). -/
theorem effect_pos (he : Effect s i t) (hi : i ≠ .new) :
    t.pos = s.pos ∨ t.pos = s.pos + elementBits s.pos i ∨
      distanceSymbol i = true ∧ t.pos = s.pos + (s.runBits + elementBits s.pos i) := by
  cases he with
  | renew => exact absurd rfl hi
  | header | stored | fixed => exact .inr (.inl rfl)
  | dynamic bf hlit hdist hclen cl tab hle =>
    exact .inr (.inl (by simp [elementBits, Nat.not_lt.2 hle]))
  | lengths _ n add _ hn | complete _ n add rl d _ hn => exact .inr (.inl (hn ▸ rfl))
  | append _ v n _ hn => exact .inr (.inl (by simp [hn]))
  | endBlock _ n _ hn => exact .inr (.inl (hn ▸ rfl))
  | copy _ offset n hd hn => exact .inr (.inr ⟨hd, by simp [hn]⟩)
  | trailer => exact .inr (.inl rfl)
  | _ => exact .inl (by simp)

/-- The physical cursor moves with `P`, but for PUSH (R33). -/
theorem effect_cursor (he : Effect s i t) (hi : i ≠ .new) :
    (∃ n, t.pos = s.pos + n ∧ t.atomPos = s.atomPos + n) ∨ ∃ d, i = .push d := by
  cases he with
  | renew => exact absurd rfl hi
  | accept data => exact .inr ⟨data, rfl⟩
  | header | stored | fixed | dynamic | lengths | complete | endBlock | trailer =>
    exact .inl ⟨_, rfl, rfl⟩
  | append _ v n => exact .inl ⟨n, by simp, by simp⟩
  | copy _ offset n => exact .inl ⟨s.runBits + n, by simp, by simp⟩
  | _ => exact .inl ⟨0, rfl, rfl⟩

/-- `FINAL` is the block headers' (R35). -/
theorem effect_final (he : Effect s i t) (hi : i ≠ .new) :
    t.final = s.final ∨ (∃ b l n, i = .bhdrStored b l n) ∨ (∃ b, i = .bhdrFixed b) ∨
      ∃ b h d c l, i = .bhdrDynamic b h d c l := by
  cases he with
  | renew => exact absurd rfl hi
  | stored bf len nlen => exact .inr (.inl ⟨bf, len, nlen, rfl⟩)
  | fixed bf => exact .inr (.inr (.inl ⟨bf, rfl⟩))
  | dynamic bf hlit hdist hclen cl => exact .inr (.inr (.inr ⟨bf, hlit, hdist, hclen, cl, rfl⟩))
  | _ => exact .inl (by simp)

/-- `CLD` and the counts are the dynamic header's (R36, R37). -/
theorem effect_cld (he : Effect s i t) (hi : i ≠ .new) :
    t.cld = s.cld ∧ t.hlit = s.hlit ∧ t.hdist = s.hdist ∨ ∃ b h d c l, i = .bhdrDynamic b h d c l := by
  cases he with
  | renew => exact absurd rfl hi
  | dynamic bf hlit hdist hclen cl => exact .inr ⟨bf, hlit, hdist, hclen, cl, rfl⟩
  | _ => exact .inl (by simp)

/-- `LENGTHS` is the dynamic header's and the code-length elements' (R37). -/
theorem effect_lengths (he : Effect s i t) (hi : i ≠ .new) :
    t.lengths = s.lengths ∨ codeLengthSymbol i = true ∨ ∃ b h d c l, i = .bhdrDynamic b h d c l := by
  cases he with
  | renew => exact absurd rfl hi
  | dynamic bf hlit hdist hclen cl => exact .inr (.inr ⟨bf, hlit, hdist, hclen, cl, rfl⟩)
  | lengths _ n add hcl | complete _ n add rl d hcl => exact .inr (.inl hcl)
  | _ => exact .inl (by simp)

/-- `RLD` and `DD` are the fixed header's and the code-length elements' (R36). -/
theorem effect_rld (he : Effect s i t) (hi : i ≠ .new) :
    t.rld = s.rld ∧ t.dd = s.dd ∨ codeLengthSymbol i = true ∨ ∃ b, i = .bhdrFixed b := by
  cases he with
  | renew => exact absurd rfl hi
  | fixed bf => exact .inr (.inr ⟨bf, rfl⟩)
  | lengths _ n add hcl | complete _ n add rl d hcl => exact .inr (.inl hcl)
  | _ => exact .inl (by simp)

/-- `BLOCK_END` is the stored header's (R38). -/
theorem effect_blockEnd (he : Effect s i t) (hi : i ≠ .new) :
    t.blockEnd = s.blockEnd ∨ ∃ b l n, i = .bhdrStored b l n := by
  cases he with
  | renew => exact absurd rfl hi
  | stored bf len nlen => exact .inr ⟨bf, len, nlen, rfl⟩
  | _ => exact .inl (by simp)

/-- `OUT` and the physical output are the appending elements' (R39, R42, R44). -/
theorem effect_out (he : Effect s i t) (hi : i ≠ .new) :
    t.out = s.out ∧ t.storage = s.storage ∧ t.baseIndex = s.baseIndex ∧
      t.adlerS1 = s.adlerS1 ∧ t.adlerS2 = s.adlerS2 ∧ t.storageCap = s.storageCap ∨
      appendsOutput i = true := by
  cases he with
  | renew => exact absurd rfl hi
  | append _ v n h => rcases h with ⟨_, _, rfl⟩ | ⟨_, rfl⟩ <;> exact .inr rfl
  | copy _ offset n h => exact .inr (appendsOutput_of_distance h)
  | _ => exact .inl (by simp)

/-- The indices are PULL's (R40, R41). -/
theorem effect_indices (he : Effect s i t) (hi : i ≠ .new) :
    t.currentIndex = s.currentIndex ∧ t.startIndex = s.startIndex ∨ ∃ n, i = .pull n := by
  cases he with
  | renew => exact absurd rfl hi
  | release n => exact .inr ⟨n, rfl⟩
  | _ => exact .inl (by simp)

/-- `WINDOW` is the zlib header's (R43). -/
theorem effect_window (he : Effect s i t) (hi : i ≠ .new) :
    t.window = s.window ∨ ∃ c f, i = .zhdr c f := by
  cases he with
  | renew => exact absurd rfl hi
  | header cmf flg => exact .inr ⟨cmf, flg, rfl⟩
  | _ => exact .inl (by simp)

/-- `ERR` is written by a raise (R45). -/
theorem effect_err (he : Effect s i t) (hi : i ≠ .new) : t.err = s.err ∨ t.st = .failed := by
  cases he with
  | renew => exact absurd rfl hi
  | fail => exact .inr rfl
  | _ => exact .inl (by simp)

/-- The latches of a run token are the run symbols' (R353, log 2). -/
theorem effect_token (he : Effect s i t) (hi : i ≠ .new) :
    t.runCount = s.runCount ∧ t.runBits = s.runBits ∨ runSymbol i = true := by
  cases he with
  | renew => exact absurd rfl hi
  | run _ count n h => exact .inr h
  | _ => exact .inl (by simp)

/-- The latch of the destination width is UNPACK's (R133, log 3). -/
theorem effect_dst (he : Effect s i t) (hi : i ≠ .new) : t.dst = s.dst ∨ ∃ w, i = .unpack w := by
  cases he with
  | renew => exact absurd rfl hi
  | unpack w => exact .inr ⟨w, rfl⟩
  | _ => exact .inl (by simp)

/-- Settles O56: the writers of each field, put together. -/
theorem eachFieldHasItsWriters : Obligations.EachFieldHasItsWriters := by
  intro i s t hi h
  have he := exec_effect h
  obtain ⟨hparams, hport, hmark⟩ := effect_host_fields he hi
  have hinput := effect_input he hi
  have hcursor : t.atomPos + s.pos = s.atomPos + t.pos ∨ ∃ d, i = .push d :=
    (effect_cursor he hi).imp_left fun ⟨n, hpos, hatomPos⟩ => by omega
  exact ⟨hparams, hport, hmark, hinput.imp_left And.left, hinput.imp_left And.right,
    effect_pos he hi, hcursor, effect_final he hi, effect_cld he hi,
    effect_lengths he hi, effect_rld he hi, effect_blockEnd he hi, effect_out he hi,
    effect_indices he hi, effect_window he hi, effect_err he hi, effect_token he hi,
    effect_dst he hi⟩

/-! ### Within a session (R31, R32, R39, R88, R91) -/

/-- The input and the output only grow at their ends. -/
theorem effect_extends (he : Effect s i t) (hi : i ≠ .new) : s.input <+: t.input ∧ s.out <+: t.out := by
  cases he with
  | renew => exact absurd rfl hi
  | accept data => exact ⟨⟨data, rfl⟩, ⟨[], List.append_nil _⟩⟩
  | _ => simp

/-- A release moves `startIndex` forward (R94). -/
theorem State.Logical.le_releaseStart (hs : s.Logical) (n : Nat) :
    s.startIndex ≤ s.releaseStart (s.currentIndex + n) := by
  have := hs.startCurrent
  simp only [State.releaseStart]
  omega

/-- The indices never decrease. -/
theorem State.Logical.effect_indices_le (hs : s.Logical) (he : Effect s i t) (hi : i ≠ .new) :
    s.currentIndex ≤ t.currentIndex ∧ s.startIndex ≤ t.startIndex ∧ s.baseIndex ≤ t.baseIndex := by
  have hemit : ∀ bytes, s.baseIndex ≤ (s.emit bytes).baseIndex := fun bytes =>
    (emit_baseIndex_cases s bytes).elim (fun h => h.ge) fun h => h ▸ hs.baseStart
  cases he with
  | renew => exact absurd rfl hi
  | release n => exact ⟨Nat.le_add_right _ _, hs.le_releaseStart _, Nat.le_refl _⟩
  | append _ v n => exact ⟨by simp, by simp, hemit [v]⟩
  | copy _ offset n => exact ⟨by simp, by simp, hemit _⟩
  | _ => exact ⟨Nat.le_refl _, Nat.le_refl _, Nat.le_refl _⟩

/-- Settles O57, from what each effect does to the buffers, to `P` and to the indices. -/
theorem sessionsOnlyMoveForward : Obligations.SessionsOnlyMoveForward := by
  intro i s t hi hs h
  have he := exec_effect h
  obtain ⟨hinput, hout⟩ := effect_extends he hi
  have hpos : s.pos ≤ t.pos := by have := effect_pos he hi; omega
  exact ⟨hinput, hout, hpos, hs.effect_indices_le he hi⟩

/-! ### The limit of a back-reference (R357) -/

theorem refLimit_strict (h : s.params.windowCheck = .strict) :
    s.refLimit = min s.window (s.out.length - s.startIndex) := by
  simp only [State.refLimit, h]

theorem refLimit_resident (h : s.params.windowCheck = .resident) :
    s.refLimit = s.out.length - s.startIndex := by
  simp only [State.refLimit, h]

/-- Settles O26: under R56 the retained output holds all of the window that was produced. -/
theorem referenceLimitFollowsTheWindow : Obligations.ReferenceLimitFollowsTheWindow := by
  intro s
  refine ⟨refLimit_strict, refLimit_resident, fun hs h => ?_⟩
  have hwindow := hs.window
  rw [refLimit_strict h]
  omega

end Sys2Proof.Machine
end

section
/-! O22, O23, O24: bit reversal, the two-atom read and the physical checksum (R83, R84, R86, R98). -/

namespace Sys2Proof.Machine

open Sys2Proof.Laws

/-! ### Bit reversal (R86) -/

/-- Settles O22, by the laws of `rev16`; the rule's examples compute. -/
theorem rev16ReversesSixteenBits : Obligations.Rev16ReversesSixteenBits :=
  ⟨fun v hv => ⟨rev16_rev16 v hv, rev16_testBit v⟩, by decide, by decide⟩

/-! ### The two-atom read (R33, R83) -/

theorem bitAt_byte (input : List Byte) (k i : Nat) (hi : i < 8) :
    bitAt input (8 * k + i) = (input.getD k 0).toNat / 2 ^ i % 2 := by
  have hdiv : (8 * k + i) / 8 = k := by omega
  have hmod : (8 * k + i) % 8 = i := by omega
  rw [bitAt, hdiv, hmod]

/-- An aligned 8-bit read is the byte, 0 beyond the end (R12, R87). -/
theorem inBits_byte (input : List Byte) (k : Nat) : inBits input (8 * k) 8 = (input.getD k 0).toNat := by
  have hx := (input.getD k 0).isLt
  have h0 := bitAt_byte input k 0 (by decide)
  simp only [inBits, Nat.add_assoc, bitAt_byte, Nat.reduceAdd, Nat.reduceLT]
  rw [Nat.add_zero] at h0
  omega

/-- The zero tail reads 0 inside and past its three atoms (R33, R87). -/
theorem padAtoms_getD (k : Nat) : Config.padAtoms[k]?.getD 0#16 = 0#16 := by
  rcases k with _ | _ | _ | k <;> rfl

/-- The atom at `k`, the zero tail included, is the byte pair at `2 * k` (R33, R81, R87). -/
theorem paddedAtoms_getD (bytes : List Byte) (k : Nat) :
    ((packAtoms bytes ++ Config.padAtoms).getD k 0).toNat =
      (bytes.getD (2 * k) 0).toNat + 256 * (bytes.getD (2 * k + 1) 0).toNat := by
  fun_induction packAtoms bytes generalizing k with
  | case1 => simp [padAtoms_getD]
  | case2 x =>
    cases k with
    | zero => simp [atomOf_toNat]
    | succ k => simp [padAtoms_getD, Nat.mul_add]
  | case3 x y rest ih =>
    cases k with
    | zero => simp [atomOf_toNat]
    | succ k => simpa [Nat.mul_add] using ih k

/-- In a state that meets `Physical` the atom at `k` is the aligned 16-bit read (R33). -/
theorem State.Physical.atom_toNat {s : State} (hs : s.Physical) (k : Nat) :
    (s.atoms.getD k 0).toNat = inBits s.input (16 * s.dropped + 16 * k) 16 := by
  have hlo : 16 * s.dropped + 16 * k = 8 * (2 * s.dropped + 2 * k) := by omega
  have hhi : 8 * (2 * s.dropped + 2 * k) + 8 = 8 * (2 * s.dropped + 2 * k + 1) := by omega
  rw [hs.atoms, paddedAtoms_getD, hlo, inBits_add _ _ 8 8, hhi, inBits_byte, inBits_byte]
  simp [List.getD_eq_getElem?_getD, Nat.add_assoc]

/-- The high part of a wide read is the read that starts later (R84). -/
theorem inBits_div (input : List Byte) (p m n : Nat) :
    inBits input p (m + n) / 2 ^ m = inBits input (p + m) n := by
  rw [inBits_add, Nat.add_mul_div_left _ _ (Nat.two_pow_pos m), Nat.div_eq_of_lt (inBits_lt _ _ _),
    Nat.zero_add]

/-- Two atoms that hold the aligned reads at `q` and `q + 16`, shifted by `r`, give the read at `q + r` (R83). -/
theorem shiftedAtoms_toNat (input : List Byte) {lo hi : Half} {q r : Nat} (hr : r < 16)
    (hlo : lo.toNat = inBits input q 16) (hhi : hi.toNat = inBits input (q + 16) 16) :
    ((hi <<< (16 - r)) ||| (lo >>> r)).toNat = inBits input (q + r) 16 := by
  have hlow : (lo >>> r).toNat = inBits input (q + r) (16 - r) := by
    rw [BitVec.toNat_ushiftRight, Nat.shiftRight_eq_div_pow, hlo, ← inBits_div,
      Nat.add_sub_cancel' hr.le]
  have hhigh : (hi <<< (16 - r)).toNat = inBits input (q + 16) r <<< (16 - r) := by
    rw [BitVec.toNat_shiftLeft, Nat.shiftLeft_eq, Nat.shiftLeft_eq, hhi, ← inBits_mod _ _ _ _ hr.le]
    rw [show 2 ^ 16 = 2 ^ r * 2 ^ (16 - r) by rw [← Nat.pow_add, Nat.add_sub_cancel' hr.le],
      Nat.mul_mod_mul_right]
  rw [BitVec.toNat_or, hlow, hhigh, ← Nat.shiftLeft_add_eq_or_of_lt (inBits_lt _ _ _),
    Nat.shiftLeft_eq, Nat.add_comm, Nat.mul_comm]
  have hsplit := inBits_add input (q + r) (16 - r) r
  rw [Nat.sub_add_cancel hr.le, show q + r + (16 - r) = q + 16 by omega] at hsplit
  exact hsplit.symm

/-- `get(p, n)` is the stream read at the absolute position (R83). -/
theorem State.Physical.atomGet_eq {s : State} (hs : s.Physical) (p : Nat) {n : Nat} (hn : n ≤ 16) :
    atomGet s.atoms p n = inBits s.input (16 * s.dropped + p) n := by
  have hread := shiftedAtoms_toNat s.input (Nat.mod_lt p (by decide)) (hs.atom_toNat (p / 16))
    (hs.atom_toNat (p / 16 + 1))
  have hpos : 16 * s.dropped + 16 * (p / 16) + p % 16 = 16 * s.dropped + p := by omega
  rw [atomGet, hread, hpos, inBits_mod _ _ _ _ hn]

/-- Settles O23: each of the two atoms is an aligned read, and reads split (`inBits_add`) and narrow (`inBits_mod`). -/
theorem atomReadsAreStreamReads : Obligations.AtomReadsAreStreamReads := by
  refine ⟨fun s p n hs _ hn => hs.atomGet_eq p hn, fun input p => ⟨?_, fun n hn => ?_⟩⟩
  · rw [inBits_add input p 16 32, inBits_add input (p + 16) 16 16]
    ring
  · rw [inBits_mod _ _ _ _ hn]

/-! ### The checksum (R98, R266) -/

/-- Settles O24: the running state covers the bytes before `baseIndex`, the storage holds the rest. -/
theorem checksumIsAdlerOfOut : Obligations.ChecksumIsAdlerOfOut := by
  intro s hs
  rw [State.checksum, hs.adler, hs.storage, ← adlerFold_append, List.take_append_drop, adler]

end Sys2Proof.Machine
end

section
/-! O15: what the element decoder answers is well-formed (R138, R150, R191, R193). -/

namespace Sys2Proof.Machine

open Sys2Proof.Laws

variable {s : State} {i : Instr} {len : Nat}

/-! ### Lengths of the codes read -/

theorem decode_mem {t : Table} {input : List Byte} {p : Nat} {e : Entry} (h : t.decode input p = some e) :
    e ∈ t.entries := List.mem_of_getElem? h

theorem codeLenOk_of_regular {t : Table} (ht : t.Regular) {e : Entry} (he : e ∈ t.entries) :
    codeLenOk e.len = true := by
  rw [codeLenOk, Bool.and_eq_true, decide_eq_true_iff, decide_eq_true_iff]
  exact ⟨ht.lenPos e he, ht.lenMax e he⟩

theorem clLenOk_of_regular {t : Table} (ht : t.Regular) (h7 : ∀ e ∈ t.entries, e.len ≤ 7) {e : Entry}
    (he : e ∈ t.entries) : clLenOk e.len = true := by
  rw [clLenOk, Bool.and_eq_true, decide_eq_true_iff, decide_eq_true_iff]
  exact ⟨ht.lenPos e he, h7 e he⟩

/-! ### The elements of a symbol -/

theorem clInstr_wf (h : clLenOk len = true) (sym x : Nat) : (clInstr sym len x).wf = true := by
  unfold clInstr
  split
  · exact h
  · split
    · exact h
    · split <;> exact h

theorem runInstr_wf (h : codeLenOk len = true) (j x : Nat) : (runInstr j len x).wf = true := by
  unfold runInstr
  split <;> exact h

theorem distInstr_wf (h : codeLenOk len = true) (k x : Nat) : (distInstr k len x).wf = true := by
  unfold distInstr
  split <;> exact h

theorem symbolInstr_wf (h : codeLenOk len = true) (sym x : Nat) : (symbolInstr sym len x).wf = true := by
  unfold symbolInstr
  split
  · exact h
  · split
    · exact h
    · split
      · exact runInstr_wf h _ x
      · split <;> exact h

theorem distanceInstr_wf (h : codeLenOk len = true) (sym x : Nat) :
    (distanceInstr sym len x).wf = true := by
  unfold distanceInstr
  split
  · exact distInstr_wf h sym x
  · split <;> exact h

/-! ### The decoded element -/

/-- Under `Tables` a decoded element has operands its encoding can hold (R138, R150, R193). -/
theorem State.Tables.decoded_wf (hs : s.Tables) (hd : Decoded s.elementCtx i) : i.wf = true := by
  cases hd with
  | badCount bf hlit hdist hclen _ _ hcount => simp [Instr.wf, hcount]
  | dynamic bf hlit hdist hclen cl _ _ hcount hlen => simp [Instr.wf, Nat.not_lt.2 hcount, hlen]
  | codeLength e x _ htag he =>
    obtain ⟨hregular, -, h7⟩ := hs.cl htag
    exact clInstr_wf (clLenOk_of_regular hregular h7 (decode_mem he)) e.sym x
  | symbol e x _ htag he =>
    exact symbolInstr_wf (codeLenOk_of_regular (hs.rl htag).1 (decode_mem he)) e.sym x
  | distance e x hdistance he =>
    have hst : s.st = .blockCompressed := hs.distance (elementCtx_distance.1 hdistance)
    exact distanceInstr_wf (codeLenOk_of_regular (hs.d hst).1 (decode_mem he)) e.sym x
  | _ => rfl

/-- Settles O15: by the cases of `Decoded`; the bits are counted by `Decoded.bits`. -/
theorem decodedElementsAreWhole : Obligations.DecodedElementsAreWhole := by
  intro s i hs _ h
  have hd := decodeElement_instr h
  exact ⟨hs.decoded_wf hd, hd.bits⟩

end Sys2Proof.Machine
end

section
/-! O48: the copy of a run token's distance symbol (R93, R96, R353, R357). -/

namespace Sys2Proof.Machine

open Sys2Proof.Laws

variable {s : State} {k len x : Nat}

/-- Each copied byte is the one `offset` before it (R93). -/
theorem copyBytes_getElem? {out : List Byte} {offset count k : Nat} (h1 : 1 ≤ offset)
    (h2 : offset ≤ out.length) (hk : k < count) :
    (out ++ copyBytes out offset count)[out.length + k]? =
      (out ++ copyBytes out offset count)[out.length - offset + k]? := by
  obtain ⟨bytes, hcopy, -, hget⟩ := copyForward_spec offset count out h1 h2
  rw [copyBytes, hcopy, List.drop_left]
  exact hget k hk

theorem one_le_distBase : ∀ k < 30, 1 ≤ distBase k := by decide

/-- The state after a copy (R353): the copied bytes appended, the whole token consumed. -/
def State.copied (s : State) (offset bits : Nat) : State :=
  { (s.emit (copyBytes s.out offset s.runCount)).commit (s.runBits + bits) with activity := .inflating }

theorem copied_logical (s : State) (offset bits : Nat) :
    (s.copied offset bits).logical = ({ s with
      out := s.out ++ copyBytes s.out offset s.runCount
      pos := s.pos + (s.runBits + bits)
      activity := .inflating } : State).logical :=
  congrArg (fun u : State => { u with activity := .inflating }) (emit_logical s _ _)

theorem copied_grows (s : State) (offset bits : Nat) :
    s.Grows (copyBytes s.out offset s.runCount) (s.runBits + bits) (s.copied offset bits) :=
  { emit_grows s _ _ with }

theorem distToken_past_limit (h : s.refLimit < distBase k + x) :
    distToken k len x s = .next (s.raise .invalidStringReference 0) := if_pos h

theorem distToken_within_limit (h : distBase k + x ≤ s.refLimit) : distToken k len x s =
    s.withRoom s.runCount (s.copied (distBase k + x) (len + distExtra k)) := by
  rw [State.copied, ← Nat.add_assoc]
  exact if_neg (Nat.not_lt.2 h)

theorem withRoom_over {j : Nat} (h : s.outputOver j = true) (done : State) :
    s.withRoom j done = .next (s.respond statusNeedsPull []) := if_pos h

/-- An instruction that means distance symbol `k` copies back by the offset of the decade table (R145, R353). -/
theorem copiesBack_of_distToken {i : Instr} (k len x : Nat) (hk : k < 30)
    (h : ∀ s, exec i s = distToken k len x s) : CopiesBack i (distBase k + x) (len + distExtra k) := by
  have hoffset : 1 ≤ distBase k + x := Nat.le_add_right_of_le (one_le_distBase k hk)
  intro s
  rw [h]
  refine ⟨fun hlimit hroom => ?_, distToken_past_limit, fun hlimit cap hcap hover => ?_⟩
  · have hresident : distBase k + x ≤ s.out.length := by have := refLimit_le s; omega
    rw [distToken_within_limit hlimit, withRoom_of_room hroom]
    exact ⟨_, _, rfl, copied_logical s _ _, copied_grows s _ _, copyBytes_length _ _ _,
      fun j hj => copyBytes_getElem? hoffset hresident hj⟩
  · rw [distToken_within_limit hlimit, withRoom_over (outputOver_of hcap hover)]
    rfl

/-- Settles O48: each instruction is its row of the decade table. -/
theorem distanceSymbolsCopyBack : Obligations.DistanceSymbolsCopyBack := fun len => ⟨
  copiesBack_of_distToken 0 len 0 (by decide) fun _ => rfl,
  copiesBack_of_distToken 1 len 0 (by decide) fun _ => rfl,
  copiesBack_of_distToken 2 len 0 (by decide) fun _ => rfl,
  copiesBack_of_distToken 3 len 0 (by decide) fun _ => rfl,
  fun x => copiesBack_of_distToken 4 len x.toNat (by decide) fun _ => rfl,
  fun x => copiesBack_of_distToken 5 len x.toNat (by decide) fun _ => rfl,
  fun x => copiesBack_of_distToken 6 len x.toNat (by decide) fun _ => rfl,
  fun x => copiesBack_of_distToken 7 len x.toNat (by decide) fun _ => rfl,
  fun x => copiesBack_of_distToken 8 len x.toNat (by decide) fun _ => rfl,
  fun x => copiesBack_of_distToken 9 len x.toNat (by decide) fun _ => rfl,
  fun x => copiesBack_of_distToken 10 len x.toNat (by decide) fun _ => rfl,
  fun x => copiesBack_of_distToken 11 len x.toNat (by decide) fun _ => rfl,
  fun x => copiesBack_of_distToken 12 len x.toNat (by decide) fun _ => rfl,
  fun x => copiesBack_of_distToken 13 len x.toNat (by decide) fun _ => rfl,
  fun x => copiesBack_of_distToken 14 len x.toNat (by decide) fun _ => rfl,
  fun x => copiesBack_of_distToken 15 len x.toNat (by decide) fun _ => rfl,
  fun x => copiesBack_of_distToken 16 len x.toNat (by decide) fun _ => rfl,
  fun x => copiesBack_of_distToken 17 len x.toNat (by decide) fun _ => rfl,
  fun x => copiesBack_of_distToken 18 len x.toNat (by decide) fun _ => rfl,
  fun x => copiesBack_of_distToken 19 len x.toNat (by decide) fun _ => rfl,
  fun x => copiesBack_of_distToken 20 len x.toNat (by decide) fun _ => rfl,
  fun x => copiesBack_of_distToken 21 len x.toNat (by decide) fun _ => rfl,
  fun x => copiesBack_of_distToken 22 len x.toNat (by decide) fun _ => rfl,
  fun x => copiesBack_of_distToken 23 len x.toNat (by decide) fun _ => rfl,
  fun x => copiesBack_of_distToken 24 len x.toNat (by decide) fun _ => rfl,
  fun x => copiesBack_of_distToken 25 len x.toNat (by decide) fun _ => rfl,
  fun x => copiesBack_of_distToken 26 len x.toNat (by decide) fun _ => rfl,
  fun x => copiesBack_of_distToken 27 len x.toNat (by decide) fun _ => rfl,
  fun x => copiesBack_of_distToken 28 len x.toNat (by decide) fun _ => rfl,
  fun x => copiesBack_of_distToken 29 len x.toNat (by decide) fun _ => rfl⟩

end Sys2Proof.Machine
end

section
/-! O28: PULL, by whether enough bytes are retained (R94, R224). -/

namespace Sys2Proof.Machine

open Sys2Proof.Laws

variable {s : State} {n : BitVec 24}

/-- `OutRelease` on enough bytes (R94). -/
theorem outRelease_of_le {k : Nat} (h : k ≤ s.out.length - s.currentIndex) :
    s.outRelease k = some ((s.out.drop s.currentIndex).take k, { s with
      currentIndex := s.currentIndex + k
      startIndex := s.releaseStart (s.currentIndex + k) }) := if_pos h

/-- `OutRelease` on too few bytes (R94). -/
theorem outRelease_of_lt {k : Nat} (h : s.out.length - s.currentIndex < k) : s.outRelease k = none :=
  if_neg (Nat.not_le.2 h)

theorem execPull_failed (h : s.st = .failed) : execPull n s = .refused .sessionFailed := if_pos h

/-- Outside `failed` PULL answers the bytes `OutRelease` gives (R224). -/
theorem execPull_some (hst : s.st ≠ .failed) {r : List Byte × State} (h : s.outRelease n.toNat = some r) :
    execPull n s = .next (r.2.respond statusSome r.1) := by
  rw [execPull, if_neg hst, h]

/-- Outside `failed` PULL answers None when `OutRelease` gives none (R224). -/
theorem execPull_none (hst : s.st ≠ .failed) (h : s.outRelease n.toNat = none) :
    execPull n s = .next (s.respond statusDone []) := by
  rw [execPull, if_neg hst, h]

/-- Settles O28: refused in `failed`, else by the two cases of `OutRelease`. -/
theorem pullReleasesExactlyTheBytes : Obligations.PullReleasesExactlyTheBytes := by
  refine fun s n => ⟨execPull_failed, fun hst hn => ?_, fun hst hn => ?_⟩
  · exact execPull_some hst (outRelease_of_le hn)
  · exact execPull_none hst (outRelease_of_lt hn)

end Sys2Proof.Machine
end

section
/-! What the element decoder answers, by the state: one equation per state and block type, and one for a
Huffman-coded element, whichever its code (R141 to R145, R190, R222). -/

namespace Sys2Proof.Machine

open Sys2Proof.Laws

variable {c : ElementCtx}

/-! ### The state chooses the decoder (R222) -/

section Tag

variable (hd : c.distance = false)
include hd

theorem decodeElement_streamStart (ht : c.tag = .streamStart) : decodeElement c = decodeHeader c := by
  simp [decodeElement, hd, ht]

theorem decodeElement_blockStart (ht : c.tag = .blockStart) : decodeElement c = decodeBlockHeader c := by
  simp [decodeElement, hd, ht]

theorem decodeElement_blockTables (ht : c.tag = .blockTables) : decodeElement c = decodeCl c := by
  simp [decodeElement, hd, ht]

theorem decodeElement_blockUncompressed (ht : c.tag = .blockUncompressed) :
    decodeElement c = decodeStoredByte c := by
  simp [decodeElement, hd, ht]

theorem decodeElement_blockCompressed (ht : c.tag = .blockCompressed) : decodeElement c = decodeRl c := by
  simp [decodeElement, hd, ht]

theorem decodeElement_streamChecksum (ht : c.tag = .streamChecksum) : decodeElement c = decodeTrailer c := by
  simp [decodeElement, hd, ht]

end Tag

theorem decodeElement_distance (hd : c.distance = true) : decodeElement c = decodeDist c := if_pos hd

/-! ### Block headers, by BTYPE (R136, R290) -/

section BlockType

variable (hd : c.distance = false) (ht : c.tag = .blockStart) (h3 : 3 ≤ avail c.input c.pos)
include hd ht h3

theorem decodeElement_stored (hb : inBits c.input (c.pos + 1) 2 = 0) :
    decodeElement c = decodeStored c (decide (bitAt c.input c.pos = 1)) := by
  rw [decodeElement_blockStart hd ht, decodeBlockHeader, if_neg (Nat.not_lt.2 h3), hb]
  rfl

theorem decodeElement_fixed (hb : inBits c.input (c.pos + 1) 2 = 1) :
    decodeElement c = .instr (.bhdrFixed (decide (bitAt c.input c.pos = 1))) := by
  rw [decodeElement_blockStart hd ht, decodeBlockHeader, if_neg (Nat.not_lt.2 h3), hb]
  rfl

theorem decodeElement_dynamic (hb : inBits c.input (c.pos + 1) 2 = 2) :
    decodeElement c = decodeDynamic c (decide (bitAt c.input c.pos = 1)) := by
  rw [decodeElement_blockStart hd ht, decodeBlockHeader, if_neg (Nat.not_lt.2 h3), hb]
  rfl

theorem decodeElement_reserved (hb : inBits c.input (c.pos + 1) 2 = 3) :
    decodeElement c = .instr (.bhdrReserved (decide (bitAt c.input c.pos = 1))) := by
  rw [decodeElement_blockStart hd ht, decodeBlockHeader, if_neg (Nat.not_lt.2 h3), hb]
  rfl

end BlockType

/-! ### The stages of a dynamic header (R293, R294) -/

section Dynamic

variable (bf : Bool)

theorem decodeDynamic_short (h : avail c.input c.pos < 17) : decodeDynamic c bf = .needMore := if_pos h

variable (h17 : 17 ≤ avail c.input c.pos)
include h17

/-- `HLITv` above 286 is answered before the code lengths are there (R293). -/
theorem decodeDynamic_badCount
    (hh : 286 < hlitValue (BitVec.ofNat 5 (inBits c.input (c.pos + 3) 5))) :
    decodeDynamic c bf = .instr (.bhdrDynamic bf (BitVec.ofNat 5 (inBits c.input (c.pos + 3) 5))
      (BitVec.ofNat 5 (inBits c.input (c.pos + 8) 5))
      (BitVec.ofNat 4 (inBits c.input (c.pos + 13) 4)) []) := by
  simp only [decodeDynamic, if_neg (Nat.not_lt.2 h17), if_pos hh]

/-- A legal `HLITv` waits for its code lengths and takes them in stream order (R294). -/
theorem decodeDynamic_lengths
    (hh : hlitValue (BitVec.ofNat 5 (inBits c.input (c.pos + 3) 5)) ≤ 286) :
    decodeDynamic c bf =
      if avail c.input c.pos < 17 + 3 * hclenValue (BitVec.ofNat 4 (inBits c.input (c.pos + 13) 4)) then
        .needMore
      else .instr (.bhdrDynamic bf (BitVec.ofNat 5 (inBits c.input (c.pos + 3) 5))
        (BitVec.ofNat 5 (inBits c.input (c.pos + 8) 5))
        (BitVec.ofNat 4 (inBits c.input (c.pos + 13) 4))
        (readCl c.input (c.pos + 17) (hclenValue (BitVec.ofNat 4 (inBits c.input (c.pos + 13) 4))))) := by
  simp only [decodeDynamic, if_neg (Nat.not_lt.2 h17), if_neg (Nat.not_lt.2 hh)]

end Dynamic

/-! ### Huffman-coded elements (R141, R190, R191) -/

/-- The context reads the symbol `sym` of the table `t` as the element `instr` with `extra` bits after the code;
while code and extra bits are not all pushed it needs more. -/
def ElementCtx.Reads (c : ElementCtx) (t : Table) (sym extra : Nat) (instr : Nat → Nat → Instr) : Prop :=
  ∀ len, t.decode c.input c.pos = some ⟨sym, len⟩ → decodeElement c =
    if avail c.input c.pos < len + extra then .needMore
    else .instr (instr len (inBits c.input (c.pos + len) extra))

theorem ElementCtx.Reads.needMore {t : Table} {e : Entry} {extra : Nat} {instr : Nat → Nat → Instr}
    (h : c.Reads t e.sym extra instr) (he : t.decode c.input c.pos = some e)
    (ha : avail c.input c.pos < e.len + extra) : decodeElement c = .needMore :=
  (h e.len he).trans (if_pos ha)

theorem ElementCtx.Reads.element {t : Table} {e : Entry} {extra : Nat} {instr : Nat → Nat → Instr}
    (h : c.Reads t e.sym extra instr) (he : t.decode c.input c.pos = some e)
    (ha : e.len + extra ≤ avail c.input c.pos) :
    decodeElement c = .instr (instr e.len (inBits c.input (c.pos + e.len) extra)) :=
  (h e.len he).trans (if_neg (Nat.not_lt.2 ha))

theorem withSymbol_of_decode {t : Table} {sym len : Nat} {k : Nat → Nat → Element}
    (h : t.decode c.input c.pos = some ⟨sym, len⟩) :
    withSymbol t c k = if avail c.input c.pos < len then .needMore else k sym len := by
  rw [withSymbol, h]

/-- The wait for the code is part of the wait for code and extra bits (R191). -/
theorem ite_avail_add {a len extra : Nat} {x : Element} :
    (if a < len then Element.needMore else if a < len + extra then .needMore else x) =
      if a < len + extra then .needMore else x := by
  by_cases h : a < len
  · rw [if_pos h, if_pos (Nat.lt_add_right extra h)]
  · rw [if_neg h]

/-- In `blockTables` the symbols of the code-length code are read (R142, R320). -/
theorem reads_codeLength (hd : c.distance = false) (ht : c.tag = .blockTables) {sym : Nat} (hs : sym < 19) :
    c.Reads c.cld sym (clExtraBits sym) (clInstr sym) := by
  intro len h
  rw [decodeElement_blockTables hd ht, decodeCl, withSymbol_of_decode h, if_neg (Nat.not_le.2 hs), ite_avail_add]

/-! ### The element of a symbol, by its range (R143, R145, R350, R353) -/

section SymbolRange

variable {sym : Nat} (len x : Nat)

theorem symbolInstr_literal (h : sym < 256) : symbolInstr sym len x = .lit len (BitVec.ofNat 8 sym) := if_pos h

theorem symbolInstr_endOfBlock : symbolInstr 256 len x = .eob len := rfl

theorem symbolInstr_run {j : Nat} (h : j < 29) : symbolInstr (257 + j) len x = runInstr j len x := by
  rw [symbolInstr, if_neg (by omega), if_neg (by omega), if_pos (by omega), Nat.add_sub_cancel_left]

theorem symbolInstr_286 : symbolInstr 286 len x = .rl286 len := rfl

theorem symbolInstr_past_286 (h : 286 < sym) : symbolInstr sym len x = .rl287 len := by
  rw [symbolInstr, if_neg (by omega), if_neg (by omega), if_neg (by omega), if_neg (by omega)]

theorem symbolExtra_run {j : Nat} (h : j < 29) : symbolExtra (257 + j) = runExtra j := by
  rw [symbolExtra, if_pos (by omega), Nat.add_sub_cancel_left]

theorem symbolExtra_plain (h : sym ≤ 256 ∨ 286 ≤ sym) : symbolExtra sym = 0 := if_neg (by omega)

theorem distanceInstr_copy (h : sym < 30) : distanceInstr sym len x = distInstr sym len x := if_pos h

theorem distanceInstr_30 : distanceInstr 30 len x = .d30 len := rfl

theorem distanceInstr_past_30 (h : 30 < sym) : distanceInstr sym len x = .d31 len := by
  rw [distanceInstr, if_neg (by omega), if_neg (by omega)]

theorem distanceExtra_copy (h : sym < 30) : distanceExtra sym = distExtra sym := if_pos h

theorem distanceExtra_plain (h : 30 ≤ sym) : distanceExtra sym = 0 := if_neg (Nat.not_lt.2 h)

end SymbolRange

/-- In `blockCompressed` every symbol of the run/literal code is read (R143, R350). -/
theorem reads_symbol (hd : c.distance = false) (ht : c.tag = .blockCompressed) (sym : Nat) :
    c.Reads c.rld sym (symbolExtra sym) (symbolInstr sym) := by
  intro len h
  rw [decodeElement_blockCompressed hd ht, decodeRl, withSymbol_of_decode h]
  rcases Nat.lt_trichotomy sym 256 with hlit | rfl | hlit
  · rw [if_pos hlit, symbolExtra_plain (.inl hlit.le), symbolInstr_literal _ _ hlit, Nat.add_zero]
  · rw [symbolExtra_plain (.inl (le_refl _)), symbolInstr_endOfBlock, Nat.add_zero]
    rfl
  rw [if_neg hlit.not_gt, if_neg hlit.ne']
  rcases Nat.lt_trichotomy sym 286 with hrun | rfl | hrun
  · obtain ⟨j, rfl⟩ := Nat.exists_eq_add_of_le hlit
    have hj : j < 29 := by omega
    rw [if_pos hrun, Nat.add_sub_cancel_left, symbolExtra_run hj, symbolInstr_run _ _ hj, ite_avail_add]
  · rw [symbolExtra_plain (.inr (le_refl _)), symbolInstr_286, Nat.add_zero]
    rfl
  · rw [if_neg hrun.not_gt, if_neg hrun.ne', symbolExtra_plain (.inr hrun.le), symbolInstr_past_286 _ _ hrun,
      Nat.add_zero]

/-- In the distance half of a token every symbol of the distance code is read (R145, R353). -/
theorem reads_distance (hd : c.distance = true) (sym : Nat) :
    c.Reads c.dd sym (distanceExtra sym) (distanceInstr sym) := by
  intro len h
  rw [decodeElement_distance hd, decodeDist, withSymbol_of_decode h]
  rcases Nat.lt_trichotomy sym 30 with hcopy | rfl | hcopy
  · rw [if_pos hcopy, distanceExtra_copy hcopy, distanceInstr_copy _ _ hcopy, ite_avail_add]
  · rw [distanceExtra_plain (le_refl _), distanceInstr_30, Nat.add_zero]
    rfl
  · rw [if_neg hcopy.not_gt, if_neg hcopy.ne', distanceExtra_plain hcopy.le, distanceInstr_past_30 _ _ hcopy,
      Nat.add_zero]

end Sys2Proof.Machine
end

section
/-! O44, O41: Huffman-coded elements and the dynamic header as read (R141 to R145, R190, R191, R293, R294). -/

namespace Sys2Proof.Machine

open Sys2Proof.Laws

variable {c : ElementCtx} {e : Entry}

/-! ### Huffman-coded elements, by the code that is read -/

/-- Below 16 a code-length symbol is its own length (R142). -/
theorem clInstr_literal {sym : Nat} (h : sym < 16) (len x : Nat) :
    clInstr sym len x = .clLit len (BitVec.ofNat 4 sym) := by
  rw [clInstr, if_neg (by omega), if_neg (by omega), if_neg (by omega)]

theorem clExtraBits_literal {sym : Nat} (h : sym < 16) : clExtraBits sym = 0 := by
  rw [clExtraBits, if_neg (by omega), if_neg (by omega), if_neg (by omega)]

/-- The clauses of O44 for `blockTables`. -/
theorem codeLengthElements_read (hd : c.distance = false) (ht : c.tag = .blockTables)
    (he : c.cld.decode c.input c.pos = some e) :
    (e.sym < 19 → avail c.input c.pos < e.len + clExtraBits e.sym → decodeElement c = .needMore) ∧
    (e.len ≤ avail c.input c.pos → e.sym < 16 →
      decodeElement c = .instr (.clLit e.len (BitVec.ofNat 4 e.sym))) ∧
    (e.len + 2 ≤ avail c.input c.pos → e.sym = 16 → decodeElement c =
      .instr (.clExtend e.len (BitVec.ofNat 2 (inBits c.input (c.pos + e.len) 2)))) ∧
    (e.len + 3 ≤ avail c.input c.pos → e.sym = 17 → decodeElement c =
      .instr (.clZeros3 e.len (BitVec.ofNat 3 (inBits c.input (c.pos + e.len) 3)))) ∧
    (e.len + 7 ≤ avail c.input c.pos → e.sym = 18 → decodeElement c =
      .instr (.clZeros7 e.len (BitVec.ofNat 7 (inBits c.input (c.pos + e.len) 7)))) := by
  obtain ⟨sym, len⟩ := e
  have read {sym : Nat} (hs : sym < 19) := reads_codeLength hd ht hs
  refine ⟨fun hs => (read hs).needMore he, fun ha hs => ?_, ?_, ?_, ?_⟩
  · rw [← clInstr_literal hs len (inBits c.input (c.pos + len) (clExtraBits sym))]
    exact (read (by omega)).element he (by rwa [clExtraBits_literal hs])
  all_goals
    rintro ha rfl
    exact (read (by simp)).element he ha

/-- The clauses of O44 for `blockCompressed`. -/
theorem symbolElements_read (hd : c.distance = false) (ht : c.tag = .blockCompressed)
    (he : c.rld.decode c.input c.pos = some e) :
    (avail c.input c.pos < e.len → decodeElement c = .needMore) ∧
    (e.len ≤ avail c.input c.pos → e.sym < 256 →
      decodeElement c = .instr (.lit e.len (BitVec.ofNat 8 e.sym))) ∧
    (e.len ≤ avail c.input c.pos → e.sym = 256 → decodeElement c = .instr (.eob e.len)) ∧
    (∀ j < 29, e.sym = 257 + j →
      (avail c.input c.pos < e.len + runExtra j → decodeElement c = .needMore) ∧
      (e.len + runExtra j ≤ avail c.input c.pos → decodeElement c =
        .instr (runInstr j e.len (inBits c.input (c.pos + e.len) (runExtra j))))) ∧
    (e.len ≤ avail c.input c.pos → e.sym = 286 → decodeElement c = .instr (.rl286 e.len)) ∧
    (e.len ≤ avail c.input c.pos → 286 < e.sym → decodeElement c = .instr (.rl287 e.len)) := by
  obtain ⟨sym, len⟩ := e
  have read := reads_symbol hd ht sym
  have plain (hs : sym ≤ 256 ∨ 286 ≤ sym) (ha : len ≤ avail c.input c.pos) :
      decodeElement c = .instr (symbolInstr sym len (inBits c.input (c.pos + len) (symbolExtra sym))) :=
    read.element he (by rwa [symbolExtra_plain hs])
  refine ⟨fun ha => read.needMore he (Nat.lt_add_right _ ha), fun ha hs => ?_, fun ha hs => ?_,
    fun j hj hs => ?_, fun ha hs => ?_, fun ha hs => ?_⟩
  · rw [plain (.inl hs.le) ha, symbolInstr_literal _ _ hs]
  · cases hs
    exact plain (.inl (le_refl _)) ha
  · obtain rfl : sym = 257 + j := hs
    rw [symbolExtra_run hj] at read
    exact ⟨read.needMore he, fun ha => by rw [read.element he ha, symbolInstr_run _ _ hj]⟩
  · cases hs
    exact plain (.inr (le_refl _)) ha
  · rw [plain (.inr hs.le) ha, symbolInstr_past_286 _ _ hs]

/-- The clauses of O44 for the distance half of a token. -/
theorem distanceElements_read (hd : c.distance = true) (he : c.dd.decode c.input c.pos = some e) :
    (avail c.input c.pos < e.len → decodeElement c = .needMore) ∧
    (∀ k < 30, e.sym = k →
      (avail c.input c.pos < e.len + distExtra k → decodeElement c = .needMore) ∧
      (e.len + distExtra k ≤ avail c.input c.pos → decodeElement c =
        .instr (distInstr k e.len (inBits c.input (c.pos + e.len) (distExtra k))))) ∧
    (e.len ≤ avail c.input c.pos → e.sym = 30 → decodeElement c = .instr (.d30 e.len)) ∧
    (e.len ≤ avail c.input c.pos → 30 < e.sym → decodeElement c = .instr (.d31 e.len)) := by
  obtain ⟨sym, len⟩ := e
  have read := reads_distance hd sym
  refine ⟨fun ha => read.needMore he (Nat.lt_add_right _ ha), fun k hk hs => ?_, fun ha hs => ?_,
    fun ha hs => ?_⟩
  · cases hs
    rw [distanceExtra_copy hk] at read
    exact ⟨read.needMore he, fun ha => by rw [read.element he ha, distanceInstr_copy _ _ hk]⟩
  · cases hs
    exact read.element he ha
  · rw [read.element he (by rwa [distanceExtra_plain hs.le]), distanceInstr_past_30 _ _ hs]

/-- Settles O44: the three codes, each by what its symbols are read as. -/
theorem codedElementsAreRead : Obligations.CodedElementsAreRead := fun _ _ =>
  ⟨codeLengthElements_read, symbolElements_read, distanceElements_read⟩

/-! ### The dynamic header -/

/-- A field of `n` bits keeps the `n` bits read (R12). -/
@[simp] theorem toNat_ofNat_inBits (input : List Byte) (p n : Nat) :
    (BitVec.ofNat n (inBits input p n)).toNat = inBits input p n := by
  rw [BitVec.toNat_ofNat, Nat.mod_eq_of_lt (inBits_lt input p n)]

theorem inBits_one (input : List Byte) (p : Nat) : inBits input p 1 = bitAt input p := rfl

/-- The code lengths of a dynamic header in stream order (R138). -/
theorem readCl_getD (input : List Byte) {n i : Nat} (hi : i < n) (p : Nat) :
    ((readCl input p n).getD i 0).toNat = inBits input (p + 3 * i) 3 := by
  induction n generalizing p i with
  | zero => omega
  | succ n ih =>
    cases i with
    | zero => exact toNat_ofNat_inBits input p 3
    | succ i =>
      rw [readCl, List.getD_cons_succ, ih (Nat.lt_of_succ_lt_succ hi), Nat.add_assoc, Nat.mul_succ,
        Nat.add_comm 3]

/-- Settles O41: the two stages of `decodeDynamic`. -/
theorem dynamicHeaderIsReadInStages : Obligations.DynamicHeaderIsReadInStages := by
  intro c hd ht h3 hb
  rw [decodeElement_dynamic hd ht h3 hb]
  have hlit := toNat_ofNat_inBits c.input (c.pos + 3) 5
  have hclen := toNat_ofNat_inBits c.input (c.pos + 13) 4
  refine ⟨decodeDynamic_short _, fun h17 hh => ?_, fun h17 hh ha => ?_, fun hh ha => ?_⟩
  · exact ⟨_, _, _, _, _, decodeDynamic_badCount _ h17 (by rwa [hlitValue, hlit]), hlit⟩
  · rw [decodeDynamic_lengths _ h17 (by rwa [hlitValue, hlit]), if_pos (by rwa [hclenValue, hclen])]
  · have h17 : 17 ≤ avail c.input c.pos := by omega
    rw [decodeDynamic_lengths _ h17 (by rwa [hlitValue, hlit]),
      if_neg (Nat.not_lt.2 (by rwa [hclenValue, hclen]))]
    refine ⟨_, _, _, _, _, rfl, by rw [inBits_one], hlit, toNat_ofNat_inBits .., hclen, readCl_length ..,
      fun i hi => ?_⟩
    rw [readCl_length] at hi
    exact readCl_getD _ hi _

end Sys2Proof.Machine
end

section
/-! O14: a stream that holds the encoding of an element decodes to it (R134 to R150). -/

namespace Sys2Proof.Machine

open Sys2Proof.Laws

variable {c : ElementCtx} {input : List Byte} {p n : Nat} {bits rest : List Bool}

/-! ### Fields held by the input -/

theorem holdsBits_cons {b : Bool} (h : holdsBits input p (b :: bits)) :
    decide (bitAt input p = 1) = b ∧ holdsBits input (p + 1) bits := by
  have hhead := h.2 0 (Nat.succ_pos _)
  refine ⟨?_, (holdsBits_append (a := [b]) h).2⟩
  rw [Nat.add_zero, List.getElem_cons_zero] at hhead
  cases b <;> simp [hhead]

/-- A held field reads as its value, and what follows it is held after it (R12, R99). -/
theorem holdsBits_field {v : Nat} (h : holdsBits input p (natBits n v ++ rest)) :
    inBits input p n = v % 2 ^ n ∧ holdsBits input (p + n) rest := by
  obtain ⟨hfield, hrest⟩ := holdsBits_append h
  exact ⟨inBits_natBits hfield, natBits_length n v ▸ hrest⟩

/-- A held word reads back (R12, R99). -/
theorem ofNat_inBits_of_holds {x : BitVec n} (h : holdsBits input p (natBits n x.toNat)) :
    BitVec.ofNat n (inBits input p n) = x := by
  rw [inBits_natBits h, Nat.mod_eq_of_lt x.isLt, BitVec.ofNat_toNat, BitVec.setWidth_eq]

theorem holdsBits_word {x : BitVec n} (h : holdsBits input p (natBits n x.toNat ++ rest)) :
    BitVec.ofNat n (inBits input p n) = x ∧ holdsBits input (p + n) rest :=
  ⟨ofNat_inBits_of_holds (holdsBits_append h).1, (holdsBits_field h).2⟩

/-- Held code lengths of a dynamic header read back (R138). -/
theorem readCl_of_holds {cl : List (BitVec 3)} (h : holdsBits input p (cl.flatMap fun x => natBits 3 x.toNat)) :
    readCl input p cl.length = cl := by
  induction cl generalizing p with
  | nil => rfl
  | cons x xs ih =>
    obtain ⟨hx, hxs⟩ := holdsBits_word h
    rw [List.length_cons, readCl, hx, ih hxs]

/-- Four held bytes, the most significant first, are the trailer's value (R149). -/
theorem trailerValue_of_holds {v : Word} (h : holdsBits input p (natBits 8 (v.toNat / 2 ^ 24) ++
    (natBits 8 (v.toNat / 2 ^ 16) ++ (natBits 8 (v.toNat / 2 ^ 8) ++ natBits 8 v.toNat)))) :
    trailerValue input p = v.toNat := by
  obtain ⟨h0, h⟩ := holdsBits_field h
  obtain ⟨h1, h⟩ := holdsBits_field h
  obtain ⟨h2, h⟩ := holdsBits_field h
  have h3 := inBits_natBits h
  rw [Nat.add_assoc, Nat.add_assoc] at h3
  rw [Nat.add_assoc] at h2
  have hv := v.isLt
  rw [trailerValue, h0, h1, h2, h3]
  omega

/-! ### Elements that are not Huffman-coded -/

theorem zhdr_decodes {cmf flg : Byte} (hd : c.distance = false) (ht : c.tag = .streamStart)
    (hb : holdsBits c.input c.pos (natBits 8 cmf.toNat ++ natBits 8 flg.toNat)) :
    decodeElement c = .instr (.zhdr cmf flg) := by
  have ha : 16 ≤ avail c.input c.pos := by simpa using avail_of_holds hb
  obtain ⟨hcmf, hb⟩ := holdsBits_word hb
  rw [decodeElement_streamStart hd ht, decodeHeader, if_neg (Nat.not_lt.2 ha), hcmf, ofNat_inBits_of_holds hb]

/-- What a held block header says before its own fields (R136). -/
theorem blockHeader_of_holds {bf : Bool} {type : Nat} (hb : holdsBits input p (bf :: (natBits 2 type ++ rest))) :
    3 ≤ avail input p ∧ decide (bitAt input p = 1) = bf ∧ inBits input (p + 1) 2 = type % 4 ∧
      holdsBits input (p + 3) rest := by
  have ha := avail_of_holds hb
  rw [List.length_cons, List.length_append, natBits_length] at ha
  obtain ⟨hbf, hb⟩ := holdsBits_cons hb
  obtain ⟨htype, hb⟩ := holdsBits_field hb
  exact ⟨by omega, hbf, htype, hb⟩

theorem bhdrFixed_decodes {bf : Bool} (hd : c.distance = false) (ht : c.tag = .blockStart)
    (hb : holdsBits c.input c.pos (bf :: natBits 2 1)) : decodeElement c = .instr (.bhdrFixed bf) := by
  obtain ⟨h3, hbf, htype, -⟩ := blockHeader_of_holds (rest := []) hb
  rw [decodeElement_fixed hd ht h3 htype, hbf]

theorem bhdrReserved_decodes {bf : Bool} (hd : c.distance = false) (ht : c.tag = .blockStart)
    (hb : holdsBits c.input c.pos (bf :: natBits 2 3)) : decodeElement c = .instr (.bhdrReserved bf) := by
  obtain ⟨h3, hbf, htype, -⟩ := blockHeader_of_holds (rest := []) hb
  rw [decodeElement_reserved hd ht h3 htype, hbf]

theorem bhdrStored_decodes {bf : Bool} {len nlen : Half} (hd : c.distance = false) (ht : c.tag = .blockStart)
    (hb : holdsBits c.input c.pos (bf :: natBits 2 0 ++ List.replicate (padBits (c.pos + 3)) false
      ++ natBits 16 len.toNat ++ natBits 16 nlen.toNat)) :
    decodeElement c = .instr (.bhdrStored bf len nlen) := by
  have ha := avail_of_holds hb
  simp only [List.append_assoc, List.cons_append, List.length_cons, List.length_append, natBits_length,
    List.length_replicate] at ha hb
  obtain ⟨h3, hbf, htype, hb⟩ := blockHeader_of_holds hb
  obtain ⟨-, hb⟩ := holdsBits_append hb
  rw [List.length_replicate] at hb
  obtain ⟨hlen, hb⟩ := holdsBits_word hb
  rw [decodeElement_stored hd ht h3 htype, hbf, decodeStored, if_neg (by omega), hlen, ofNat_inBits_of_holds hb]

theorem bhdrDynamic_decodes {bf : Bool} {hlit hdist : BitVec 5} {hclen : BitVec 4} {cl : List (BitVec 3)}
    (hd : c.distance = false) (ht : c.tag = .blockStart)
    (hcl : cl.length = if 286 < hlitValue hlit then 0 else hclenValue hclen)
    (hb : holdsBits c.input c.pos (bf :: natBits 2 2 ++ natBits 5 hlit.toNat ++ natBits 5 hdist.toNat
      ++ natBits 4 hclen.toNat ++ cl.flatMap fun x => natBits 3 x.toNat)) :
    decodeElement c = .instr (.bhdrDynamic bf hlit hdist hclen cl) := by
  have ha := avail_of_holds hb
  simp only [List.append_assoc, List.cons_append, List.length_cons, List.length_append, natBits_length,
    List.length_flatMap, List.map_const', List.sum_replicate, smul_eq_mul] at ha hb
  obtain ⟨h3, hbf, htype, hb⟩ := blockHeader_of_holds hb
  obtain ⟨hlit', hb⟩ := holdsBits_word hb
  obtain ⟨hdist', hb⟩ := holdsBits_word hb
  obtain ⟨hclen', hb⟩ := holdsBits_word hb
  have h17 : 17 ≤ avail c.input c.pos := by omega
  rw [decodeElement_dynamic hd ht h3 htype, hbf]
  by_cases hh : 286 < hlitValue hlit
  · rw [if_pos hh] at hcl
    rw [decodeDynamic_badCount bf h17 (by rwa [hlit']), hlit', hdist', hclen', List.eq_nil_of_length_eq_zero hcl]
  · rw [if_neg hh] at hcl
    rw [decodeDynamic_lengths bf h17 (by rw [hlit']; exact Nat.not_lt.1 hh), hlit', hdist', hclen',
      if_neg (by omega), ← hcl, readCl_of_holds hb]

theorem byte_decodes {v : Byte} (hd : c.distance = false) (ht : c.tag = .blockUncompressed)
    (hdone : c.blockDone = false) (hb : holdsBits c.input c.pos (natBits 8 v.toNat)) :
    decodeElement c = .instr (.byte v) := by
  have ha : 8 ≤ avail c.input c.pos := by simpa using avail_of_holds hb
  rw [decodeElement_blockUncompressed hd ht, decodeStoredByte, hdone, if_neg Bool.false_ne_true,
    if_neg (Nat.not_lt.2 ha), ofNat_inBits_of_holds hb]

theorem storedEnd_decodes (hd : c.distance = false) (ht : c.tag = .blockUncompressed)
    (hdone : c.blockDone = true) : decodeElement c = .instr .storedEnd := by
  rw [decodeElement_blockUncompressed hd ht, decodeStoredByte, if_pos hdone]

theorem adler_decodes {v : Word} (hd : c.distance = false) (ht : c.tag = .streamChecksum)
    (hb : holdsBits c.input c.pos (List.replicate (padBits c.pos) false ++ natBits 8 (v.toNat / 2 ^ 24)
      ++ natBits 8 (v.toNat / 2 ^ 16) ++ natBits 8 (v.toNat / 2 ^ 8) ++ natBits 8 v.toNat)) :
    decodeElement c = .instr (.adler v) := by
  have ha := avail_of_holds hb
  simp only [List.append_assoc, List.length_append, natBits_length, List.length_replicate] at ha hb
  obtain ⟨-, hb⟩ := holdsBits_append hb
  rw [List.length_replicate] at hb
  rw [decodeElement_streamChecksum hd ht, decodeTrailer, if_neg (by omega), trailerValue_of_holds hb,
    BitVec.ofNat_toNat, BitVec.setWidth_eq]

/-! ### Huffman-coded elements -/

/-- The table gives the symbol at this length, and the context reads it as `instr` with `extra` bits. -/
structure ElementCtx.Expects (c : ElementCtx) (t : Table) (sym len extra : Nat)
    (instr : Nat → Nat → Instr) : Prop where
  gives : t.gives sym len
  reads : c.Reads t sym extra instr

section Expects

variable {t : Table} {sym len : Nat} {instr : Nat → Nat → Instr}

/-- A held code with extra bits decodes to its element (R140, R141, R190). -/
theorem ElementCtx.Expects.of_coding (h : c.Expects t sym len n instr) {x : Nat} (hx : x < 2 ^ n)
    (hb : holdsBits c.input c.pos (t.codeBits sym len ++ natBits n x)) :
    decodeElement c = .instr (instr len x) := by
  have ha := avail_of_holds hb
  obtain ⟨hcode, hextra⟩ := holdsBits_append hb
  obtain ⟨hdecode, -, -, hlen⟩ := decode_codeBits h.gives hcode
  rw [hlen] at hextra
  rw [List.length_append, hlen, natBits_length] at ha
  rw [h.reads.element hdecode ha, inBits_natBits hextra, Nat.mod_eq_of_lt hx]

/-- The case of an instruction with a field of extra bits. -/
theorem ElementCtx.Expects.of_bits {f : BitVec n → Instr} {x : BitVec n} (h : c.Expects t sym len n instr)
    (hf : ∀ v, instr len v = f (BitVec.ofNat n v))
    (he : some (t.codeBits sym len ++ natBits n x.toNat) = some bits)
    (hb : holdsBits c.input c.pos bits) : decodeElement c = .instr (f x) := by
  cases he
  rw [h.of_coding x.isLt hb, hf, BitVec.ofNat_toNat, BitVec.setWidth_eq]

/-- The case of an instruction without extra bits. -/
theorem ElementCtx.Expects.of_bare {i : Instr} (h : c.Expects t sym len 0 instr) (hi : instr len 0 = i)
    (he : some (t.codeBits sym len) = some bits) (hb : holdsBits c.input c.pos bits) :
    decodeElement c = .instr i := by
  cases he
  rw [← hi]
  exact h.of_coding Nat.one_pos (by rwa [natBits, List.append_nil])

theorem expects_codeLength (ho : c.distance = false ∧ c.tag = .blockTables ∧ c.cld.gives sym len)
    (hs : sym < 19) : c.Expects c.cld sym len (clExtraBits sym) (clInstr sym) := by
  obtain ⟨hd, ht, hg⟩ := ho
  exact ⟨hg, reads_codeLength hd ht hs⟩

theorem expects_symbol (ho : c.distance = false ∧ c.tag = .blockCompressed ∧ c.rld.gives sym len) :
    c.Expects c.rld sym len (symbolExtra sym) (symbolInstr sym) := by
  obtain ⟨hd, ht, hg⟩ := ho
  exact ⟨hg, reads_symbol hd ht sym⟩

theorem expects_distance (ho : c.distance = true ∧ c.dd.gives sym len) :
    c.Expects c.dd sym len (distanceExtra sym) (distanceInstr sym) := by
  obtain ⟨hd, hg⟩ := ho
  exact ⟨hg, reads_distance hd sym⟩

theorem clLit_decodes {k : BitVec 4} (ho : c.distance = false ∧ c.tag = .blockTables ∧ c.cld.gives k.toNat len)
    (he : some (c.cld.codeBits k.toNat len) = some bits) (hb : holdsBits c.input c.pos bits) :
    decodeElement c = .instr (.clLit len k) := by
  have hk := k.isLt
  have hx := expects_codeLength ho (by omega)
  rw [clExtraBits_literal hk] at hx
  exact hx.of_bare (by rw [clInstr_literal hk, BitVec.ofNat_toNat, BitVec.setWidth_eq]) he hb

theorem lit_decodes {v : Byte} (ho : c.distance = false ∧ c.tag = .blockCompressed ∧ c.rld.gives v.toNat len)
    (he : some (c.rld.codeBits v.toNat len) = some bits) (hb : holdsBits c.input c.pos bits) :
    decodeElement c = .instr (.lit len v) := by
  have hv := v.isLt
  have hx := expects_symbol ho
  rw [symbolExtra_plain (.inl (by omega))] at hx
  exact hx.of_bare (by rw [symbolInstr_literal _ _ hv, BitVec.ofNat_toNat, BitVec.setWidth_eq]) he hb

end Expects

/-- Settles O14: an element of fixed fields reads its fields back, a coded one is what its context expects. -/
theorem elementsDecodeAsEncoded : Obligations.ElementsDecodeAsEncoded := by
  intro c i bits hw ho he hb
  cases i with
  | zhdr cmf flg =>
    cases he
    exact zhdr_decodes ho.1 ho.2 hb
  | bhdrStored bf len nlen =>
    cases he
    exact bhdrStored_decodes ho.1 ho.2 hb
  | bhdrFixed bf =>
    cases he
    exact bhdrFixed_decodes ho.1 ho.2 hb
  | bhdrDynamic bf hlit hdist hclen cl =>
    cases he
    exact bhdrDynamic_decodes ho.1 ho.2 (of_decide_eq_true hw) hb
  | bhdrReserved bf =>
    cases he
    exact bhdrReserved_decodes ho.1 ho.2 hb
  | byte v =>
    cases he
    obtain ⟨hd, ht, hdone⟩ := ho
    exact byte_decodes hd ht hdone hb
  | storedEnd =>
    obtain ⟨hd, ht, hdone⟩ := ho
    exact storedEnd_decodes hd ht hdone
  | adler v =>
    cases he
    exact adler_decodes ho.1 ho.2 hb
  | clLit len k => exact clLit_decodes ho he hb
  | clExtend len x => exact (expects_codeLength ho (by decide)).of_bits (fun _ => rfl) he hb
  | clZeros3 len x => exact (expects_codeLength ho (by decide)).of_bits (fun _ => rfl) he hb
  | clZeros7 len x => exact (expects_codeLength ho (by decide)).of_bits (fun _ => rfl) he hb
  | lit len v => exact lit_decodes ho he hb
  | eob len => exact (expects_symbol ho).of_bare rfl he hb
  | run257 len => exact (expects_symbol ho).of_bare rfl he hb
  | run258 len => exact (expects_symbol ho).of_bare rfl he hb
  | run259 len => exact (expects_symbol ho).of_bare rfl he hb
  | run260 len => exact (expects_symbol ho).of_bare rfl he hb
  | run261 len => exact (expects_symbol ho).of_bare rfl he hb
  | run262 len => exact (expects_symbol ho).of_bare rfl he hb
  | run263 len => exact (expects_symbol ho).of_bare rfl he hb
  | run264 len => exact (expects_symbol ho).of_bare rfl he hb
  | run265 len x => exact (expects_symbol ho).of_bits (fun _ => rfl) he hb
  | run266 len x => exact (expects_symbol ho).of_bits (fun _ => rfl) he hb
  | run267 len x => exact (expects_symbol ho).of_bits (fun _ => rfl) he hb
  | run268 len x => exact (expects_symbol ho).of_bits (fun _ => rfl) he hb
  | run269 len x => exact (expects_symbol ho).of_bits (fun _ => rfl) he hb
  | run270 len x => exact (expects_symbol ho).of_bits (fun _ => rfl) he hb
  | run271 len x => exact (expects_symbol ho).of_bits (fun _ => rfl) he hb
  | run272 len x => exact (expects_symbol ho).of_bits (fun _ => rfl) he hb
  | run273 len x => exact (expects_symbol ho).of_bits (fun _ => rfl) he hb
  | run274 len x => exact (expects_symbol ho).of_bits (fun _ => rfl) he hb
  | run275 len x => exact (expects_symbol ho).of_bits (fun _ => rfl) he hb
  | run276 len x => exact (expects_symbol ho).of_bits (fun _ => rfl) he hb
  | run277 len x => exact (expects_symbol ho).of_bits (fun _ => rfl) he hb
  | run278 len x => exact (expects_symbol ho).of_bits (fun _ => rfl) he hb
  | run279 len x => exact (expects_symbol ho).of_bits (fun _ => rfl) he hb
  | run280 len x => exact (expects_symbol ho).of_bits (fun _ => rfl) he hb
  | run281 len x => exact (expects_symbol ho).of_bits (fun _ => rfl) he hb
  | run282 len x => exact (expects_symbol ho).of_bits (fun _ => rfl) he hb
  | run283 len x => exact (expects_symbol ho).of_bits (fun _ => rfl) he hb
  | run284 len x => exact (expects_symbol ho).of_bits (fun _ => rfl) he hb
  | run285 len => exact (expects_symbol ho).of_bare rfl he hb
  | rl286 len => exact (expects_symbol ho).of_bare rfl he hb
  | rl287 len => exact (expects_symbol ho).of_bare rfl he hb
  | dist0 len => exact (expects_distance ho).of_bare rfl he hb
  | dist1 len => exact (expects_distance ho).of_bare rfl he hb
  | dist2 len => exact (expects_distance ho).of_bare rfl he hb
  | dist3 len => exact (expects_distance ho).of_bare rfl he hb
  | dist4 len x => exact (expects_distance ho).of_bits (fun _ => rfl) he hb
  | dist5 len x => exact (expects_distance ho).of_bits (fun _ => rfl) he hb
  | dist6 len x => exact (expects_distance ho).of_bits (fun _ => rfl) he hb
  | dist7 len x => exact (expects_distance ho).of_bits (fun _ => rfl) he hb
  | dist8 len x => exact (expects_distance ho).of_bits (fun _ => rfl) he hb
  | dist9 len x => exact (expects_distance ho).of_bits (fun _ => rfl) he hb
  | dist10 len x => exact (expects_distance ho).of_bits (fun _ => rfl) he hb
  | dist11 len x => exact (expects_distance ho).of_bits (fun _ => rfl) he hb
  | dist12 len x => exact (expects_distance ho).of_bits (fun _ => rfl) he hb
  | dist13 len x => exact (expects_distance ho).of_bits (fun _ => rfl) he hb
  | dist14 len x => exact (expects_distance ho).of_bits (fun _ => rfl) he hb
  | dist15 len x => exact (expects_distance ho).of_bits (fun _ => rfl) he hb
  | dist16 len x => exact (expects_distance ho).of_bits (fun _ => rfl) he hb
  | dist17 len x => exact (expects_distance ho).of_bits (fun _ => rfl) he hb
  | dist18 len x => exact (expects_distance ho).of_bits (fun _ => rfl) he hb
  | dist19 len x => exact (expects_distance ho).of_bits (fun _ => rfl) he hb
  | dist20 len x => exact (expects_distance ho).of_bits (fun _ => rfl) he hb
  | dist21 len x => exact (expects_distance ho).of_bits (fun _ => rfl) he hb
  | dist22 len x => exact (expects_distance ho).of_bits (fun _ => rfl) he hb
  | dist23 len x => exact (expects_distance ho).of_bits (fun _ => rfl) he hb
  | dist24 len x => exact (expects_distance ho).of_bits (fun _ => rfl) he hb
  | dist25 len x => exact (expects_distance ho).of_bits (fun _ => rfl) he hb
  | dist26 len x => exact (expects_distance ho).of_bits (fun _ => rfl) he hb
  | dist27 len x => exact (expects_distance ho).of_bits (fun _ => rfl) he hb
  | dist28 len x => exact (expects_distance ho).of_bits (fun _ => rfl) he hb
  | dist29 len x => exact (expects_distance ho).of_bits (fun _ => rfl) he hb
  | d30 len => exact (expects_distance ho).of_bare rfl he hb
  | d31 len => exact (expects_distance ho).of_bare rfl he hb
  | _ => exact ho.elim

end Sys2Proof.Machine
end

section
/-! O11, O12, O34: the command word, its fields and its operands, written and read (R130, R133, R152). -/

namespace Sys2Proof.Machine

open Sys2Proof.Laws

variable {op imm n : Nat} {w : Word} {bytes rest : List Byte} {i : Instr}

/-! ### The fields of a command word (R130) -/

/-- The command word of `OP` and `IMM`. -/
def commandOf (op imm : Nat) : Word := BitVec.ofNat 32 (op + 256 * imm)

section Fields

variable (hop : op < 16) (himm : imm < 2 ^ 24)
include hop himm

theorem toNat_commandOf : (commandOf op imm).toNat = op + 256 * imm := by
  rw [commandOf, BitVec.toNat_ofNat, Nat.mod_eq_of_lt (by omega)]

theorem cmdOp_commandOf : cmdOp (commandOf op imm) = op := by
  rw [cmdOp, toNat_commandOf hop himm]
  omega

theorem cmdRsv_commandOf : cmdRsv (commandOf op imm) = 0 := by
  rw [cmdRsv, toNat_commandOf hop himm]
  omega

theorem cmdImm_commandOf : cmdImm (commandOf op imm) = imm := by
  rw [cmdImm, toNat_commandOf hop himm]
  omega

theorem commandWord_eq_leBytes : commandWord op imm = leBytes 4 (commandOf op imm).toNat := by
  rw [commandWord, toNat_commandOf hop himm]

end Fields

theorem cmdImm_lt (w : Word) : cmdImm w < 2 ^ 24 := by
  have hw := w.isLt
  unfold cmdImm
  omega

/-- A word without `RSV` bits is the word of its `OP` and `IMM`. -/
theorem leBytes_of_fields (h : cmdRsv w = 0) : leBytes 4 w.toNat = commandWord (cmdOp w) (cmdImm w) := by
  have hw := w.isLt
  unfold cmdRsv at h
  rw [commandWord, cmdOp, cmdImm]
  congr 1
  omega

/-- The `IMM` values R130 admits for an `OP` that is not reserved: a field it marks 0 is 0. -/
def immAdmitted (op imm : Nat) : Prop :=
  match op with
  | 0 | 3 | 4 => imm = 0
  | 1 | 2 => True
  | 5 => imm < 8
  | 6 => imm < 4
  | 7 => imm < 256
  | _ => False

theorem reservedWord_iff (w : Word) :
    reservedWord w = false ↔ cmdRsv w = 0 ∧ immAdmitted (cmdOp w) (cmdImm w) := by
  unfold reservedWord immAdmitted
  rw [Bool.or_eq_false_iff, decide_eq_false_iff_not, not_not]
  refine and_congr_right fun _ => ?_
  split <;> simp_all

/-! ### The word at the front of the port -/

theorem ofNat_leNat_leBytes (w : Word) : BitVec.ofNat 32 (leNat (leBytes 4 w.toNat)) = w := by
  rw [leNat_leBytes_of_lt _ _ w.isLt, BitVec.ofNat_toNat, BitVec.setWidth_eq]

theorem decodeCommand_leBytes (w : Word) (rest : List Byte) : decodeCommand (leBytes 4 w.toNat ++ rest) =
    if reservedWord w then some (.reservedOp w, rest) else decodeOperands w rest := by
  rw [decodeCommand, takeBytes_le, Option.bind_some, ofNat_leNat_leBytes]

/-- The bytes of an admitted `OP` and `IMM` decode by their operands. -/
theorem decodeCommand_commandWord (op : Nat) (hop : op < 8) (himm : imm < 2 ^ 24) (h : immAdmitted op imm)
    (rest : List Byte) : decodeCommand (commandWord op imm ++ rest) = decodeOperands (commandOf op imm) rest := by
  have hop : op < 16 := by omega
  have hplain : reservedWord (commandOf op imm) = false := by
    rw [reservedWord_iff, cmdRsv_commandOf hop himm, cmdOp_commandOf hop himm, cmdImm_commandOf hop himm]
    exact ⟨rfl, h⟩
  rw [commandWord_eq_leBytes hop himm, decodeCommand_leBytes, hplain, if_neg Bool.false_ne_true]

/-! ### Widths (R133) -/

theorem widthCode_lt (dst : Width) : widthCode dst < 4 := by cases dst <;> decide

theorem widthOf_widthCode (dst : Width) : widthOf (widthCode dst) = dst := by cases dst <;> rfl

theorem exists_widthCode : ∀ d < 4, ∃ dst, d = widthCode dst
  | 0, _ => ⟨.w8, rfl⟩
  | 1, _ => ⟨.w16, rfl⟩
  | 2, _ => ⟨.w32, rfl⟩
  | 3, _ => ⟨.w64, rfl⟩

/-- The values a component's bytes hold. -/
theorem pow_widthBytes (dst : Width) : 256 ^ widthBytes dst = 2 ^ widthBits dst := by
  cases dst <;> rfl

theorem pow_widthBits_le (dst : Width) : 2 ^ widthBits dst ≤ 2 ^ 64 :=
  Nat.pow_le_pow_right (by decide) (by cases dst <;> decide)

/-! ### The operands of each command (R130) -/

theorem decodeCommand_new (rest : List Byte) : decodeCommand (commandWord 0 0 ++ rest) = some (.new, rest) := by
  rw [decodeCommand_commandWord 0 (by decide) (by decide) rfl]
  rfl

theorem decodeCommand_retained (rest : List Byte) :
    decodeCommand (commandWord 3 0 ++ rest) = some (.retained, rest) := by
  rw [decodeCommand_commandWord 3 (by decide) (by decide) rfl]
  rfl

theorem decodeCommand_finish (rest : List Byte) :
    decodeCommand (commandWord 4 0 ++ rest) = some (.finish, rest) := by
  rw [decodeCommand_commandWord 4 (by decide) (by decide) rfl]
  rfl

theorem decodeCommand_push (himm : imm < 2 ^ 24) (rest : List Byte) :
    decodeCommand (commandWord 1 imm ++ rest) = (takeBytes imm rest).map fun d => (.push d.1, d.2) := by
  rw [decodeCommand_commandWord 1 (by decide) himm trivial, decodeOperands, cmdOp_commandOf (by decide) himm,
    cmdImm_commandOf (by decide) himm]
  rfl

theorem decodeCommand_pull (himm : imm < 2 ^ 24) (rest : List Byte) :
    decodeCommand (commandWord 2 imm ++ rest) = some (.pull (BitVec.ofNat 24 imm), rest) := by
  rw [decodeCommand_commandWord 2 (by decide) himm trivial, decodeOperands, cmdOp_commandOf (by decide) himm,
    cmdImm_commandOf (by decide) himm]
  rfl

theorem decodeCommand_read (himm : imm < 256) (rest : List Byte) :
    decodeCommand (commandWord 7 imm ++ rest) = some (.read (BitVec.ofNat 8 imm), rest) := by
  have himm' : imm < 2 ^ 24 := by omega
  rw [decodeCommand_commandWord 7 (by decide) himm' himm, decodeOperands, cmdOp_commandOf (by decide) himm',
    cmdImm_commandOf (by decide) himm']
  rfl

theorem decodeCommand_unpack (dst : Width) (rest : List Byte) :
    decodeCommand (commandWord 5 (widthCode dst) ++ rest) = some (.unpack dst, rest) := by
  have hdst := widthCode_lt dst
  have himm : widthCode dst < 2 ^ 24 := by omega
  have hstd : ¬widthCode dst / 4 % 2 = 1 := by omega
  rw [decodeCommand_commandWord 5 (by decide) himm (show widthCode dst < 8 by omega), decodeOperands,
    cmdOp_commandOf (by decide) himm, cmdImm_commandOf (by decide) himm]
  rw [if_neg hstd, Nat.mod_eq_of_lt hdst, widthOf_widthCode]
  rfl

theorem decodeCommand_stdIos (dst : Width) (rest : List Byte) :
    decodeCommand (commandWord 5 (widthCode dst + 4) ++ rest) =
      (decodeBlock rest).map fun b => (.stdIos dst b.1, b.2) := by
  have hdst := widthCode_lt dst
  have himm : widthCode dst + 4 < 2 ^ 24 := by omega
  have hstd : (widthCode dst + 4) / 4 % 2 = 1 := by omega
  rw [decodeCommand_commandWord 5 (by decide) himm (show widthCode dst + 4 < 8 by omega), decodeOperands,
    cmdOp_commandOf (by decide) himm, cmdImm_commandOf (by decide) himm]
  rw [if_pos hstd, Nat.add_mod_right, Nat.mod_eq_of_lt hdst, widthOf_widthCode]
  rfl

theorem decodeCommand_premul (dst : Width) (rest : List Byte) :
    decodeCommand (commandWord 6 (widthCode dst) ++ rest) =
      (takeBytes (widthBytes dst) rest).bind fun c =>
        (takeBytes (widthBytes dst) c.2).map fun a =>
          (.premul dst (BitVec.ofNat 64 (leNat c.1)) (BitVec.ofNat 64 (leNat a.1)), a.2) := by
  have hdst := widthCode_lt dst
  have himm : widthCode dst < 2 ^ 24 := by omega
  rw [decodeCommand_commandWord 6 (by decide) himm hdst, decodeOperands, cmdOp_commandOf (by decide) himm,
    cmdImm_commandOf (by decide) himm, Nat.mod_eq_of_lt hdst, widthOf_widthCode]
  rfl

/-! ### Decoding what is encoded -/

/-- A component read back from its own bytes (R133). -/
theorem ofNat_leNat_component {dst : Width} {x : BitVec 64} (hx : x.toNat < 2 ^ widthBits dst) :
    BitVec.ofNat 64 (leNat (leBytes (widthBytes dst) x.toNat)) = x := by
  rw [leNat_leBytes_of_lt _ _ (pow_widthBytes dst ▸ hx), BitVec.ofNat_toNat, BitVec.setWidth_eq]

/-- Settles O11: each command by what decodes after its word. -/
theorem commandsDecodeAsEncoded : Obligations.CommandsDecodeAsEncoded := by
  intro i b rest hw he
  cases i with
  | new =>
    cases he
    exact decodeCommand_new rest
  | push data =>
    cases he
    rw [List.append_assoc, decodeCommand_push (of_decide_eq_true hw), takeBytes_append, Option.map_some]
  | pull n =>
    cases he
    rw [decodeCommand_pull n.isLt, BitVec.ofNat_toNat, BitVec.setWidth_eq]
  | retained =>
    cases he
    exact decodeCommand_retained rest
  | finish =>
    cases he
    exact decodeCommand_finish rest
  | unpack dst =>
    cases he
    exact decodeCommand_unpack dst rest
  | stdIos dst blk =>
    cases he
    rw [List.append_assoc, decodeCommand_stdIos, decodeBlock_encodeBlock _ _ hw, Option.map_some]
  | premul dst x a =>
    cases he
    obtain ⟨hx, ha⟩ : x.toNat < 2 ^ widthBits dst ∧ a.toNat < 2 ^ widthBits dst := by
      simpa [Instr.wf] using hw
    rw [List.append_assoc, List.append_assoc, decodeCommand_premul, takeBytes_le, Option.bind_some,
      takeBytes_le, Option.map_some, ofNat_leNat_component hx, ofNat_leNat_component ha]
  | read addr =>
    cases he
    rw [decodeCommand_read addr.isLt, BitVec.ofNat_toNat, BitVec.setWidth_eq]
  | reservedOp w =>
    cases he
    exact (decodeCommand_leBytes w rest).trans (if_pos hw)
  | _ => cases he

/-! ### Encoding what is decoded -/

theorem exists_word {r : Instr × List Byte} (h : decodeCommand bytes = some r) :
    ∃ (w : Word) (tail : List Byte), bytes = leBytes 4 w.toNat ++ tail := by
  obtain ⟨b, hb, -⟩ := Option.bind_eq_some_iff.1 h
  obtain ⟨hlen, hbytes⟩ := takeBytes_some hb
  have hlt : leNat b.1 < 2 ^ 32 := by simpa [hlen] using leNat_lt b.1
  refine ⟨BitVec.ofNat 32 (leNat b.1), b.2, ?_⟩
  rw [BitVec.toNat_ofNat, Nat.mod_eq_of_lt hlt, ← hlen, leBytes_leNat, hbytes]

/-- Port bytes that decode begin with a command word: a reserved one, which is the whole command, or one
of an admitted `OP` and `IMM`. -/
theorem decodeCommand_word (h : decodeCommand bytes = some (i, rest)) :
    (∃ w, reservedWord w = true ∧ i = .reservedOp w ∧ bytes = leBytes 4 w.toNat ++ rest) ∨
      ∃ op imm tail, imm < 2 ^ 24 ∧ immAdmitted op imm ∧ bytes = commandWord op imm ++ tail := by
  obtain ⟨w, tail, rfl⟩ := exists_word h
  cases hw : reservedWord w with
  | true =>
    rw [decodeCommand_leBytes, if_pos hw] at h
    cases h
    exact .inl ⟨w, hw, rfl, rfl⟩
  | false =>
    obtain ⟨hrsv, himm⟩ := (reservedWord_iff w).1 hw
    exact .inr ⟨_, _, tail, cmdImm_lt w, himm, by rw [leBytes_of_fields hrsv]⟩

/-- The bytes are those of the well-formed command `i`, then `rest`. -/
def IsEncoding (bytes : List Byte) (i : Instr) (rest : List Byte) : Prop :=
  i.wf = true ∧ ∃ b, encodeCommand i = some b ∧ bytes = b ++ rest

theorem isEncoding_push {imm : Nat} {tail : List Byte} (himm : imm < 2 ^ 24)
    (h : decodeCommand (commandWord 1 imm ++ tail) = some (i, rest)) :
    IsEncoding (commandWord 1 imm ++ tail) i rest := by
  rw [decodeCommand_push himm] at h
  obtain ⟨⟨data, _⟩, hd, h⟩ := Option.map_eq_some_iff.1 h
  cases h
  obtain ⟨rfl, rfl⟩ := takeBytes_some hd
  exact ⟨decide_eq_true himm, _, rfl, (List.append_assoc ..).symm⟩

theorem isEncoding_unpack {imm : Nat} {tail : List Byte} (himm : imm < 8)
    (h : decodeCommand (commandWord 5 imm ++ tail) = some (i, rest)) :
    IsEncoding (commandWord 5 imm ++ tail) i rest := by
  rcases Nat.lt_or_ge imm 4 with h4 | h4
  · obtain ⟨dst, rfl⟩ := exists_widthCode imm h4
    rw [decodeCommand_unpack] at h
    cases h
    exact ⟨rfl, _, rfl, rfl⟩
  · obtain ⟨dst, hdst⟩ := exists_widthCode (imm - 4) (by omega)
    obtain rfl : imm = widthCode dst + 4 := by omega
    rw [decodeCommand_stdIos] at h
    obtain ⟨⟨blk, _⟩, hb, h⟩ := Option.map_eq_some_iff.1 h
    cases h
    obtain ⟨hw, rfl⟩ := decodeBlock_eq hb
    exact ⟨hw, _, rfl, (List.append_assoc ..).symm⟩

/-- The bytes of a component are those of the value they read as (R133). -/
theorem component_of_takeBytes {dst : Width} {tail : List Byte} {r : List Byte × List Byte}
    (h : takeBytes (widthBytes dst) tail = some r) :
    (BitVec.ofNat 64 (leNat r.1)).toNat < 2 ^ widthBits dst ∧
      tail = leBytes (widthBytes dst) (BitVec.ofNat 64 (leNat r.1)).toNat ++ r.2 := by
  obtain ⟨hlen, htail⟩ := takeBytes_some h
  have hlt := leNat_lt r.1
  have hbytes := leBytes_leNat r.1
  rw [hlen] at hlt hbytes
  rw [pow_widthBytes] at hlt
  rw [BitVec.toNat_ofNat, Nat.mod_eq_of_lt (hlt.trans_le (pow_widthBits_le dst)), hbytes]
  exact ⟨hlt, htail⟩

theorem isEncoding_premul {imm : Nat} {tail : List Byte} (himm : imm < 4)
    (h : decodeCommand (commandWord 6 imm ++ tail) = some (i, rest)) :
    IsEncoding (commandWord 6 imm ++ tail) i rest := by
  obtain ⟨dst, rfl⟩ := exists_widthCode imm himm
  rw [decodeCommand_premul] at h
  obtain ⟨x, hx, h⟩ := Option.bind_eq_some_iff.1 h
  obtain ⟨a, ha, h⟩ := Option.map_eq_some_iff.1 h
  cases h
  obtain ⟨hx, htail⟩ := component_of_takeBytes hx
  obtain ⟨ha, htail'⟩ := component_of_takeBytes ha
  refine ⟨by rw [Instr.wf, decide_eq_true hx, decide_eq_true ha]; rfl, _, rfl, ?_⟩
  rw [htail, htail', List.append_assoc, List.append_assoc]

/-- Settles O12: by the word the bytes begin with, and then by its `OP`. -/
theorem decodedCommandsAreEncodings : Obligations.DecodedCommandsAreEncodings := by
  intro bytes rest i h
  rcases decodeCommand_word h with ⟨w, hw, rfl, rfl⟩ | ⟨op, imm, tail, hlt, himm, rfl⟩
  · exact ⟨hw, _, rfl, rfl⟩
  match op, himm with
  | 0, himm =>
    obtain rfl : imm = 0 := himm
    rw [decodeCommand_new] at h
    cases h
    exact ⟨rfl, _, rfl, rfl⟩
  | 1, _ => exact isEncoding_push hlt h
  | 2, _ =>
    rw [decodeCommand_pull hlt] at h
    cases h
    exact ⟨rfl, _, rfl, by rw [BitVec.toNat_ofNat, Nat.mod_eq_of_lt hlt]⟩
  | 3, himm =>
    obtain rfl : imm = 0 := himm
    rw [decodeCommand_retained] at h
    cases h
    exact ⟨rfl, _, rfl, rfl⟩
  | 4, himm =>
    obtain rfl : imm = 0 := himm
    rw [decodeCommand_finish] at h
    cases h
    exact ⟨rfl, _, rfl, rfl⟩
  | 5, himm => exact isEncoding_unpack himm h
  | 6, himm => exact isEncoding_premul himm h
  | 7, himm =>
    rw [decodeCommand_read himm] at h
    cases h
    exact ⟨rfl, _, rfl, by rw [BitVec.toNat_ofNat, Nat.mod_eq_of_lt (show imm < 2 ^ 8 from himm)]⟩

/-! ### Reserved words (R152) -/

theorem immAdmitted_op_lt (h : immAdmitted op imm) : op < 8 := by
  by_contra hop
  obtain ⟨k, rfl⟩ := Nat.exists_eq_add_of_le' (Nat.not_lt.1 hop)
  exact h

/-- Each kind of reserved word, by the field that makes it reserved. -/
theorem reservedWord_of_fields (h : 8 ≤ cmdOp w ∨ cmdRsv w ≠ 0 ∨
    (cmdOp w = 0 ∨ cmdOp w = 3 ∨ cmdOp w = 4) ∧ cmdImm w ≠ 0 ∨ cmdOp w = 5 ∧ 8 ≤ cmdImm w ∨
    cmdOp w = 6 ∧ 4 ≤ cmdImm w ∨ cmdOp w = 7 ∧ 256 ≤ cmdImm w) : reservedWord w = true := by
  by_contra hw
  obtain ⟨hrsv, himm⟩ := (reservedWord_iff w).1 (Bool.eq_false_of_not_eq_true hw)
  have hlt := immAdmitted_op_lt himm
  rcases h with h | h | ⟨h | h | h, h'⟩ | ⟨h, h'⟩ | ⟨h, h'⟩ | ⟨h, h'⟩
  · omega
  · exact h hrsv
  all_goals
    rw [h] at himm
    exact absurd himm (by simpa [immAdmitted] using h')

theorem register_past_end (s : State) {addr : Nat} (h : 0x28 < addr) : s.register addr = 0 := by
  unfold State.register
  split <;> omega

theorem execRead_unaligned {addr : Byte} (h : addr.toNat % 4 ≠ 0) (s : State) :
    exec (.read addr) s = .refused .unalignedRead := if_pos h

theorem execRead_aligned {addr : Byte} (h : addr.toNat % 4 = 0) (s : State) :
    exec (.read addr) s = .next (s.respond statusDone (leBytes 4 (s.register addr.toNat))) :=
  if_neg (not_not.2 h)

/-- Settles O34: a reserved word decodes to itself as RESERVED_OP, and READ has its two cases. -/
theorem reservedWordsAreRefused : Obligations.ReservedWordsAreRefused := by
  refine ⟨fun w rest h => ?_, fun w addr s => ⟨rfl, fun h => execRead_unaligned h s, fun h hpast => ?_⟩⟩
  · have hw : reservedWord w = true := reservedWord_of_fields (by unfold cmdOp cmdRsv cmdImm; omega)
    rw [decodeCommand_leBytes, if_pos hw]
  · rw [execRead_aligned h, register_past_end s hpast]
    rfl

end Sys2Proof.Machine
end

section
/-! O13, O53: the operand block and the format it selects, written and read (R132, R133, R402). -/

namespace Sys2Proof.Machine

open Sys2Proof.Laws

variable {b : Block} {bytes rest : List Byte} {i : Instr}

/-- An FMT word R132 does not list selects FMT_UNSUPPORTED (R402). -/
theorem formatInstr_unlisted (h : b.fmt.toNat ∉ legalFormats) : formatInstr b = .fmtUnsupported b := by
  unfold formatInstr
  split
  case h_23 => rfl
  all_goals next hf => exact (h (by rw [hf]; decide)).elim

theorem legalFormat_iff (f : Word) : legalFormat f = true ↔ f.toNat ∈ legalFormats := List.contains_iff_mem

/-- Settles O53: by `formatInstr_unlisted`, and by the palette count of the block. -/
theorem unlistedFormatsAreUnsupported : Obligations.UnlistedFormatsAreUnsupported := by
  refine ⟨fun blk => formatInstr_unlisted, fun blk s => ⟨fun h => ?_, fun h hcount => ?_⟩⟩
  · exact (unpackUnsupported_eq blk s).trans (if_neg fun ⟨hct, hcount⟩ => hcount (h hct))
  · exact (unpackUnsupported_eq blk s).trans (if_pos ⟨h, by omega⟩)

/-! ### The block of a format instruction decodes to it -/

theorem block_wf_iff : b.wf = true ↔ b.keys.length = keyCount b.fmt ∧ palOk b.palette = true ∧
    (hasPalette b.fmt = true ∨ b.palette = []) ∧ bufOk b.buf = true := by
  simp [Block.wf, and_assoc]

/-- The block is well-formed and selects `i`. -/
def SelectsFormat (b : Block) (i : Instr) : Prop := b.wf = true ∧ formatInstr b = i

section Listed

variable {f : Word} {keys : List Half} {pal : List Rgba} {buf : List Byte}

theorem selects_palette (hw : (palOk pal && bufOk buf) = true) (hk : keyCount f = 0)
    (hp : hasPalette f = true) (hi : formatInstr ⟨f, [], pal, buf⟩ = i) : SelectsFormat ⟨f, [], pal, buf⟩ i := by
  obtain ⟨hpal, hbuf⟩ := Bool.and_eq_true_iff.1 hw
  exact ⟨block_wf_iff.2 ⟨hk.symm, hpal, .inl hp, hbuf⟩, hi⟩

theorem selects_plain (hw : bufOk buf = true) (hk : keys.length = keyCount f)
    (hi : formatInstr ⟨f, keys, [], buf⟩ = i) : SelectsFormat ⟨f, keys, [], buf⟩ i :=
  ⟨block_wf_iff.2 ⟨hk, rfl, .inr rfl, hw⟩, hi⟩

end Listed

theorem selects_of_blockOf (hw : i.wf = true) (hb : blockOf i = some b) : SelectsFormat b i := by
  cases i with
  | fmtIndexed1 pal buf | fmtIndexed2 pal buf | fmtIndexed4 pal buf | fmtIndexed8 pal buf =>
    cases hb
    exact selects_palette hw rfl rfl rfl
  | fmtV1 buf | fmtV2 buf | fmtV4 buf | fmtV8 buf | fmtV16 buf | fmtV1Key k buf | fmtV2Key k buf
  | fmtV4Key k buf | fmtV8Key k buf | fmtV16Key k buf | fmtVa8 buf | fmtVa16 buf | fmtRgb8 buf
  | fmtRgb16 buf | fmtRgb8Key kr kg kb buf | fmtRgb16Key kr kg kb buf | fmtRgba8 buf | fmtRgba16 buf =>
    cases hb
    exact selects_plain hw rfl rfl
  | fmtUnsupported blk =>
    cases hb
    obtain ⟨hblk, hf⟩ := Bool.and_eq_true_iff.1 hw
    refine ⟨hblk, formatInstr_unlisted fun h => ?_⟩
    rw [(legalFormat_iff _).2 h] at hf
    cases hf
  | _ => cases hb

/-! ### The format a block decodes to is the format of the block -/

/-- A list of known length by its elements. -/
theorem eq_map_getD {keys : List Half} {n : Nat} (h : keys.length = n) :
    keys = (List.range n).map fun j => keys.getD j 0 := by
  subst h
  refine List.ext_getElem (by simp) fun j h1 h2 => ?_
  simp [List.getD_eq_getElem?_getD, h1]

/-- A well-formed block is its FMT word, the keys and the palette that word carries, and its buffer. -/
theorem block_eq_of_wf (hw : b.wf = true) {k : Nat} (hf : b.fmt.toNat = k) :
    b = ⟨BitVec.ofNat 32 k, (List.range (keyCount (BitVec.ofNat 32 k))).map fun j => b.keys.getD j 0,
      if hasPalette (BitVec.ofNat 32 k) then b.palette else [], b.buf⟩ := by
  obtain ⟨hkeys, -, hpal, -⟩ := block_wf_iff.1 hw
  have hfmt : BitVec.ofNat 32 k = b.fmt := by rw [← hf, BitVec.ofNat_toNat, BitVec.setWidth_eq]
  have hpalette : (if hasPalette b.fmt then b.palette else []) = b.palette := by
    rcases hpal with hpal | hpal <;> simp [hpal]
  rw [hfmt, ← eq_map_getD hkeys, hpalette]

theorem formatInstr_block (hw : b.wf = true) :
    (formatInstr b).wf = true ∧ blockOf (formatInstr b) = some b := by
  by_cases hl : b.fmt.toNat ∈ legalFormats
  · obtain ⟨-, hpal, -, hbuf⟩ := block_wf_iff.1 hw
    unfold formatInstr
    split
    case h_23 => simp_all [legalFormats]
    all_goals next hf => exact ⟨by simp [Instr.wf, hpal, hbuf], (congrArg some (block_eq_of_wf hw hf)).symm⟩
  · rw [formatInstr_unlisted hl]
    have hf : legalFormat b.fmt = false := by rw [← Bool.not_eq_true, legalFormat_iff]; exact hl
    exact ⟨by rw [Instr.wf, hw, hf]; rfl, rfl⟩

/-- Settles O13: by the agreement of `decodeBlock` and `encodeBlock`, and of `formatInstr` and `blockOf`. -/
theorem operandBlocksDecodeAsEncoded : Obligations.OperandBlocksDecodeAsEncoded := by
  refine ⟨fun i blk rest hw hb => ?_, fun bytes rest i h => ?_⟩
  · obtain ⟨hblk, hi⟩ := selects_of_blockOf hw hb
    rw [decodeFormat, decodeBlock_encodeBlock _ _ hblk, Option.map_some, hi]
  · obtain ⟨⟨blk, _⟩, hd, h⟩ := Option.map_eq_some_iff.1 h
    cases h
    obtain ⟨hw, hbytes⟩ := decodeBlock_eq hd
    obtain ⟨hwf, hblk⟩ := formatInstr_block hw
    exact ⟨hwf, blk, hblk, hbytes⟩

end Sys2Proof.Machine
end

section
/-! O1, O16: the step runs what the decoder answers (R130, R133, R222, R223). -/

namespace Sys2Proof.Machine

variable {s t : State} {i : Instr}

/-! ### The step, by what is fetched -/

theorem step_of_run (h : s.fetch = .run i t) : step s = exec i t := by rw [step, h]

theorem step_of_wait (h : s.fetch = .wait) : step s = .next s := by rw [step, h]

theorem step_of_endPush {w : Word} (h : s.fetch = .endPush w) : step s = .next (s.respond w []) := by
  rw [step, h]

/-! ### The fetch, by the activity -/

theorem fetch_idle (h : s.activity = .idle) : s.fetch = s.takePort (decodeCommand s.port) := by
  rw [State.fetch, h]

theorem fetch_unpacking (h : s.activity = .unpacking) : s.fetch = s.takePort (decodeFormat s.port) := by
  rw [State.fetch, h]

theorem fetch_push (h : s.activity = .inflating ∨ s.activity = .distance) : s.fetch = s.fetchElement := by
  rcases h with h | h <;> rw [State.fetch, h]

/-- Settles O1: the fetch by the activity and by what the decoder answers. -/
theorem stepRunsTheDecodedInstruction : Obligations.StepRunsTheDecodedInstruction := by
  intro s
  refine ⟨fun ha i rest hd => step_of_run ?_, fun ha i rest hd => step_of_run ?_,
    fun ha i hd => step_of_run ?_, fun ha hd => step_of_wait ?_, fun ha hd => step_of_wait ?_,
    fun ha hd => step_of_endPush ?_, fun ha hd => step_of_endPush ?_⟩
  · rw [fetch_idle ha, hd, State.takePort]
  · rw [fetch_unpacking ha, hd, State.takePort]
  · rw [fetch_push ha, State.fetchElement, hd]
  · rw [fetch_idle ha, hd, State.takePort]
  · rw [fetch_unpacking ha, hd, State.takePort]
  · rw [fetch_push ha, State.fetchElement, hd]
  · rw [fetch_push ha, State.fetchElement, hd]

/-- Settles O16: the words compute. -/
theorem specWordsDecode : Obligations.SpecWordsDecode := by
  unfold Obligations.SpecWordsDecode
  decide +kernel

end Sys2Proof.Machine
end

section
/-! O21: the ROM tables and the fixed codes (R146, R147, R192). -/

namespace Sys2Proof.Machine

open Sys2Proof.Laws

variable {first n len : Nat} {order order' : List Entry}

/-- Consecutive symbols of one code length, in PACK's order (R183). -/
def codeRun (first n len : Nat) : List Entry := (List.range n).map fun j => ⟨first + j, len⟩

theorem flatTable_append (order order' : List Entry) :
    flatTable (order ++ order') = flatTable order ++ flatTable order' := List.flatMap_append

/-- Entries of one length stand `2^(15 - len)` keys apart in the flat table (R194). -/
theorem flatTable_codeRun (first n len k : Nat) :
    (flatTable (codeRun first n len))[k]? = (codeRun first n len)[k / 2 ^ (15 - len)]? := by
  have hlen : ∀ e ∈ codeRun first n len,
      List.replicate (2 ^ (15 - e.len)) e = List.replicate (2 ^ (15 - len) * 1) e := by
    intro e he
    obtain ⟨j, -, rfl⟩ := List.mem_map.1 he
    rw [Nat.mul_one]
  rw [flatTable, List.flatMap_congr hlen, flatMap_replicate_scale _ (Nat.two_pow_pos _) fun _ => 1]
  simp

theorem flatTable_codeRun_length (first n len : Nat) :
    (flatTable (codeRun first n len)).length = n * 2 ^ (15 - len) := by
  simp [flatTable, codeRun, List.flatMap_map]

/-- A key of the `j`-th code of a run of codes looks up its symbol and length (R188, R190). -/
theorem lookup_codeRun {lens : List Nat} {t : Table} (h : buildStrict lens = some t)
    (horder : packOrder lens = order ++ (codeRun first n len ++ order')) {start width : Nat}
    (hstart : (flatTable order).length = start) (hwidth : 2 ^ (15 - len) = width) {key j : Nat} (hj : j < n)
    (hlow : start + j * width ≤ key / 2) (hhigh : key / 2 < start + (j + 1) * width) :
    t.lookup key = some ⟨first + j, len⟩ := by
  have hbound : (j + 1) * width ≤ n * width := Nat.mul_le_mul_right _ hj
  have hindex : (key / 2 - start) / width = j := Nat.div_eq_of_lt_le (by omega) (by omega)
  have hlength := flatTable_codeRun_length first n len
  rw [hwidth] at hlength
  rw [lookup_flat h, horder, flatTable_append, flatTable_append, List.getElem?_append_right (by omega),
    List.getElem?_append_left (by omega), flatTable_codeRun, hstart, hwidth, hindex]
  simp [codeRun, hj]

/-- The order of the fixed run/literal codes: 7 bits, 8 bits in two runs, 9 bits (R146, R183). -/
theorem packOrder_fixedRl : packOrder fixedRlLengths =
    codeRun 256 24 7 ++ (codeRun 0 144 8 ++ (codeRun 280 8 8 ++ codeRun 144 112 9)) := by
  decide +kernel

theorem packOrder_fixedD : packOrder fixedDLengths = codeRun 0 32 5 := by
  decide +kernel

theorem rom_sizes : fixedRl.n = 200 ∧ fixedRl.z = 7368 ∧ fixedD.n = 256 ∧ fixedD.z = 256 := by
  decide +kernel

/-- Settles O21: the sizes compute, and each code is in a run of the table's order. -/
theorem fixedTablesGiveTheFixedCodes : Obligations.FixedTablesGiveTheFixedCodes := by
  obtain ⟨hn, hz, hdn, hdz⟩ := rom_sizes
  have length_7 : (flatTable (codeRun 256 24 7)).length = 6144 := flatTable_codeRun_length ..
  have length_78 : (flatTable (codeRun 256 24 7 ++ codeRun 0 144 8)).length = 24576 := by
    rw [flatTable_append, List.length_append, length_7, flatTable_codeRun_length]
    rfl
  have length_788 : (flatTable (codeRun 256 24 7 ++ codeRun 0 144 8 ++ codeRun 280 8 8)).length = 25600 := by
    rw [flatTable_append, List.length_append, length_78, flatTable_codeRun_length]
    rfl
  refine ⟨hn, hz, by rw [Table.fence, hn], by rw [Table.fold, hn], hdn, hdz, fun s hs x hx => ?_,
    fun s hs x hx => ?_, fun s hs x hx => ?_, fun s hs x hx => ?_, fun s hs x hx => ?_⟩
  · have h := lookup_codeRun (key := (0x30 + s) * 256 + x) fixedRl_build packOrder_fixedRl length_7 rfl hs
      (by omega) (by omega)
    rwa [Nat.zero_add] at h
  · exact lookup_codeRun (order' := []) fixedRl_build (by simp [packOrder_fixedRl]) length_788 rfl hs
      (by omega) (by omega)
  · exact lookup_codeRun (order := []) (start := 0) fixedRl_build packOrder_fixedRl rfl rfl hs (by omega) (by omega)
  · exact lookup_codeRun fixedRl_build (by rw [packOrder_fixedRl, List.append_assoc]) length_78 rfl hs
      (by omega) (by omega)
  · have h := lookup_codeRun (key := s * 2048 + x) (order := []) (start := 0) fixedD_build
      (packOrder_fixedD.trans (List.append_nil _).symm) rfl rfl hs (by omega) (by omega)
    rwa [Nat.zero_add] at h

end Sys2Proof.Machine
end

section
/-! O35, O36, O42, O47: what a raise, a legal zlib header, a dynamic header and a run symbol write
(R144, R260, R293, R294, R353, R450, R452). -/

namespace Sys2Proof.Machine

open Sys2Proof.Laws

/-! ### The status word of an error (R131, R450) -/

/-- The error kinds in the order of their codes (R450). -/
def errorKinds : List ErrorKind :=
  [.truncatedBitstream, .invalidStreamMethod, .invalidStreamWindowSize, .invalidStreamHeaderCheckBits,
   .unexpectedStreamDictionary, .invalidStreamChecksum, .invalidBlockType, .invalidBlockElementCountParity,
   .invalidHuffmanRunLiteralSymbolCount, .invalidHuffmanCodelengthHuffmanTable,
   .invalidHuffmanCodelengthSequence, .invalidHuffmanTable, .invalidStringReference, .unsupported,
   .paletteIndexOutOfRange]

theorem errorCode_range (k : ErrorKind) : 1 ≤ errorCode k ∧ errorCode k ≤ 15 := by
  cases k <;> decide

theorem errorKinds_errorCode (k : ErrorKind) : errorKinds[errorCode k - 1]? = some k := by
  cases k <;> rfl

theorem errorCode_injective : Function.Injective errorCode := by
  intro k k' h
  have hk := errorKinds_errorCode k
  rw [h, errorKinds_errorCode k'] at hk
  exact (Option.some.inj hk).symm

theorem statusWord_toNat {kind code arg : Nat} (hkind : kind < 2 ^ 8) (hcode : code < 2 ^ 8) (harg : arg < 2 ^ 16) :
    (statusWord kind code arg).toNat = kind + code * 2 ^ 8 + arg * 2 ^ 16 := by
  rw [statusWord, BitVec.toNat_ofNat, Nat.mod_eq_of_lt (by omega)]

/-- Settles O35: the fields of the raised status word, and the codes by their list. -/
theorem raiseWritesOnlyTheError : Obligations.RaiseWritesOnlyTheError := by
  intro s k arg harg
  obtain ⟨hpos, hle⟩ := errorCode_range k
  have hw : (statusError k arg).toNat = 2 + errorCode k * 2 ^ 8 + arg * 2 ^ 16 :=
    statusWord_toNat (by decide) (by omega) harg
  refine ⟨⟨statusError k arg, rfl, ?_, ?_, ?_, ?_⟩, hpos, hle, fun k' h => errorCode_injective h⟩
  all_goals
    rw [hw]
    omega

/-! ### The zlib header (R135, R260, R262) -/

/-- A header that passes the four checks opens the stream (R260). -/
theorem execZhdr_legal {cmf flg : Byte} (hcm : headerCm cmf = 8) (hcinfo : headerCinfo cmf < 8)
    (hcheck : headerCheck cmf flg % 31 = 0) (hfdict : headerFdict flg = false) (s : State) :
    exec (.zhdr cmf flg) s = .next { s.commit 16 with window := headerWindow cmf, st := .blockStart } := by
  show execZhdr cmf flg s = _
  rw [execZhdr, if_neg (not_not.2 hcm), if_neg (Nat.not_le.2 hcinfo), if_neg (not_not.2 hcheck), hfdict,
    if_neg Bool.false_ne_true]

/-- Settles O36: the two bytes are the halves of one 16-bit read. -/
theorem zlibHeaderOpensTheStream : Obligations.ZlibHeaderOpensTheStream := by
  refine ⟨fun c hd ht => ?_, fun cmf flg s hcm hcinfo hcheck hfdict => ?_⟩
  · rw [decodeElement_streamStart hd ht, decodeHeader]
    refine ⟨fun ha => if_pos ha, fun ha => ?_⟩
    rw [if_neg (Nat.not_lt.2 ha), ← inBits_mod c.input c.pos 8 16 (by decide), ← inBits_div c.input c.pos 8 8]
    rfl
  · exact execZhdr_legal hcm hcinfo hcheck (decide_eq_false (by omega)) s

/-! ### The dynamic header (R139, R293, R294) -/

section DynamicHeader

variable {bf : Bool} {hlit hdist : BitVec 5} {hclen : BitVec 4} {cl : List (BitVec 3)}
  (hlegal : hlitValue hlit ≤ 286) (s : State)
include hlegal

/-- Code lengths that are no complete code raise (R294). -/
theorem execBhdrDynamic_incomplete (hb : build (clLengths cl) .strict = none) :
    exec (.bhdrDynamic bf hlit hdist hclen cl) s = .next (s.raise .invalidHuffmanCodelengthHuffmanTable 0) := by
  show execBhdrDynamic bf hlit hdist hclen cl s = _
  rw [execBhdrDynamic, if_neg (Nat.not_lt.2 hlegal), hb]

/-- The code-length table and the counts of a legal header (R293, R294). -/
theorem execBhdrDynamic_built {t : Table} (hb : build (clLengths cl) .strict = some t) :
    exec (.bhdrDynamic bf hlit hdist hclen cl) s = .next { s.commit (17 + 3 * hclenValue hclen) with
      final := bf
      hlit := BitVec.ofNat 9 (hlitValue hlit)
      hdist := BitVec.ofNat 6 (hdistValue hdist)
      cld := t
      lengths := []
      st := .blockTables } := by
  show execBhdrDynamic bf hlit hdist hclen cl s = _
  rw [execBhdrDynamic, if_neg (Nat.not_lt.2 hlegal), hb]

end DynamicHeader

/-- Settles O42: `clLengths` is the list the statement describes (R139, R294). -/
theorem dynamicHeaderBuildsTheCodeLengthTable : Obligations.DynamicHeaderBuildsTheCodeLengthTable := by
  intro bf hlit hdist hclen cl s
  refine ⟨fun h => if_pos h, fun h _ lens h19 hlens => ?_⟩
  rw [← clLengths_eq cl lens h19 hlens]
  exact ⟨execBhdrDynamic_incomplete h s, fun t => execBhdrDynamic_built h s⟩

/-! ### Run symbols (R144, R353) -/

/-- Settles O47: each run symbol is its row of the decade table. -/
theorem runSymbolsLatchTheirLength : Obligations.RunSymbolsLatchTheirLength := by
  intro len s
  and_intros <;> intros <;> rfl

end Sys2Proof.Machine
end

section
/-! O7: no step faults while the tables are in order (R190, R191, R222). -/

namespace Sys2Proof.Machine

open Sys2Proof.Laws

variable {s : State} {c : ElementCtx} {t : Table}

/-! ### No meaning faults -/

theorem withRoom_ne_fault {k : Nat} {done : State} {f : Fault} : s.withRoom k done ≠ .fault f := by
  unfold State.withRoom
  split
  · nofun
  · split <;> nofun

theorem distToken_ne_fault {k len x : Nat} {f : Fault} : distToken k len x s ≠ .fault f := by
  unfold distToken
  split
  · nofun
  · exact withRoom_ne_fault

theorem appendLengths_ne_fault {n : Nat} {add : List (BitVec 4)} {f : Fault} :
    appendLengths n add s ≠ .fault f := by
  unfold appendLengths
  split
  · nofun
  · split
    · unfold completeLengths
      split <;> nofun
    · nofun

theorem unpackIndexed_ne_fault {pal : List Rgba} {buf : List Byte} {f : Fault} :
    unpackIndexed pal buf s ≠ .fault f := by
  unfold unpackIndexed
  split
  · split <;> nofun
  · nofun

theorem unpackUnsupported_ne_fault {blk : Block} {f : Fault} : unpackUnsupported blk s ≠ .fault f := by
  unfold unpackUnsupported
  split <;> nofun

/-- The faults are the fetch's: every meaning answers a next state or refuses (R34, R222). -/
theorem exec_ne_fault (i : Instr) (s : State) (f : Fault) : exec i s ≠ .fault f := by
  cases i with
  | push data =>
    simp only [exec, execPush]
    split_ifs <;> nofun
  | pull n =>
    simp only [exec, execPull]
    split
    · nofun
    · split <;> nofun
  | retained =>
    simp only [exec, execRetained]
    split <;> nofun
  | finish =>
    simp only [exec, execFinish]
    split_ifs <;> nofun
  | read addr =>
    simp only [exec, execRead]
    split <;> nofun
  | zhdr cmf flg =>
    simp only [exec, execZhdr]
    split_ifs <;> nofun
  | bhdrStored bf len nlen =>
    simp only [exec, execBhdrStored]
    split <;> nofun
  | bhdrDynamic bf hlit hdist hclen cl =>
    simp only [exec, execBhdrDynamic]
    split
    · nofun
    · split <;> nofun
  | adler v =>
    simp only [exec, execAdler]
    split <;> nofun
  | clExtend len x =>
    simp only [exec, execClExtend]
    split
    · nofun
    · exact appendLengths_ne_fault
  | clLit | clZeros3 | clZeros7 => exact appendLengths_ne_fault
  | lit | byte => exact withRoom_ne_fault
  | dist0 | dist1 | dist2 | dist3 | dist4 | dist5 | dist6 | dist7 | dist8 | dist9 | dist10 | dist11 | dist12
  | dist13 | dist14 | dist15 | dist16 | dist17 | dist18 | dist19 | dist20 | dist21 | dist22 | dist23 | dist24
  | dist25 | dist26 | dist27 | dist28 | dist29 => exact distToken_ne_fault
  | fmtIndexed1 | fmtIndexed2 | fmtIndexed4 | fmtIndexed8 => exact unpackIndexed_ne_fault
  | fmtUnsupported | stdIos => exact unpackUnsupported_ne_fault
  | _ => exact nofun

/-! ### No decoder stop under the tables -/

theorem decodeHeader_ne_stop {r : DecodeStop} : decodeHeader c ≠ .stop r := by
  unfold decodeHeader
  split <;> nofun

theorem decodeBlockHeader_ne_stop {r : DecodeStop} : decodeBlockHeader c ≠ .stop r := by
  unfold decodeBlockHeader decodeStored decodeDynamic
  dsimp only
  split
  · nofun
  · split
    · split <;> nofun
    · nofun
    · split_ifs <;> nofun
    · nofun

theorem decodeStoredByte_ne_stop {r : DecodeStop} : decodeStoredByte c ≠ .stop r := by
  unfold decodeStoredByte
  split_ifs <;> nofun

theorem decodeTrailer_ne_stop {r : DecodeStop} : decodeTrailer c ≠ .stop r := by
  unfold decodeTrailer
  split <;> nofun

/-- A symbol that is read waits or is an element. -/
theorem ElementCtx.Reads.ne_stop {e : Entry} {extra : Nat} {instr : Nat → Nat → Instr} {r : DecodeStop}
    (h : c.Reads t e.sym extra instr) (he : t.decode c.input c.pos = some e) :
    decodeElement c ≠ .stop r := by
  rw [h e.len he]
  split <;> nofun

/-- Under `Tables` an ADVANCE outside `failed` has an element, waits or is done (R190, R222). -/
theorem State.Tables.decodeElement_ne_stop (hs : s.Tables)
    (ha : s.activity = .inflating ∨ s.activity = .distance) (r : DecodeStop) :
    decodeElement s.elementCtx ≠ .stop r := by
  rcases ha with ha | ha
  · have hd : s.elementCtx.distance = false := by simp [State.elementCtx, ha]
    cases ht : s.st with
    | streamStart => exact decodeElement_streamStart hd ht ▸ decodeHeader_ne_stop
    | blockStart => exact decodeElement_blockStart hd ht ▸ decodeBlockHeader_ne_stop
    | blockTables =>
      obtain ⟨hregular, hbelow, -⟩ := hs.cl ht
      obtain ⟨e, he, hmem⟩ := decode_isSome hregular s.elementCtx.input s.elementCtx.pos
      exact (reads_codeLength hd ht (hbelow e hmem)).ne_stop he
    | blockUncompressed => exact decodeElement_blockUncompressed hd ht ▸ decodeStoredByte_ne_stop
    | blockCompressed =>
      obtain ⟨e, he, -⟩ := decode_isSome (hs.rl ht).1 s.elementCtx.input s.elementCtx.pos
      exact (reads_symbol hd ht e.sym).ne_stop he
    | streamChecksum => exact decodeElement_streamChecksum hd ht ▸ decodeTrailer_ne_stop
    | streamEnd =>
      have ht' : s.elementCtx.tag = .streamEnd := ht
      simp [decodeElement, hd, ht']
    | failed => exact absurd ht (hs.running ha)
  · obtain ⟨e, he, -⟩ := decode_isSome (hs.d (hs.distance ha)).1 s.elementCtx.input s.elementCtx.pos
    exact (reads_distance (elementCtx_distance.2 ha) e.sym).ne_stop he

/-! ### The fetch and the step -/

theorem takePort_ne_stop {r : Option (Instr × List Byte)} {f : Fault} : s.takePort r ≠ .stop f := by
  unfold State.takePort
  split <;> nofun

theorem State.Tables.fetchElement_ne_stop (hs : s.Tables)
    (ha : s.activity = .inflating ∨ s.activity = .distance) (f : Fault) : s.fetchElement ≠ .stop f := by
  unfold State.fetchElement
  split
  · nofun
  · nofun
  · nofun
  · next r hr => exact absurd hr (hs.decodeElement_ne_stop ha r)

theorem State.Tables.fetch_ne_stop (hs : s.Tables) (f : Fault) : s.fetch ≠ .stop f := by
  cases ha : s.activity with
  | idle => exact fetch_idle ha ▸ takePort_ne_stop
  | unpacking => exact fetch_unpacking ha ▸ takePort_ne_stop
  | inflating => exact fetch_push (.inl ha) ▸ hs.fetchElement_ne_stop (.inl ha) f
  | distance => exact fetch_push (.inr ha) ▸ hs.fetchElement_ne_stop (.inr ha) f

/-- Settles O7: a fault is a stop of the fetch, and the tables exclude it. -/
theorem noFaultUnderTheTables : Obligations.NoFaultUnderTheTables := by
  intro s f hs
  unfold step
  split
  · exact exec_ne_fault _ _ f
  · nofun
  · nofun
  · next hstop => exact absurd hstop (hs.fetch_ne_stop _)

end Sys2Proof.Machine
end

section
/-! O18, O19, O20: the complete codes, the size of a built table and the degenerate table (R181 to R195). -/

namespace Sys2Proof.Machine

open Sys2Proof.Laws

variable {lens : List Nat} {t : Table} {m : BuildMode}

/-! ### SIZE and the Kraft sum (R181) -/

theorem kraft_codeLevels (lens : List Nat) :
    kraft lens 15 = (codeLevels.map fun l => lens.count l * 2 ^ (15 - l)).sum := by
  simp only [kraft, codeLevels, List.map_cons, List.map_nil, List.sum_cons, List.sum_nil, Nat.reduceAdd,
    Nat.reduceSub, Nat.reducePow]
  omega

/-- While the leaves fit a level, its other nodes are the interior ones (R181). -/
theorem sizeInterior_of_kraft_le {l : Nat} (h : kraft lens l ≤ 2 ^ l) :
    sizeInterior lens l = some (2 ^ l - kraft lens l) := by
  induction l with
  | zero => rfl
  | succ l ih =>
    simp only [kraft, Nat.pow_succ] at h ⊢
    rw [sizeInterior, ih (by omega)]
    dsimp only
    rw [if_neg (by omega)]
    congr 1
    omega

theorem sizeValid_iff_kraft : sizeValid lens = true ↔ kraft lens 15 = 2 ^ 15 := by
  refine ⟨sizeValid_kraft, fun h => ?_⟩
  rw [sizeValid, sizeInterior_of_kraft_le h.le, h, Nat.sub_self]
  rfl

/-- Settles O18: the interior nodes left after level 15 are what the Kraft sum leaves. -/
theorem sizeAcceptsTheCompleteCodes : Obligations.SizeAcceptsTheCompleteCodes := by
  intro lens
  rw [sizeValid_iff_kraft, kraft_codeLevels]

/-! ### The size of a built table (R182, R195) -/

/-- A symbol has one length: the counts of any levels are at most the symbols. -/
theorem sum_count_le_length (levels : Finset Nat) (lens : List Nat) :
    ∑ l ∈ levels, lens.count l ≤ lens.length := by
  induction lens with
  | nil => simp
  | cons x xs ih =>
    simp only [List.count_cons, beq_iff_eq, Finset.sum_add_distrib, Finset.sum_ite_eq, List.length_cons]
    split <;> omega

/-- A long code has at most 64 entries (R182). -/
theorem longSlots_le (lens : List Nat) : longSlots lens ≤ 64 * lens.length := by
  have hsum := sum_count_le_length (Finset.range 16) lens
  simp only [Finset.sum_range_succ, longSlots, List.map_cons, List.map_nil, List.sum_cons, List.sum_nil] at hsum ⊢
  omega

/-- At most 288 symbols have a short code among them (R182, R195). -/
theorem short_pos_of_length_le (h : build lens m = some t) (hl : lens.length ≤ 288) : 1 ≤ t.n := by
  have strict : buildStrict lens = some t → 1 ≤ t.n := by
    intro hb
    obtain ⟨hv, hn, -, -⟩ := buildStrict_eq hb
    have hk := sizeValid_kraft hv
    have hs := kraft_long lens
    have hlong := longSlots_le lens
    omega
  cases m with
  | strict => exact strict h
  | normalizing d =>
    simp only [build] at h
    split at h
    · cases h
      have hn : (degenerate d lens).n = 256 := rfl
      omega
    · exact strict h

theorem index_lt_of_regular (ht : t.Regular) {key : Nat} (hk : key < 65536) : t.index key < t.z := by
  obtain ⟨e, he, -⟩ := lookup_isSome ht hk
  rw [← ht.length]
  exact (List.getElem?_eq_some_iff.1 he).1

/-- Settles O19: a built table is regular, and 288 long codes alone cannot fill the key space. -/
theorem builtTablesHaveTheirSize : Obligations.BuiltTablesHaveTheirSize := by
  intro lens m t h
  have ht := build_regular h
  have hsize := ht.size
  refine ⟨ht.short, ht.length, by omega, fun key hk => index_lt_of_regular ht hk, fun hl => ?_⟩
  have hn := short_pos_of_length_le h hl
  omega

/-! ### The degenerate table (R184) -/

theorem usedSymbols_eq_card (lens : List Nat) :
    usedSymbols lens = (Finset.univ.filter fun s : Fin lens.length => lens.getD s 0 ≠ 0).card := by
  rw [usedSymbols, ← List.countP_eq_length_filter]
  induction lens with
  | nil => rfl
  | cons x xs ih =>
    rw [List.countP_cons, ih, List.length_cons, Fin.card_filter_univ_succ', Nat.add_comm]
    simp

/-- Fewer than two symbols have a length exactly when no two different ones do. -/
theorem usedSymbols_lt_two_iff : usedSymbols lens < 2 ↔
    ∀ s < lens.length, ∀ s' < lens.length, lens.getD s 0 ≠ 0 → lens.getD s' 0 ≠ 0 → s = s' := by
  rw [usedSymbols_eq_card, Nat.lt_succ_iff, Finset.card_le_one]
  simp only [Finset.mem_filter, Finset.mem_univ, true_and, Fin.forall_iff, Fin.mk.injEq]
  exact ⟨fun h s hs s' hs' hne hne' => h s hs hne s' hs' hne',
    fun h s hs hne s' hs' hne' => h s hs s' hs' hne hne'⟩

/-- The one symbol with a length is the degenerate table's (R184). -/
theorem loneSymbol_eq {d s : Nat} (hs : s < lens.length) (hne : lens.getD s 0 ≠ 0)
    (hzero : ∀ s' < lens.length, s' ≠ s → lens.getD s' 0 = 0) : loneSymbol d lens = s := by
  have hfind : lens.findIdx (fun x => decide (x ≠ 0)) = s := by
    rw [List.findIdx_eq hs]
    refine ⟨by simpa [hs] using hne, fun j hj => ?_⟩
    have := hzero j (hj.trans hs) hj.ne
    simpa [hj.trans hs] using this
  rw [loneSymbol, hfind]
  exact if_pos hs

theorem loneSymbol_default {d : Nat} (h : ∀ x ∈ lens, x = 0) : loneSymbol d lens = d := by
  have hfind : lens.findIdx (fun x => decide (x ≠ 0)) = lens.length := by
    rw [List.findIdx_eq_length]
    simpa using h
  rw [loneSymbol, hfind]
  exact if_neg (Nat.lt_irrefl _)

theorem lookup_degenerate (d : Nat) (lens : List Nat) {key : Nat} (hk : key < 65536) :
    (degenerate d lens).lookup key = some ⟨loneSymbol d lens, 1⟩ :=
  lookup_constant (idx := 0) rfl rfl rfl hk

theorem build_degenerate {d : Nat} (h : usedSymbols lens < 2) :
    build lens (.normalizing d) = some (degenerate d lens) := if_pos h

/-- Settles O20: whether two symbols have a length decides between DEGENERATE and the strict build. -/
theorem smallDistanceListsAreDegenerate : Obligations.SmallDistanceListsAreDegenerate := by
  refine fun lens d => ⟨fun hzero key hk => ?_, fun s hs hne hzero key hk => ?_,
    fun s hs s' hs' hss hne hne' => ?_⟩
  · have hused : usedSymbols lens < 2 := by
      rw [usedSymbols, List.filter_eq_nil_iff.2 (by simpa using hzero)]
      decide
    refine ⟨_, build_degenerate hused, ?_⟩
    rw [lookup_degenerate d lens hk, loneSymbol_default hzero]
  · have hlone : ∀ s' < lens.length, lens.getD s' 0 ≠ 0 → s' = s := fun s' hs' hne' =>
      by_contra fun h => hne' (hzero s' hs' h)
    have hused : usedSymbols lens < 2 := usedSymbols_lt_two_iff.2 fun s₁ h₁ s₂ h₂ hne₁ hne₂ =>
      (hlone s₁ h₁ hne₁).trans (hlone s₂ h₂ hne₂).symm
    refine ⟨_, build_degenerate hused, ?_⟩
    rw [lookup_degenerate d lens hk, loneSymbol_eq hs hne hzero]
  · exact if_neg fun h => hss (usedSymbols_lt_two_iff.1 h s hs s' hs' hne hne')

end Sys2Proof.Machine
end

section
/-! O17: the codes of a strict table are canonical (R183, R188, R189). -/

namespace Sys2Proof.Machine

open Sys2Proof.Laws

variable {lens : List Nat} {t : Table} {l s : Nat}

/-! ### Where a symbol stands in the order (R183) -/

/-- The symbols of a list begin at its first symbol. -/
theorem getElem?_symbolsOf_ne {l a r s : Nat} {lens : List Nat} (h : s < a) :
    (symbolsOf l a lens)[r]? ≠ some s :=
  fun hr => Nat.not_le.2 h (mem_symbolsOf (List.mem_of_getElem? hr)).1

/-- A symbol stands at its rank among those of its length (R183, R188). -/
theorem getElem?_symbolsOf_eq_iff (lens : List Nat) (l a r s : Nat) :
    (symbolsOf l a lens)[r]? = some (a + s) ↔ lens[s]? = some l ∧ r = (lens.take s).count l := by
  induction lens generalizing a r s with
  | nil => simp [symbolsOf]
  | cons x xs ih =>
    have hfirst : ∀ r, (symbolsOf l (a + 1) xs)[r]? ≠ some a := fun r =>
      getElem?_symbolsOf_ne (Nat.lt_succ_self a)
    cases s with
    | zero =>
      by_cases hx : x = l
      · cases r with
        | zero => simp [symbolsOf, hx]
        | succ r => simp [symbolsOf, hx, hfirst]
      · simp [symbolsOf, hx, hfirst]
    | succ s =>
      rw [← Nat.add_assoc, Nat.add_right_comm]
      by_cases hx : x = l
      · cases r with
        | zero => simp [symbolsOf, hx]; omega
        | succ r => simp [symbolsOf, hx, ih]
      · simp [symbolsOf, hx, ih]

/-- Entries of one length stand `2^(15 - l)` keys apart in the flat table (R194). -/
theorem flatTable_level (lens : List Nat) (l k : Nat) :
    (flatTable (levelEntries lens l))[k]? = (levelEntries lens l)[k / 2 ^ (15 - l)]? := by
  have hlen : ∀ e ∈ levelEntries lens l,
      List.replicate (2 ^ (15 - e.len)) e = List.replicate (2 ^ (15 - l) * 1) e := by
    intro e he
    rw [(mem_levelEntries he).1, Nat.mul_one]
  rw [flatTable, List.flatMap_congr hlen, flatMap_replicate_scale _ (Nat.two_pow_pos _) fun _ => 1]
  simp

theorem flatTable_level_length (lens : List Nat) (l : Nat) :
    (flatTable (levelEntries lens l)).length = lens.count l * 2 ^ (15 - l) := by
  have hlen : ∀ e ∈ levelEntries lens l, (List.replicate (2 ^ (15 - e.len)) e).length = 2 ^ (15 - l) := by
    intro e he
    rw [List.length_replicate, (mem_levelEntries he).1]
  rw [flatTable, List.length_flatMap, List.map_congr_left hlen, List.map_const', List.sum_replicate,
    levelEntries_length, smul_eq_mul]

/-- The flat table of some levels in the order of PACK. -/
def flatLevels (lens ls : List Nat) : List Entry := flatTable (ls.flatMap (levelEntries lens))

theorem mem_flatLevels {ls : List Nat} {e : Entry} (h : e ∈ flatLevels lens ls) : e.len ∈ ls := by
  simp only [flatLevels, flatTable, List.mem_flatMap] at h
  obtain ⟨a, ⟨l, hl, ha⟩, he⟩ := h
  rwa [List.eq_of_mem_replicate he, (mem_levelEntries ha).1]

theorem flatLevels_append (lens ls ls' : List Nat) :
    flatLevels lens (ls ++ ls') = flatLevels lens ls ++ flatLevels lens ls' := by
  simp [flatLevels, flatTable]

/-- The entries of a length begin at its first code (R188). -/
theorem flatLevels_length (lens : List Nat) {m : Nat} (hm : m < 15) :
    (flatLevels lens (List.range' 1 m)).length = firstCode lens (m + 1) * 2 ^ (15 - (m + 1)) := by
  induction m with
  | zero => simp [flatLevels, flatTable, firstCode]
  | succ m ih =>
    have hpow : 2 ^ (15 - (m + 1)) = 2 * 2 ^ (15 - (m + 1 + 1)) := by
      rw [← Nat.pow_succ']
      congr 1
      omega
    have hlevel : (flatLevels lens [1 + m]).length = lens.count (m + 1) * 2 ^ (15 - (m + 1)) := by
      rw [flatLevels, List.flatMap_singleton, flatTable_level_length, Nat.add_comm]
    rw [List.range'_1_concat, flatLevels_append, List.length_append, ih (by omega), hlevel, firstCode, hpow]
    ring

/-! ### The flat table at a code (R188, R194) -/

theorem getElem?_levelEntries_eq_iff (lens : List Nat) (l r s : Nat) :
    (levelEntries lens l)[r]? = some ⟨s, l⟩ ↔ lens[s]? = some l ∧ r = (lens.take s).count l := by
  rw [← getElem?_symbolsOf_eq_iff lens l 0 r s]
  simp [levelEntries]

/-- The flat table around the entries of one length. -/
theorem flatTable_packOrder (hl : 1 ≤ l) (hl' : l ≤ 15) (lens : List Nat) :
    flatTable (packOrder lens) = flatLevels lens (List.range' 1 (l - 1)) ++
      (flatTable (levelEntries lens l) ++ flatLevels lens (List.range' (l + 1) (15 - l))) := by
  have hlevels : codeLevels = List.range' 1 (l - 1) ++ ([l] ++ List.range' (l + 1) (15 - l)) := by
    interval_cases l <;> rfl
  show flatLevels lens codeLevels = _
  rw [hlevels, flatLevels_append, flatLevels_append, flatLevels, flatLevels, List.flatMap_singleton]

/-- The flat table answers a symbol at the 15-bit keys that begin with its code (R188, R194). -/
theorem getElem?_flatTable_eq_iff (hl : 1 ≤ l) (hl' : l ≤ 15) (lens : List Nat) (k s : Nat) :
    (flatTable (packOrder lens))[k]? = some ⟨s, l⟩ ↔
      lens[s]? = some l ∧ k / 2 ^ (15 - l) = firstCode lens l + (lens.take s).count l := by
  have hpos : 0 < 2 ^ (15 - l) := Nat.two_pow_pos _
  have hstart : (flatLevels lens (List.range' 1 (l - 1))).length = firstCode lens l * 2 ^ (15 - l) := by
    have h := flatLevels_length lens (m := l - 1) (by omega)
    rwa [Nat.sub_add_cancel hl] at h
  have hblock : (flatTable (levelEntries lens l))[k - firstCode lens l * 2 ^ (15 - l)]? = some ⟨s, l⟩ ↔
      lens[s]? = some l ∧ k / 2 ^ (15 - l) - firstCode lens l = (lens.take s).count l := by
    rw [flatTable_level, Nat.mul_comm, Nat.sub_mul_div, getElem?_levelEntries_eq_iff]
  rw [flatTable_packOrder hl hl' lens]
  constructor
  · intro h
    rcases Nat.lt_or_ge k (firstCode lens l * 2 ^ (15 - l)) with hk | hk
    · rw [List.getElem?_append_left (hstart ▸ hk)] at h
      have hlevel : l ∈ List.range' 1 (l - 1) := mem_flatLevels (List.mem_of_getElem? h)
      rw [List.mem_range'_1] at hlevel
      omega
    · rw [List.getElem?_append_right (hstart ▸ hk), hstart] at h
      have hle : firstCode lens l ≤ k / 2 ^ (15 - l) := (Nat.le_div_iff_mul_le hpos).2 hk
      rw [List.getElem?_append] at h
      split at h
      · obtain ⟨hs, hrank⟩ := hblock.1 h
        exact ⟨hs, by omega⟩
      · have hlevel : l ∈ List.range' (l + 1) (15 - l) := mem_flatLevels (List.mem_of_getElem? h)
        rw [List.mem_range'_1] at hlevel
        omega
  · rintro ⟨hs, hcode⟩
    have hk : firstCode lens l * 2 ^ (15 - l) ≤ k := (Nat.le_div_iff_mul_le hpos).1 (by omega)
    have h := hblock.2 ⟨hs, by omega⟩
    rw [List.getElem?_append_right (hstart ▸ hk), hstart,
      List.getElem?_append_left (List.getElem?_eq_some_iff.1 h).1, h]

theorem flatTable_packOrder_length (h : sizeValid lens = true) :
    (flatTable (packOrder lens)).length = 32768 := by
  rw [← sizeValid_kraft h, kraft_long, packOrder_split, flatTable_append, List.length_append, flat_short_length,
    flat_long, materialize_long]

/-- A canonical code has no more bits than its length (R188). -/
theorem canonicalCode_lt (h : sizeValid lens = true) (hs : s < lens.length) (hl : 1 ≤ lens.getD s 0)
    (hl' : lens.getD s 0 ≤ 15) : canonicalCode lens s < 2 ^ lens.getD s 0 := by
  have hget : lens[s]? = some (lens.getD s 0) := by simp [hs]
  have hpos : 0 < 2 ^ (15 - lens.getD s 0) := Nat.two_pow_pos _
  have hfirst := (getElem?_flatTable_eq_iff hl hl' lens (canonicalCode lens s * 2 ^ (15 - lens.getD s 0)) s).2
    ⟨hget, Nat.mul_div_cancel _ hpos⟩
  have hlt := (List.getElem?_eq_some_iff.1 hfirst).1
  rw [flatTable_packOrder_length h, show 32768 = 2 ^ lens.getD s 0 * 2 ^ (15 - lens.getD s 0) by
    rw [← Nat.pow_add, Nat.add_sub_cancel' hl']] at hlt
  exact Nat.lt_of_mul_lt_mul_right hlt

/-! ### The key as stream bits (R189) -/

/-- Bit `15 - k` of the key is the stream bit `k` after `P` (R12, R189). -/
theorem rev16_inBits_bit (input : List Byte) (p : Nat) {k : Nat} (hk : k < 16) :
    rev16 (inBits input p 16) / 2 ^ (15 - k) % 2 = bitAt input (p + k) := by
  have hrev : (rev16 (inBits input p 16)).testBit (15 - k) = (inBits input p 16).testBit k :=
    rev16_testBit _ _ hk
  have hbit : inBits input p 16 / 2 ^ k % 2 = bitAt input (p + k) := by
    have hdiv := inBits_div input p k (16 - k)
    have hmod := inBits_mod input (p + k) 1 (16 - k) (by omega)
    rw [Nat.add_sub_cancel' hk.le] at hdiv
    rw [hdiv, ← Nat.pow_one 2, hmod]
    simp [inBits]
  rw [Nat.testBit_eq_decide_div_mod_eq, Nat.testBit_eq_decide_div_mod_eq, decide_eq_decide] at hrev
  omega

/-- Two values of `n` bits are equal when their bits are, the most significant first. -/
theorem eq_iff_bits {n a b : Nat} (ha : a < 2 ^ n) (hb : b < 2 ^ n) :
    a = b ↔ ∀ k < n, a / 2 ^ (n - 1 - k) % 2 = b / 2 ^ (n - 1 - k) % 2 := by
  refine ⟨fun h k _ => h ▸ rfl, fun h => ?_⟩
  refine Nat.eq_of_testBit_eq fun i => ?_
  by_cases hi : i < n
  · have hbit := h (n - 1 - i) (by omega)
    rw [show n - 1 - (n - 1 - i) = i by omega] at hbit
    rw [Nat.testBit_eq_decide_div_mod_eq, Nat.testBit_eq_decide_div_mod_eq, hbit]
  · have hpow : 2 ^ n ≤ 2 ^ i := Nat.pow_le_pow_right (by decide) (Nat.le_of_not_lt hi)
    rw [Nat.testBit_lt_two_pow (ha.trans_le hpow), Nat.testBit_lt_two_pow (hb.trans_le hpow)]

/-- A key begins with a code exactly when the stream spells it (R188, R189). -/
theorem key_begins_iff (input : List Byte) (p : Nat) {n code : Nat} (hn : n ≤ 15) (hcode : code < 2 ^ n) :
    rev16 (inBits input p 16) / 2 / 2 ^ (15 - n) = code ↔
      ∀ k < n, bitAt input (p + k) = code / 2 ^ (n - 1 - k) % 2 := by
  have hdiv : rev16 (inBits input p 16) / 2 / 2 ^ (15 - n) = rev16 (inBits input p 16) / 2 ^ (16 - n) := by
    rw [Nat.div_div_eq_div_mul, ← Nat.pow_succ', Nat.succ_eq_add_one, ← Nat.sub_add_comm hn]
  have hlt : rev16 (inBits input p 16) / 2 ^ (16 - n) < 2 ^ n := by
    rw [Nat.div_lt_iff_lt_mul (Nat.two_pow_pos _), ← Nat.pow_add, Nat.add_sub_cancel' (by omega)]
    exact rev16_lt _
  have hbit : ∀ k < n, rev16 (inBits input p 16) / 2 ^ (16 - n) / 2 ^ (n - 1 - k) % 2 = bitAt input (p + k) := by
    intro k hk
    rw [Nat.div_div_eq_div_mul, ← Nat.pow_add, show 16 - n + (n - 1 - k) = 15 - k by omega,
      rev16_inBits_bit input p (by omega)]
  rw [hdiv, eq_iff_bits hlt hcode]
  exact forall₂_congr fun k hk => by rw [hbit k hk]

/-- Settles O17: a key looks up a symbol exactly when it begins with the symbol's code, and its bits are the
stream's. -/
theorem codesAreCanonical : Obligations.CodesAreCanonical := by
  intro lens t h input p s hs hl hl'
  obtain ⟨hv, -⟩ := buildStrict_eq h
  have hget : lens[s]? = some (lens.getD s 0) := by simp [hs]
  rw [Table.decode, lookup_flat h, getElem?_flatTable_eq_iff hl hl',
    ← key_begins_iff input p hl' (canonicalCode_lt hv hs hl hl')]
  exact and_iff_right hget

end Sys2Proof.Machine
end

section
/-! One step inside a PUSH, and the ADVANCE loop as the steps it takes (R222, R223). -/

namespace Sys2Proof.Machine

open Sys2Proof.Laws

variable {s t u : State} {i : Instr}

/-- A PUSH is in progress, at an ADVANCE boundary or inside a run token (log 1, log 2). -/
def State.Pushing (s : State) : Prop := s.activity = .inflating ∨ s.activity = .distance

theorem State.Pushing.ne_idle (h : s.Pushing) : s.activity ≠ .idle := by
  rcases h with h | h <;> simp [h]

/-! ### The step, by what the element decoder answers -/

theorem step_of_instr (hs : s.Pushing) (hd : decodeElement s.elementCtx = .instr i) : step s = exec i s :=
  step_of_run (by rw [fetch_push hs, State.fetchElement, hd])

theorem step_of_needMore (hs : s.Pushing) (hd : decodeElement s.elementCtx = .needMore) :
    step s = .next (s.respond statusNeedsMore []) :=
  step_of_endPush (by rw [fetch_push hs, State.fetchElement, hd])

theorem step_of_done (hs : s.Pushing) (hd : decodeElement s.elementCtx = .done) :
    step s = .next (s.respond statusDone []) :=
  step_of_endPush (by rw [fetch_push hs, State.fetchElement, hd])

theorem step_of_stop (hs : s.Pushing) {r : DecodeStop} (hd : decodeElement s.elementCtx = .stop r) :
    step s = .fault (faultOf r) := by
  rw [step, fetch_push hs, State.fetchElement, hd]

/-- The steps of a PUSH that answer a next state. -/
inductive PushStep (s : State) : State → Prop where
  | needMore : decodeElement s.elementCtx = .needMore → PushStep s (s.respond statusNeedsMore [])
  | done : decodeElement s.elementCtx = .done → PushStep s (s.respond statusDone [])
  | element (i : Instr) {t : State} : decodeElement s.elementCtx = .instr i → exec i s = .next t → PushStep s t

theorem State.Pushing.step_cases (hs : s.Pushing) (h : step s = .next t) : PushStep s t := by
  cases hd : decodeElement s.elementCtx with
  | instr i => exact .element i hd ((step_of_instr hs hd).symm.trans h)
  | needMore => exact next_inj ((step_of_needMore hs hd).symm.trans h) ▸ .needMore hd
  | done => exact next_inj ((step_of_done hs hd).symm.trans h) ▸ .done hd
  | stop r => cases (step_of_stop hs hd).symm.trans h

/-- After an element the command has answered or the PUSH goes on. -/
theorem effect_idle_or_pushing (hs : s.Pushing) (hd : Decoded s.elementCtx i) (he : Effect s i t) :
    t.activity = .idle ∨ t.Pushing := by
  cases he with
  | renew | accept | release | unpack => exact absurd hd.element.1 (by simp [commandBytes])
  | answer | fail | hold | trailer => exact .inl rfl
  | header | stored | fixed | dynamic | lengths | complete | endBlock => exact .inr hs
  | append => exact .inr (by simpa [State.Pushing] using hs)
  | run => exact .inr (.inr rfl)
  | copy => exact .inr (.inl rfl)

theorem State.Pushing.idle_or_pushing (hs : s.Pushing) (h : step s = .next t) :
    t.activity = .idle ∨ t.Pushing := by
  cases hs.step_cases h with
  | needMore | done => exact .inl rfl
  | element i hd he => exact effect_idle_or_pushing hs (decodeElement_instr hd) (exec_effect he)

/-- No step of a PUSH writes the input or the parameters (R31, R8). -/
theorem State.Pushing.step_keeps (hs : s.Pushing) (h : step s = .next t) :
    t.input = s.input ∧ t.params = s.params := by
  cases hs.step_cases h with
  | needMore | done => exact ⟨rfl, rfl⟩
  | element i hd he =>
    have hcommand := (decodeElement_instr hd).element.1
    have hnew : i ≠ .new := fun h => absurd (h ▸ hcommand) (by simp [commandBytes])
    refine ⟨?_, (effect_host_fields (exec_effect he) hnew).1⟩
    rcases effect_input (exec_effect he) hnew with ⟨hinput, -⟩ | ⟨d, rfl⟩
    · exact hinput
    · exact absurd hcommand (by simp [commandBytes])

/-! ### The ADVANCE loop -/

theorem advanceLoop_idle (h : s.activity = .idle) (n : Nat) : advanceLoop n s = .next s := by
  cases n with
  | zero => rfl
  | succ n => rw [advanceLoop, if_pos h]

theorem advanceLoop_step (ha : s.activity ≠ .idle) (h : step s = .next t) (n : Nat) :
    advanceLoop (n + 1) s = advanceLoop n t := by
  rw [advanceLoop, if_neg ha, h]

theorem step_of_advanceLoop (ha : s.activity ≠ .idle) {n : Nat} (h : advanceLoop (n + 1) s = .next u) :
    ∃ t, step s = .next t ∧ advanceLoop n t = .next u := by
  rw [advanceLoop, if_neg ha] at h
  cases hstep : step s with
  | next t => exact ⟨t, rfl, by rwa [hstep] at h⟩
  | fault r => simp [hstep] at h
  | refused r => simp [hstep] at h

/-- A PUSH in progress runs to its answer. -/
inductive PushRun : State → State → Prop where
  | answer {s t : State} : s.Pushing → step s = .next t → t.activity = .idle → PushRun s t
  | advance {s t u : State} : s.Pushing → step s = .next t → t.Pushing → PushRun t u → PushRun s u

theorem pushRun_of_advanceLoop {n : Nat} (hs : s.Pushing) (h : advanceLoop n s = .next u)
    (hu : u.activity = .idle) : PushRun s u := by
  induction n generalizing s with
  | zero => exact absurd (next_inj h ▸ hu) hs.ne_idle
  | succ n ih =>
    obtain ⟨t, hstep, hloop⟩ := step_of_advanceLoop hs.ne_idle h
    rcases hs.idle_or_pushing hstep with ht | ht
    · rw [advanceLoop_idle ht] at hloop
      exact next_inj hloop ▸ .answer hs hstep ht
    · exact .advance hs hstep ht (ih ht hloop)

theorem PushRun.advanceLoop (h : PushRun s u) : ∃ n, advanceLoop n s = .next u ∧ u.activity = .idle := by
  induction h with
  | answer hs hstep ht =>
    exact ⟨1, (advanceLoop_step hs.ne_idle hstep 0).trans rfl, ht⟩
  | advance hs hstep _ _ ih =>
    obtain ⟨n, hloop, hu⟩ := ih
    exact ⟨n + 1, (advanceLoop_step hs.ne_idle hstep n).trans hloop, hu⟩

theorem PushRun.pushing (h : PushRun s u) : s.Pushing := by
  cases h with
  | answer hs => exact hs
  | advance hs => exact hs

/-- A run goes through the next state of its first step. -/
theorem PushRun.of_step (h : PushRun s u) (hstep : step s = .next t) (ht : t.Pushing) : PushRun t u := by
  cases h with
  | answer _ hstep' hu =>
    rw [hstep] at hstep'
    exact absurd (next_inj hstep' ▸ hu) ht.ne_idle
  | advance _ hstep' _ hrun =>
    rw [hstep] at hstep'
    exact next_inj hstep' ▸ hrun

theorem PushRun.keeps (h : PushRun s u) : u.input = s.input ∧ u.params = s.params := by
  induction h with
  | answer hs hstep => exact hs.step_keeps hstep
  | advance hs hstep _ _ ih =>
    obtain ⟨hinput, hparams⟩ := hs.step_keeps hstep
    exact ⟨ih.1.trans hinput, ih.2.trans hparams⟩

end Sys2Proof.Machine
end

section
/-! O10: a PUSH ends. Every step of it answers the command, or uses up bits, or is the first half of a run token or
the end of a stored block, of which no two follow each other (R222, R230; log 2). -/

namespace Sys2Proof.Machine

open Sys2Proof.Laws

variable {s t u : State} {i : Instr}

/-! ### Every element but the end of a stored block has a bit -/

theorem one_le_len {tab : Table} (h : tab.Regular) {input : List Byte} {p : Nat} {e : Entry}
    (he : tab.decode input p = some e) : 1 ≤ e.len := h.lenPos e (decode_mem he)

theorem State.Tables.one_le_elementBits (hs : s.Tables) (ha : s.activity = .inflating)
    (hd : Decoded s.elementCtx i) (hi : i ≠ .storedEnd) (p : Nat) : 1 ≤ elementBits p i := by
  cases hd with
  | header | fixed | reserved | byte => simp [elementBits]
  | stored | trailer => simp only [elementBits]; omega
  | badCount | dynamic => simp only [elementBits]; split <;> omega
  | codeLength e x hdist htag he =>
    have := one_le_len (hs.cl htag).1 he
    rw [(clInstr_facts p).2]
    omega
  | symbol e x hdist htag he =>
    have := one_le_len (hs.rl htag).1 he
    rw [symbolInstr_bits]
    omega
  | distance e x hdist => simp [State.elementCtx, ha] at hdist
  | storedEnd => exact absurd rfl hi

/-! ### What is left of a PUSH -/

theorem avail_add (input : List Byte) (p n : Nat) : avail input (p + n) = avail input p - n :=
  Nat.sub_add_eq _ _ _

/-- The bits left can produce no output index past the counter, at 258 bytes a bit, and the first half of a token
has its bits among them (R52, R144, R353). -/
structure State.InBudget (s : State) : Prop where
  room : s.out.length + 258 * avail s.input s.pos < 2 ^ s.params.countWidth
  token : s.activity = .distance →
    s.runCount ≤ 258 ∧ 1 ≤ s.runBits ∧ s.runBits ≤ avail s.input s.pos

/-- How many more steps the PUSH can take: two a bit left; and one for the answer, and one for the end of the stored
block the state may be in, neither of which is counted inside a token, whose first half has not used up its bits. -/
def State.stepsLeft (s : State) : Nat :=
  2 * avail s.input s.pos +
    if s.activity = .distance then 0 else if s.st = .blockUncompressed then 2 else 1

theorem stepsLeft_distance (h : s.activity = .distance) : s.stepsLeft = 2 * avail s.input s.pos := by
  simp [State.stepsLeft, h]

theorem stepsLeft_stored (h : s.activity = .inflating) (hst : s.st = .blockUncompressed) :
    s.stepsLeft = 2 * avail s.input s.pos + 2 := by
  simp [State.stepsLeft, h, hst]

theorem stepsLeft_plain (h : s.activity = .inflating) (hst : s.st ≠ .blockUncompressed) :
    s.stepsLeft = 2 * avail s.input s.pos + 1 := by
  simp [State.stepsLeft, h, hst]

theorem stepsLeft_bounds (h : s.activity = .inflating) :
    2 * avail s.input s.pos + 1 ≤ s.stepsLeft ∧ s.stepsLeft ≤ 2 * avail s.input s.pos + 2 := by
  by_cases hst : s.st = .blockUncompressed
  · rw [stepsLeft_stored h hst]; omega
  · rw [stepsLeft_plain h hst]; omega

theorem State.InBudget.one_le_stepsLeft (hb : s.InBudget) (hs : s.Pushing) : 1 ≤ s.stepsLeft := by
  rcases hs with h | h
  · have := stepsLeft_bounds h
    omega
  · obtain ⟨-, h1, hle⟩ := hb.token h
    rw [stepsLeft_distance h]
    omega

/-- A transaction of `n` of the bits left that appends at most 258 bytes a bit. -/
structure State.Consumes (s : State) (n : Nat) (t : State) : Prop where
  params : t.params = s.params
  input : t.input = s.input
  activity : t.activity = .inflating
  pos : t.pos = s.pos + n
  out : t.out.length ≤ s.out.length + 258 * n
  bits : n ≤ avail s.input s.pos

theorem State.Consumes.avail (h : s.Consumes n t) : avail t.input t.pos + n = avail s.input s.pos := by
  have := h.bits
  rw [h.input, h.pos, avail_add]
  omega

theorem State.Consumes.inBudget (h : s.Consumes n t) (hb : s.InBudget) : t.InBudget where
  room := by
    have hroom := hb.room
    have hout := h.out
    have havail := h.avail
    rw [h.params]
    omega
  token := by simp [h.activity]

/-- What a step of a PUSH uses up. -/
inductive Progress (s : State) : State → Prop where
  | answered {t : State} : t.activity = .idle → Progress s t
  | latched {count n : Nat} : s.activity = .inflating → count ≤ 258 → 1 ≤ n → n ≤ avail s.input s.pos →
      Progress s { s with activity := .distance, runCount := count, runBits := n }
  | consumed {n : Nat} {t : State} : s.Consumes n t → 1 ≤ n →
      (s.activity = .distance → t.st = .blockCompressed) → Progress s t
  | blockEnded {t : State} : s.Consumes 0 t → s.activity = .inflating → s.st = .blockUncompressed →
      t.st ≠ .blockUncompressed → Progress s t

theorem Progress.next (h : Progress s t) (hs : s.Pushing) (hb : s.InBudget) :
    t.activity = .idle ∨ t.Pushing ∧ t.InBudget ∧ t.stepsLeft < s.stepsLeft := by
  cases h with
  | answered ht => exact .inl ht
  | latched ha hcount hn hle =>
    refine .inr ⟨.inr rfl, ⟨hb.room, fun _ => ⟨hcount, hn, hle⟩⟩, ?_⟩
    have := stepsLeft_bounds ha
    rw [stepsLeft_distance rfl]
    dsimp only
    omega
  | @consumed n t hc hn hst =>
    refine .inr ⟨.inl hc.activity, hc.inBudget hb, ?_⟩
    have havail := hc.avail
    rcases hs with ha | ha
    · have := stepsLeft_bounds ha
      have := stepsLeft_bounds hc.activity
      omega
    · rw [stepsLeft_distance ha, stepsLeft_plain hc.activity (by simp [hst ha])]
      omega
  | blockEnded hc ha hst hst' =>
    refine .inr ⟨.inl hc.activity, hc.inBudget hb, ?_⟩
    have havail := hc.avail
    rw [stepsLeft_stored ha hst, stepsLeft_plain hc.activity hst']
    omega

/-- At a boundary the bits of an element are among those left. -/
theorem elementBits_le_avail (ha : s.activity = .inflating) (hd : Decoded s.elementCtx i) :
    elementBits s.pos i ≤ avail s.input s.pos :=
  elementCtx_pos_plain (s := s) (by simp [ha]) ▸ hd.bits

theorem inflating_of_not_endsToken (hp : s.Pushing) (hd : Decoded s.elementCtx i) (hi : ¬endsToken i) :
    s.activity = .inflating := hp.resolve_right (activity_ne_distance hd hi)

/-- An element that moves `P` on by its bits, appends at most a byte and stays at a boundary makes progress. -/
theorem State.Tables.progress_of_boundary (hs : s.Tables) (hp : s.Pushing) (hd : Decoded s.elementCtx i)
    (hi : ¬endsToken i) (hi' : i ≠ .storedEnd) (hparams : t.params = s.params) (hinput : t.input = s.input)
    (hact : t.activity = s.activity) (hpos : t.pos = s.pos + elementBits s.pos i)
    (hout : t.out.length ≤ s.out.length + 1) : Progress s t := by
  have ha := inflating_of_not_endsToken hp hd hi
  have hone := hs.one_le_elementBits ha hd hi' s.pos
  exact .consumed ⟨hparams, hinput, hact.trans ha, hpos, by omega, elementBits_le_avail ha hd⟩ hone
    (by simp [ha])

/-- An element makes progress. -/
theorem State.Tables.element_progress (hs : s.Tables) (hb : s.InBudget) (hp : s.Pushing)
    (hd : Decoded s.elementCtx i) (he : Effect s i t) : Progress s t := by
  have htag : elementTag i = s.st := elementTag_eq_st hs.distance hd
  cases he with
  | renew | accept | release | unpack => exact absurd hd.element.1 (by simp [commandBytes])
  | answer | fail | hold | trailer => exact .answered rfl
  | header | stored | fixed =>
    exact hs.progress_of_boundary hp hd (not_endsToken_of_tag nofun) nofun rfl rfl rfl rfl (Nat.le_succ _)
  | dynamic bf hlit hdist hclen cl tab hle =>
    refine hs.progress_of_boundary hp hd (not_endsToken_of_tag nofun) nofun rfl rfl rfl ?_ (Nat.le_succ _)
    simp [elementBits, Nat.not_lt.2 hle]
  | lengths _ n add hi hn | complete _ n add rl d hi hn =>
    refine hs.progress_of_boundary hp hd (not_endsToken_of_tag (by simp [elementTag_cl hi])) ?_
      rfl rfl rfl (hn ▸ rfl) (Nat.le_succ _)
    rintro rfl
    cases hi
  | append _ v n hi hn =>
    refine hs.progress_of_boundary hp hd ?_ ?_ (by simp) (by simp) (by simp) (by simp [hn]) (by simp) <;>
      rcases hi with ⟨_, _, rfl⟩ | ⟨_, rfl⟩ <;> simp [endsToken, distanceSymbol]
  | endBlock _ n hi hn =>
    rcases hi with ⟨len, rfl⟩ | rfl
    · exact hs.progress_of_boundary hp hd (by simp [endsToken, distanceSymbol]) nofun
        rfl rfl rfl (hn ▸ rfl) (Nat.le_succ _)
    · have ha := inflating_of_not_endsToken hp hd (by simp [endsToken, distanceSymbol])
      subst hn
      refine .blockEnded ⟨rfl, rfl, ha, rfl, Nat.le_refl _, Nat.zero_le _⟩ ha htag.symm ?_
      rcases afterBlock_eq s.final with h | h <;> simp [h]
  | run _ count n hi hn hcount =>
    have ha := inflating_of_not_endsToken hp hd (not_endsToken_of_run hi)
    have hi' : i ≠ .storedEnd := by
      rintro rfl
      cases hi
    exact .latched ha hcount (hn ▸ hs.one_le_elementBits ha hd hi' s.pos) (hn ▸ elementBits_le_avail ha hd)
  | copy _ offset n hi hn =>
    have ha := distanceSymbol_activity hd hi
    obtain ⟨hcount, hone, hle⟩ := hb.token ha
    have htoken : n ≤ avail s.input (s.pos + s.runBits) := by
      have h := hd.bits_at (p := s.pos) fun h => by simp [elementCtx_distance.2 ha] at h
      rwa [elementCtx_pos_distance ha, ← hn] at h
    rw [avail_add] at htoken
    refine .consumed (n := s.runBits + n) ⟨by simp, by simp, rfl, by simp, ?_, by omega⟩ (by omega) ?_
    · simp only [outExpand_eq_emit, commit_out, emit_out, List.length_append, copyBytes_length]
      omega
    · intro _
      simpa using hs.distance ha

/-! ### No step is refused -/

/-- The bytes an appending element adds to `OUT` (R351, R353, R358). -/
def State.growth (s : State) (i : Instr) : Nat := if distanceSymbol i then s.runCount else 1

theorem withRoom_refused {k : Nat} {done : State} {r : Refusal} (h : s.withRoom k done = .refused r) :
    s.indexOver k = true := by
  unfold State.withRoom at h
  split at h
  · cases h
  · split at h
    · assumption
    · cases h

theorem distToken_refused {k len x : Nat} {r : Refusal} (h : distToken k len x s = .refused r) :
    s.indexOver s.runCount = true := by
  unfold distToken at h
  split at h
  · cases h
  · exact withRoom_refused h

theorem appendLengths_ne_refused {n : Nat} {add : List (BitVec 4)} {r : Refusal} :
    appendLengths n add s ≠ .refused r := by
  unfold appendLengths completeLengths
  split
  · nofun
  · split
    · split <;> nofun
    · nofun

/-- An element is refused past the counter of output indices only (R52, log 9). -/
theorem exec_refused (hc : commandBytes i = 0) (hf : blockOf i = none) {r : Refusal}
    (h : exec i s = .refused r) : appendsOutput i = true ∧ s.indexOver (s.growth i) = true := by
  cases i with
  | lit | byte => exact ⟨rfl, withRoom_refused h⟩
  | dist0 | dist1 | dist2 | dist3 | dist4 | dist5 | dist6 | dist7 | dist8 | dist9 | dist10 | dist11 | dist12
  | dist13 | dist14 | dist15 | dist16 | dist17 | dist18 | dist19 | dist20 | dist21 | dist22 | dist23 | dist24
  | dist25 | dist26 | dist27 | dist28 | dist29 => exact ⟨rfl, distToken_refused h⟩
  | clLit | clZeros3 | clZeros7 => exact absurd h appendLengths_ne_refused
  | clExtend len x =>
    simp only [exec, execClExtend] at h
    split at h
    · cases h
    · exact absurd h appendLengths_ne_refused
  | zhdr cmf flg =>
    simp only [exec, execZhdr] at h
    split_ifs at h
  | bhdrStored bf len nlen =>
    simp only [exec, execBhdrStored] at h
    split_ifs at h
  | bhdrDynamic bf hlit hdist hclen cl =>
    simp only [exec, execBhdrDynamic] at h
    split at h
    · cases h
    · split at h <;> cases h
  | adler v =>
    simp only [exec, execAdler] at h
    split_ifs at h
  | push | pull | retained | finish | read | reservedOp | stdIos => exact absurd hc (by simp [commandBytes])
  | fmtIndexed1 | fmtIndexed2 | fmtIndexed4 | fmtIndexed8 | fmtUnsupported => cases hf
  | _ => cases h

/-- Within the budget no element is refused. -/
theorem State.Tables.element_ne_refused (hs : s.Tables) (hb : s.InBudget) (hp : s.Pushing)
    (hd : Decoded s.elementCtx i) (r : Refusal) : exec i s ≠ .refused r := by
  intro h
  obtain ⟨happends, hover⟩ := exec_refused hd.element.1 hd.element.2 h
  have hroom := hb.room
  have hfull : 2 ^ s.params.countWidth ≤ s.out.length + s.growth i := of_decide_eq_true hover
  suffices s.growth i ≤ 258 ∧ 1 ≤ avail s.input s.pos by omega
  unfold State.growth
  split
  · next hi =>
    obtain ⟨hcount, hone, hle⟩ := hb.token (distanceSymbol_activity hd hi)
    omega
  · next hi =>
    have hnot : ¬endsToken i := by
      rintro (hi' | ⟨_, rfl | rfl⟩)
      · exact hi hi'
      · cases happends
      · cases happends
    have ha := inflating_of_not_endsToken hp hd hnot
    have hone := hs.one_le_elementBits ha hd (by rintro rfl; cases happends) s.pos
    exact ⟨by decide, hone.trans (elementBits_le_avail ha hd)⟩

/-! ### The whole PUSH -/

/-- Within the budget a PUSH takes a step, and the step makes progress. -/
theorem State.Tables.push_progress (hs : s.Tables) (hb : s.InBudget) (hp : s.Pushing) :
    ∃ t, step s = .next t ∧ Progress s t := by
  cases hd : decodeElement s.elementCtx with
  | needMore => exact ⟨_, step_of_needMore hp hd, .answered rfl⟩
  | done => exact ⟨_, step_of_done hp hd, .answered rfl⟩
  | stop r => exact absurd hd (hs.decodeElement_ne_stop hp r)
  | instr i =>
    rw [step_of_instr hp hd]
    have hdec := decodeElement_instr hd
    cases he : exec i s with
    | next t => exact ⟨t, rfl, hs.element_progress hb hp hdec (exec_effect he)⟩
    | fault f => exact absurd he (exec_ne_fault i s f)
    | refused r => exact absurd he (hs.element_ne_refused hb hp hdec r)

theorem State.Tables.advanceLoop_ends {n : Nat} (hs : s.Tables) (hb : s.InBudget) (hp : s.Pushing)
    (hn : s.stepsLeft ≤ n) : ∃ t, advanceLoop n s = .next t ∧ t.activity = .idle := by
  induction n generalizing s with
  | zero =>
    have := hb.one_le_stepsLeft hp
    omega
  | succ n ih =>
    obtain ⟨t, hstep, hprogress⟩ := hs.push_progress hb hp
    rw [advanceLoop_step hp.ne_idle hstep]
    rcases hprogress.next hp hb with hidle | ⟨hp', hb', hlt⟩
    · exact ⟨t, advanceLoop_idle hidle n, hidle⟩
    · exact ih (tablesInvariantKept s t hs hstep) hb' hp' (by omega)

/-- Settles O10: each step but the last leaves fewer steps, of at most two a bit and two more. -/
theorem pushEndsWithinTwiceTheBits : Obligations.PushEndsWithinTwiceTheBits := by
  intro s hs ha hroom
  exact hs.advanceLoop_ends ⟨hroom, by simp [ha]⟩ (.inl ha) (stepsLeft_bounds ha).2

end Sys2Proof.Machine
end

section
/-! What the element decoder answers stays the answer when more input is pushed, unless it asked for more (R104,
R108, R191). -/

namespace Sys2Proof.Machine

open Sys2Proof.Laws

variable {c : ElementCtx} {b : List Byte} {tab : Table} {k : Nat}

/-- The context after `b` is pushed (R31). -/
def ElementCtx.more (c : ElementCtx) (b : List Byte) : ElementCtx := { c with input := c.input ++ b }

@[simp] theorem more_pos (c : ElementCtx) (b : List Byte) : (c.more b).pos = c.pos := rfl

/-- The bits available stay available. -/
theorem avail_more (b : List Byte) (h : k ≤ avail c.input c.pos) :
    k ≤ avail (c.more b).input (c.more b).pos := by
  simp only [avail, ElementCtx.more, List.length_append] at h ⊢
  omega

/-- A field among the `k` bits that are pushed reads the same. -/
theorem inBits_more (b : List Byte) (hk : k ≤ avail c.input c.pos) (h1 : 1 ≤ k) {q n : Nat}
    (hq : q + n ≤ c.pos + k) : inBits (c.more b).input q n = inBits c.input q n := by
  refine inBits_append _ _ _ _ ?_
  simp only [avail] at hk
  omega

theorem readCl_more (b : List Byte) (hk : k ≤ avail c.input c.pos) (h1 : 1 ≤ k) {q n : Nat}
    (hq : q + 3 * n ≤ c.pos + k) : readCl (c.more b).input q n = readCl c.input q n := by
  induction n generalizing q with
  | zero => rfl
  | succ n ih => rw [readCl, readCl, inBits_more b hk h1 (by omega), ih (by omega)]

theorem trailerValue_more (b : List Byte) (hk : k ≤ avail c.input c.pos) (h1 : 1 ≤ k) {q : Nat}
    (hq : q + 32 ≤ c.pos + k) : trailerValue (c.more b).input q = trailerValue c.input q := by
  simp only [trailerValue]
  rw [inBits_more b hk h1 (by omega), inBits_more b hk h1 (by omega), inBits_more b hk h1 (by omega),
    inBits_more b hk h1 (by omega)]

/-! ### Settled answers -/

/-- The decoder needs more input, or `b` does not change its answer. -/
def ElementCtx.Settled (c : ElementCtx) (b : List Byte) : Prop :=
  decodeElement c = .needMore ∨ decodeElement (c.more b) = decodeElement c

/-- An answer that waits for `k` bits and then reads the same is settled. -/
theorem settled_of_ite {x x' : Element}
    (h : decodeElement c = if avail c.input c.pos < k then .needMore else x)
    (h' : decodeElement (c.more b) =
      if avail (c.more b).input (c.more b).pos < k then .needMore else x')
    (hx : k ≤ avail c.input c.pos → x' = x) : c.Settled b := by
  by_cases hk : avail c.input c.pos < k
  · exact .inl (h.trans (if_pos hk))
  · have hk := Nat.not_lt.1 hk
    refine .inr ?_
    rw [h, h', if_neg (Nat.not_lt.2 hk), if_neg (Nat.not_lt.2 (avail_more b hk)), hx hk]

/-! ### Container, stored bytes and block headers -/

/-- A dynamic header is settled at each of its two stages (R293, R294). -/
theorem settled_of_dynamic {bf : Bool} (h : decodeElement c = decodeDynamic c bf)
    (h' : decodeElement (c.more b) = decodeDynamic (c.more b) bf) : c.Settled b := by
  by_cases h17 : avail c.input c.pos < 17
  · exact .inl (h.trans (decodeDynamic_short bf h17))
  have h17 := Nat.not_lt.1 h17
  have hfield : ∀ q n, q + n ≤ c.pos + 17 → inBits (c.more b).input q n = inBits c.input q n :=
    fun q n => inBits_more b h17 (by decide)
  have hhlit := hfield (c.pos + 3) 5 (by omega)
  have hhdist := hfield (c.pos + 8) 5 (by omega)
  have hhclen := hfield (c.pos + 13) 4 (by omega)
  by_cases hh : 286 < hlitValue (BitVec.ofNat 5 (inBits c.input (c.pos + 3) 5))
  · refine .inr ?_
    rw [h, h', decodeDynamic_badCount bf h17 hh,
      decodeDynamic_badCount bf (avail_more b h17) (by rwa [more_pos, hhlit]), more_pos, hhlit, hhdist, hhclen]
  · have hh := Nat.not_lt.1 hh
    rw [decodeDynamic_lengths bf h17 hh] at h
    rw [decodeDynamic_lengths bf (avail_more b h17) (by rwa [more_pos, hhlit])] at h'
    rw [more_pos, hhlit, hhdist, hhclen] at h'
    exact settled_of_ite h h' fun hk => by rw [readCl_more b hk (by omega) (by omega)]

section Boundary

variable (hd : c.distance = false)
include hd

theorem settled_streamStart (ht : c.tag = .streamStart) : c.Settled b :=
  settled_of_ite (decodeElement_streamStart hd ht) (decodeElement_streamStart (c := c.more b) hd ht) fun hk => by
    rw [more_pos, inBits_more b hk (by decide) (by omega), inBits_more b hk (by decide) (by omega)]

theorem settled_streamChecksum (ht : c.tag = .streamChecksum) : c.Settled b :=
  settled_of_ite (decodeElement_streamChecksum hd ht) (decodeElement_streamChecksum (c := c.more b) hd ht)
    fun hk => by rw [more_pos, trailerValue_more b hk (by omega) (by omega)]

theorem settled_blockUncompressed (ht : c.tag = .blockUncompressed) : c.Settled b := by
  have h := decodeElement_blockUncompressed hd ht
  have h' := decodeElement_blockUncompressed (c := c.more b) hd ht
  cases hdone : c.blockDone with
  | true =>
    have hdone' : (c.more b).blockDone = true := hdone
    rw [decodeStoredByte, if_pos hdone] at h
    rw [decodeStoredByte, if_pos hdone'] at h'
    exact .inr (h'.trans h.symm)
  | false =>
    have hdone' : (c.more b).blockDone = false := hdone
    rw [decodeStoredByte, if_neg (by simp [hdone])] at h
    rw [decodeStoredByte, if_neg (by simp [hdone'])] at h'
    exact settled_of_ite h h' fun hk => by rw [more_pos, inBits_more b hk (by decide) (by omega)]

theorem settled_blockStart (ht : c.tag = .blockStart) : c.Settled b := by
  by_cases h3 : avail c.input c.pos < 3
  · exact .inl ((decodeElement_blockStart hd ht).trans (if_pos h3))
  have h3 := Nat.not_lt.1 h3
  have h3' := avail_more b h3
  have htype : inBits (c.more b).input ((c.more b).pos + 1) 2 = inBits c.input (c.pos + 1) 2 :=
    inBits_more b h3 (by decide) (Nat.le_refl _)
  have hfinal : bitAt (c.more b).input (c.more b).pos = bitAt c.input c.pos := by
    rw [← inBits_one, ← inBits_one]
    exact inBits_more b h3 (by decide) (by simp)
  have hlt := inBits_lt c.input (c.pos + 1) 2
  obtain hb | hb | hb | hb : inBits c.input (c.pos + 1) 2 = 0 ∨ inBits c.input (c.pos + 1) 2 = 1 ∨
      inBits c.input (c.pos + 1) 2 = 2 ∨ inBits c.input (c.pos + 1) 2 = 3 := by omega
  · refine settled_of_ite (decodeElement_stored hd ht h3 hb)
      (decodeElement_stored (c := c.more b) hd ht h3' (htype.trans hb)) fun hk => ?_
    rw [hfinal, more_pos, inBits_more b hk (by omega) (by omega), inBits_more b hk (by omega) (by omega)]
  · refine .inr ?_
    rw [decodeElement_fixed hd ht h3 hb, decodeElement_fixed (c := c.more b) hd ht h3' (htype.trans hb), hfinal]
  · refine settled_of_dynamic (decodeElement_dynamic hd ht h3 hb) ?_
    rw [decodeElement_dynamic (c := c.more b) hd ht h3' (htype.trans hb), hfinal]
  · refine .inr ?_
    rw [decodeElement_reserved hd ht h3 hb, decodeElement_reserved (c := c.more b) hd ht h3' (htype.trans hb),
      hfinal]

end Boundary

/-! ### Huffman-coded elements -/

theorem div_mul_div_two_pow (key : Nat) {j m : Nat} (h : j ≤ m) : key / 2 ^ j * 2 ^ j / 2 ^ m = key / 2 ^ m := by
  have hpow : 2 ^ m = 2 ^ j * 2 ^ (m - j) := by rw [← Nat.pow_add, Nat.add_sub_cancel' h]
  rw [hpow, ← Nat.div_div_eq_div_mul, ← Nat.div_div_eq_div_mul, Nat.mul_div_cancel _ (Nat.two_pow_pos j)]

/-- A key below `fence` is in the short slot of its first 8 bits (R190). -/
theorem keyOf_index_short {key : Nat} (h : key < tab.fence) : tab.keyOf (tab.index key) = key / 2 ^ 8 * 2 ^ 8 := by
  have hn : key / 256 < tab.n := by
    simp only [Table.fence] at h
    omega
  rw [Table.index, if_pos h, Table.keyOf, if_pos hn]
  rfl

/-- Any other key is in the slot of its first 15 bits (R190). -/
theorem keyOf_index_long {key : Nat} (h : ¬key < tab.fence) : tab.keyOf (tab.index key) = key / 2 ^ 1 * 2 ^ 1 := by
  have hfold : tab.n + tab.fold ≤ key / 2 := by
    simp only [Table.fence, Table.fold] at h ⊢
    omega
  rw [Table.index, if_neg h, Table.keyOf, if_neg (by omega), Nat.sub_add_cancel (by omega), Nat.pow_one]

/-- Two keys alike in their first 8 bits are in one short slot (R190). -/
theorem lookup_of_short {key key' : Nat} (h : key < tab.fence) (hslot : key' / 2 ^ 8 = key / 2 ^ 8) :
    tab.lookup key' = tab.lookup key := by
  have hslot : key' / 256 = key / 256 := hslot
  have h' : key' < tab.fence := by
    simp only [Table.fence] at h ⊢
    omega
  rw [Table.lookup, Table.lookup, Table.index, Table.index, if_pos h, if_pos h', hslot]

/-- A key that begins with the code of the entry another key selects selects that entry (R188, R190). -/
theorem Table.Regular.lookup_of_code (h : tab.Regular) {key key' : Nat} {e : Entry}
    (hkey' : key' < 65536) (he : tab.lookup key = some e)
    (hcodes : key' / 2 ^ (16 - e.len) = key / 2 ^ (16 - e.len)) : tab.lookup key' = some e := by
  have hlen := h.lenMax e (List.mem_of_getElem? he)
  have hcode := h.code (tab.index key) e key' he hkey'
  by_cases hfence : key < tab.fence
  · rw [keyOf_index_short hfence] at hcode
    rcases Nat.le_total 8 (16 - e.len) with hle | hle
    · exact hcode (hcodes.trans (div_mul_div_two_pow key hle).symm)
    · refine (lookup_of_short hfence ?_).trans he
      rw [← div_mul_div_two_pow key' hle, hcodes, div_mul_div_two_pow key hle]
  · rw [keyOf_index_long hfence] at hcode
    exact hcode (hcodes.trans (div_mul_div_two_pow key (by omega)).symm)

/-- A code that is all pushed decodes to the same entry after more input (R191). -/
theorem Table.Regular.decode_more (h : tab.Regular) {e : Entry} (he : tab.decode c.input c.pos = some e)
    (hlen : e.len ≤ avail c.input c.pos) (b : List Byte) :
    tab.decode (c.more b).input (c.more b).pos = some e := by
  have hone := one_le_len h he
  have hmax := h.lenMax e (decode_mem he)
  refine h.lookup_of_code (rev16_lt _) he (rev16_top _ _ _ (by omega) ?_)
  rw [inBits_mod _ _ _ _ (by omega), inBits_mod _ _ _ _ (by omega), more_pos]
  exact inBits_more b hlen hone (by omega)

/-- A Huffman-coded element is settled once code and extra bits are pushed. -/
theorem settled_of_reads (h : tab.Regular) {e : Entry} (he : tab.decode c.input c.pos = some e) {extra : Nat}
    {instr : Nat → Nat → Instr} (hr : c.Reads tab e.sym extra instr)
    (hr' : (c.more b).Reads tab e.sym extra instr) :
    c.Settled b := by
  by_cases hk : avail c.input c.pos < e.len + extra
  · exact .inl (hr.needMore he hk)
  · have hk := Nat.not_lt.1 hk
    have hone := one_le_len h he
    have he' := h.decode_more he (by omega) b
    refine .inr ?_
    rw [hr.element he hk, hr'.element he' (avail_more b hk), more_pos, inBits_more b hk (by omega) (by omega)]

/-! ### Every element of a PUSH -/

/-- Under `Tables` the next element of a PUSH is settled. -/
theorem State.Tables.settled {s : State} (hs : s.Tables) (hp : s.Pushing) (b : List Byte) :
    s.elementCtx.Settled b := by
  rcases hp with ha | ha
  · have hd : s.elementCtx.distance = false := by simp [State.elementCtx, ha]
    cases ht : s.st with
    | streamStart => exact settled_streamStart hd ht
    | blockStart => exact settled_blockStart hd ht
    | blockTables =>
      obtain ⟨hregular, hbelow, -⟩ := hs.cl ht
      obtain ⟨e, he, hmem⟩ := decode_isSome hregular s.elementCtx.input s.elementCtx.pos
      exact settled_of_reads hregular he (reads_codeLength hd ht (hbelow e hmem))
        (reads_codeLength (c := s.elementCtx.more b) hd ht (hbelow e hmem))
    | blockUncompressed => exact settled_blockUncompressed hd ht
    | blockCompressed =>
      have hregular := (hs.rl ht).1
      obtain ⟨e, he, -⟩ := decode_isSome hregular s.elementCtx.input s.elementCtx.pos
      exact settled_of_reads hregular he (reads_symbol hd ht e.sym)
        (reads_symbol (c := s.elementCtx.more b) hd ht e.sym)
    | streamChecksum => exact settled_streamChecksum hd ht
    | streamEnd =>
      have ht' : s.elementCtx.tag = .streamEnd := ht
      exact .inr (by simp [decodeElement, ElementCtx.more, hd, ht'])
    | failed => exact absurd ht (hs.running ha)
  · have hregular := (hs.d (hs.distance ha)).1
    have hd := elementCtx_distance.2 ha
    obtain ⟨e, he, -⟩ := decode_isSome hregular s.elementCtx.input s.elementCtx.pos
    exact settled_of_reads hregular he (reads_distance hd e.sym)
      (reads_distance (c := s.elementCtx.more b) hd e.sym)

end Sys2Proof.Machine
end

section
/-! O27: PUSH, accepted or refused (R52, R81, R97, R223, R228). -/

namespace Sys2Proof.Machine

open Sys2Proof.Laws

variable {s t : State} {data : List Byte}

/-- The state in which an accepted PUSH begins its ADVANCE loop (R81, R223). -/
def State.pushed (s : State) (data : List Byte) : State := { s.rebase data with activity := .inflating }

theorem inputOver_eq_false_iff {n : Nat} : s.inputOver n = false ↔
    ∀ c, s.params.inCap = some c → s.input.length + n - 2 * (s.pos / 16) ≤ c := by
  unfold State.inputOver
  cases s.params.inCap <;> simp

theorem inputOver_of_lt {n c : Nat} (hc : s.params.inCap = some c)
    (h : c < s.input.length + n - 2 * (s.pos / 16)) : s.inputOver n = true := by
  simp [State.inputOver, hc, h]

theorem positionOver_eq_false_iff {n : Nat} :
    s.positionOver n = false ↔ 8 * (s.input.length + n) < 2 ^ s.params.countWidth := by
  simp [State.positionOver]

theorem execPush_failed (h : s.st = .failed) : execPush data s = .refused .sessionFailed := if_pos h

theorem execPush_inputOver (hst : s.st ≠ .failed) (h : s.inputOver data.length = true) :
    execPush data s = .refused .inputCapacity := by
  rw [execPush, if_neg hst, if_pos h]

theorem execPush_positionOver (hst : s.st ≠ .failed) (hin : s.inputOver data.length = false)
    (h : s.positionOver data.length = true) : execPush data s = .refused .counterWidth := by
  rw [execPush, if_neg hst, if_neg (by simp [hin]), if_pos h]

theorem execPush_accepted (hst : s.st ≠ .failed) (hin : s.inputOver data.length = false)
    (hpos : s.positionOver data.length = false) : execPush data s = .next (s.pushed data) := by
  rw [execPush, if_neg hst, if_neg (by simp [hin]), if_neg (by simp [hpos])]
  rfl

/-- A PUSH that is not refused was accepted. -/
theorem execPush_next (h : execPush data s = .next t) :
    s.st ≠ .failed ∧ s.positionOver data.length = false ∧ t = s.pushed data := by
  unfold execPush at h
  split_ifs at h with hst hin hpos
  exact ⟨hst, by simpa using hpos, (next_inj h).symm⟩

/-- Settles O27, by the three outcomes of `execPush`. -/
theorem pushAppendsTheInput : Obligations.PushAppendsTheInput := by
  refine fun s data hst => ⟨fun hin hpos => ?_, fun c hc hover => ?_, fun hin hpos => ?_⟩
  · refine ⟨_, execPush_accepted hst (inputOver_eq_false_iff.2 hin) (positionOver_eq_false_iff.2 hpos),
      rfl, rfl, ?_, rfl, rfl, rfl, rfl⟩
    simp only [State.pushed, rebase_atomPos]
    omega
  · exact execPush_inputOver hst (inputOver_of_lt hc hover)
  · exact execPush_positionOver hst (inputOver_eq_false_iff.2 hin) (decide_eq_true hpos)

end Sys2Proof.Machine
end

section
/-! O9: a PUSH in two parts. A run that needs more input is taken up by the next PUSH at the last boundary; the run
of the joined PUSH passes through the same states with the longer input (R104, R108, R231). -/

namespace Sys2Proof.Machine

open Sys2Proof.Laws

variable {s t u x : State} {i : Instr} {b : List Byte} {w : Word} {bytes : List Byte}

/-! ### The same state with more input and another response -/

/-- `b` is pushed at once (R31). -/
def State.moreInput (s : State) (b : List Byte) : State := { s with input := s.input ++ b }

/-- `b` is pushed, and the last response was another one. -/
def State.reframe (s : State) (b : List Byte) (w : Word) (bytes : List Byte) : State :=
  { s.moreInput b with status := w, payload := bytes }

/-- The PUSH of `b` takes up the run that `s` ended. -/
def State.resumed (s : State) (b : List Byte) : State := { s.moreInput b with activity := .inflating }

theorem moreInput_nil (s : State) : s.moreInput [] = s := by
  rw [State.moreInput, List.append_nil]

theorem reframe_reframe (s : State) (b : List Byte) (w w' : Word) (bytes bytes' : List Byte) :
    (s.reframe b w bytes).reframe [] w' bytes' = s.reframe b w' bytes' := by
  rw [State.reframe, moreInput_nil]
  rfl

/-- Two results alike but for the pushed `b` and, while the command has not answered, the last response. -/
inductive Alike (b : List Byte) (w : Word) (bytes : List Byte) : Result → Result → Prop where
  | running {t : State} : t.activity ≠ .idle → Alike b w bytes (.next t) (.next (t.reframe b w bytes))
  | answered {t : State} : t.activity = .idle → Alike b w bytes (.next t) (.next (t.moreInput b))
  | refused (r) : Alike b w bytes (.refused r) (.refused r)
  | fault (f) : Alike b w bytes (.fault f) (.fault f)

theorem Alike.of_running {r : Result} (h : Alike b w bytes (.next t) r) (ht : t.activity ≠ .idle) :
    r = .next (t.reframe b w bytes) := by
  cases h with
  | running => rfl
  | answered h => exact absurd h ht

theorem Alike.of_answered {r : Result} (h : Alike b w bytes (.next t) r) (ht : t.activity = .idle) :
    r = .next (t.moreInput b) := by
  cases h with
  | running h => exact absurd ht h
  | answered => rfl

theorem alike_ite {c : Prop} [Decidable c] {r1 r2 r1' r2' : Result} (h1 : Alike b w bytes r1 r1')
    (h2 : Alike b w bytes r2 r2') : Alike b w bytes (if c then r1 else r2) (if c then r1' else r2') := by
  split
  · exact h1
  · exact h2

/-! ### Elements read neither the input nor the last response -/

theorem makeRoom_reframe (s : State) (k : Nat) :
    (s.reframe b w bytes).makeRoom k = (s.makeRoom k).reframe b w bytes := by
  rw [State.makeRoom, State.makeRoom, apply_ite (fun u : State => u.reframe b w bytes)]
  rfl

theorem emit_reframe (s : State) (out : List Byte) :
    (s.reframe b w bytes).emit out = (s.emit out).reframe b w bytes := by
  rw [State.emit, makeRoom_reframe]
  rfl

theorem alike_withRoom (k : Nat) {done : State} (h : done.activity ≠ .idle) :
    Alike b w bytes (s.withRoom k done) ((s.reframe b w bytes).withRoom k (done.reframe b w bytes)) :=
  alike_ite (.answered rfl) (alike_ite (.refused _) (.running h))

theorem alike_append (hs : s.activity ≠ .idle) (v : Byte) (n : Nat) :
    Alike b w bytes (s.withRoom 1 ((s.outAppend v).commit n))
      ((s.reframe b w bytes).withRoom 1 (((s.reframe b w bytes).outAppend v).commit n)) := by
  rw [outAppend_eq_emit, outAppend_eq_emit, emit_reframe]
  exact alike_withRoom 1 (by simpa using hs)

theorem copied_reframe (s : State) (offset n : Nat) :
    (s.reframe b w bytes).copied offset n = (s.copied offset n).reframe b w bytes := by
  rw [State.copied, emit_reframe]
  rfl

theorem alike_distToken (k len x : Nat) (s : State) :
    Alike b w bytes (distToken k len x s) (distToken k len x (s.reframe b w bytes)) := by
  have hlimit : (s.reframe b w bytes).refLimit = s.refLimit := rfl
  rcases Nat.lt_or_ge s.refLimit (distBase k + x) with h | h
  · rw [distToken_past_limit h, distToken_past_limit (hlimit.symm ▸ h)]
    exact .answered rfl
  · rw [distToken_within_limit h, distToken_within_limit (hlimit.symm ▸ h), copied_reframe]
    exact alike_withRoom s.runCount nofun

theorem alike_completeLengths (hs : s.activity ≠ .idle) (n : Nat) (lens : List (BitVec 4)) :
    Alike b w bytes (completeLengths n lens s) (completeLengths n lens (s.reframe b w bytes)) := by
  have hrl : (s.reframe b w bytes).rlLengths lens = s.rlLengths lens := rfl
  have hd : (s.reframe b w bytes).dLengths lens = s.dLengths lens := rfl
  have hp : (s.reframe b w bytes).params = s.params := rfl
  unfold completeLengths
  rw [hrl, hd, hp]
  split
  · exact .running hs
  · exact .answered rfl

theorem alike_appendLengths (hs : s.activity ≠ .idle) (n : Nat) (add : List (BitVec 4)) :
    Alike b w bytes (appendLengths n add s) (appendLengths n add (s.reframe b w bytes)) :=
  alike_ite (.answered rfl) (alike_ite (alike_completeLengths hs n _) (.running hs))

theorem alike_clExtend (hs : s.activity ≠ .idle) (len : Nat) (x : BitVec 2) :
    Alike b w bytes (execClExtend len x s) (execClExtend len x (s.reframe b w bytes)) := by
  have hl : (s.reframe b w bytes).lengths = s.lengths := rfl
  unfold execClExtend
  rw [hl]
  split
  · exact .answered rfl
  · exact alike_appendLengths hs _ _

theorem alike_bhdrFixed (hs : s.activity ≠ .idle) (bf : Bool) :
    Alike b w bytes (execBhdrFixed bf s) (execBhdrFixed bf (s.reframe b w bytes)) := by
  unfold execBhdrFixed
  generalize fixedRl = rl
  generalize fixedD = d
  exact .running hs

theorem alike_bhdrDynamic (hs : s.activity ≠ .idle) (bf : Bool) (hlit hdist : BitVec 5) (hclen : BitVec 4)
    (cl : List (BitVec 3)) : Alike b w bytes (execBhdrDynamic bf hlit hdist hclen cl s)
      (execBhdrDynamic bf hlit hdist hclen cl (s.reframe b w bytes)) := by
  refine alike_ite (.answered rfl) ?_
  split
  · exact .answered rfl
  · exact .running hs

/-- An element acts alike on more input and after another response (R222). -/
theorem exec_alike (hs : s.activity ≠ .idle) (hc : commandBytes i = 0) (hf : blockOf i = none) :
    Alike b w bytes (exec i s) (exec i (s.reframe b w bytes)) := by
  cases i with
  | zhdr cmf flg =>
    exact alike_ite (.answered rfl) (alike_ite (.answered rfl) (alike_ite (.answered rfl)
      (alike_ite (.answered rfl) (.running hs))))
  | bhdrStored bf len nlen => exact alike_ite (.answered rfl) (.running hs)
  | bhdrDynamic bf hlit hdist hclen cl => exact alike_bhdrDynamic hs bf hlit hdist hclen cl
  | bhdrFixed bf => exact alike_bhdrFixed hs bf
  | eob | storedEnd => exact .running hs
  | lit len v => exact alike_append hs v len
  | byte v => exact alike_append hs v 8
  | clLit | clZeros3 | clZeros7 => exact alike_appendLengths hs _ _
  | clExtend len x => exact alike_clExtend hs len x
  | run257 | run258 | run259 | run260 | run261 | run262 | run263 | run264 | run265 | run266 | run267 | run268
  | run269 | run270 | run271 | run272 | run273 | run274 | run275 | run276 | run277 | run278 | run279 | run280
  | run281 | run282 | run283 | run284 | run285 => exact .running nofun
  | dist0 | dist1 | dist2 | dist3 | dist4 | dist5 | dist6 | dist7 | dist8 | dist9 | dist10 | dist11 | dist12
  | dist13 | dist14 | dist15 | dist16 | dist17 | dist18 | dist19 | dist20 | dist21 | dist22 | dist23 | dist24
  | dist25 | dist26 | dist27 | dist28 | dist29 => exact alike_distToken _ _ _ s
  | bhdrReserved | rl286 | rl287 | d30 | d31 => exact .answered rfl
  | adler v => exact alike_ite (.answered rfl) (.answered rfl)
  | new | push | pull | retained | finish | unpack | premul | read | reservedOp | stdIos =>
    exact absurd hc (by simp [commandBytes])
  | _ => cases hf

/-- A step of a PUSH acts alike where the decoder answers the same. -/
theorem step_alike (hs : s.Pushing) (hd : decodeElement (s.elementCtx.more b) = decodeElement s.elementCtx) :
    Alike b w bytes (step s) (step (s.reframe b w bytes)) := by
  have hs' : (s.reframe b w bytes).Pushing := hs
  have hd' : decodeElement (s.reframe b w bytes).elementCtx = decodeElement s.elementCtx := hd
  cases h : decodeElement s.elementCtx with
  | instr i =>
    obtain ⟨hc, hf⟩ := (decodeElement_instr h).element
    rw [step_of_instr hs h, step_of_instr hs' (hd'.trans h)]
    exact exec_alike hs.ne_idle hc hf
  | needMore =>
    rw [step_of_needMore hs h, step_of_needMore hs' (hd'.trans h)]
    exact .answered rfl
  | done =>
    rw [step_of_done hs h, step_of_done hs' (hd'.trans h)]
    exact .answered rfl
  | stop r =>
    rw [step_of_stop hs h, step_of_stop hs' (hd'.trans h)]
    exact .fault _

/-- The run of a PUSH does not depend on the last response. -/
theorem PushRun.reframe (h : PushRun s u) (w : Word) (bytes : List Byte) : PushRun (s.reframe [] w bytes) u := by
  have halike : ∀ s : State, s.Pushing → Alike [] w bytes (step s) (step (s.reframe [] w bytes)) := fun s hs =>
    step_alike hs (by rw [ElementCtx.more, List.append_nil])
  induction h with
  | @answer s t hs hstep ht =>
    have hstep' := (hstep ▸ halike s hs).of_answered ht
    exact .answer hs (moreInput_nil t ▸ hstep') ht
  | @advance s t u hs hstep ht _ ih =>
    have hstep' := (hstep ▸ halike s hs).of_running ht.ne_idle
    exact .advance (t := t.reframe [] w bytes) hs hstep' ht ih

/-- The same, with input pushed at once. -/
theorem PushRun.change_response {w' : Word} {bytes' : List Byte} (h : PushRun (s.reframe b w bytes) u) :
    PushRun (s.reframe b w' bytes') u :=
  reframe_reframe s b w w' bytes bytes' ▸ h.reframe w' bytes'

/-! ### The latch of a run token -/

/-- The last ADVANCE boundary: inside a run token nothing but the latch has been written since (R353, log 2). -/
def State.atBoundary (s : State) : State := { s with activity := .inflating }

/-- The first half of the token in progress gives this state again from the last boundary (R353, log 2). -/
def State.Latched (s : State) : Prop :=
  s.activity = .distance → step s.atBoundary = .next s

/-- At a boundary the decoder does not see the latch of a token. -/
theorem elementCtx_inflating (ha : s.activity = .inflating) : s.elementCtx = {
    input := s.input
    pos := s.pos
    tag := s.st
    distance := false
    blockDone := decide (s.out.length = s.blockEnd)
    cld := s.cld
    rld := s.rld
    dd := s.dd } := by
  simp [State.elementCtx, ha]

/-- A run symbol latches the same count and bits in every state (R144, R353). -/
theorem exec_run (hi : runSymbol i = true) : ∃ count n, ∀ s : State,
    exec i s = .next { s with activity := .distance, runCount := count, runBits := n } := by
  cases i with
  | run257 | run258 | run259 | run260 | run261 | run262 | run263 | run264 | run265 | run266 | run267 | run268
  | run269 | run270 | run271 | run272 | run273 | run274 | run275 | run276 | run277 | run278 | run279 | run280
  | run281 | run282 | run283 | run284 | run285 => exact ⟨_, _, fun _ => rfl⟩
  | _ => cases hi

/-- Only a run symbol leads into the distance half of a token. -/
theorem runSymbol_of_distance (hd : Decoded s.elementCtx i) (he : Effect s i t) (ht : t.activity = .distance) :
    runSymbol i = true := by
  have hplain : ¬endsToken i → s.activity ≠ .distance := activity_ne_distance hd
  cases he with
  | run _ _ _ hi => exact hi
  | renew | answer | fail | hold | trailer | accept | unpack | copy | release => cases ht
  | header | stored | fixed | dynamic => exact absurd ht (hplain (not_endsToken_of_tag nofun))
  | lengths _ _ _ hi | complete _ _ _ _ _ hi =>
    exact absurd ht (hplain (not_endsToken_of_tag (by simp [elementTag_cl hi])))
  | append _ v n hi =>
    refine absurd (by simpa using ht) (hplain ?_)
    rcases hi with ⟨_, _, rfl⟩ | ⟨_, rfl⟩ <;> simp [endsToken, distanceSymbol]
  | endBlock _ n hi =>
    refine absurd ht (hplain ?_)
    rcases hi with ⟨_, rfl⟩ | rfl <;> simp [endsToken, distanceSymbol]

/-- Every step of a PUSH leaves a token latched. -/
theorem State.Pushing.latched (hs : s.Pushing) (h : step s = .next t) : t.Latched := by
  intro ht
  cases hs.step_cases h with
  | needMore | done => cases ht
  | element i hd he =>
    have hdec := decodeElement_instr hd
    have hi := runSymbol_of_distance hdec (exec_effect he) ht
    have ha := inflating_of_not_endsToken hs hdec (not_endsToken_of_run hi)
    obtain ⟨count, n, hexec⟩ := exec_run hi
    obtain rfl := next_inj ((hexec s).symm.trans he)
    refine (step_of_instr (.inl rfl) ((congrArg decodeElement ?_).trans hd)).trans (hexec _)
    rw [elementCtx_inflating ha, elementCtx_inflating rfl]
    rfl

/-! ### The answer of the first PUSH -/

theorem withSymbol_ne_done {c : ElementCtx} {tab : Table} {k : Nat → Nat → Element}
    (hk : ∀ sym len, k sym len ≠ .done) : withSymbol tab c k ≠ .done := by
  unfold withSymbol
  split
  · nofun
  · split
    · nofun
    · exact hk _ _

/-- The decoder is done in `streamEnd` only (R222, R267). -/
theorem tag_of_done {c : ElementCtx} (h : decodeElement c = .done) : c.tag = .streamEnd := by
  unfold decodeElement at h
  split at h
  · exact absurd h (withSymbol_ne_done fun sym len => by split_ifs <;> nofun)
  · split at h
    · unfold decodeHeader at h
      split_ifs at h
    · unfold decodeBlockHeader decodeStored decodeDynamic at h
      dsimp only at h
      split at h
      · cases h
      · split at h
        · split_ifs at h
        · cases h
        · split_ifs at h
        · cases h
    · exact absurd h (withSymbol_ne_done fun sym len => by split_ifs <;> nofun)
    · unfold decodeStoredByte at h
      split_ifs at h
    · exact absurd h (withSymbol_ne_done fun sym len => by split_ifs <;> nofun)
    · unfold decodeTrailer at h
      split_ifs at h
    · assumption
    · cases h

theorem failsSession_element (hc : commandBytes i = 0) (hf : blockOf i = none) : failsSession i = true := by
  cases i with
  | new | push | pull | retained | unpack | premul | read | reservedOp | stdIos =>
    exact absurd hc (by simp [commandBytes])
  | fmtIndexed1 | fmtIndexed2 | fmtIndexed4 | fmtIndexed8 | fmtV1 | fmtV2 | fmtV4 | fmtV8 | fmtV16 | fmtV1Key
  | fmtV2Key | fmtV4Key | fmtV8Key | fmtV16Key | fmtVa8 | fmtVa16 | fmtRgb8 | fmtRgb16 | fmtRgb8Key | fmtRgb16Key
  | fmtRgba8 | fmtRgba16 | fmtUnsupported => cases hf
  | _ => rfl

/-- The PUSH has answered Done (R223, R267). -/
structure State.DoneAnswer (s : State) : Prop where
  st : s.st = .streamEnd
  activity : s.activity = .idle
  status : s.status = statusDone
  payload : s.payload = []

/-- An element that answers the command fails the session, holds, or ends the stream (R451, R453, R263). -/
theorem effect_answers (hs : s.Pushing) (hd : Decoded s.elementCtx i) (he : Effect s i t) (ht : t.activity = .idle) :
    t.st = .failed ∨ t.status = statusNeedsPull ∨ t.DoneAnswer := by
  have hidle := hs.ne_idle
  cases he with
  | renew | accept | release | unpack => exact absurd hd.element.1 (by simp [commandBytes])
  | answer _ w bytes hi =>
    rcases hi with hi | ⟨rfl, -⟩
    · exact absurd (failsSession_element hd.element.1 hd.element.2) (by simp [hi])
    · exact absurd hd.element.1 (by simp [commandBytes])
  | fail => exact .inl rfl
  | hold => exact .inr (.inl rfl)
  | trailer => exact .inr (.inr ⟨rfl, rfl, rfl, rfl⟩)
  | header | stored | fixed | dynamic | lengths | complete | endBlock => exact absurd ht hidle
  | append => exact absurd (by simpa using ht) hidle
  | run | copy => cases ht

/-- After Done the next PUSH answers Done, with nothing but the input grown (R223, R267). -/
theorem resumed_done (h : t.DoneAnswer) (hu : PushRun (t.resumed b) u) : u = t.moreInput b := by
  obtain ⟨hst, hact, hstatus, hpayload⟩ := h
  have hdone : decodeElement (t.resumed b).elementCtx = .done := by
    simp [decodeElement, State.elementCtx, State.resumed, State.moreInput, hst]
  have hstep := step_of_done hu.pushing hdone
  have hanswer : (t.resumed b).respond statusDone [] = t.moreInput b := by
    rw [← hstatus, ← hpayload]
    unfold State.respond
    rw [← hact]
    rfl
  rw [hanswer] at hstep
  cases hu with
  | answer _ hstep' => exact next_inj (hstep'.symm.trans hstep)
  | advance _ hstep' ht =>
    obtain rfl := next_inj (hstep'.symm.trans hstep)
    exact absurd hact ht.ne_idle

/-! ### Needs more input -/

theorem State.Tables.boundary (hs : s.Tables) (ha : s.activity = .distance) :
    s.atBoundary.Tables :=
  { hs with
    distance := nofun
    running := fun _ h => absurd ((hs.distance ha).symm.trans h) nofun }

/-- A step of a PUSH that does not ask for input acts alike when there is more of it. -/
theorem State.Tables.step_alike (hs : s.Tables) (hp : s.Pushing) (hd : decodeElement s.elementCtx ≠ .needMore) :
    Alike b w bytes (step s) (step (s.reframe b w bytes)) :=
  Machine.step_alike hp ((hs.settled hp b).resolve_left hd)

/-- A PUSH that needed more at a boundary is taken up there. -/
theorem resumed_boundary (ha : s.activity = .inflating)
    (hu : PushRun ((s.respond statusNeedsMore []).resumed b) u) : PushRun (s.reframe b w bytes) u := by
  have heq : (s.respond statusNeedsMore []).resumed b = s.reframe b statusNeedsMore [] := by
    rw [State.resumed, ← ha]
    rfl
  exact (heq ▸ hu).change_response

/-- A PUSH that needed more inside a token is taken up at the boundary before it, and latches the token again. -/
theorem resumed_token (hs : s.Tables) (hl : s.Latched) (ha : s.activity = .distance)
    (hu : PushRun ((s.respond statusNeedsMore []).resumed b) u) : PushRun (s.reframe b w bytes) u := by
  have hidle : s.activity ≠ .idle := by simp [ha]
  have hlatch := hl ha
  have hp : s.atBoundary.Pushing := .inl rfl
  have hd : decodeElement s.atBoundary.elementCtx ≠ .needMore := by
    intro h
    have hanswer := next_inj (hlatch.symm.trans (step_of_needMore hp h))
    exact hidle (congrArg State.activity hanswer)
  have halike := (hs.boundary ha).step_alike (b := b) (w := statusNeedsMore) (bytes := []) hp hd
  rw [hlatch] at halike
  have hresumed : (s.respond statusNeedsMore []).resumed b = s.atBoundary.reframe b statusNeedsMore [] := rfl
  rw [hresumed] at hu
  exact (hu.of_step (halike.of_running hidle) (.inr ha)).change_response

/-! ### The two runs and the joined one -/

/-- The run of the joined PUSH: through the states of the first run with the longer input, then as the second. -/
theorem PushRun.join (h : PushRun s t) (hs : s.Tables) (hl : s.Latched) (hpull : t.status ≠ statusNeedsPull)
    (hst : t.st ≠ .failed) (hu : PushRun (t.resumed b) u) : PushRun (s.reframe b w bytes) u := by
  induction h with
  | @answer s t hp hstep ht =>
    by_cases hd : decodeElement s.elementCtx = .needMore
    · obtain rfl := next_inj ((step_of_needMore hp hd).symm.trans hstep)
      rcases hp with ha | ha
      · exact resumed_boundary ha hu
      · exact resumed_token hs hl ha hu
    · have hdone : t.DoneAnswer := by
        cases hp.step_cases hstep with
        | needMore h => exact absurd h hd
        | done h => exact ⟨tag_of_done h, rfl, rfl, rfl⟩
        | element i h he =>
          exact ((effect_answers hp (decodeElement_instr h) (exec_effect he) ht).resolve_left hst).resolve_left hpull
      have halike := hs.step_alike (b := b) (w := w) (bytes := bytes) hp hd
      obtain rfl := resumed_done hdone hu
      exact .answer hp ((hstep ▸ halike).of_answered ht) ht
  | @advance s t _ hp hstep ht _ ih =>
    have hd : decodeElement s.elementCtx ≠ .needMore := by
      intro h
      obtain rfl := next_inj ((step_of_needMore hp h).symm.trans hstep)
      exact ht.ne_idle rfl
    have halike := hs.step_alike (b := b) (w := w) (bytes := bytes) hp hd
    exact .advance (t := t.reframe b w bytes) hp ((hstep ▸ halike).of_running ht.ne_idle) ht
      (ih (tablesInvariantKept s t hs hstep) (hp.latched hstep) hpull hst hu)

/-! ### The physical fields -/

theorem viewResult_next {f : State → State} {r : Result} (h : viewResult f (.next t) = viewResult f r) :
    ∃ t', r = .next t' ∧ f t = f t' := by
  cases r with
  | next t' => exact ⟨t', rfl, Host.Outcome.next.inj h⟩
  | fault => cases h
  | refused => cases h

theorem eq_of_logical (h : s.logical = t.logical) : s.activity = t.activity ∧ s.status = t.status ∧
    s.input = t.input ∧ s.out = t.out ∧ s.pos = t.pos ∧ s.st = t.st ∧ s.err = t.err := by
  simp only [State.logical, State.mk.injEq] at h
  simp only [h, and_self]

theorem State.Pushing.of_logical (hs : s.Pushing) (h : s.logical = t.logical) : t.Pushing := by
  rwa [State.Pushing, ← (eq_of_logical h).1]

/-- Runs from states of one logical view end in states of one logical view (R58). -/
theorem PushRun.of_logical (h : PushRun s u) (hx : s.logical = x.logical) :
    ∃ v, PushRun x v ∧ u.logical = v.logical := by
  induction h generalizing x with
  | @answer s t hs hstep ht =>
    obtain ⟨v, hstep', hv⟩ := viewResult_next (hstep ▸ physicalFieldsAreNotObservable s x hx)
    exact ⟨v, .answer (hs.of_logical hx) hstep' ((eq_of_logical hv).1.symm.trans ht), hv⟩
  | @advance s t u hs hstep ht _ ih =>
    obtain ⟨y, hstep', hy⟩ := viewResult_next (hstep ▸ physicalFieldsAreNotObservable s x hx)
    obtain ⟨v, hrun, hv⟩ := ih hy
    exact ⟨v, .advance (hs.of_logical hx) hstep' (ht.of_logical hy) hrun, hv⟩

/-- The joined PUSH begins as the first one, with the longer input. -/
theorem pushed_append_logical (s : State) (a b : List Byte) :
    ((s.pushed a).reframe b s.status s.payload).logical = (s.pushed (a ++ b)).logical := by
  simp [State.logical, State.reframe, State.moreInput, State.pushed, State.rebase]

/-- Settles O9: the second run, seen through the logical view, takes up the first one, and joins it to one run. -/
theorem splittingAPushChangesNothing : Obligations.SplittingAPushChangesNothing := by
  intro s s1 t t1 u a b m n _ hs hcap hpush hloop ht hpull hpush' hloop' hu
  obtain ⟨hst, -, rfl⟩ := execPush_next hpush
  obtain ⟨hst', hpos', rfl⟩ := execPush_next hpush'
  have hrun : PushRun (s.pushed a) t := pushRun_of_advanceLoop (.inl rfl) hloop ht
  have hrun' : PushRun (t.pushed b) u := pushRun_of_advanceLoop (.inl rfl) hloop' hu
  have hs1 : (s.pushed a).Tables := hs.command (.accept a hst)
  obtain ⟨u', hresumed, hu'⟩ := hrun'.of_logical (x := t.resumed b) rfl
  have hjoined := hrun.join (w := s.status) (bytes := s.payload) hs1 nofun hpull hst' hresumed
  obtain ⟨v, hrunv, hv⟩ := hjoined.of_logical (pushed_append_logical s a b)
  obtain ⟨k, hloopv, hidle⟩ := hrunv.advanceLoop
  have haccept : exec (.push (a ++ b)) s = .next (s.pushed (a ++ b)) := by
    obtain ⟨hinput, hparams⟩ := hrun.keeps
    refine execPush_accepted hst (inputOver_eq_false_iff.2 (by simp [hcap])) ?_
    rw [positionOver_eq_false_iff, hinput, hparams] at hpos'
    rw [positionOver_eq_false_iff]
    simpa [State.pushed, Nat.add_assoc] using hpos'
  obtain ⟨-, hobserved⟩ := eq_of_logical (hu'.trans hv).symm
  exact ⟨k, _, v, haccept, hloopv, hidle, hobserved⟩

end Sys2Proof.Machine
end

section
/-! O58, O60: the transitions of `ST` (R220), and NEW as the one way out of `failed` (R228, R458). -/

namespace Sys2Proof.Machine

open Sys2Proof.Laws

variable {s t : State} {i : Instr}

/-! ### The step, with NEW apart -/

/-- What a step does to the session: NEW from the port, another command, an answer or a wait, or an element. -/
inductive SessionStep (s : State) : State → Prop where
  | renew (rest) : s.activity = .idle → decodeCommand s.port = some (.new, rest) →
      SessionStep s { State.reset with params := s.params, port := rest }
  | command {i : Instr} {rest : List Byte} {t : State} : i ≠ .new →
      CommandEffect { s with port := rest } i t → SessionStep s t
  | answer (port a w bytes) :
      SessionStep s { s with port := port, activity := a, status := w, payload := bytes }
  | element {i : Instr} {t : State} : Decoded s.elementCtx i → Effect s i t → SessionStep s t

theorem session_step (h : step s = .next t) : SessionStep s t := by
  cases step_case h with
  | wait => exact .answer s.port s.activity s.status s.payload
  | needMore | done => exact .answer s.port _ _ _
  | command i rest _ ha hdec he =>
    by_cases hi : i = .new
    · subst hi
      exact next_inj he ▸ .renew rest ha hdec
    · exact .command hi ((exec_effect he).command (decodeCommand_command hdec))
  | format i rest _ _ hdec he =>
    obtain ⟨w, bytes, rfl⟩ := (exec_effect he).format (decodeFormat_format hdec)
    exact .answer rest _ w bytes
  | element i _ _ hd he => exact .element (decodeElement_instr hd) (exec_effect he)

/-! ### The transitions of R220 -/

/-- The rows of the table of R220 between different states. -/
def transitions : List (StTag × StTag) :=
  [(StTag.streamStart, StTag.blockStart), (.blockStart, .blockUncompressed),
    (.blockStart, .blockCompressed), (.blockStart, .blockTables), (.blockTables, .blockCompressed),
    (.blockCompressed, .blockStart), (.blockCompressed, .streamChecksum),
    (.blockUncompressed, .blockStart), (.blockUncompressed, .streamChecksum),
    (.streamChecksum, .streamEnd)]

/-- `ST` stays, goes to `failed` from a state other than `streamEnd`, or follows a row of R220. -/
def Moves (a b : StTag) : Prop := b = a ∨ (b = .failed ∧ a ≠ .streamEnd) ∨ (a, b) ∈ transitions

theorem moves_of_row {a b : StTag} (h : (a, b) ∈ transitions) : Moves a b := .inr (.inr h)

/-- A block ends to the trailer or to the next block (R352, R359). -/
theorem moves_afterBlock {a : StTag} (ha : a = .blockCompressed ∨ a = .blockUncompressed) (final : Bool) :
    Moves a (afterBlock final) := by
  rcases ha with rfl | rfl <;> cases final <;> exact moves_of_row (by decide)

/-- No element is decoded in `streamEnd` (R222, R267). -/
theorem decoded_tag_ne_streamEnd {c : ElementCtx} (h : Decoded c i)
    (hc : c.distance = true → c.tag = .blockCompressed) : c.tag ≠ .streamEnd := by
  cases h with
  | header _ _ _ ht | fixed _ _ ht | reserved _ _ ht | stored _ _ _ _ ht | badCount _ _ _ _ _ ht
  | dynamic _ _ _ _ _ _ ht | codeLength _ _ _ ht | symbol _ _ _ ht | byte _ _ ht | storedEnd _ ht
  | trailer _ _ ht => simp [ht]
  | distance _ _ hd => simp [hc hd]

/-- A stream element moves `ST` along R220. -/
theorem State.Logical.element_moves (hs : s.Logical) (hd : Decoded s.elementCtx i) (he : Effect s i t) :
    Moves s.st t.st := by
  have htag : elementTag i = s.st := elementTag_eq_st hs.distance hd
  cases he with
  | renew | accept | release | unpack => exact absurd hd.element.1 (by simp [commandBytes])
  | answer | hold | lengths | run => exact .inl rfl
  | append | copy => exact .inl (by simp)
  | fail => exact .inr (.inl ⟨rfl, decoded_tag_ne_streamEnd hd fun h => hs.distance (elementCtx_distance.1 h)⟩)
  | header | stored | fixed | dynamic | trailer =>
    rw [← htag]
    exact moves_of_row (by simp [elementTag, transitions])
  | complete _ n add rl d hi =>
    rw [← htag, elementTag_cl hi]
    exact moves_of_row (by simp [transitions])
  | endBlock _ n hi =>
    refine moves_afterBlock ?_ _
    rcases hi with ⟨_, rfl⟩ | rfl
    · exact .inl htag.symm
    · exact .inr htag.symm

/-- A command but NEW leaves `ST`, or is a FINISH that fails (R226, R228). -/
theorem command_moves (he : CommandEffect s i t) (hi : i ≠ .new) : Moves s.st t.st := by
  cases he with
  | renew => exact absurd rfl hi
  | accept | release | answer | unpack => exact .inl rfl
  | fail k a _ hend => exact .inr (.inl ⟨rfl, hend⟩)

/-- Settles O58: an element moves along R220, a command leaves `ST` or fails, NEW resets. -/
theorem transitionsFollowTheTable : Obligations.TransitionsFollowTheTable := by
  intro s t hs h
  suffices Moves s.st t.st ∨
      (t.st = .streamStart ∧ s.activity = .idle ∧ ∃ rest, decodeCommand s.port = some (.new, rest)) by
    rcases this with (h | h | h) | h
    · exact .inl h
    · exact .inr (.inl h)
    · exact .inr (.inr (.inl h))
    · exact .inr (.inr (.inr h))
  cases session_step h with
  | renew rest ha hdec => exact .inr ⟨rfl, ha, rest, hdec⟩
  | @command _ rest _ hi he => exact .inl (command_moves (s := { s with port := rest }) he hi)
  | answer => exact .inl (.inl rfl)
  | element hd he => exact .inl (hs.element_moves hd he)

/-! ### Out of `failed` -/

/-- In `failed` a command but NEW answers and no more (R228). -/
theorem command_failed (hf : s.st = .failed) (he : CommandEffect s i t) (hi : i ≠ .new) :
    t.st = .failed ∧ t.err = s.err ∧ t.input = s.input ∧ t.pos = s.pos ∧ t.out = s.out ∧
      t.currentIndex = s.currentIndex := by
  cases he with
  | renew => exact absurd rfl hi
  | answer | unpack => exact ⟨hf, rfl, rfl, rfl, rfl, rfl⟩
  | accept _ h0 | release _ h0 | fail _ _ h0 => exact absurd hf h0

/-- Settles O60: in `failed` no element is decoded, and the commands but NEW answer. -/
theorem onlyNewLeavesFailed : Obligations.OnlyNewLeavesFailed := by
  intro s t hs hf h
  cases session_step h with
  | renew rest ha hdec => exact .inr ⟨rest, ha, hdec, rfl⟩
  | @command _ rest _ hi he => exact .inl (command_failed (s := { s with port := rest }) hf he hi)
  | answer => exact .inl ⟨hf, rfl, rfl, rfl, rfl, rfl⟩
  | @element i _ hd he => exact absurd ((elementTag_eq_st hs.distance hd).trans hf) (elementTag_ne_failed i)

end Sys2Proof.Machine
end

section
/-! O2, O29, O30, O31: reset and NEW (R221, R490), RETAINED and FINISH (R225, R226), the session in `failed` (R228),
and READ with the registers (R54, R232). -/

namespace Sys2Proof.Machine

variable {s : State}

/-- Settles O2: the fields and the registers of the reset state compute. -/
theorem resetAndNewGiveTheLaunchState : Obligations.ResetAndNewGiveTheLaunchState := by
  refine ⟨by decide, by decide, by decide, fun s => ⟨rfl, ?_⟩⟩
  exact ⟨rfl, rfl, rfl, rfl, rfl, rfl, rfl, rfl, rfl⟩

/-! ### RETAINED and FINISH, by the state -/

theorem execRetained_failed (h : s.st = .failed) : execRetained s = .refused .sessionFailed := if_pos h

theorem execRetained_of_ne (h : s.st ≠ .failed) :
    execRetained s = .next (s.respond statusDone (leBytes 8 (s.out.length - s.currentIndex))) := if_neg h

theorem execFinish_failed (h : s.st = .failed) : execFinish s = .refused .sessionFailed := if_pos h

theorem execFinish_streamEnd (h : s.st = .streamEnd) : execFinish s = .next (s.respond statusDone []) := by
  rw [execFinish, if_neg (by simp [h]), if_pos h]

theorem execFinish_truncated (hf : s.st ≠ .failed) (he : s.st ≠ .streamEnd) :
    execFinish s = .next (s.raise .truncatedBitstream 0) := by
  rw [execFinish, if_neg hf, if_neg he]

/-- Settles O29: the branches of the two meanings. -/
theorem retainedCountsAndFinishEnds : Obligations.RetainedCountsAndFinishEnds := fun _ =>
  ⟨fun h => ⟨execRetained_failed h, execFinish_failed h⟩, execRetained_of_ne, execFinish_streamEnd,
    execFinish_truncated⟩

/-- Settles O30: the `failed` branch of the four commands; NEW always resets, an aligned READ always answers. -/
theorem failedRefusesTheSession : Obligations.FailedRefusesTheSession := fun s h =>
  ⟨fun _ => execPush_failed h, fun _ => execPull_failed h, execRetained_failed h, execFinish_failed h,
    ⟨s.renew, rfl, rfl, rfl⟩, fun _ ha => ⟨_, execRead_aligned ha s, h⟩⟩

/-! ### The registers that depend on the state tag (R54) -/

theorem ownsFinal_iff (tag : StTag) :
    ownsFinal tag = true ↔ tag = .blockTables ∨ tag = .blockUncompressed ∨ tag = .blockCompressed := by
  cases tag <;> decide

theorem regState_eq (s : State) : s.regState = tagCode s.st +
    (if s.st = .blockTables ∨ s.st = .blockUncompressed ∨ s.st = .blockCompressed then
      (if s.final then 8 else 0) else 0) := by
  simp only [State.regState, Bool.and_eq_true, ownsFinal_iff, ite_and]

theorem regError_of_ne (h : s.st ≠ .failed) : s.regError = 0 := if_neg h

theorem regError_failed {k : ErrorKind} {a : Nat} (h : s.st = .failed) (he : s.err = some ⟨k, a⟩) :
    s.regError = errorCode k + a * 2 ^ 16 := by
  rw [State.regError, if_pos h, he]

theorem regAux_stored (h : s.st = .blockUncompressed) : s.regAux = s.blockEnd - s.out.length := if_pos h

theorem regAux_tables (h : s.st = .blockTables) : s.regAux = s.lengths.length := by
  rw [State.regAux, if_neg (by simp [h]), if_pos h]

theorem regAux_other (h : s.st ≠ .blockUncompressed) (h' : s.st ≠ .blockTables) : s.regAux = 0 := by
  rw [State.regAux, if_neg h, if_neg h']

/-- Settles O31: READ by the alignment of its address, each register by its row of R54. -/
theorem readAnswersTheRegisters : Obligations.ReadAnswersTheRegisters := fun s =>
  ⟨fun _ h => execRead_aligned h s, fun _ h => execRead_unaligned h s, regState_eq s, regError_of_ne,
    fun _ _ => regError_failed, rfl, rfl, rfl, rfl, rfl, rfl, rfl, rfl, regAux_stored, regAux_tables, regAux_other,
    fun _ => register_past_end s⟩

end Sys2Proof.Machine
end

section
/-! O25, O37, O38: the deferred reduction of Adler-32, the checks of the zlib header and the trailer
(R149, R262, R263, R264, R265). -/

namespace Sys2Proof.Machine

open Sys2Proof.Laws

/-! ### Adler-32 with deferred reduction (R265) -/

/-- Both sums reduced, as at the end of a block (R265). -/
def adlerReduce (a : Nat × Nat) : Nat × Nat := (a.1 % 65521, a.2 % 65521)

theorem adlerReduce_idem (a : Nat × Nat) : adlerReduce (adlerReduce a) = adlerReduce a := by
  simp [adlerReduce]

theorem adlerReduce_lt (a : Nat × Nat) : (adlerReduce a).1 < 65521 ∧ (adlerReduce a).2 < 65521 :=
  ⟨Nat.mod_lt _ (by decide), Nat.mod_lt _ (by decide)⟩

/-- One byte: adding to unreduced sums and reducing after is `AdlerStep` on the reduced sums. -/
theorem adlerStep_adlerReduce (a : Nat × Nat) (x : Byte) :
    adlerStep (adlerReduce a) x = adlerReduce (a.1 + x.toNat, a.2 + (a.1 + x.toNat)) := by
  simp [adlerStep, adlerReduce]

/-- A block summed unreduced and reduced at its end is the block folded by `AdlerStep`. -/
theorem adlerReduce_adlerSums (a : Nat × Nat) (bytes : List Byte) :
    adlerReduce (adlerSums a bytes) = adlerFold (adlerReduce a) bytes := by
  induction bytes generalizing a with
  | nil => rfl
  | cons x xs ih =>
    calc adlerReduce (adlerSums a (x :: xs))
      _ = adlerFold (adlerReduce (a.1 + x.toNat, a.2 + (a.1 + x.toNat))) xs := ih _
      _ = adlerFold (adlerStep (adlerReduce a) x) xs := by rw [adlerStep_adlerReduce]

theorem adlerFold_adlerReduce_lt (a : Nat × Nat) (bytes : List Byte) :
    (adlerFold (adlerReduce a) bytes).1 < 65521 ∧ (adlerFold (adlerReduce a) bytes).2 < 65521 :=
  adlerReduce_adlerSums a bytes ▸ adlerReduce_lt _

theorem adlerBlocks_eq_adlerFold (a : Nat × Nat) (blocks : List (List Byte)) :
    adlerBlocks (adlerReduce a) blocks = adlerFold (adlerReduce a) blocks.flatten := by
  induction blocks generalizing a with
  | nil => rfl
  | cons b bs ih =>
    calc adlerBlocks (adlerReduce a) (b :: bs)
      _ = adlerFold (adlerReduce (adlerSums (adlerReduce a) b)) bs.flatten := ih _
      _ = adlerFold (adlerFold (adlerReduce a) b) bs.flatten := by
        rw [adlerReduce_adlerSums, adlerReduce_idem]
      _ = adlerFold (adlerReduce a) (b :: bs).flatten := by rw [List.flatten_cons, adlerFold_append]

/-- Settles O25: the start `(1, 0)` is reduced, so reduction commutes with summing each block. -/
theorem adlerReducesAtAnyBoundary : Obligations.AdlerReducesAtAnyBoundary :=
  ⟨adlerFold_adlerReduce_lt (1, 0), adlerBlocks_eq_adlerFold (1, 0), by decide, by decide⟩

/-! ### The checks of the zlib header (R262) -/

section HeaderChecks

variable {cmf flg : Byte}

theorem execZhdr_badMethod (hcm : headerCm cmf ≠ 8) (s : State) :
    exec (.zhdr cmf flg) s = .next (s.raise .invalidStreamMethod 0) := if_pos hcm

variable (hcm : headerCm cmf = 8)
include hcm

theorem execZhdr_badWindow (hcinfo : 8 ≤ headerCinfo cmf) (s : State) :
    exec (.zhdr cmf flg) s = .next (s.raise .invalidStreamWindowSize (headerCinfo cmf)) := by
  show execZhdr cmf flg s = _
  rw [execZhdr, if_neg (not_not.2 hcm), if_pos hcinfo]

variable (hcinfo : headerCinfo cmf < 8)
include hcinfo

theorem execZhdr_badCheck (hcheck : headerCheck cmf flg % 31 ≠ 0) (s : State) :
    exec (.zhdr cmf flg) s = .next (s.raise .invalidStreamHeaderCheckBits 0) := by
  show execZhdr cmf flg s = _
  rw [execZhdr, if_neg (not_not.2 hcm), if_neg (Nat.not_le.2 hcinfo), if_pos hcheck]

theorem execZhdr_dictionary (hcheck : headerCheck cmf flg % 31 = 0) (hfdict : headerFdict flg = true) (s : State) :
    exec (.zhdr cmf flg) s = .next (s.raise .unexpectedStreamDictionary 0) := by
  show execZhdr cmf flg s = _
  rw [execZhdr, if_neg (not_not.2 hcm), if_neg (Nat.not_le.2 hcinfo), if_neg (not_not.2 hcheck), if_pos hfdict]

end HeaderChecks

/-- Settles O37: one branch of the meaning per check, the last by the legal header of O36. -/
theorem headerChecksRaiseInOrder : Obligations.HeaderChecksRaiseInOrder := fun _ _ s =>
  ⟨fun hcm => execZhdr_badMethod hcm s,
    fun hcm hcinfo => execZhdr_badWindow hcm hcinfo s,
    fun hcm hcinfo hcheck => execZhdr_badCheck hcm hcinfo hcheck s,
    fun hcm hcinfo hcheck hfdict => execZhdr_dictionary hcm hcinfo hcheck (decide_eq_true hfdict) s,
    fun hcm hcinfo hcheck hfdict =>
      ⟨_, execZhdr_legal hcm hcinfo hcheck (decide_eq_false (by omega)) s, rfl, rfl⟩⟩

/-! ### The trailer (R149, R263) -/

theorem trailerValue_lt (input : List Byte) (q : Nat) : trailerValue input q < 2 ^ 32 := by
  have h0 := inBits_lt input q 8
  have h1 := inBits_lt input (q + 8) 8
  have h2 := inBits_lt input (q + 16) 8
  have h3 := inBits_lt input (q + 24) 8
  unfold trailerValue
  omega

/-- The trailer's word has the value of its four bytes: nothing is cut off. -/
theorem toNat_ofNat_trailerValue (input : List Byte) (q : Nat) :
    (BitVec.ofNat 32 (trailerValue input q)).toNat = trailerValue input q := by
  rw [BitVec.toNat_ofNat, Nat.mod_eq_of_lt (trailerValue_lt input q)]

theorem execAdler_match {v : Word} {s : State} (h : v.toNat = adler s.out) :
    exec (.adler v) s =
      .next { (s.commit (padBits s.pos + 32)).respond statusDone [] with st := .streamEnd } :=
  if_neg (not_not.2 h)

theorem execAdler_mismatch {v : Word} {s : State} (h : v.toNat ≠ adler s.out) :
    exec (.adler v) s = .next (s.raise .invalidStreamChecksum 0) := if_pos h

/-- Settles O38: the two branches of the trailer's decoder, and the two of its meaning. -/
theorem trailerMustBeTheChecksum : Obligations.TrailerMustBeTheChecksum := by
  refine ⟨fun c hd ht => ?_, fun v s => ⟨execAdler_match, execAdler_mismatch⟩⟩
  rw [decodeElement_streamChecksum hd ht]
  exact ⟨fun ha => if_pos ha, fun ha => ⟨_, if_neg (Nat.not_lt.2 ha), toNat_ofNat_trailerValue _ _⟩⟩

end Sys2Proof.Machine
end

section
/-! O39, O40: the stored, the fixed and the reserved block header, decoded and run (R290, R291, R292, R295). -/

namespace Sys2Proof.Machine

open Sys2Proof.Laws

/-! ### The stored header (R137, R291) -/

/-- LEN is the one's complement of NLEN when the two add up to `0xFFFF`. -/
theorem half_eq_not_iff (len nlen : Half) : len = ~~~nlen ↔ len.toNat = 0xFFFF - nlen.toNat := by
  rw [← BitVec.toNat_inj, BitVec.toNat_not]

theorem execBhdrStored_complement {len nlen : Half} (h : len.toNat = 0xFFFF - nlen.toNat) (bf : Bool) (s : State) :
    exec (.bhdrStored bf len nlen) s = .next { s.commit (3 + padBits (s.pos + 3) + 32) with
      final := bf, blockEnd := s.out.length + len.toNat, st := .blockUncompressed } :=
  if_neg (not_not.2 ((half_eq_not_iff len nlen).2 h))

theorem execBhdrStored_mismatch {len nlen : Half} (h : len.toNat ≠ 0xFFFF - nlen.toNat) (bf : Bool) (s : State) :
    exec (.bhdrStored bf len nlen) s = .next (s.raise .invalidBlockElementCountParity 0) :=
  if_pos (mt (half_eq_not_iff len nlen).1 h)

/-- Settles O39: the two branches of the stored header's decoder, and the two of its meaning. -/
theorem storedHeaderNeedsTheComplement : Obligations.StoredHeaderNeedsTheComplement := by
  refine ⟨fun c hd ht h3 hb => ?_, fun bf len nlen s =>
    ⟨fun h => execBhdrStored_complement h bf s, fun h => execBhdrStored_mismatch h bf s,
      storedHeader_aligned s.pos⟩⟩
  rw [decodeElement_stored hd ht h3 hb]
  exact ⟨fun ha => if_pos ha, fun ha => if_neg (Nat.not_lt.2 ha)⟩

/-! ### Fewer than three bits, and the fixed and the reserved type (R290, R292, R295) -/

/-- No block header is examined below 3 bits (R290). -/
theorem decodeElement_blockStart_short {c : ElementCtx} (hd : c.distance = false) (ht : c.tag = .blockStart)
    (ha : avail c.input c.pos < 3) : decodeElement c = .needMore := by
  rw [decodeElement_blockStart hd ht, decodeBlockHeader, if_pos ha]

/-- Settles O40: the decoder's answer below 3 bits and at the two types; the two meanings have one branch each. -/
theorem fixedAndReservedHeadersNeedThreeBits : Obligations.FixedAndReservedHeadersNeedThreeBits := by
  refine ⟨fun c hd ht => ⟨decodeElement_blockStart_short hd ht, fun h3 hb => ?_, fun h3 hb => ?_⟩,
    fun _ _ => ⟨rfl, rfl⟩⟩
  · rw [decodeElement_fixed hd ht h3 hb, inBits_one]
  · rw [decodeElement_reserved hd ht h3 hb, inBits_one]

end Sys2Proof.Machine
end

section
/-! O43: what a code-length element appends, and how the sequence overflows and completes (R320 to R326). -/

namespace Sys2Proof.Machine

/-! ### COMPLETE (R326) -/

/-- In a sequence of `HLIT + HDIST` lengths, those after the first `HLIT` are the distance lengths. -/
theorem dLengths_of_length {s : State} {lens : List (BitVec 4)} (h : lens.length = s.lengthTotal) :
    s.dLengths lens = (lens.drop s.hlit.toNat).map BitVec.toNat := by
  have hle : (lens.drop s.hlit.toNat).length ≤ s.hdist.toNat := by
    rw [List.length_drop, h, State.lengthTotal, Nat.add_sub_cancel_left]
  rw [State.dLengths, List.take_of_length_le hle]

theorem completeLengths_of_some {t : Nat} {lens : List (BitVec 4)} {s : State} {rl d : Table}
    (hrl : build (s.rlLengths lens) .strict = some rl)
    (hd : build (s.dLengths lens) (.normalizing s.params.dDefaultSym) = some d) :
    completeLengths t lens s =
      .next { s.commit t with lengths := lens, rld := rl, dd := d, st := .blockCompressed } := by
  unfold completeLengths
  rw [hrl, hd]

theorem completeLengths_of_none {t : Nat} {lens : List (BitVec 4)} {s : State}
    (h : build (s.rlLengths lens) .strict = none ∨
      build (s.dLengths lens) (.normalizing s.params.dDefaultSym) = none) :
    completeLengths t lens s = .next (s.raise .invalidHuffmanTable 0) := by
  unfold completeLengths
  obtain hrl | hd := h
  · rw [hrl]
  · rw [hd]
    cases build (s.rlLengths lens) .strict <;> rfl

/-! ### The shared end of the elements (R320, R325), by the count of lengths -/

section

variable {t : Nat} {add : List (BitVec 4)} {s : State}

theorem appendLengths_of_lt (h : s.lengthTotal < s.lengths.length + add.length) :
    appendLengths t add s = .next (s.raise .invalidHuffmanCodelengthSequence 0) := if_pos h

theorem appendLengths_of_gt (h : s.lengths.length + add.length < s.lengthTotal) :
    appendLengths t add s = .next { s.commit t with lengths := s.lengths ++ add } := by
  rw [appendLengths, if_neg (Nat.not_lt.2 h.le), if_neg h.ne]

theorem appendLengths_of_eq (h : s.lengths.length + add.length = s.lengthTotal) :
    appendLengths t add s = completeLengths t (s.lengths ++ add) s := by
  rw [appendLengths, if_neg (Nat.not_lt.2 h.le), if_pos h]

end

/-! ### EXTEND (R322), by whether there is a last length -/

theorem execClExtend_of_some {s : State} {k : BitVec 4} (h : s.lengths.getLast? = some k) (len : Nat)
    (x : BitVec 2) : exec (.clExtend len x) s =
      appendLengths (len + 2) (List.replicate (3 + x.toNat) k) s := by
  show execClExtend len x s = _
  rw [execClExtend, h]

theorem execClExtend_of_nil {s : State} (h : s.lengths = []) (len : Nat) (x : BitVec 2) :
    exec (.clExtend len x) s = .next (s.raise .invalidHuffmanCodelengthSequence 0) := by
  show execClExtend len x s = _
  rw [execClExtend, h, List.getLast?_nil]

/-- Settles O43: each element is the shared end on what it adds, and the shared end has one branch per clause. -/
theorem codeLengthElementsAppend : Obligations.CodeLengthElementsAppend := by
  refine ⟨fun i add n s hi => ?_, fun len x s h => execClExtend_of_nil h len x⟩
  have hexec : exec i s = appendLengths n add s := by
    obtain ⟨len, k, rfl, rfl, rfl⟩ | ⟨len, x, k, rfl, hk, rfl, rfl⟩ | ⟨len, x, rfl, rfl, rfl⟩ |
      ⟨len, x, rfl, rfl, rfl⟩ := hi
    · rfl
    · exact execClExtend_of_some hk len x
    · rfl
    · rfl
  rw [hexec]
  refine ⟨appendLengths_of_lt, appendLengths_of_gt, fun heq => ?_⟩
  rw [appendLengths_of_eq heq, ← dLengths_of_length (List.length_append.trans heq)]
  exact ⟨fun _ _ hrl hd => completeLengths_of_some hrl hd, completeLengths_of_none⟩

end Sys2Proof.Machine
end

section
/-! O45, O46, O49: literals and stored bytes, the end of a block, and the symbols that stand for nothing (R351, R352,
R355, R356, R358, R359). -/

namespace Sys2Proof.Machine

open Sys2Proof.Laws

variable {s : State} {i : Instr} {e : Entry} {sym : Nat}

/-! ### Unassigned symbols (R350, R353, R355, R356) -/

theorem exec_symbolInstr_unassigned (h : 286 ≤ sym) (len x : Nat) (s : State) :
    exec (symbolInstr sym len x) s = .next (s.raise .invalidStringReference 0) := by
  obtain rfl | h := h.eq_or_lt
  · rfl
  · rw [symbolInstr_past_286 len x h]
    rfl

theorem exec_distanceInstr_unassigned (h : 30 ≤ sym) (len x : Nat) (s : State) :
    exec (distanceInstr sym len x) s = .next (s.raise .invalidStringReference 0) := by
  obtain rfl | h := h.eq_or_lt
  · rfl
  · rw [distanceInstr_past_30 len x h]
    rfl

/-- A symbol without extra bits is run as soon as its own bits are pushed (R191). -/
theorem step_of_reads_plain (hs : s.Pushing) {t : Table} {instr : Nat → Nat → Instr}
    (hread : s.elementCtx.Reads t e.sym 0 instr) (he : t.decode s.input s.elementCtx.pos = some e)
    (ha : e.len ≤ avail s.input s.elementCtx.pos) : ∃ x, step s = exec (instr e.len x) s :=
  ⟨_, step_of_instr hs (hread.element he ha)⟩

theorem step_unassigned_symbol (hact : s.activity = .inflating) (hst : s.st = .blockCompressed)
    (he : s.rld.decode s.input s.pos = some e) (hsym : 286 ≤ e.sym) (ha : e.len ≤ avail s.input s.pos) :
    step s = .next (s.raise .invalidStringReference 0) := by
  have hdist : s.activity ≠ .distance := by simp [hact]
  have hread := reads_symbol (c := s.elementCtx) (decide_eq_false hdist) hst e.sym
  rw [symbolExtra_plain (.inr hsym)] at hread
  rw [← elementCtx_pos_plain hdist] at he ha
  obtain ⟨x, hstep⟩ := step_of_reads_plain (.inl hact) hread he ha
  rw [hstep, exec_symbolInstr_unassigned hsym]

theorem step_unassigned_distance (hact : s.activity = .distance)
    (he : s.dd.decode s.input (s.pos + s.runBits) = some e) (hsym : 30 ≤ e.sym)
    (ha : e.len ≤ avail s.input (s.pos + s.runBits)) : step s = .next (s.raise .invalidStringReference 0) := by
  have hread := reads_distance (elementCtx_distance.2 hact) e.sym
  rw [distanceExtra_plain hsym] at hread
  rw [← elementCtx_pos_distance hact] at he ha
  obtain ⟨x, hstep⟩ := step_of_reads_plain (.inr hact) hread he ha
  rw [hstep, exec_distanceInstr_unassigned hsym]

/-- Settles O49: neither kind of symbol has extra bits, so the step runs its instruction, which raises. -/
theorem unassignedSymbolsRaise : Obligations.UnassignedSymbolsRaise :=
  ⟨fun _ _ => ⟨rfl, rfl, rfl, rfl⟩, fun _ _ => ⟨step_unassigned_symbol, step_unassigned_distance⟩⟩

/-! ### Bytes appended (R351, R358) -/

/-- An instruction that means `OutAppend(v)` and `n` bits consumed, with room. -/
theorem exec_append_of_room {v : Byte} {n : Nat} (h : exec i s = s.withRoom 1 ((s.outAppend v).commit n))
    (hroom : s.roomFor 1) : ∃ t, exec i s = .next t ∧
      t.logical = ({ s with out := s.out ++ [v], pos := s.pos + n } : State).logical ∧ s.Grows [v] n t :=
  ⟨_, h.trans (withRoom_of_room hroom _), emit_logical s [v] n, emit_grows s [v] n⟩

/-- The same instruction past a finite `OUT_CAP` answers NeedsPull (R96). -/
theorem exec_append_over {done : State} (h : exec i s = s.withRoom 1 done) {cap : Nat}
    (hcap : s.params.outCap = some cap) (hover : cap < s.out.length - s.startIndex + 1) :
    exec i s = .next { s with status := statusNeedsPull, payload := [], activity := .idle } :=
  h.trans (withRoom_over (outputOver_of hcap hover) done)

/-- Inside a stored block a byte waits for its 8 bits (R358). -/
theorem decodeElement_byte {c : ElementCtx} (hd : c.distance = false) (ht : c.tag = .blockUncompressed)
    (hdone : c.blockDone = false) : decodeElement c = if avail c.input c.pos < 8 then .needMore
      else .instr (.byte (BitVec.ofNat 8 (inBits c.input c.pos 8))) := by
  rw [decodeElement_blockUncompressed hd ht, decodeStoredByte, hdone, if_neg Bool.false_ne_true]

/-- Settles O45: both instructions are one append, with room or past the capacity; the stored byte's decoder has
two branches. -/
theorem bytesAreAppended : Obligations.BytesAreAppended := by
  refine ⟨fun v len s => ⟨exec_append_of_room rfl, fun _ => exec_append_over rfl⟩,
    fun v s => ⟨exec_append_of_room rfl, fun _ => exec_append_over rfl⟩, fun c hd ht hdone => ?_⟩
  rw [decodeElement_byte hd ht hdone]
  exact ⟨fun ha => if_pos ha, fun ha => if_neg (Nat.not_lt.2 ha)⟩

/-! ### The end of a block (R352, R359) -/

/-- Settles O46: both instructions write `afterBlock`; at `BLOCK_END` the decoder has no other element. -/
theorem blocksEndByTheFinalBit : Obligations.BlocksEndByTheFinalBit := by
  refine ⟨fun len s => rfl, fun s => rfl, fun s hact hst hend => ?_⟩
  have hdist : s.activity ≠ .distance := by simp [hact]
  exact storedEnd_decodes (decide_eq_false hdist) hst (decide_eq_true hend)

end Sys2Proof.Machine
end

section
/-! O32, O33, O50, O51, O52, O54: the pixel unpacker. The rounded product (R419), the scaling of a sample (R403), and
the response of UNPACK by its format (R400, R401, R406 to R418). -/

namespace Sys2Proof.Machine

open Sys2Proof.Laws

variable {d w : Nat}

/-! ### The rounded product (R419) -/

theorem widthMax_pos (w : Width) : 0 < widthMax w := by
  cases w <;> decide

theorem half_div_widthMax (w : Width) : widthMax w / 2 / widthMax w = 0 :=
  Nat.div_eq_of_lt (Nat.div_lt_self (widthMax_pos w) (by decide))

theorem premulValue_mul_le (w : Width) (c a : Nat) :
    premulValue w c a * widthMax w ≤ c * a + widthMax w / 2 :=
  Nat.div_mul_le_self _ _

theorem lt_premulValue_succ_mul (w : Width) (c a : Nat) :
    c * a + widthMax w / 2 < (premulValue w c a + 1) * widthMax w := by
  rw [Nat.mul_comm (_ + 1)]
  exact Nat.lt_mul_div_succ _ (widthMax_pos w)

/-- A full alpha leaves the component as it is: the added half of `M` is less than one more `M`. -/
theorem premulValue_max (w : Width) (c : Nat) : premulValue w c (widthMax w) = c := by
  rw [premulValue, Nat.mul_comm, Nat.mul_add_div (widthMax_pos w), half_div_widthMax, Nat.add_zero]

theorem premulValue_zero (w : Width) (c : Nat) : premulValue w c 0 = 0 := by
  rw [premulValue, Nat.mul_zero, Nat.zero_add, half_div_widthMax]

theorem premulValue_le {w : Width} {a : Nat} (h : a ≤ widthMax w) (c : Nat) : premulValue w c a ≤ c :=
  calc premulValue w c a
    _ ≤ premulValue w c (widthMax w) := Nat.div_le_div_right (Nat.add_le_add_right (Nat.mul_le_mul_left c h) _)
    _ = c := premulValue_max w c

/-- Settles O32: PREMUL answers `premulValue`, a floor of the product plus half of `M`. -/
theorem premulRoundsTheProduct : Obligations.PremulRoundsTheProduct := fun _ w c a _ ha =>
  ⟨premulValue w c.toNat a.toNat, rfl, premulValue_mul_le w _ _, lt_premulValue_succ_mul w _ _,
    premulValue_le ha _, fun h => by rw [h, premulValue_zero],
    fun h => by rw [h, premulValue_max]⟩

/-! ### ADAPT (R403) -/

/-- The top `d` ones of `w` ones. -/
theorem allOnes_shift (h : d ≤ w) : (2 ^ w - 1) / 2 ^ (w - d) = 2 ^ d - 1 := by
  rw [← Nat.pow_sub_mul_pow 2 h]
  simpa using Nat.mul_sub_div 0 (2 ^ (w - d)) (2 ^ d) (by positivity)

/-- Every legal width is a whole number of samples of a smaller legal depth. -/
theorem depth_dvd_width : ∀ d ∈ [1, 2, 4, 8, 16], ∀ w ∈ [8, 16, 32, 64], d < w → d ∣ w := by
  decide

/-- A block of `d` ones repeated fills `w` ones, so the quantum is exact. -/
theorem quantum_mul (h : d ∣ w) : (2 ^ w - 1) / (2 ^ d - 1) * (2 ^ d - 1) = 2 ^ w - 1 := by
  obtain ⟨k, rfl⟩ := h
  refine Nat.div_mul_cancel ?_
  simpa only [Nat.pow_mul, Nat.one_pow] using Nat.sub_dvd_pow_sub_pow (2 ^ d) 1 k

theorem adapt_self (w q : Nat) : adapt w w q = q := if_pos rfl

theorem adapt_up_mod (h : d < w) (q : Nat) : adapt d w q = (2 ^ w - 1) / (2 ^ d - 1) * q % 2 ^ w := by
  rw [adapt, if_neg h.ne', if_pos h, allOnes_shift h.le]

/-- On a sample of `d` bits the product does not wrap. -/
theorem adapt_up (h : d < w) (hdvd : d ∣ w) {q : Nat} (hq : q ≤ 2 ^ d - 1) :
    adapt d w q = (2 ^ w - 1) / (2 ^ d - 1) * q := by
  have hle : (2 ^ w - 1) / (2 ^ d - 1) * q ≤ 2 ^ w - 1 :=
    (Nat.mul_le_mul_left _ hq).trans (quantum_mul hdvd).le
  rw [adapt_up_mod h, Nat.mod_eq_of_lt (Nat.lt_of_le_pred (Nat.two_pow_pos w) hle)]

theorem adapt_down (h : w < d) (q : Nat) : adapt d w q = q / 2 ^ (d - w) := by
  rw [adapt, if_neg h.ne, if_neg h.not_gt]

theorem adapt_allOnes (hdvd : d < w → d ∣ w) : adapt d w (2 ^ d - 1) = 2 ^ w - 1 := by
  obtain h | rfl | h := Nat.lt_trichotomy d w
  · rw [adapt_up h (hdvd h) le_rfl, quantum_mul (hdvd h)]
  · exact adapt_self d _
  · rw [adapt_down h, allOnes_shift h.le]

theorem adapt_zero (d w : Nat) : adapt d w 0 = 0 := by
  obtain h | rfl | h := Nat.lt_trichotomy d w
  · rw [adapt_up_mod h, Nat.mul_zero, Nat.zero_mod]
  · exact adapt_self d 0
  · rw [adapt_down h, Nat.zero_div]

theorem adapt_mono (hdvd : d < w → d ∣ w) {q q' : Nat} (hle : q ≤ q') (hq' : q' ≤ 2 ^ d - 1) :
    adapt d w q ≤ adapt d w q' := by
  obtain h | rfl | h := Nat.lt_trichotomy d w
  · rw [adapt_up h (hdvd h) (hle.trans hq'), adapt_up h (hdvd h) hq']
    exact Nat.mul_le_mul_left _ hle
  · rwa [adapt_self, adapt_self]
  · rw [adapt_down h, adapt_down h]
    exact Nat.div_le_div_right hle

/-- Settles O54: the quantum is `(2^w - 1) / (2^d - 1)`, exact because `d` divides every greater legal width. -/
theorem adaptScalesFullRange : Obligations.AdaptScalesFullRange := by
  intro d w hd hw
  have hdvd : d < w → d ∣ w := depth_dvd_width d hd w hw
  refine ⟨fun h q => h ▸ adapt_self w q, fun h => ?_, adapt_down, adapt_allOnes hdvd, adapt_zero d w,
    fun q q' => adapt_mono hdvd⟩
  rw [allOnes_shift h.le]
  exact ⟨quantum_mul (hdvd h), adapt_up_mod h, fun q => adapt_up h (hdvd h)⟩

/-! ### The response of UNPACK (R131, R400, R401) -/

theorem unpackUnsupported_of_count {blk : Block}
    (h : blk.fmt.toNat % 16 = 3 → 1 ≤ blk.palette.length ∧ blk.palette.length ≤ 256) (s : State) :
    unpackUnsupported blk s = .next (s.unpackError .unsupported) := by
  rw [unpackUnsupported_eq, if_neg fun ⟨hct, hbad⟩ => hbad (h hct)]

theorem unpackUnsupported_of_not_count {blk : Block} (hct : blk.fmt.toNat % 16 = 3)
    (h : blk.palette.length = 0 ∨ 256 < blk.palette.length) (s : State) :
    unpackUnsupported blk s = .refused .paletteCount := by
  rw [unpackUnsupported_eq, if_pos ⟨hct, by omega⟩]

/-- Settles O33: UNPACK only notes its width, STD_IOS is `unpackUnsupported`, and a response writes three fields. -/
theorem unpackTakesItsBlockAndAnswersColours : Obligations.UnpackTakesItsBlockAndAnswersColours := fun s _ =>
  ⟨rfl, fun _ => ⟨fun h => unpackUnsupported_of_count h s, fun hct h => unpackUnsupported_of_not_count hct h s⟩,
    fun _ => rfl⟩

/-! ### The indexed formats (R406) -/

section Indexed

variable {pal : List Rgba} {buf : List Byte}

theorem unpackIndexed_of_lt (h1 : 1 ≤ pal.length) (h256 : pal.length ≤ 256) (h : ∀ x ∈ buf, x.toNat < pal.length)
    (s : State) : unpackIndexed pal buf s =
      .next (s.unpackOk (buf.map fun x => paletteColor s.dst (pal.getD x.toNat ⟨0, 0, 0, 0⟩))) := by
  rw [unpackIndexed, if_pos ((paletteCountOk_iff pal).2 ⟨h1, h256⟩), indexedColors_some s.dst pal buf h]

theorem unpackIndexed_of_ge (h1 : 1 ≤ pal.length) (h256 : pal.length ≤ 256) (h : ∃ x ∈ buf, pal.length ≤ x.toNat)
    (s : State) : unpackIndexed pal buf s = .next (s.unpackError .paletteIndexOutOfRange) := by
  rw [unpackIndexed, if_pos ((paletteCountOk_iff pal).2 ⟨h1, h256⟩), indexedColors_none s.dst pal buf h]

theorem unpackIndexed_of_not_count (h : pal.length = 0 ∨ 256 < pal.length) (buf : List Byte) (s : State) :
    unpackIndexed pal buf s = .refused .paletteCount := by
  rw [unpackIndexed, if_neg fun hok => ?_]
  have := (paletteCountOk_iff pal).1 hok
  omega

theorem unpackOk_map (s : State) (f : Byte → Color) (buf : List Byte) :
    s.unpackOk (buf.map f) =
      s.respond statusDone (leBytes 4 buf.length ++ buf.flatMap fun x => colorBytes s.dst (f x)) := by
  rw [State.unpackOk, List.length_map, List.flatMap_map]

end Indexed

/-- Settles O50: the four formats are one lookup. -/
theorem indexedFormatsLookUpThePalette : Obligations.IndexedFormatsLookUpThePalette := by
  intro pal buf s i hi
  have hexec : exec i s = unpackIndexed pal buf s := by
    obtain rfl | rfl | rfl | rfl := hi <;> rfl
  rw [hexec]
  refine ⟨fun h1 h256 h => ?_, fun h1 h256 h => unpackIndexed_of_ge h1 h256 h s,
    fun h => unpackIndexed_of_not_count h buf s⟩
  rw [unpackIndexed_of_lt h1 h256 h, unpackOk_map]
  rfl

/-! ### The groups of samples (R404, R405) -/

/-- Samples of at most 8 bits stand one a byte, whatever their depth (R404, R405). -/
theorem unpackGroups_of_le_eight (hd : d ≤ 8) (n : Nat) (kernel : List Nat → Color) (buf : List Byte) :
    unpackGroups n d kernel buf = unpackGroups n 8 kernel buf := by
  have hsample : sample d = sample 8 := by
    funext g buf i j
    rw [sample, sample, if_pos hd, if_pos le_rfl]
  rw [unpackGroups, unpackGroups, hsample, sampleBytes, sampleBytes, if_pos hd, if_pos le_rfl]

theorem unpackWith_bytes (hd : d ≤ 8) (n : Nat) (kernel : List Nat → Color) (buf : List Byte) (s : State) :
    unpackWith n d kernel buf s = .next (s.unpackOk ((List.range (buf.length / n)).map fun j =>
      kernel ((List.range n).map fun i => (buf.getD (n * j + i) 0).toNat))) := by
  rw [unpackWith, unpackGroups_of_le_eight hd, unpackGroups_bytes]

theorem unpackWith_halves (n : Nat) (kernel : List Nat → Color) (buf : List Byte) (s : State) :
    unpackWith n 16 kernel buf s = .next (s.unpackOk ((List.range (buf.length / (n * 2))).map fun j =>
      kernel ((List.range n).map fun i => (buf.getD (n * 2 * j + 2 * i) 0).toNat * 256
        + (buf.getD (n * 2 * j + 2 * i + 1) 0).toNat))) := by
  rw [unpackWith, unpackGroups_halves]

/-! ### The grey formats (R407 to R410) -/

/-- One sample a byte: the groups are the bytes. -/
theorem unpackWith_one (hd : d ≤ 8) (kernel : List Nat → Color) (buf : List Byte) (s : State) :
    unpackWith 1 d kernel buf s =
      .next (s.unpackOk ((List.range buf.length).map fun j => kernel [(buf.getD j 0).toNat])) := by
  rw [unpackWith_bytes hd, Nat.div_one]
  simp only [Nat.one_mul]
  rfl

theorem greyKernel_key (d : Nat) (w : Width) (k : Half) (x : Nat) : greyKernel d w (some k) [x] =
    ⟨adapt d (widthBits w) x, adapt d (widthBits w) x, adapt d (widthBits w) x,
      if x = k.toNat then 0 else widthMax w⟩ := by
  simp only [greyKernel, List.getD_cons_zero, Option.any_some, beq_iff_eq, eq_comm (a := k.toNat)]

/-- Settles O51: one kernel over the samples; of the depths only 16 takes two bytes a sample. -/
theorem greyFormatsReplicateTheSample : Obligations.GreyFormatsReplicateTheSample := by
  intro buf s
  refine ⟨fun d i hi => ?_, fun k d i hi => ?_, unpackWith_halves 1 _ buf s, fun k => ?_⟩
  · simp only [List.mem_cons, Prod.mk.injEq, List.not_mem_nil, or_false] at hi
    obtain ⟨rfl, rfl⟩ | ⟨rfl, rfl⟩ | ⟨rfl, rfl⟩ | ⟨rfl, rfl⟩ := hi <;> exact unpackWith_one (by decide) _ buf s
  · simp only [List.mem_cons, Prod.mk.injEq, List.not_mem_nil, or_false] at hi
    simp only [← greyKernel_key]
    obtain ⟨rfl, rfl⟩ | ⟨rfl, rfl⟩ | ⟨rfl, rfl⟩ | ⟨rfl, rfl⟩ := hi <;> exact unpackWith_one (by decide) _ buf s
  · simp only [← greyKernel_key]
    exact unpackWith_halves 1 _ buf s

/-! ### The grey-alpha, RGB and RGBA formats (R411 to R418) -/

theorem rgbKernel_key (d : Nat) (w : Width) (kr kg kb : Half) (x y z : Nat) :
    rgbKernel d w (some (kr, kg, kb)) [x, y, z] =
      ⟨adapt d (widthBits w) x, adapt d (widthBits w) y, adapt d (widthBits w) z,
        if x = kr.toNat ∧ y = kg.toNat ∧ z = kb.toNat then 0 else widthMax w⟩ := by
  simp only [rgbKernel, tripleMatch, List.getD_cons_zero, List.getD_cons_succ, Option.any_some, Bool.and_eq_true,
    beq_iff_eq, and_assoc, eq_comm (a := kr.toNat), eq_comm (a := kg.toNat), eq_comm (a := kb.toNat)]

/-- Settles O52: a group of samples through the kernel of its format; a key triple goes through `rgbKernel_key`. -/
theorem colourFormatsAdaptTheirLanes : Obligations.ColourFormatsAdaptTheirLanes := by
  intro buf s kr kg kb
  refine ⟨unpackWith_bytes le_rfl 2 _ buf s, unpackWith_halves 2 _ buf s, unpackWith_bytes le_rfl 3 _ buf s,
    unpackWith_halves 3 _ buf s, ?_, ?_, unpackWith_bytes le_rfl 4 _ buf s, unpackWith_halves 4 _ buf s⟩
  · simp only [← rgbKernel_key]
    exact unpackWith_bytes le_rfl 3 _ buf s
  · simp only [← rgbKernel_key]
    exact unpackWith_halves 3 _ buf s

end Sys2Proof.Machine
end

section
/-! O59: errors are precise and holds keep the state (R450, R451, R452, R453). -/

namespace Sys2Proof.Machine

open Sys2Proof.Laws

variable {s t : State} {i : Instr}

/-- FINISH is a command, no element. -/
theorem decoded_ne_finish (hd : Decoded s.elementCtx i) : i ≠ .finish := by
  rintro rfl
  exact absurd hd.element.1 (by simp [commandBytes])

/-- Entering `failed` is RAISE with an error of the inflator; `truncatedBitstream` is FINISH's alone (R450, R452). -/
theorem effect_fails (he : Effect s i t) (hs : s.st ≠ .failed) (ht : t.st = .failed) :
    ∃ k a, k ≠ .unsupported ∧ k ≠ .paletteIndexOutOfRange ∧ t = s.raise k a ∧
      (i ≠ .finish → k ≠ .truncatedBitstream) := by
  cases he with
  | fail _ k a _ h1 h2 _ h4 => exact ⟨k, a, h1, h2, rfl, h4⟩
  | accept | release | answer | unpack | hold | lengths | run => exact absurd ht hs
  | append | copy => exact absurd (by simpa using ht) hs
  | renew | header | stored | fixed | dynamic | complete | trailer => cases ht
  | endBlock => rcases afterBlock_eq s.final with h | h <;> cases h.symm.trans ht

/-- An element that ends the PUSH outside `failed` and `streamEnd` writes the response NeedsPull only (R453). -/
theorem effect_holds (hs : s.Pushing) (hd : Decoded s.elementCtx i) (he : Effect s i t) (ht : t.activity = .idle)
    (hf : t.st ≠ .failed) (hend : t.st ≠ .streamEnd) : t = s.respond statusNeedsPull [] := by
  have hidle := hs.ne_idle
  cases he with
  | hold => rfl
  | fail => exact absurd rfl hf
  | trailer => exact absurd rfl hend
  | renew | accept | release | unpack => exact absurd hd.element.1 (by simp [commandBytes])
  | answer _ w bytes hi =>
    rcases hi with hi | ⟨hi, -⟩
    · exact absurd (failsSession_element hd.element.1 hd.element.2) (by simp [hi])
    · exact absurd hi (decoded_ne_finish hd)
  | header | stored | fixed | dynamic | lengths | complete | endBlock => exact absurd ht hidle
  | append => exact absurd (by simpa using ht) hidle
  | run | copy => cases ht

/-- A step that enters `failed` is RAISE, of a command with its bytes off the port or of an element (R452). -/
theorem step_fails (h : step s = .next t) (hs : s.st ≠ .failed) (ht : t.st = .failed) :
    ∃ k a, k ≠ .unsupported ∧ k ≠ .paletteIndexOutOfRange ∧
      t = { s.raise k a with port := t.port } ∧
      (s.activity ≠ .idle → t.port = s.port ∧ k ≠ .truncatedBitstream) := by
  cases step_case h with
  | wait | needMore | done => exact absurd ht hs
  | command i rest _ ha _ he =>
    obtain ⟨k, a, h1, h2, rfl, -⟩ := effect_fails (exec_effect he) hs ht
    exact ⟨k, a, h1, h2, rfl, absurd ha⟩
  | format i rest _ _ hdec he =>
    obtain ⟨w, bytes, rfl⟩ := (exec_effect he).format (decodeFormat_format hdec)
    exact absurd ht hs
  | element i _ _ hdec he =>
    obtain ⟨k, a, h1, h2, rfl, h3⟩ := effect_fails (exec_effect he) hs ht
    exact ⟨k, a, h1, h2, rfl, fun _ => ⟨rfl, h3 (decoded_ne_finish (decodeElement_instr hdec))⟩⟩

/-- A step that ends a PUSH outside `failed` and `streamEnd` answers NeedsMore or NeedsPull and writes nothing else
(R451, R453). -/
theorem State.Pushing.step_holds (hs : s.Pushing) (h : step s = .next t) (ht : t.activity = .idle)
    (hf : t.st ≠ .failed) (hend : t.st ≠ .streamEnd) :
    ∃ w, (w = statusNeedsMore ∨ w = statusNeedsPull) ∧ t = s.respond w [] := by
  cases hs.step_cases h with
  | needMore => exact ⟨_, .inl rfl, rfl⟩
  | done hdec => exact absurd (tag_of_done hdec) hend
  | element i hdec he =>
    exact ⟨_, .inr rfl, effect_holds hs (decodeElement_instr hdec) (exec_effect he) ht hf hend⟩

/-- Settles O59: a step that enters `failed` is RAISE, and one that ends a PUSH otherwise is a response. -/
theorem errorsArePreciseAndHoldsKeepTheState : Obligations.ErrorsArePreciseAndHoldsKeepTheState := by
  intro s t _ h
  refine ⟨fun ht hs => step_fails h hs ht, fun hpush ht hf hend => ?_⟩
  obtain ⟨w, hw, rfl⟩ := State.Pushing.step_holds hpush h ht hf hend
  exact ⟨hw, rfl⟩

end Sys2Proof.Machine
end

section
/-! O6: reset and NEW establish the three invariants (R56, R490, R493). -/

namespace Sys2Proof.Machine

open Sys2Proof.Laws

/-- Power-on reset is NEW given in the reset state (R490). -/
theorem renew_reset : State.reset.renew = State.reset := rfl

/-- NEW gives a state at `streamStart`, which owns no tables and no stored block. -/
theorem State.Tables.renew {s : State} (hp : s.params.wf = true) : s.renew.Tables :=
  .of_plain_tag hp (.inl rfl) nofun

theorem renew_invariants {s : State} (hp : s.params.wf = true) :
    s.renew.Logical ∧ s.renew.Physical ∧ s.renew.Tables :=
  ⟨.renew s, .renew s, .renew hp⟩

/-- Settles O6: NEW gives the three invariants under legal parameters, and reset is NEW in the reset state, whose
parameters are legal. -/
theorem resetMeetsTheInvariants : Obligations.ResetMeetsTheInvariants := by
  refine ⟨?_, fun s t hp h => ?_⟩
  · have hp : State.reset.params.wf = true := by decide
    exact renew_reset ▸ renew_invariants hp
  · have ht : s.renew = t := next_inj h
    exact ht ▸ renew_invariants hp

end Sys2Proof.Machine
end
